-- ==== Sys2Proof/Word.lean ====
section
/-! DEFINITION. The machine's two widths: a byte (A, B, DP, CC, one memory location) and a 16-bit word (D, X, Y, U, S, PC, an address): spec 00_scope.md R5. -/

namespace Sys2Proof

/-- Eight bits: an accumulator, DP, one location of memory (R5, R40). -/
abbrev Byte := BitVec 8

/-- Sixteen bits: D, X, Y, U, S, PC and every address (R5). -/
abbrev Word := BitVec 16

end Sys2Proof
end

