-- ==== Sys2Proof/Config.lean ====
section
/-! DEFINITION. What the spec leaves to each device or to each run: constants without a body, so that nothing proved about the machine can rest on a value of them (00_scope.md R5, 92_eei_decisions.md's table of open parameters). -/

namespace Sys2Proof

/-- One draw of every value that R452 calls unspecified after RES (parameter `reset_unspecified`, D4). -/
structure ResetValues where
  a : Byte
  b : Byte
  x : Word
  y : Word
  u : Word
  s : Word
  e : Bool
  h : Bool
  n : Bool
  z : Bool
  v : Bool
  c : Bool
  refreshCount : Nat
deriving DecidableEq, Repr, Inhabited

/-- One access on the bus (R31): `write` is R/W low, `ack` is BA = 0 with BS = 1 (R413), `other` says that another bus master makes it (R55). -/
structure Machine.BusCycle where
  write : Bool
  ack : Bool
  addr : Word
  data : Byte
  other : Bool := false
deriving DecidableEq, Repr

namespace Config

/-- What a device answers to a read (parameter `Mem`, R61, D13): by every access that devices have seen, the address, and whether the read is an acknowledge cycle (`Mem.read_vector`). -/
opaque deviceRead : List Machine.BusCycle → Word → Bool → Byte

/-- The value of the n-th flag the machine leaves `UNDEF` (R37, R165; parameter `undef_flag_draw`, D3). -/
opaque undefFlag : Nat → Bool

/-- The values the n-th draw gives a RES (R451, R452; parameter `reset_unspecified`, D4). -/
opaque resetUnspecified : Nat → ResetValues

/-- Does TFR with destination S arm NMI? (R254 corner case 6; parameter `nmi_arming_set`, D6) -/
opaque tfrArmsNmi : Bool

/-- Does EXG with S among its registers arm NMI? (R237 corner case 4; D6) -/
opaque exgArmsNmi : Bool

/-- Does LEAS arm NMI? (R238 corner case 5; D6) -/
opaque leasArmsNmi : Bool

/-- Does PULU with bit 6 (S) in its list arm NMI? (R249 corner case 7; D6) -/
opaque puluArmsNmi : Bool

/-- Is an NMI edge that comes before arming remembered? (R403; parameter `nmi_edge_before_arming`, D7) -/
opaque nmiEdgeBeforeArming : Bool

/-- The E cycles of a hardware entry that stacks, and of the vector fetch of RES, indexed by its vector address (R429's code of an exception): R471, "must take the entry length as a parameter". -/
opaque entryCycles : Word → Nat

end Config
end Sys2Proof
end

