-- ==== Sys2Proof/Machine/Bits.lean ====
section
/-! DEFINITION. Halves of a word, byte order inside a word, and the sign extensions of 30_encoding.md R80 and 20_memory.md R41. -/

namespace Sys2Proof.Machine

/-- Bits 15 to 8. -/
def hi (w : Word) : Byte := w.extractLsb' 8 8

/-- Bits 7 to 0. -/
def lo (w : Word) : Byte := w.extractLsb' 0 8

/-- `h : l`, the first byte the more significant (R6, R41). -/
def join (h l : Byte) : Word := h ++ l

/-- `sext8` of R80. -/
def sext8 (b : Byte) : Word := b.signExtend 16

/-- `sext5` of R80. -/
def sext5 (n : BitVec 5) : Word := n.signExtend 16

/-- `zext8` of R6, used by ABX alone (R255). -/
def zext8 (b : Byte) : Word := b.setWidth 16

end Sys2Proof.Machine
end

