-- ==== Sys2Proof/Machine/State.lean ====
section
/-! DEFINITION. The state of the machine as plain data: every register and hidden bit of 10_state.md, the platform's memory, and the model's own fields (INVENTORY.md, State). -/

namespace Sys2Proof.Machine

/-- The condition code register, one field a bit, bit 7 first (R17; log 30). `CC.toByte` and `CC.ofByte` (Flags.lean) are the register as a byte (R26). -/
structure CC where
  /-- bit 7, entire state stacked (R25) -/
  e : Bool
  /-- bit 6, FIRQ mask (R24) -/
  f : Bool
  /-- bit 5, half carry (R23) -/
  h : Bool
  /-- bit 4, IRQ mask (R22) -/
  i : Bool
  /-- bit 3, negative (R21) -/
  n : Bool
  /-- bit 2, zero (R20) -/
  z : Bool
  /-- bit 1, overflow (R19) -/
  v : Bool
  /-- bit 0, carry or borrow (R18) -/
  c : Bool
deriving DecidableEq, Repr

/-- The place in the main loop beneath the overlays HALT, bus grant and RES (R29). -/
inductive RunState where
  /-- fetching and executing instructions -/
  | running
  /-- after SYNC, waiting for an interrupt line (R418) -/
  | syncing
  /-- after CWAI, the entire state stacked, waiting for an interrupt (R419) -/
  | cwaiWaiting
  /-- after RES: the registers are reset, the vector is still to be fetched (R456; log 27) -/
  | resetVector
deriving DecidableEq, Repr

/-- The seven vectored exceptions (R401). -/
inductive Exc where
  | res | nmi | swi | irq | firq | swi2 | swi3
deriving DecidableEq, Repr

/-- Memory: the bytes that differ from what an unlisted address reads as, at strictly rising addresses (R40, R61; log 1). Reading, writing and `Memory.wf` are in Ops.lean. -/
abbrev Memory := List Host.Cell

/-- What stands behind an address (R61): memory that keeps what is written, memory that ignores writes, or a device. An address that nothing populates is a device that ignores writes (log 29). -/
inductive AddrKind where
  | ram | rom | device
deriving DecidableEq, Repr

/-- A window of the address space and what stands behind it (R61). -/
structure Region where
  base : Nat
  size : Nat
  kind : AddrKind
deriving DecidableEq, Repr

/-- One cycle of a step, as the pins BA and BS show it (R31, R422); `busTrace` (Ops.lean) puts the accesses beside the cycles. -/
inductive CycleKind where
  /-- an MPU cycle that carries an access: BA BS = 0 0, or 0 1 in a vector fetch -/
  | access
  /-- an MPU cycle without an access, a VMA cycle (R49): 0 0 -/
  | vma
  /-- a cycle that is not the MPU's: the levels of BA and BS, none where the spec states none, and whether another master writes in it -/
  | pass (levels : Option (Bool × Bool)) (write : Bool)
deriving DecidableEq, Repr

/-- What the environment shows at the end of one bus cycle inside a step: DMA/BREQ is sampled there (R30, R421). -/
structure CycleSample where
  /-- DMA/BREQ low -/
  dmaBreq : Bool
  /-- what another bus master writes in the cycle that this sample grants (R55; log 29) -/
  write : Option (Word × Byte)
deriving DecidableEq, Repr

/-- What the environment drives onto the pins for one step (R30; log 8, log 37). A pin's field is true when the pin is asserted. -/
structure PinSample where
  /-- RES low for more than one bus cycle (R450) -/
  res : Bool
  /-- a falling edge of NMI since the sample before (R403) -/
  nmiFell : Bool
  /-- FIRQ low (R404) -/
  firq : Bool
  /-- IRQ low (R405) -/
  irq : Bool
  /-- HALT low (R420) -/
  halt : Bool
  /-- DMA/BREQ low (R421) -/
  dmaBreq : Bool
  /-- what another bus master writes in this cycle, if the bus is released (R55; log 29) -/
  write : Option (Word × Byte)
  /-- the ends of the bus cycles inside the step but for its last, first one first (R421); once the list has run out DMA/BREQ is high (log 26) -/
  cycles : List CycleSample
  /-- RES falls, for more than one bus cycle, inside the step: one entry for each access of the step, true where it has taken effect; a missing entry is false (R402, R450; log 27) -/
  resCut : Option (List Bool)
deriving DecidableEq, Repr

/-- The state of the HD6809 and of the memory behind it. -/
structure State where
  /-- accumulator A (R11) -/
  a : Byte
  /-- accumulator B (R11) -/
  b : Byte
  /-- direct page register (R16) -/
  dp : Byte
  /-- condition codes (R17) -/
  cc : CC
  /-- index register X (R13) -/
  x : Word
  /-- index register Y (R13) -/
  y : Word
  /-- user stack pointer (R14) -/
  u : Word
  /-- hardware stack pointer (R14) -/
  s : Word
  /-- program counter (R15) -/
  pc : Word
  /-- NMI is recognised: S has been loaded since reset (R27) -/
  nmiArmed : Bool
  /-- an NMI edge is latched (R28) -/
  nmiPending : Bool
  /-- the place in the main loop (R29) -/
  run : RunState
  /-- overlay: halted by HALT, the bus released (R29, R420) -/
  halted : Bool
  /-- overlay: the bus granted to DMA/BREQ (R29, R421), or still released after RES (R422, R456; log 27) -/
  busGranted : Bool
  /-- RES is held low (R29, R450) -/
  inReset : Bool
  /-- cycles granted to DMA/BREQ since the self-refresh counter was cleared (R33) -/
  refreshCount : Nat
  /-- MPU cycles for which DMA/BREQ has been inactive, 0 while it is active (R33, R463; log 3) -/
  dmaIdle : Nat
  /-- cycles of the latest period for which DMA/BREQ was active (R463) -/
  dmaLow : Nat
  /-- the platform: the windows that are not plain memory; no step changes it (parameter `Mem`, R5, R61; log 29) -/
  platform : List Region
  /-- the bytes of memory (R36, R61) -/
  mem : Memory
  /-- what devices have seen: every access to a device, in order (R50, R61; log 29) -/
  devices : List BusCycle
  /-- model's own: the ends of the bus cycles still to come inside this step; none where DMA/BREQ stays high throughout (R421; log 26) -/
  cycles : Option (List CycleSample)
  /-- model's own: the accesses of the latest step, the MPU's and other masters', in order (R31, R54; log 21) -/
  bus : List BusCycle
  /-- model's own: every cycle of the latest step so far, in order (R31; log 21) -/
  lines : List CycleKind
  /-- model's own: the pin samples still to come; none means all inactive (log 8) -/
  env : List PinSample
  /-- model's own: E cycles so far (R468; log 28) -/
  elapsed : Nat
  /-- model's own: free values drawn so far (R37; log 5) -/
  draws : Nat
deriving DecidableEq, Repr

/-- What bus cycles act on: memory and devices, the log, and the counters of DMA/BREQ and of time. A view of `State` (`busSide`, `setBusSide` of Ops.lean), so that an operation on it can be seen to leave every register alone. -/
structure BusSide where
  platform : List Region
  mem : Memory
  devices : List BusCycle
  cycles : Option (List CycleSample)
  bus : List BusCycle
  lines : List CycleKind
  busGranted : Bool
  refreshCount : Nat
  dmaIdle : Nat
  dmaLow : Nat
  elapsed : Nat
deriving DecidableEq, Repr

/-- Why the machine stops with a fault. There is none: "It has no synchronous fault of any kind" (R400), so this type is empty and no step raises one (safe: no behaviour is cut off). -/
inductive Fault where
deriving DecidableEq, Repr

/-- Why the model answers no next state. -/
inductive Refusal where
  /-- An instruction without a meaning yet, by its mnemonic; raised by the arms of `exec` alone, and by none of them now. Safe. -/
  | notModelled (mnemonic : String)
  /-- `raise Undefined("unused opcode")` (R84, D1): the bytes at PC select no instruction; raised by `step`. Safe: the spec gives no successor state. -/
  | unusedOpcode
  /-- `raise Undefined("unused postbyte")` of an indexed instruction (R85, R122, D2); raised by `step`. Safe: the spec gives no successor state. -/
  | unusedIndexedPostbyte
  /-- `raise Undefined` of a TFR or EXG postbyte that names no like-size pair (R85, R237, R254, D2); raised by `step`, and by `exec` on an ill-formed TFR or EXG. Safe: the spec gives no successor state. -/
  | unusedRegisterPostbyte
  /-- The bytes given to the decoder end inside an instruction; `step` always gives it five bytes, enough for any instruction (R71), so it never raises this. Safe. -/
  | incompleteInstruction
deriving DecidableEq, Repr

/-- The machine right after reset (R34, R451, R452): DP = 0, I = F = 1, NMI unarmed and not pending, running, memory with nothing listed, and PC the word that empty memory holds at $FFFE. Every register the spec leaves unspecified is 0 (DESIGN CHOICE, unsafe: log 2, log 3); no pin is ever asserted (log 8), and every address is plain memory (log 29). -/
def State.reset : State where
  a := 0
  b := 0
  dp := 0
  cc := { e := false, f := true, h := false, i := true, n := false, z := false, v := false, c := false }
  x := 0
  y := 0
  u := 0
  s := 0
  pc := 0
  nmiArmed := false
  nmiPending := false
  run := .running
  halted := false
  busGranted := false
  inReset := false
  refreshCount := 0
  dmaIdle := 0
  dmaLow := 0
  platform := []
  mem := []
  devices := []
  cycles := none
  bus := []
  lines := []
  env := []
  elapsed := 0
  draws := 0

end Sys2Proof.Machine
end

