-- ==== Sys2Proof/Machine/Flags.lean ====
section
/-! DEFINITION. CC as a byte, and every result-with-flags computation of 40_common_operations.md: each takes the operands and the old CC and answers the result and the new CC; a flag a function does not name keeps its value. Sums and differences are taken over the integers, as R142 to R145 write them. An argument `undef` is the value drawn for the flag that R165 calls `UNDEF`. -/

namespace Sys2Proof.Machine

/-! ## CC as a register (R17, R26) -/

/-- CC as a byte: E F H I N Z V C from bit 7 down (R17). -/
def CC.toByte (cc : CC) : Byte :=
  BitVec.ofBoolListBE [cc.e, cc.f, cc.h, cc.i, cc.n, cc.z, cc.v, cc.c]

/-- CC loaded as a whole: all eight bits take the written value (R26). -/
def CC.ofByte (b : Byte) : CC where
  e := b.getLsbD 7
  f := b.getLsbD 6
  h := b.getLsbD 5
  i := b.getLsbD 4
  n := b.getLsbD 3
  z := b.getLsbD 2
  v := b.getLsbD 1
  c := b.getLsbD 0

/-! ## N and Z (R141) -/

/-- `NZ8` -/
def nz8 (r : Byte) (cc : CC) : CC := { cc with n := r.msb, z := r == 0 }

/-- `NZ16`: the whole word is tested (D24; log 15). -/
def nz16 (r : Word) (cc : CC) : CC := { cc with n := r.msb, z := r == 0 }

/-! ## Addition and subtraction -/

/-- `ADD8` (R142). -/
def add8 (a m : Byte) (cin : Bool) (cc : CC) : Byte × CC :=
  let t := a.toNat + m.toNat + cin.toNat
  let r := BitVec.ofNat 8 t
  (r, nz8 r { cc with
    h := decide (a.toNat % 16 + m.toNat % 16 + cin.toNat > 15)
    c := decide (t > 255)
    v := a.msb == m.msb && r.msb != a.msb })

/-- `SUB8` (R143). -/
def sub8 (undef : Bool) (a m : Byte) (bin : Bool) (cc : CC) : Byte × CC :=
  let t : Int := (a.toNat : Int) - m.toNat - bin.toNat
  let r := BitVec.ofInt 8 t
  (r, nz8 r { cc with
    c := decide (t < 0)
    v := a.msb != m.msb && r.msb != a.msb
    h := undef })

/-- `ADD16` (R144); H unchanged. -/
def add16 (a m : Word) (cc : CC) : Word × CC :=
  let t := a.toNat + m.toNat
  let r := BitVec.ofNat 16 t
  (r, nz16 r { cc with
    c := decide (t > 65535)
    v := a.msb == m.msb && r.msb != a.msb })

/-- `SUB16` (R145). -/
def sub16 (undef : Bool) (a m : Word) (cc : CC) : Word × CC :=
  let t : Int := (a.toNat : Int) - m.toNat
  let r := BitVec.ofInt 16 t
  (r, nz16 r { cc with
    c := decide (t < 0)
    v := a.msb != m.msb && r.msb != a.msb
    h := undef })

/-! ## Logic, load and store -/

/-- `LOGIC8` (R146). -/
def logic8 (r : Byte) (cc : CC) : CC := nz8 r { cc with v := false }

/-- `LOGIC16` (R147). -/
def logic16 (r : Word) (cc : CC) : CC := nz16 r { cc with v := false }

/-! ## The single-operand functions -/

/-- `NEG8` (R148). -/
def neg8 (undef : Bool) (v : Byte) (cc : CC) : Byte × CC :=
  let r := BitVec.ofInt 8 (0 - (v.toNat : Int))
  (r, nz8 r { cc with c := v != 0, v := v == 0x80, h := undef })

/-- `COM8` (R149). -/
def com8 (v : Byte) (cc : CC) : Byte × CC :=
  let r := v ^^^ 0xFF
  (r, { nz8 r cc with v := false, c := true })

/-- `LSR8` (R150). -/
def lsr8 (v : Byte) (cc : CC) : Byte × CC :=
  let r := v >>> 1
  (r, { cc with c := v.getLsbD 0, n := false, z := r == 0 })

/-- `ROR8` (R151): the old C enters bit 7. -/
def ror8 (v : Byte) (cc : CC) : Byte × CC :=
  let r := BitVec.ofBool cc.c ++ v.extractLsb' 1 7
  (r, nz8 r { cc with c := v.getLsbD 0 })

/-- `ASR8` (R152): bit 7 is kept. -/
def asr8 (undef : Bool) (v : Byte) (cc : CC) : Byte × CC :=
  let r := BitVec.ofBool v.msb ++ v.extractLsb' 1 7
  (r, nz8 r { cc with c := v.getLsbD 0, h := undef })

/-- `ASL8` (R153). -/
def asl8 (undef : Bool) (v : Byte) (cc : CC) : Byte × CC :=
  let r := v <<< 1
  (r, nz8 r { cc with c := v.getLsbD 7, v := v.getLsbD 7 != v.getLsbD 6, h := undef })

/-- `ROL8` (R154): the old C enters bit 0. -/
def rol8 (v : Byte) (cc : CC) : Byte × CC :=
  let r : Byte := v.extractLsb' 0 7 ++ BitVec.ofBool cc.c
  (r, nz8 r { cc with c := v.getLsbD 7, v := v.getLsbD 7 != v.getLsbD 6 })

/-- `DEC8` (R155); C unchanged. -/
def dec8 (v : Byte) (cc : CC) : Byte × CC :=
  let r := v - 1
  (r, nz8 r { cc with v := v == 0x80 })

/-- `INC8` (R156); C unchanged. -/
def inc8 (v : Byte) (cc : CC) : Byte × CC :=
  let r := v + 1
  (r, nz8 r { cc with v := v == 0x7F })

/-- `TST8` (R157). -/
def tst8 (v : Byte) (cc : CC) : CC := { nz8 v cc with v := false }

/-- `CLR8` (R158): the operand is ignored. -/
def clr8 (_v : Byte) (cc : CC) : Byte × CC :=
  (0, { cc with n := false, z := true, v := false, c := false })

/-! ## DAA, MUL, SEX -/

/-- DAA's correction and flags (R204; log 12). -/
def daa8 (undef : Bool) (a : Byte) (cc : CC) : Byte × CC :=
  let low := a.toNat % 16
  let high := a.toNat / 16
  let c1 := if cc.h ∨ low > 9 then 0x06 else 0x00
  let c2 := if cc.c ∨ high > 9 ∨ (high > 8 ∧ low > 9) then 0x60 else 0x00
  let t := a.toNat + c1 + c2
  let r := BitVec.ofNat 8 t
  (r, nz8 r { cc with c := cc.c || decide (t > 255), v := undef })

/-- MUL's product and flags (R214; log 13). -/
def mul8 (a b : Byte) (cc : CC) : Word × CC :=
  let p := BitVec.ofNat 16 (a.toNat * b.toNat)
  (p, { cc with z := p == 0, c := p.getLsbD 7 })

/-- SEX's new A and flags (R230). -/
def sex8 (b : Byte) (cc : CC) : Byte × CC :=
  (if b.msb then 0xFF else 0x00, { cc with n := b.msb, z := b == 0 })

/-! ## Branch conditions -/

/-- The sixteen conditions `Cond` of R164, in the order of the low nibble of the opcode. -/
inductive Cond where
  | always | never | hi | ls | cc | cs | ne | eq | vc | vs | pl | mi | ge | lt | gt | le
deriving DecidableEq, Repr

/-- `Cond(cc)` (R164). -/
def holds (c : Cond) (cc : CC) : Bool :=
  match c with
  | .always => true
  | .never => false
  | .hi => !cc.c && !cc.z
  | .ls => cc.c || cc.z
  | .cc => !cc.c
  | .cs => cc.c
  | .ne => !cc.z
  | .eq => cc.z
  | .vc => !cc.v
  | .vs => cc.v
  | .pl => !cc.n
  | .mi => cc.n
  | .ge => cc.n == cc.v
  | .lt => cc.n != cc.v
  | .gt => !cc.z && cc.n == cc.v
  | .le => cc.z || cc.n != cc.v

end Sys2Proof.Machine
end

