-- ==== Sys2Proof/Syntax.lean ====
section
/-! DEFINITION. The instruction set: one constructor of `Instr` for each of the 132 mnemonics of spec/opcode_table.json, its addressing mode an argument (30_encoding.md R72, R89; log 31). -/

namespace Sys2Proof

/-- The two 8-bit accumulators (R11). -/
inductive Acc where
  | a | b
deriving DecidableEq, Repr

/-- A pointer register of the indexed modes (R103). -/
inductive Ptr where
  | x | y | u | s
deriving DecidableEq, Repr

/-- The two stack pointers (R14). -/
inductive Stk where
  | s | u
deriving DecidableEq, Repr

/-- The 16-bit registers of TFR and EXG (R81). -/
inductive Reg16 where
  | d | x | y | u | s | pc
deriving DecidableEq, Repr

/-- The 8-bit registers of TFR and EXG (R81). -/
inductive Reg8 where
  | a | b | cc | dp
deriving DecidableEq, Repr

/-- A register named by a nibble of the TFR/EXG postbyte (R81). -/
inductive Reg where
  | r16 (r : Reg16)
  | r8 (r : Reg8)
deriving DecidableEq, Repr

/-- The indexed forms that may also be indirect (R104). -/
inductive IdxBase where
  /-- `,R` (R105) -/
  | zero (r : Ptr)
  /-- `n,R`, 8-bit offset (R107) -/
  | off8 (r : Ptr) (n : Byte)
  /-- `n,R`, 16-bit offset (R108) -/
  | off16 (r : Ptr) (n : Word)
  /-- `A,R` (R109) -/
  | accA (r : Ptr)
  /-- `B,R` (R110) -/
  | accB (r : Ptr)
  /-- `D,R` (R111) -/
  | accD (r : Ptr)
  /-- `,R++` (R113) -/
  | inc2 (r : Ptr)
  /-- `,--R` (R115) -/
  | dec2 (r : Ptr)
  /-- `n,PCR`, 8-bit offset (R116) -/
  | pcr8 (n : Byte)
  /-- `n,PCR`, 16-bit offset (R117) -/
  | pcr16 (n : Word)
deriving DecidableEq, Repr

/-- The indexed forms (R103, R104); the unused postbytes of R122 have no term. -/
inductive Idx where
  /-- `n,R`, 5-bit offset in the postbyte (R106) -/
  | off5 (r : Ptr) (n : BitVec 5)
  /-- `,R+` (R112) -/
  | inc1 (r : Ptr)
  /-- `,-R` (R114) -/
  | dec1 (r : Ptr)
  /-- one of the forms of `IdxBase`, not indirect -/
  | plain (m : IdxBase)
  /-- the same form with one level of indirection (R118) -/
  | indirect (m : IdxBase)
  /-- `[n]`, extended indirect, postbyte $9F (R119) -/
  | extIndirect (n : Word)
deriving DecidableEq, Repr

/-- An effective address: direct, indexed or extended (R123). -/
inductive Addr where
  | direct (n : Byte)
  | indexed (i : Idx)
  | extended (n : Word)
deriving DecidableEq, Repr

/-- An 8-bit operand (R140). -/
inductive Src8 where
  | imm (n : Byte)
  | mem (a : Addr)
deriving DecidableEq, Repr

/-- A 16-bit operand (R140). -/
inductive Src16 where
  | imm (n : Word)
  | mem (a : Addr)
deriving DecidableEq, Repr

/-- The instructions. Each docstring gives the mnemonic and the rule. -/
inductive Instr where
  /-- ADCA (R170) -/
  | adca (src : Src8)
  /-- ADCB (R171) -/
  | adcb (src : Src8)
  /-- ADDA (R172) -/
  | adda (src : Src8)
  /-- ADDB (R173) -/
  | addb (src : Src8)
  /-- ANDA (R174) -/
  | anda (src : Src8)
  /-- ANDB (R175) -/
  | andb (src : Src8)
  /-- BITA (R176) -/
  | bita (src : Src8)
  /-- BITB (R177) -/
  | bitb (src : Src8)
  /-- CMPA (R178) -/
  | cmpa (src : Src8)
  /-- CMPB (R179) -/
  | cmpb (src : Src8)
  /-- EORA (R180) -/
  | eora (src : Src8)
  /-- EORB (R181) -/
  | eorb (src : Src8)
  /-- LDA (R182) -/
  | lda (src : Src8)
  /-- LDB (R183) -/
  | ldb (src : Src8)
  /-- ORA (R184) -/
  | ora (src : Src8)
  /-- ORB (R185) -/
  | orb (src : Src8)
  /-- SBCA (R186) -/
  | sbca (src : Src8)
  /-- SBCB (R187) -/
  | sbcb (src : Src8)
  /-- STA (R188) -/
  | sta (a : Addr)
  /-- STB (R189) -/
  | stb (a : Addr)
  /-- SUBA (R190) -/
  | suba (src : Src8)
  /-- SUBB (R191) -/
  | subb (src : Src8)
  /-- ASL (R192) -/
  | asl (a : Addr)
  /-- ASLA (R193) -/
  | asla
  /-- ASLB (R194) -/
  | aslb
  /-- ASR (R195) -/
  | asr (a : Addr)
  /-- ASRA (R196) -/
  | asra
  /-- ASRB (R197) -/
  | asrb
  /-- CLR (R198) -/
  | clr (a : Addr)
  /-- CLRA (R199) -/
  | clra
  /-- CLRB (R200) -/
  | clrb
  /-- COM (R201) -/
  | com (a : Addr)
  /-- COMA (R202) -/
  | coma
  /-- COMB (R203) -/
  | comb
  /-- DAA (R204) -/
  | daa
  /-- DEC (R205) -/
  | dec (a : Addr)
  /-- DECA (R206) -/
  | deca
  /-- DECB (R207) -/
  | decb
  /-- INC (R208) -/
  | inc (a : Addr)
  /-- INCA (R209) -/
  | inca
  /-- INCB (R210) -/
  | incb
  /-- LSR (R211) -/
  | lsr (a : Addr)
  /-- LSRA (R212) -/
  | lsra
  /-- LSRB (R213) -/
  | lsrb
  /-- MUL (R214) -/
  | mul
  /-- NEG (R215) -/
  | neg (a : Addr)
  /-- NEGA (R216) -/
  | nega
  /-- NEGB (R217) -/
  | negb
  /-- ROL (R218) -/
  | rol (a : Addr)
  /-- ROLA (R219) -/
  | rola
  /-- ROLB (R220) -/
  | rolb
  /-- ROR (R221) -/
  | ror (a : Addr)
  /-- RORA (R222) -/
  | rora
  /-- RORB (R223) -/
  | rorb
  /-- TST (R224) -/
  | tst (a : Addr)
  /-- TSTA (R225) -/
  | tsta
  /-- TSTB (R226) -/
  | tstb
  /-- ADDD (R227) -/
  | addd (src : Src16)
  /-- CMPD (R228) -/
  | cmpd (src : Src16)
  /-- LDD (R229) -/
  | ldd (src : Src16)
  /-- SEX (R230) -/
  | sex
  /-- STD (R231) -/
  | std (a : Addr)
  /-- SUBD (R232) -/
  | subd (src : Src16)
  /-- CMPS (R233) -/
  | cmps (src : Src16)
  /-- CMPU (R234) -/
  | cmpu (src : Src16)
  /-- CMPX (R235) -/
  | cmpx (src : Src16)
  /-- CMPY (R236) -/
  | cmpy (src : Src16)
  /-- EXG (R237) -/
  | exg (src dst : Reg)
  /-- LEAS (R238) -/
  | leas (i : Idx)
  /-- LEAU (R239) -/
  | leau (i : Idx)
  /-- LEAX (R240) -/
  | leax (i : Idx)
  /-- LEAY (R241) -/
  | leay (i : Idx)
  /-- LDS (R242) -/
  | lds (src : Src16)
  /-- LDU (R243) -/
  | ldu (src : Src16)
  /-- LDX (R244) -/
  | ldx (src : Src16)
  /-- LDY (R245) -/
  | ldy (src : Src16)
  /-- PSHS (R246) -/
  | pshs (mask : Byte)
  /-- PSHU (R247) -/
  | pshu (mask : Byte)
  /-- PULS (R248) -/
  | puls (mask : Byte)
  /-- PULU (R249) -/
  | pulu (mask : Byte)
  /-- STS (R250) -/
  | sts (a : Addr)
  /-- STU (R251) -/
  | stu (a : Addr)
  /-- STX (R252) -/
  | stx (a : Addr)
  /-- STY (R253) -/
  | sty (a : Addr)
  /-- TFR (R254) -/
  | tfr (src dst : Reg)
  /-- ABX (R255) -/
  | abx
  /-- BRA (R256) -/
  | bra (off : Byte)
  /-- BRN (R257) -/
  | brn (off : Byte)
  /-- BHI (R258) -/
  | bhi (off : Byte)
  /-- BLS (R259) -/
  | bls (off : Byte)
  /-- BCC (R260) -/
  | bcc (off : Byte)
  /-- BCS (R261) -/
  | bcs (off : Byte)
  /-- BNE (R262) -/
  | bne (off : Byte)
  /-- BEQ (R263) -/
  | beq (off : Byte)
  /-- BVC (R264) -/
  | bvc (off : Byte)
  /-- BVS (R265) -/
  | bvs (off : Byte)
  /-- BPL (R266) -/
  | bpl (off : Byte)
  /-- BMI (R267) -/
  | bmi (off : Byte)
  /-- BGE (R268) -/
  | bge (off : Byte)
  /-- BLT (R269) -/
  | blt (off : Byte)
  /-- BGT (R270) -/
  | bgt (off : Byte)
  /-- BLE (R271) -/
  | ble (off : Byte)
  /-- BSR (R272) -/
  | bsr (off : Byte)
  /-- LBRA (R273) -/
  | lbra (off : Word)
  /-- LBRN (R274) -/
  | lbrn (off : Word)
  /-- LBHI (R275) -/
  | lbhi (off : Word)
  /-- LBLS (R276) -/
  | lbls (off : Word)
  /-- LBCC (R277) -/
  | lbcc (off : Word)
  /-- LBCS (R278) -/
  | lbcs (off : Word)
  /-- LBNE (R279) -/
  | lbne (off : Word)
  /-- LBEQ (R280) -/
  | lbeq (off : Word)
  /-- LBVC (R281) -/
  | lbvc (off : Word)
  /-- LBVS (R282) -/
  | lbvs (off : Word)
  /-- LBPL (R283) -/
  | lbpl (off : Word)
  /-- LBMI (R284) -/
  | lbmi (off : Word)
  /-- LBGE (R285) -/
  | lbge (off : Word)
  /-- LBLT (R286) -/
  | lblt (off : Word)
  /-- LBGT (R287) -/
  | lbgt (off : Word)
  /-- LBLE (R288) -/
  | lble (off : Word)
  /-- LBSR (R289) -/
  | lbsr (off : Word)
  /-- ANDCC (R290) -/
  | andcc (n : Byte)
  /-- CWAI (R291) -/
  | cwai (n : Byte)
  /-- NOP (R292) -/
  | nop
  /-- ORCC (R293) -/
  | orcc (n : Byte)
  /-- JMP (R294) -/
  | jmp (a : Addr)
  /-- JSR (R295) -/
  | jsr (a : Addr)
  /-- RTI (R296) -/
  | rti
  /-- RTS (R297) -/
  | rts
  /-- SWI (R298) -/
  | swi
  /-- SWI2 (R299) -/
  | swi2
  /-- SWI3 (R300) -/
  | swi3
  /-- SYNC (R301) -/
  | sync
deriving DecidableEq, Repr

end Sys2Proof
end

