-- ==== Sys2Proof/Machine/Ops.lean ====
section
/-! DEFINITION. The named operations over memory, registers, stacks and the bus, and taking an exception and returning from one (20_memory.md, 40_common_operations.md section 4, 60_exceptions.md section 3). -/

namespace Sys2Proof.Machine

/-! ## Memory (R40, R42, R61; log 1) -/

/-- What an address that memory does not list reads as (DESIGN CHOICE, log 1). -/
def Memory.unlisted : Byte := 0

/-- `Mem.read` of the array instance (R61): the last value written. -/
def Memory.read : Memory → Nat → Byte
  | [], _ => Memory.unlisted
  | (k, v) :: m, a => if k = a then v else Memory.read m a

/-- `Mem.write` of the array instance (R61), keeping the canonical form. -/
def Memory.write : Memory → Nat → Byte → Memory
  | [], a, v => if v = Memory.unlisted then [] else [(a, v)]
  | (k, w) :: m, a, v =>
    if a < k then if v = Memory.unlisted then (k, w) :: m else (a, v) :: (k, w) :: m
    else if a = k then if v = Memory.unlisted then m else (a, v) :: m
    else (k, w) :: Memory.write m a v

/-- The canonical form from address `low` up: addresses strictly rising below 2^16, no entry equal to the unlisted value. -/
def Memory.wfFrom : Nat → Memory → Bool
  | _, [] => true
  | low, (k, v) :: m => decide (low ≤ k) && decide (k < 65536) && v != Memory.unlisted && Memory.wfFrom (k + 1) m

/-- Memory is in its canonical form. -/
def Memory.wf (m : Memory) : Bool := Memory.wfFrom 0 m

/-! ## Named updates of the state -/

/-- Write A or B (R11). -/
def setAcc (r : Acc) (v : Byte) (σ : State) : State :=
  match r with
  | .a => { σ with a := v }
  | .b => { σ with b := v }

/-- Write X, Y, U or S (R13, R14). -/
def setPtr (r : Ptr) (w : Word) (σ : State) : State :=
  match r with
  | .x => { σ with x := w }
  | .y => { σ with y := w }
  | .u => { σ with u := w }
  | .s => { σ with s := w }

/-- Write D: A takes the high byte and B the low byte (R12). -/
def setD (w : Word) (σ : State) : State := { σ with a := hi w, b := lo w }

/-- Write CC (R26). -/
def setCc (cc : CC) (σ : State) : State := { σ with cc := cc }

/-- Write DP (R16). -/
def setDp (v : Byte) (σ : State) : State := { σ with dp := v }

/-- Write PC (R15). -/
def setPc (w : Word) (σ : State) : State := { σ with pc := w }

/-- Move in the main loop (R29). -/
def setRun (r : RunState) (σ : State) : State := { σ with run := r }

/-- Arm NMI where the condition holds; nothing disarms it but RES (R27). -/
def armNmiIf (c : Bool) (σ : State) : State := { σ with nmiArmed := σ.nmiArmed || c }

/-- Count one drawn free value (R37; log 5). -/
def countDraw (σ : State) : State := { σ with draws := σ.draws + 1 }

/-! ## Reading registers -/

/-- A or B. -/
def acc (r : Acc) (σ : State) : Byte :=
  match r with
  | .a => σ.a
  | .b => σ.b

/-- X, Y, U or S. -/
def ptr (r : Ptr) (σ : State) : Word :=
  match r with
  | .x => σ.x
  | .y => σ.y
  | .u => σ.u
  | .s => σ.s

/-- D = A : B (R12). -/
def dReg (σ : State) : Word := join σ.a σ.b

/-- A 16-bit register of R81; PC reads as the address of the next instruction (R15, D11; log 19). -/
def readReg16 (r : Reg16) (σ : State) : Word :=
  match r with
  | .d => dReg σ
  | .x => σ.x
  | .y => σ.y
  | .u => σ.u
  | .s => σ.s
  | .pc => σ.pc

/-- Write a 16-bit register of R81. -/
def writeReg16 (r : Reg16) (w : Word) (σ : State) : State :=
  match r with
  | .d => setD w σ
  | .x => setPtr .x w σ
  | .y => setPtr .y w σ
  | .u => setPtr .u w σ
  | .s => setPtr .s w σ
  | .pc => setPc w σ

/-- An 8-bit register of R81. -/
def readReg8 (r : Reg8) (σ : State) : Byte :=
  match r with
  | .a => σ.a
  | .b => σ.b
  | .cc => σ.cc.toByte
  | .dp => σ.dp

/-- Write an 8-bit register of R81; CC takes all eight bits (R26). -/
def writeReg8 (r : Reg8) (v : Byte) (σ : State) : State :=
  match r with
  | .a => setAcc .a v σ
  | .b => setAcc .b v σ
  | .cc => setCc (CC.ofByte v) σ
  | .dp => setDp v σ

/-- TFR's effect (R254): none where the registers differ in size. -/
def transfer (src dst : Reg) (σ : State) : Option State :=
  match src, dst with
  | .r16 r, .r16 t => some (writeReg16 t (readReg16 r σ) σ)
  | .r8 r, .r8 t => some (writeReg8 t (readReg8 r σ) σ)
  | .r16 _, .r8 _ => none
  | .r8 _, .r16 _ => none

/-- EXG's effect (R237): both are read first, then the destination and the source are written. -/
def exchange (src dst : Reg) (σ : State) : Option State :=
  match src, dst with
  | .r16 r, .r16 t => some (writeReg16 r (readReg16 t σ) (writeReg16 t (readReg16 r σ) σ))
  | .r8 r, .r8 t => some (writeReg8 r (readReg8 t σ) (writeReg8 t (readReg8 r σ) σ))
  | .r16 _, .r8 _ => none
  | .r8 _, .r16 _ => none

/-- Draw the value of a flag the spec leaves `UNDEF` (R37, R165; log 5). -/
def drawFlag (σ : State) : Bool × State := (Config.undefFlag σ.draws, countDraw σ)

/-! ## Bus cycles (R8, R47, R54, R55, R61, R421) -/

/-- What stands behind an address: the first window that holds it, else plain memory (R61). -/
def kindAt : List Region → Word → AddrKind
  | [], _ => .ram
  | r :: rs, a => if r.base ≤ a.toNat ∧ a.toNat < r.base + r.size then r.kind else kindAt rs a

/-- The view of a state that bus cycles act on. -/
def busSide (σ : State) : BusSide where
  platform := σ.platform
  mem := σ.mem
  devices := σ.devices
  cycles := σ.cycles
  bus := σ.bus
  lines := σ.lines
  busGranted := σ.busGranted
  refreshCount := σ.refreshCount
  dmaIdle := σ.dmaIdle
  dmaLow := σ.dmaLow
  elapsed := σ.elapsed

/-- Put the view back; the platform is not the machine's to change. -/
def setBusSide (b : BusSide) (σ : State) : State :=
  { σ with
    mem := b.mem
    devices := b.devices
    cycles := b.cycles
    bus := b.bus
    lines := b.lines
    busGranted := b.busGranted
    refreshCount := b.refreshCount
    dmaIdle := b.dmaIdle
    dmaLow := b.dmaLow
    elapsed := b.elapsed }

/-- Act on the bus side of a state. -/
def onBus (f : BusSide → BusSide) (σ : State) : State := setBusSide (f (busSide σ)) σ

/-- One access takes effect: a write lands in plain memory and nowhere else, a device sees every access to it, and the access is logged (R54, R61; log 21). -/
def perform (c : BusCycle) (b : BusSide) : BusSide :=
  { b with
    mem := match kindAt b.platform c.addr with
      | .ram => if c.write then b.mem.write c.addr.toNat c.data else b.mem
      | .rom => b.mem
      | .device => b.mem
    devices := match kindAt b.platform c.addr with
      | .ram => b.devices
      | .rom => b.devices
      | .device => b.devices ++ [c]
    bus := b.bus ++ [c] }

/-- `n` MPU cycles pass with DMA/BREQ inactive: the self-refresh counter is cleared once the inactivity has lasted 3 of them (R33, R463; log 3). -/
def idle (n : Nat) (b : BusSide) : BusSide :=
  { b with
    dmaIdle := b.dmaIdle + n
    refreshCount := if 3 ≤ b.dmaIdle + n then 0 else b.refreshCount }

/-- How long DMA/BREQ has been active when it is found active once more; `dmaIdle` is 0 where it was found active the time before. -/
def lowFor (b : BusSide) : Nat := if b.dmaIdle = 0 then b.dmaLow + 1 else 1

/-- DMA/BREQ is looked at, and a cycle begins. A cycle of the MPU, of a wait, of HALT or of RES low is one of inactive DMA/BREQ where the pin is found high at its start, which the spec does not say (DESIGN CHOICE, log 3). -/
def countPin (low : Bool) (b : BusSide) : BusSide :=
  if low then { b with dmaIdle := 0, dmaLow := lowFor b } else idle 1 b

/-- "the assertion of BA, BS delays one clock cycle": DMA/BREQ was low for 6 to 13 cycles and then high for exactly 3 (R463; log 26). -/
def assertionDelayed (b : BusSide) : Bool :=
  !b.busGranted && b.dmaIdle == 3 && decide (6 ≤ b.dmaLow) && decide (b.dmaLow ≤ 13)

/-- Is the next cycle granted? Where DMA/BREQ is low, up to 15 are (R421). -/
def grants (low : Bool) (b : BusSide) : Bool := low && decide (b.refreshCount < 15) && !assertionDelayed b

/-- Another bus master's write (R55). -/
def otherWrite (w : Option (Word × Byte)) (b : BusSide) : BusSide :=
  match w with
  | none => b
  | some (a, v) => perform { write := true, ack := false, addr := a, data := v, other := true } b

/-- A cycle that is not the MPU's passes: the levels of BA and BS in it, and what another master writes. -/
def passCycle (levels : Option (Bool × Bool)) (w : Option (Word × Byte)) (b : BusSide) : BusSide :=
  let b' := otherWrite w b
  { b' with
    lines := b'.lines ++ [.pass levels w.isSome]
    elapsed := b'.elapsed + 1 }

/-- One granted cycle (R421): BA = BS = 1; the first of a grant is the dead cycle, in which nobody has the bus (C26). -/
def grantOne (w : Option (Word × Byte)) (b : BusSide) : BusSide :=
  let b' := countPin true (passCycle (some (true, true)) (if b.busGranted then w else none) b)
  { b' with
    busGranted := true
    refreshCount := b'.refreshCount + 1 }

/-- "When BA goes Low, an additional dead cycle will elapse before the MPU acquires the bus" (R422): the cycle that ends a grant (R421), of a self-refresh the leading one. As every E period is an MPU cycle (R9), it counts towards DMA/BREQ's inactive period where the pin is high (R33, R463) and towards its active period where the pin is low; it is not among the granted cycles, and DMA/BREQ is not looked at when it ends (DESIGN CHOICE, log 3, log 26). -/
def leaveGrant (low : Bool) (b : BusSide) : BusSide :=
  if b.busGranted then countPin low (passCycle (some (false, false)) none b) else b

/-- The MPU has its next cycle (R421), after the dead cycle where it takes the bus (`leaveGrant`, `regainBus`); it is one of inactive DMA/BREQ unless the pin is low (R33; log 3); where it is low and 15 cycles have been granted this is the self-refresh, after which 15 may be granted again. -/
def takeBack (low : Bool) (b : BusSide) : BusSide :=
  countPin low
    { b with
      busGranted := false
      refreshCount := if low && decide (15 ≤ b.refreshCount) then 0 else b.refreshCount }

/-- The cycles between one MPU cycle and the next: granted ones, then the bus is taken back (R421). -/
def between : List CycleSample → BusSide → BusSide
  | [], b => takeBack false (leaveGrant false { b with cycles := some [] })
  | c :: cs, b =>
    if grants c.dmaBreq b then between cs (grantOne c.write b)
    else takeBack c.dmaBreq (leaveGrant c.dmaBreq { b with cycles := some cs })

/-- This cycle is the MPU's. -/
def CycleKind.isMpu : CycleKind → Bool
  | .access => true
  | .vma => true
  | .pass _ _ => false

/-- The MPU's cycles among these. -/
def mpuCycles (ks : List CycleKind) : Nat := ks.countP CycleKind.isMpu

/-- "at the end of each cycle" DMA/BREQ is looked at (R421): before every MPU cycle of a step but the first, before which the boundary has looked (`serveDma`). Where the pin stays high through the step nothing is to do: the cycles are counted by `tick`. -/
def look (b : BusSide) : BusSide :=
  match b.cycles with
  | none => b
  | some cs => if mpuCycles b.lines = 0 then b else between cs b

/-- The MPU waits for its next cycle: whatever DMA/BREQ brings comes before it (R47, R421). -/
def nextCycle (σ : State) : State := onBus look σ

/-- The MPU's cycle carries an access (R47). -/
def busCycle (c : BusCycle) (σ : State) : State :=
  onBus (fun b => { perform c b with lines := b.lines ++ [.access] }) σ

/-- `n` MPU cycles without an access, one by one. -/
def innerCycles : Nat → BusSide → BusSide
  | 0, b => b
  | n + 1, b => innerCycles n { look b with lines := (look b).lines ++ [.vma] }

/-- `n` MPU cycles without an access (R49). -/
def vmaCycles (n : Nat) (σ : State) : State :=
  onBus (fun b =>
    match b.cycles with
    | none => { b with lines := b.lines ++ List.replicate n .vma }
    | some _ => innerCycles n b) σ

/-- `n` cycles of an instruction or an entry are counted. With DMA/BREQ high throughout all but the first are inactive ones, and the first is where the boundary has found the pin high (`takeBack`); else the cycles are looked at one by one (R33; log 28). -/
def tick (n : Nat) (σ : State) : State :=
  onBus (fun b =>
    match b.cycles with
    | none => idle (n - 1) { b with elapsed := b.elapsed + n }
    | some _ => { b with elapsed := b.elapsed + n }) σ

/-- The MPU's own accesses of this step. -/
def ownAccesses (σ : State) : Nat := σ.bus.countP (fun c => !c.other)

/-- The rest of a step of `n` cycles: those without an access whose place the spec does not give, which the model puts after the last access (log 26). -/
def settle (n : Nat) (σ : State) : State := vmaCycles (n - mpuCycles σ.lines) σ

/-- An operation that takes `n` cycles has made its accesses: its time is counted and its other cycles pass. -/
def completeCycles (n : Nat) (σ : State) : State := settle n (tick n σ)

/-- Do the accesses of a log again: what memory and devices are after them (R54, R450). -/
def replay (cs : List BusCycle) (σ : State) : State := cs.foldl (fun τ c => onBus (perform c) τ) σ

/-! ## Bus accesses (R42, R413) -/

/-- The byte memory holds at an address; no access is made. -/
def peek (a : Word) (σ : State) : Byte := σ.mem.read a.toNat

/-- The big-endian word memory holds at an address and the next (R41, R44); no access is made. -/
def peekWord (a : Word) (σ : State) : Word := join (peek a σ) (peek (a + 1) σ)

/-- What a read is answered: by memory its byte, by a device what it will (`Mem.read` and `Mem.read_vector`, R61). -/
def answer (ack : Bool) (a : Word) (σ : State) : Byte :=
  match kindAt σ.platform a with
  | .ram => peek a σ
  | .rom => peek a σ
  | .device => Config.deviceRead σ.devices a ack

/-- `MemRead(a, 1)`. -/
def readByte (a : Word) (σ : State) : Byte × State :=
  let τ := nextCycle σ
  (answer false a τ, busCycle { write := false, ack := false, addr := a, data := answer false a τ } τ)

/-- `MemRead(a, 2)`: the lower address first (D5; log 20). -/
def readWord (a : Word) (σ : State) : Word × State :=
  let (h, σ₁) := readByte a σ
  let (l, σ₂) := readByte (a + 1) σ₁
  (join h l, σ₂)

/-- `MemWrite(a, 1, v)`. -/
def writeByte (a : Word) (v : Byte) (σ : State) : State :=
  busCycle { write := true, ack := false, addr := a, data := v } (nextCycle σ)

/-- `MemWrite(a, 2, v)`: the high byte to the lower address first (D5; log 20). -/
def writeWord (a : Word) (v : Word) (σ : State) : State :=
  writeByte (a + 1) (lo v) (writeByte a (hi v) σ)

/-- One half of a vector fetch: a read with the acknowledge mark (R413). -/
def readAck (a : Word) (σ : State) : Byte × State :=
  let τ := nextCycle σ
  (answer true a τ, busCycle { write := false, ack := true, addr := a, data := answer true a τ } τ)

/-- A vector fetch: MS byte, then LS byte, both acknowledge cycles (R401, R413). -/
def readVector (a : Word) (σ : State) : Word × State :=
  let (h, σ₁) := readAck a σ
  let (l, σ₂) := readAck (a + 1) σ₁
  (join h l, σ₂)

/-! ## Stacks (R160 to R163) -/

/-- `Push8`: decrement, then write at the new value (R160). -/
def push8 (r : Ptr) (v : Byte) (σ : State) : State :=
  writeByte (ptr r σ - 1) v (setPtr r (ptr r σ - 1) σ)

/-- `Push16`: the low byte first, at the higher address (R160). -/
def push16 (r : Ptr) (w : Word) (σ : State) : State :=
  push8 r (hi w) (push8 r (lo w) σ)

/-- `Pull8`: read at the pointer, then increment it (R161). -/
def pull8 (r : Ptr) (σ : State) : Byte × State :=
  let (v, τ) := readByte (ptr r σ) σ
  (v, setPtr r (ptr r σ + 1) τ)

/-- `Pull16`: the high byte first (R161). -/
def pull16 (r : Ptr) (σ : State) : Word × State :=
  let (h, σ₁) := pull8 r σ
  let (l, σ₂) := pull8 r σ₁
  (join h l, σ₂)

/-- Pull a byte and hand it to a register. -/
def pullInto8 (r : Ptr) (f : Byte → State → State) (σ : State) : State :=
  f (pull8 r σ).1 (pull8 r σ).2

/-- Pull a word and hand it to a register. -/
def pullInto16 (r : Ptr) (f : Word → State → State) (σ : State) : State :=
  f (pull16 r σ).1 (pull16 r σ).2

/-- Do something where a bit says so. -/
def doIf (c : Bool) (f : State → State) (σ : State) : State := if c then f σ else σ

/-- The stack pointer register of PSHS and PULS, or of PSHU and PULU. -/
def stackPtr : Stk → Ptr
  | .s => .s
  | .u => .u

/-- The other stack pointer: what bit 6 of the mask names (R82). -/
def otherPtr : Stk → Ptr
  | .s => .u
  | .u => .s

/-- PSHS and PSHU: from bit 7 down to bit 0 (R82, R246, R247; log 9). -/
def pushRegs (k : Stk) (mask : Byte) (σ : State) : State :=
  let r := stackPtr k
  let σ := doIf (mask.getLsbD 7) (fun σ => push16 r σ.pc σ) σ
  let σ := doIf (mask.getLsbD 6) (fun σ => push16 r (ptr (otherPtr k) σ) σ) σ
  let σ := doIf (mask.getLsbD 5) (fun σ => push16 r σ.y σ) σ
  let σ := doIf (mask.getLsbD 4) (fun σ => push16 r σ.x σ) σ
  let σ := doIf (mask.getLsbD 3) (fun σ => push8 r σ.dp σ) σ
  let σ := doIf (mask.getLsbD 2) (fun σ => push8 r σ.b σ) σ
  let σ := doIf (mask.getLsbD 1) (fun σ => push8 r σ.a σ) σ
  doIf (mask.getLsbD 0) (fun σ => push8 r σ.cc.toByte σ) σ

/-- PULS and PULU: from bit 0 up to bit 7 (R82, R248, R249; log 9). -/
def pullRegs (k : Stk) (mask : Byte) (σ : State) : State :=
  let r := stackPtr k
  let σ := doIf (mask.getLsbD 0) (pullInto8 r (fun v => setCc (CC.ofByte v))) σ
  let σ := doIf (mask.getLsbD 1) (pullInto8 r (setAcc .a)) σ
  let σ := doIf (mask.getLsbD 2) (pullInto8 r (setAcc .b)) σ
  let σ := doIf (mask.getLsbD 3) (pullInto8 r setDp) σ
  let σ := doIf (mask.getLsbD 4) (pullInto16 r (setPtr .x)) σ
  let σ := doIf (mask.getLsbD 5) (pullInto16 r (setPtr .y)) σ
  let σ := doIf (mask.getLsbD 6) (pullInto16 r (setPtr (otherPtr k))) σ
  doIf (mask.getLsbD 7) (pullInto16 r setPc) σ

/-- `PushEntireState` (R162; log 16): twelve bytes, CC on top. -/
def pushEntireState (σ : State) : State :=
  let σ := push16 .s σ.pc σ
  let σ := push16 .s σ.u σ
  let σ := push16 .s σ.y σ
  let σ := push16 .s σ.x σ
  let σ := push8 .s σ.dp σ
  let σ := push8 .s σ.b σ
  let σ := push8 .s σ.a σ
  push8 .s σ.cc.toByte σ

/-! ## Taking an exception and returning (R400 to R415) -/

/-- The vector of an exception, which is also its code (R401, R429). -/
def vectorOf : Exc → Word
  | .res => 0xFFFE
  | .nmi => 0xFFFC
  | .swi => 0xFFFA
  | .irq => 0xFFF8
  | .firq => 0xFFF6
  | .swi2 => 0xFFF4
  | .swi3 => 0xFFF2

/-- The masks an entry sets (R411): IRQ sets I; RES, NMI, SWI and FIRQ set I and F; SWI2 and SWI3 neither. -/
def maskFor (e : Exc) (cc : CC) : CC :=
  match e with
  | .res => { cc with i := true, f := true }
  | .nmi => { cc with i := true, f := true }
  | .swi => { cc with i := true, f := true }
  | .irq => { cc with i := true }
  | .firq => { cc with i := true, f := true }
  | .swi2 => cc
  | .swi3 => cc

/-- What an entry stacks, E written first (R408 to R410, R412; log 16, log 17): nothing for RES, PC and CC with E = 0 for FIRQ, the entire state with E = 1 for the rest. -/
def stackState (e : Exc) (σ : State) : State :=
  match e with
  | .res => σ
  | .firq =>
    let σ := setCc { σ.cc with e := false } σ
    let σ := push16 .s σ.pc σ
    push8 .s σ.cc.toByte σ
  | .nmi => pushEntireState (setCc { σ.cc with e := true } σ)
  | .swi => pushEntireState (setCc { σ.cc with e := true } σ)
  | .irq => pushEntireState (setCc { σ.cc with e := true } σ)
  | .swi2 => pushEntireState (setCc { σ.cc with e := true } σ)
  | .swi3 => pushEntireState (setCc { σ.cc with e := true } σ)

/-- The end of an entry: the masks are set, a taken NMI is no longer pending, PC comes from the vector (R408 to R411, R417). The interrupt that ends CWAI is this and nothing else (R419; log 18). -/
def takeVector (e : Exc) (σ : State) : State :=
  let σ₁ := setCc (maskFor e σ.cc) σ
  let σ₂ := if e = .nmi then { σ₁ with nmiPending := false } else σ₁
  let (target, σ₃) := readVector (vectorOf e) σ₂
  setPc target σ₃

/-- Taking an exception (R408 to R412): stack, then masks and vector (D9). -/
def takeException (e : Exc) (σ : State) : State := takeVector e (stackState e σ)

/-- `PullState` (R163, R415): the E just pulled decides between three bytes and twelve. -/
def returnFromInterrupt (σ : State) : State :=
  let σ := pullInto8 .s (fun v => setCc (CC.ofByte v)) σ
  let σ := doIf σ.cc.e (fun σ =>
    let σ := pullInto8 .s (setAcc .a) σ
    let σ := pullInto8 .s (setAcc .b) σ
    let σ := pullInto8 .s setDp σ
    let σ := pullInto16 .s (setPtr .x) σ
    let σ := pullInto16 .s (setPtr .y) σ
    pullInto16 .s (setPtr .u) σ) σ
  pullInto16 .s setPc σ

/-- The register effects of RES (R451, R452): `v` is the draw of the values the spec leaves unspecified (D4; log 4). Memory is not touched. What becomes of the counts of active and inactive DMA/BREQ cycles the spec does not say: they go on (DESIGN CHOICE, log 3). Where HALT or DMA/BREQ has kept the bus released under RES (R456), it is still released: `busGranted` then stands until the MPU takes the bus, after a dead cycle (R422; log 27). -/
def resetRegisters (v : ResetValues) (σ : State) : State :=
  { σ with
    a := v.a
    b := v.b
    dp := 0
    cc := { e := v.e, f := true, h := v.h, i := true, n := v.n, z := v.z, v := v.v, c := v.c }
    x := v.x
    y := v.y
    u := v.u
    s := v.s
    nmiArmed := false
    nmiPending := false
    run := .resetVector
    halted := false
    busGranted := σ.halted || σ.busGranted
    inReset := false
    refreshCount := v.refreshCount }

/-! ## What the pins show -/

/-- `run_state` as R29 names it. -/
inductive RunStateName where
  | running | syncing | cwaiWaiting | halted | busGranted | inReset
deriving DecidableEq, Repr

/-- The name of the processor's state (R29): the overlays hide what they lie on. -/
def runStateName (σ : State) : RunStateName :=
  if σ.inReset then .inReset
  else if σ.busGranted then .busGranted
  else if σ.halted then .halted
  else
    match σ.run with
    | .running => .running
    | .resetVector => .running
    | .syncing => .syncing
    | .cwaiWaiting => .cwaiWaiting

/-- The levels of BA and BS between accesses (R422; log 34); the two cycles of a vector fetch show 0 1 instead (the `ack` mark of a `BusCycle`). None: while RES is low the spec states no level, unless HALT or DMA/BREQ holds the bus released (R456). -/
def baBs (σ : State) : Option (Bool × Bool) :=
  if σ.busGranted ∨ σ.halted then some (true, true)
  else if σ.inReset then none
  else if σ.run = .syncing then some (true, false)
  else some (false, false)

/-- The MPU has released the bus, so another master may use it (R55, R418, R422). -/
def busReleased (σ : State) : Bool :=
  match baBs σ with
  | some (ba, _) => ba
  | none => false

/-- What BA, BS and the bus show cycle by cycle (R31): the access of a cycle, where it carries one, and the levels of BA and BS (R422); none where the spec states no level. -/
def busTrace : List CycleKind → List BusCycle → List (Option BusCycle × Option (Bool × Bool))
  | [], _ => []
  | .access :: ks, c :: cs => (some c, some (false, c.ack)) :: busTrace ks cs
  | .access :: ks, [] => (none, some (false, false)) :: busTrace ks []
  | .vma :: ks, cs => (none, some (false, false)) :: busTrace ks cs
  | .pass levels true :: ks, c :: cs => (some c, levels) :: busTrace ks cs
  | .pass levels true :: ks, [] => (none, levels) :: busTrace ks []
  | .pass levels false :: ks, cs => (none, levels) :: busTrace ks cs

/-- The cycles of the latest step as a platform sees them (R31). -/
def shownCycles (σ : State) : List (Option BusCycle × Option (Bool × Bool)) := busTrace σ.lines σ.bus

end Sys2Proof.Machine
end

