-- ==== Sys2Proof/Machine/Timing.lean ====
section
/-! DEFINITION. E cycles of an instruction, from the tables of 30_encoding.md R75 to R79 and 31_addressing_modes.md R104 (R468, R470). No result depends on them (log 28). -/

namespace Sys2Proof.Machine

/-- The `+~` column of R104 for the forms that may be indirect. -/
def baseCycles : IdxBase → Nat
  | .zero _ => 0
  | .off8 _ _ => 1
  | .off16 _ _ => 4
  | .accA _ => 1
  | .accB _ => 1
  | .accD _ => 4
  | .inc2 _ => 3
  | .dec2 _ => 3
  | .pcr8 _ => 1
  | .pcr16 _ => 5

/-- The `+~` column of R104: an indirect form takes 3 more (R118). -/
def idxCycles : Idx → Nat
  | .off5 _ _ => 1
  | .inc1 _ => 2
  | .dec1 _ => 2
  | .plain m => baseCycles m
  | .indirect m => baseCycles m + 3
  | .extIndirect _ => 5

/-- Direct takes `n` cycles, indexed `n` and its adder, extended one more. -/
def addrCycles (n : Nat) : Addr → Nat
  | .direct _ => n
  | .indexed i => n + idxCycles i
  | .extended _ => n + 1

/-- The 8-bit accumulator group: 2, 4, 4+, 5 (R77). -/
def src8Cycles : Src8 → Nat
  | .imm _ => 2
  | .mem a => addrCycles 4 a

/-- A 16-bit operand whose immediate form takes `n` cycles (R77 to R79). -/
def src16Cycles (n : Nat) : Src16 → Nat
  | .imm _ => n
  | .mem a => addrCycles (n + 2) a

/-- The bytes a PSH or PUL mask moves (R82). -/
def maskBytes (mask : Byte) : Nat :=
  (mask.getLsbD 0).toNat + (mask.getLsbD 1).toNat + (mask.getLsbD 2).toNat + (mask.getLsbD 3).toNat
    + 2 * (mask.getLsbD 4).toNat + 2 * (mask.getLsbD 5).toNat + 2 * (mask.getLsbD 6).toNat + 2 * (mask.getLsbD 7).toNat

/-- The cycle count of an instruction, by the state its operation has left: a long branch takes one more when taken, which the flags tell that it does not change; RTI takes 15 when the E it has pulled is set, else 6 (R76, R78). SYNC has its minimum; of CWAI's, 20, the two cycles of the vector fetch come when its wait ends (C25; `vectorCycles`). -/
def instrCycles (i : Instr) (σ : State) : Nat :=
  match i with
  | .adca src => src8Cycles src
  | .adcb src => src8Cycles src
  | .adda src => src8Cycles src
  | .addb src => src8Cycles src
  | .anda src => src8Cycles src
  | .andb src => src8Cycles src
  | .bita src => src8Cycles src
  | .bitb src => src8Cycles src
  | .cmpa src => src8Cycles src
  | .cmpb src => src8Cycles src
  | .eora src => src8Cycles src
  | .eorb src => src8Cycles src
  | .lda src => src8Cycles src
  | .ldb src => src8Cycles src
  | .ora src => src8Cycles src
  | .orb src => src8Cycles src
  | .sbca src => src8Cycles src
  | .sbcb src => src8Cycles src
  | .sta a => addrCycles 4 a
  | .stb a => addrCycles 4 a
  | .suba src => src8Cycles src
  | .subb src => src8Cycles src
  | .asl a => addrCycles 6 a
  | .asla => 2
  | .aslb => 2
  | .asr a => addrCycles 6 a
  | .asra => 2
  | .asrb => 2
  | .clr a => addrCycles 6 a
  | .clra => 2
  | .clrb => 2
  | .com a => addrCycles 6 a
  | .coma => 2
  | .comb => 2
  | .daa => 2
  | .dec a => addrCycles 6 a
  | .deca => 2
  | .decb => 2
  | .inc a => addrCycles 6 a
  | .inca => 2
  | .incb => 2
  | .lsr a => addrCycles 6 a
  | .lsra => 2
  | .lsrb => 2
  | .mul => 11
  | .neg a => addrCycles 6 a
  | .nega => 2
  | .negb => 2
  | .rol a => addrCycles 6 a
  | .rola => 2
  | .rolb => 2
  | .ror a => addrCycles 6 a
  | .rora => 2
  | .rorb => 2
  | .tst a => addrCycles 6 a
  | .tsta => 2
  | .tstb => 2
  | .addd src => src16Cycles 4 src
  | .cmpd src => src16Cycles 5 src
  | .ldd src => src16Cycles 3 src
  | .sex => 2
  | .std a => addrCycles 5 a
  | .subd src => src16Cycles 4 src
  | .cmps src => src16Cycles 5 src
  | .cmpu src => src16Cycles 5 src
  | .cmpx src => src16Cycles 4 src
  | .cmpy src => src16Cycles 5 src
  | .exg _ _ => 8
  | .leas i => 4 + idxCycles i
  | .leau i => 4 + idxCycles i
  | .leax i => 4 + idxCycles i
  | .leay i => 4 + idxCycles i
  | .lds src => src16Cycles 4 src
  | .ldu src => src16Cycles 3 src
  | .ldx src => src16Cycles 3 src
  | .ldy src => src16Cycles 4 src
  | .pshs mask => 5 + maskBytes mask
  | .pshu mask => 5 + maskBytes mask
  | .puls mask => 5 + maskBytes mask
  | .pulu mask => 5 + maskBytes mask
  | .sts a => addrCycles 6 a
  | .stu a => addrCycles 5 a
  | .stx a => addrCycles 5 a
  | .sty a => addrCycles 6 a
  | .tfr _ _ => 6
  | .abx => 3
  | .bra _ => 3
  | .brn _ => 3
  | .bhi _ => 3
  | .bls _ => 3
  | .bcc _ => 3
  | .bcs _ => 3
  | .bne _ => 3
  | .beq _ => 3
  | .bvc _ => 3
  | .bvs _ => 3
  | .bpl _ => 3
  | .bmi _ => 3
  | .bge _ => 3
  | .blt _ => 3
  | .bgt _ => 3
  | .ble _ => 3
  | .bsr _ => 7
  | .lbra _ => 5
  | .lbrn _ => 5
  | .lbhi _ => if holds .hi σ.cc then 6 else 5
  | .lbls _ => if holds .ls σ.cc then 6 else 5
  | .lbcc _ => if holds .cc σ.cc then 6 else 5
  | .lbcs _ => if holds .cs σ.cc then 6 else 5
  | .lbne _ => if holds .ne σ.cc then 6 else 5
  | .lbeq _ => if holds .eq σ.cc then 6 else 5
  | .lbvc _ => if holds .vc σ.cc then 6 else 5
  | .lbvs _ => if holds .vs σ.cc then 6 else 5
  | .lbpl _ => if holds .pl σ.cc then 6 else 5
  | .lbmi _ => if holds .mi σ.cc then 6 else 5
  | .lbge _ => if holds .ge σ.cc then 6 else 5
  | .lblt _ => if holds .lt σ.cc then 6 else 5
  | .lbgt _ => if holds .gt σ.cc then 6 else 5
  | .lble _ => if holds .le σ.cc then 6 else 5
  | .lbsr _ => 9
  | .andcc _ => 3
  | .cwai _ => 18
  | .nop => 2
  | .orcc _ => 3
  | .jmp a => addrCycles 3 a
  | .jsr a => addrCycles 7 a
  | .rti => if σ.cc.e then 15 else 6
  | .rts => 5
  | .swi => 19
  | .swi2 => 20
  | .swi3 => 20
  | .sync => 2

/-- The one cycle that follows the fetch of an extended address (W2, W3 of 95_test_vectors.md). -/
def leadOf : Addr → Nat
  | .extended _ => 1
  | .direct _ => 0
  | .indexed _ => 0

/-- The cycles without an access between the fetch of an instruction and its next access, where a worked example shows them (R49): the four of LBSR (W1), the one of DEC and CLR extended (W2, W3), which R192 to R221 take as the example for all read-modify-write instructions. Of the others the spec does not give the place (log 26). -/
def leadCycles : Instr → Nat
  | .lbsr _ => 4
  | .neg a => leadOf a
  | .com a => leadOf a
  | .lsr a => leadOf a
  | .ror a => leadOf a
  | .asr a => leadOf a
  | .asl a => leadOf a
  | .rol a => leadOf a
  | .dec a => leadOf a
  | .inc a => leadOf a
  | .clr a => leadOf a
  | _ => 0

end Sys2Proof.Machine
end

