-- ==== Sys2Proof/Machine/Boundary.lean ====
section
/-! DEFINITION. What happens between two instructions: the pins are sampled, and reset, bus grant, HALT, the waits and the interrupts are served in the order of R428 and R430 (60_exceptions.md, 70_reset_and_hazards.md). -/

namespace Sys2Proof.Machine

/-- Every pin inactive (R428: the loop is then `Step()` repeated). -/
def idlePins : PinSample where
  res := false
  nmiFell := false
  firq := false
  irq := false
  halt := false
  dmaBreq := false
  write := none
  cycles := []
  resCut := none

/-- The pins of this step (R406; log 8, log 37). -/
def nextSample (σ : State) : PinSample :=
  match σ.env with
  | [] => idlePins
  | p :: _ => p

/-- The ends of the bus cycles of this step: none to look at where the sample lists none (log 26). -/
def stepCycles (p : PinSample) : Option (List CycleSample) :=
  match p.cycles with
  | [] => none
  | c :: cs => some (c :: cs)

/-- Begin a step: the sample is consumed, and no cycle has passed yet. -/
def beginStep (σ : State) : State :=
  { σ with env := σ.env.tail, bus := [], lines := [], cycles := stepCycles (nextSample σ) }

/-- "on a high-to-low transition of the NMI pin" (R403): the edge is latched where NMI is armed; where it is not, `nmi_edge_before_arming` says whether it is remembered (D7; log 7). -/
def noteNmi (p : PinSample) (σ : State) : State :=
  if p.nmiFell then { σ with nmiPending := σ.nmiArmed || Config.nmiEdgeBeforeArming } else σ

/-- One cycle of a wait, of HALT or of RES low: another master writes only while the MPU has released the bus (R55). -/
def idleCycle (p : PinSample) (σ : State) : State :=
  onBus (passCycle (baBs σ) (if busReleased σ then p.write else none)) σ

/-- The cycle in which the MPU leaves the Sync state or HALT: nobody has the bus. Where BA goes low in it, it is the dead cycle of R422; where BA does not, it is the model's choice (`serve`, `serveHalt`; log 24, log 25). -/
def resumeCycle (σ : State) : State := onBus (passCycle (baBs σ) none) σ

/-- An NMI can be taken (R403). -/
def nmiTakeable (σ : State) : Bool := σ.nmiPending && σ.nmiArmed

/-- The interrupt to take at this boundary, the highest first (R403 to R405, R407). -/
def takeable (p : PinSample) (σ : State) : Option Exc :=
  if nmiTakeable σ then some .nmi
  else if p.firq && !σ.cc.f then some .firq
  else if p.irq && !σ.cc.i then some .irq
  else none

/-- What ends the Sync state: a takeable NMI, or FIRQ or IRQ low, masked or not (R418, D19; log 25). -/
def wakesSync (p : PinSample) (σ : State) : Bool := nmiTakeable σ || p.firq || p.irq

/-- The cycles of a hardware entry pass (R471; log 28). -/
def entryTick (e : Exc) (σ : State) : State :=
  completeCycles (Config.entryCycles (vectorOf e)) σ

/-- The cycles of a vector fetch: its two reads (R413). -/
def vectorCycles : Nat := 2

/-- What a boundary leads to: the step is over, or the next instruction is to be run. -/
inductive Turn where
  | done (σ : State)
  | instruction (σ : State)
deriving DecidableEq, Repr

/-- The boundary with RES, DMA/BREQ and HALT out of the way (R428). The interrupt that ends CWAI's wait takes the two cycles of its vector fetch, which are the last of CWAI's 20 (R76, C25; log 28). The first cycle of the Sync state is no dead cycle: another master may write in it, where R301 and R418 are silent and R9 speaks of any change of mastership (DESIGN CHOICE, log 25). Leaving the Sync state takes one cycle even where the request is already present when SYNC ends, so that BA has not gone high and R422 asks for no dead cycle; R301 calls the state's length then zero and leaves the cycles to the continuation open (DESIGN CHOICE, log 25). -/
def serve (p : PinSample) (σ : State) : Turn :=
  match σ.run with
  | .running =>
    match takeable p σ with
    | some e => .done (entryTick e (takeException e σ))
    | none => .instruction σ
  | .syncing =>
    if wakesSync p σ then .done (resumeCycle (setRun .running σ)) else .done (idleCycle p σ)
  | .cwaiWaiting =>
    match takeable p σ with
    | some e => .done (completeCycles vectorCycles (takeVector e (setRun .running σ)))
    | none => .done (idleCycle p σ)
  | .resetVector => .done (entryTick .res (takeException .res (setRun .running σ)))

/-- HALT is looked at before the interrupts, in the waits too (R420, R430, D20; log 24). Resuming is a step of its own, after which the boundary is evaluated afresh. The first cycle of HALT is no dead cycle: another master may write in the very cycle in which HALT is found low, where R420 is silent and R9 speaks of any change of mastership (DESIGN CHOICE, log 24). HALT released over the Sync state takes the cycle of resuming too, and no other master writes in it, though BA stays high (R422) and R418 lets another master use the bus (DESIGN CHOICE, log 24). -/
def serveHalt (p : PinSample) (σ : State) : Turn :=
  if σ.halted then
    if p.halt then .done (idleCycle p σ) else .done (resumeCycle { σ with halted := false })
  else if p.halt then .done (idleCycle p { σ with halted := true })
  else serve p σ

/-- The MPU does not take the bus at the end of a grant: it is halted, or waits in the Sync state, and the dead cycle comes when it leaves that (`resumeCycle`; DEDUCED from R421 and R422, log 26). -/
def staysReleased (p : PinSample) (σ : State) : Bool := p.halt || σ.halted || decide (σ.run = .syncing)

/-- The MPU has its next cycle at this boundary, after the dead cycle that ends a grant where it takes the bus (R421, R422). -/
def regainBus (p : PinSample) (σ : State) : State :=
  onBus (takeBack p.dmaBreq) (if staysReleased p σ then σ else onBus (leaveGrant p.dmaBreq) σ)

/-- DMA/BREQ at the end of the cycle before (R421, R33; log 26): one more cycle is granted, up to 15, or the MPU has its next cycle. Inside a step `look` does the same between two bus cycles. -/
def serveDma (p : PinSample) (σ : State) : Turn :=
  if grants p.dmaBreq (busSide σ) then .done (onBus (grantOne p.write) σ)
  else serveHalt p (regainBus p σ)

/-- RES is low (R450, R456): nothing runs; HALT or DMA/BREQ low keeps the bus released. A grant here has no dead cycle before it, and its cycles are not counted towards the self-refresh; the dead cycle after it comes when RES has returned high (`resetRegisters`); nor is its BA = BS = 1 delayed by a cycle as R463 (a) says of a grant after 6 to 13 low and 3 high cycles: R421 speaks of every state but `InReset`, and R456 only of the bus being granted (DESIGN CHOICE, log 3, log 27). -/
def holdReset (p : PinSample) (σ : State) : State :=
  idleCycle p (onBus (countPin p.dmaBreq) { σ with inReset := true, halted := p.halt, busGranted := p.dmaBreq })

/-- RES has returned high (R451): the registers are reset, each unspecified one from a fresh draw (D4; log 4). -/
def leaveReset (σ : State) : State :=
  resetRegisters (Config.resetUnspecified σ.draws) (countDraw σ)

/-- The whole boundary in the order of R428: RES, then NMI edges are noted, then DMA/BREQ, HALT, the waits and the interrupts. -/
def boundary (σ : State) : Turn :=
  let p := nextSample σ
  let τ := beginStep σ
  if p.res then .done (holdReset p τ)
  else serveDma p (noteNmi p (if τ.inReset then leaveReset τ else τ))

/-- The bus cycles that RES has let happen: other masters' all, the MPU's own as the list says (R450). -/
def survivors : List Bool → List BusCycle → List BusCycle
  | _, [] => []
  | [], c :: cs => if c.other then c :: survivors [] cs else survivors [] cs
  | happened :: rest, c :: cs => if happened || c.other then c :: survivors rest cs else survivors rest cs

/-- The cycles of a step that RES cuts short, with the list that `survivors` goes by: an access that has not happened leaves a cycle without one. All the MPU's cycles of the step are shown with BA = BS = 0, or 0 1 in a vector fetch that has happened, those after the fall of RES too, since the list does not say where it fell; the spec states no level for them (R29, R452; DESIGN CHOICE, log 27, log 34). -/
def cutLines : List Bool → List CycleKind → List CycleKind
  | _, [] => []
  | bs, .access :: ks => (if bs.headD false then .access else .vma) :: cutLines bs.tail ks
  | bs, .vma :: ks => .vma :: cutLines bs ks
  | bs, .pass levels w :: ks => .pass levels w :: cutLines (if w then bs.tail else bs) ks

/-- RES fell inside the step (R402, R450, R455): "any of its writes may or may not have happened". Those that have take effect, the rest does not, and the machine is held in reset. `σ` is the state at the step's beginning, `τ` what the whole step would have led to. The registers, which R452 leaves unspecified, stay as they were until `leaveReset` draws them (log 27); what the whole step has drawn stays drawn, so that a reset whose vector fetch is cut and the next one draw apart (R452, D4; log 4). The cycles of the whole step pass, the cut ones with RES low, and count towards DMA/BREQ's active and inactive periods; the spec does not say whether they do (DESIGN CHOICE, log 3, log 27). -/
def cutShort (happened : List Bool) (σ τ : State) : State :=
  { replay (survivors happened τ.bus) (beginStep σ) with
    inReset := true
    halted := false
    busGranted := false
    lines := cutLines happened τ.lines
    refreshCount := τ.refreshCount
    dmaIdle := τ.dmaIdle
    dmaLow := τ.dmaLow
    elapsed := τ.elapsed
    draws := τ.draws }

/-- Cut the step short where RES falls inside it; a step in which the MPU makes no access has no inside (R430, R450). -/
def cutByReset (σ τ : State) : State :=
  match (nextSample σ).resCut with
  | none => τ
  | some happened => if ownAccesses τ = 0 then τ else cutShort happened σ τ

end Sys2Proof.Machine
end

