-- ==== Sys2Proof/Machine/Operands.lean ====
section
/-! DEFINITION. Effective addresses and operands (31_addressing_modes.md R105 to R123, 40_common_operations.md R140). Every function is given the state in which all the instruction's bytes have been fetched, so PC is the address of the next instruction (R15, R116). -/

namespace Sys2Proof.Machine

/-- The address of a form that may be indirect, and the state with its auto increment or decrement done (R105, R107 to R111, R113, R115 to R117). -/
def baseAddr (m : IdxBase) (σ : State) : Word × State :=
  match m with
  | .zero r => (ptr r σ, σ)
  | .off8 r n => (ptr r σ + sext8 n, σ)
  | .off16 r n => (ptr r σ + n, σ)
  | .accA r => (ptr r σ + sext8 σ.a, σ)
  | .accB r => (ptr r σ + sext8 σ.b, σ)
  | .accD r => (ptr r σ + dReg σ, σ)
  | .inc2 r => (ptr r σ, setPtr r (ptr r σ + 2) σ)
  | .dec2 r => (ptr r σ - 2, setPtr r (ptr r σ - 2) σ)
  | .pcr8 n => (σ.pc + sext8 n, σ)
  | .pcr16 n => (σ.pc + n, σ)

/-- `EA(indexed)` (R123): the pointer register is updated before the indirect pointer is read (R120). -/
def idxAddr (i : Idx) (σ : State) : Word × State :=
  match i with
  | .off5 r n => (ptr r σ + sext5 n, σ)
  | .inc1 r => (ptr r σ, setPtr r (ptr r σ + 1) σ)
  | .dec1 r => (ptr r σ - 1, setPtr r (ptr r σ - 1) σ)
  | .plain m => baseAddr m σ
  | .indirect m => readWord (baseAddr m σ).1 (baseAddr m σ).2
  | .extIndirect n => readWord n σ

/-- `EA(mode)` (R123): direct is DP : byte (R99), extended the word itself (R98). -/
def effAddr (a : Addr) (σ : State) : Word × State :=
  match a with
  | .direct n => (join σ.dp n, σ)
  | .indexed i => idxAddr i σ
  | .extended n => (n, σ)

/-- `Operand8(mode)` (R140). -/
def operand8 (src : Src8) (σ : State) : Byte × State :=
  match src with
  | .imm n => (n, σ)
  | .mem a => readByte (effAddr a σ).1 (effAddr a σ).2

/-- `Operand16(mode)` (R140). -/
def operand16 (src : Src16) (σ : State) : Word × State :=
  match src with
  | .imm n => (n, σ)
  | .mem a => readWord (effAddr a σ).1 (effAddr a σ).2

end Sys2Proof.Machine
end

