-- ==== Sys2Proof/Machine/Shapes.lean ====
section
/-! DEFINITION. The shapes the instruction meanings share: operand, operation, destination. In every one the address is complete, auto increment and decrement included, before the operand is accessed and before the registers are read for the operation (R120, R140). -/

namespace Sys2Proof.Machine

/-! ## 8-bit accumulator with an operand (41_8bit_accumulator_memory.md) -/

/-- `r <- f(r, M)`. -/
def accBinary (f : Byte → Byte → CC → Byte × CC) (r : Acc) (src : Src8) (σ : State) : State :=
  let o := operand8 src σ
  let res := f (acc r o.2) o.1 o.2.cc
  setAcc r res.1 (setCc res.2 o.2)

/-- `r <- f(r, M)` where `f` leaves one flag `UNDEF` (R165). -/
def accBinaryUndef (f : Bool → Byte → Byte → CC → Byte × CC) (r : Acc) (src : Src8) (σ : State) : State :=
  let o := operand8 src σ
  let d := drawFlag o.2
  let res := f d.1 (acc r d.2) o.1 d.2.cc
  setAcc r res.1 (setCc res.2 d.2)

/-- The flags of `f(r, M)` alone: BIT. -/
def accTest (f : Byte → Byte → CC → Byte × CC) (r : Acc) (src : Src8) (σ : State) : State :=
  let o := operand8 src σ
  setCc (f (acc r o.2) o.1 o.2.cc).2 o.2

/-- The flags of `r - M` alone: CMPA, CMPB. -/
def accCompare (r : Acc) (src : Src8) (σ : State) : State :=
  let o := operand8 src σ
  let d := drawFlag o.2
  setCc (sub8 d.1 (acc r d.2) o.1 false d.2.cc).2 d.2

/-- `AND` with the flags of R146. -/
def and8 (a m : Byte) (cc : CC) : Byte × CC := (a &&& m, logic8 (a &&& m) cc)

/-- `OR` with the flags of R146. -/
def or8 (a m : Byte) (cc : CC) : Byte × CC := (a ||| m, logic8 (a ||| m) cc)

/-- `EOR` with the flags of R146. -/
def eor8 (a m : Byte) (cc : CC) : Byte × CC := (a ^^^ m, logic8 (a ^^^ m) cc)

/-- A load: the operand itself with the flags of R146. -/
def ld8 (_a m : Byte) (cc : CC) : Byte × CC := (m, logic8 m cc)

/-- STA, STB (R188, R189): flags from the value stored; the location is not read (R48). -/
def storeAcc (r : Acc) (a : Addr) (σ : State) : State :=
  let e := effAddr a σ
  writeByte e.1 (acc r e.2) (setCc (logic8 (acc r e.2) e.2.cc) e.2)

/-! ## Read-modify-write (42_8bit_read_modify_write.md) -/

/-- `RMW(mode, f)` (R159): the read and the write use one address, "with one internal cycle between" (R48). -/
def rmwMem (f : Byte → CC → Byte × CC) (a : Addr) (σ : State) : State :=
  let e := effAddr a σ
  let o := readByte e.1 e.2
  let res := f o.1 o.2.cc
  writeByte e.1 res.1 (vmaCycles 1 (setCc res.2 o.2))

/-- `RMW(mode, f)` where `f` leaves H `UNDEF` (R165). -/
def rmwMemUndef (f : Bool → Byte → CC → Byte × CC) (a : Addr) (σ : State) : State :=
  let e := effAddr a σ
  let o := readByte e.1 e.2
  let d := drawFlag o.2
  let res := f d.1 o.1 d.2.cc
  writeByte e.1 res.1 (vmaCycles 1 (setCc res.2 d.2))

/-- `r <- f(r)` (R159). -/
def rmwAcc (f : Byte → CC → Byte × CC) (r : Acc) (σ : State) : State :=
  let res := f (acc r σ) σ.cc
  setAcc r res.1 (setCc res.2 σ)

/-- `r <- f(r)` where `f` leaves one flag `UNDEF` (R165). -/
def rmwAccUndef (f : Bool → Byte → CC → Byte × CC) (r : Acc) (σ : State) : State :=
  let d := drawFlag σ
  let res := f d.1 (acc r d.2) d.2.cc
  setAcc r res.1 (setCc res.2 d.2)

/-- TST on memory: read, nothing written back (R159, R224). -/
def testMem (a : Addr) (σ : State) : State :=
  let e := effAddr a σ
  let o := readByte e.1 e.2
  setCc (tst8 o.1 o.2.cc) o.2

/-- TSTA, TSTB (R225, R226). -/
def testAcc (r : Acc) (σ : State) : State :=
  setCc (tst8 (acc r σ) σ.cc) σ

/-! ## 16-bit operands (43_16bit_accumulator_memory.md, 44_index_stack.md) -/

/-- `r <- M:M+1` with the flags of R147. -/
def load16 (r : Reg16) (src : Src16) (σ : State) : State :=
  let o := operand16 src σ
  writeReg16 r o.1 (setCc (logic16 o.1 o.2.cc) o.2)

/-- `M:M+1 <- r` with the flags of R147; the register is read after the address is complete (R120, R458). -/
def store16 (r : Reg16) (a : Addr) (σ : State) : State :=
  let e := effAddr a σ
  writeWord e.1 (readReg16 r e.2) (setCc (logic16 (readReg16 r e.2) e.2.cc) e.2)

/-- The flags of `r - M:M+1` alone (R145). -/
def compare16 (r : Reg16) (src : Src16) (σ : State) : State :=
  let o := operand16 src σ
  let d := drawFlag o.2
  setCc (sub16 d.1 (readReg16 r d.2) o.1 d.2.cc).2 d.2

/-! ## Control flow (45_branches.md, 46_miscellaneous.md) -/

/-- A branch: PC is already the address of the next instruction (R101, R102, R164). -/
def branch (c : Cond) (off : Word) (σ : State) : State :=
  if holds c σ.cc then setPc (σ.pc + off) σ else σ

/-- A subroutine call: the return address pushed on S, then the jump (R272, R289, R295). -/
def call (target : Word) (σ : State) : State :=
  setPc target (push16 .s σ.pc σ)

end Sys2Proof.Machine
end

