-- ==== Sys2Proof/Machine/Acc8.lean ====
section
/-! DEFINITION. 8-bit accumulator and memory instructions: 41_8bit_accumulator_memory.md R170 to R191. -/

namespace Sys2Proof.Machine

/-- What a meaning answers. -/
abbrev Answer := Host.Outcome State Fault Refusal

/-- ADCA (R170) -/
def execAdca (src : Src8) (s : State) : Answer := .next (accBinary (fun a m cc => add8 a m cc.c cc) .a src s)

/-- ADCB (R171) -/
def execAdcb (src : Src8) (s : State) : Answer := .next (accBinary (fun a m cc => add8 a m cc.c cc) .b src s)

/-- ADDA (R172) -/
def execAdda (src : Src8) (s : State) : Answer := .next (accBinary (fun a m cc => add8 a m false cc) .a src s)

/-- ADDB (R173) -/
def execAddb (src : Src8) (s : State) : Answer := .next (accBinary (fun a m cc => add8 a m false cc) .b src s)

/-- ANDA (R174) -/
def execAnda (src : Src8) (s : State) : Answer := .next (accBinary and8 .a src s)

/-- ANDB (R175) -/
def execAndb (src : Src8) (s : State) : Answer := .next (accBinary and8 .b src s)

/-- BITA (R176) -/
def execBita (src : Src8) (s : State) : Answer := .next (accTest and8 .a src s)

/-- BITB (R177) -/
def execBitb (src : Src8) (s : State) : Answer := .next (accTest and8 .b src s)

/-- CMPA (R178) -/
def execCmpa (src : Src8) (s : State) : Answer := .next (accCompare .a src s)

/-- CMPB (R179) -/
def execCmpb (src : Src8) (s : State) : Answer := .next (accCompare .b src s)

/-- EORA (R180) -/
def execEora (src : Src8) (s : State) : Answer := .next (accBinary eor8 .a src s)

/-- EORB (R181) -/
def execEorb (src : Src8) (s : State) : Answer := .next (accBinary eor8 .b src s)

/-- LDA (R182) -/
def execLda (src : Src8) (s : State) : Answer := .next (accBinary ld8 .a src s)

/-- LDB (R183) -/
def execLdb (src : Src8) (s : State) : Answer := .next (accBinary ld8 .b src s)

/-- ORA (R184) -/
def execOra (src : Src8) (s : State) : Answer := .next (accBinary or8 .a src s)

/-- ORB (R185) -/
def execOrb (src : Src8) (s : State) : Answer := .next (accBinary or8 .b src s)

/-- SBCA (R186) -/
def execSbca (src : Src8) (s : State) : Answer := .next (accBinaryUndef (fun h a m cc => sub8 h a m cc.c cc) .a src s)

/-- SBCB (R187) -/
def execSbcb (src : Src8) (s : State) : Answer := .next (accBinaryUndef (fun h a m cc => sub8 h a m cc.c cc) .b src s)

/-- STA (R188) -/
def execSta (a : Addr) (s : State) : Answer := .next (storeAcc .a a s)

/-- STB (R189) -/
def execStb (a : Addr) (s : State) : Answer := .next (storeAcc .b a s)

/-- SUBA (R190) -/
def execSuba (src : Src8) (s : State) : Answer := .next (accBinaryUndef (fun h a m cc => sub8 h a m false cc) .a src s)

/-- SUBB (R191) -/
def execSubb (src : Src8) (s : State) : Answer := .next (accBinaryUndef (fun h a m cc => sub8 h a m false cc) .b src s)

end Sys2Proof.Machine
end

