-- ==== Sys2Proof/Machine/Acc16.lean ====
section
/-! DEFINITION. 16-bit accumulator and memory instructions: 43_16bit_accumulator_memory.md R227 to R232. -/

namespace Sys2Proof.Machine

/-- ADDD (R227) -/
def execAddd (src : Src16) (s : State) : Answer :=
  let o := operand16 src s
  let res := add16 (dReg o.2) o.1 o.2.cc
  .next (setD res.1 (setCc res.2 o.2))

/-- CMPD (R228) -/
def execCmpd (src : Src16) (s : State) : Answer := .next (compare16 .d src s)

/-- LDD (R229) -/
def execLdd (src : Src16) (s : State) : Answer := .next (load16 .d src s)

/-- SEX (R230) -/
def execSex (s : State) : Answer :=
  let res := sex8 s.b s.cc
  .next (setAcc .a res.1 (setCc res.2 s))

/-- STD (R231) -/
def execStd (a : Addr) (s : State) : Answer := .next (store16 .d a s)

/-- SUBD (R232) -/
def execSubd (src : Src16) (s : State) : Answer :=
  let o := operand16 src s
  let d := drawFlag o.2
  let res := sub16 d.1 (dReg d.2) o.1 d.2.cc
  .next (setD res.1 (setCc res.2 d.2))

end Sys2Proof.Machine
end

