-- ==== Sys2Proof/Machine/Branches.lean ====
section
/-! DEFINITION. Branches: 45_branches.md R256 to R289. PC on entry is the address of the next instruction (R15). None writes a flag. -/

namespace Sys2Proof.Machine

/-- BRA (R256) -/
def execBra (off : Byte) (s : State) : Answer := .next (branch .always (sext8 off) s)

/-- BRN (R257) -/
def execBrn (off : Byte) (s : State) : Answer := .next (branch .never (sext8 off) s)

/-- BHI (R258) -/
def execBhi (off : Byte) (s : State) : Answer := .next (branch .hi (sext8 off) s)

/-- BLS (R259) -/
def execBls (off : Byte) (s : State) : Answer := .next (branch .ls (sext8 off) s)

/-- BCC (R260) -/
def execBcc (off : Byte) (s : State) : Answer := .next (branch .cc (sext8 off) s)

/-- BCS (R261) -/
def execBcs (off : Byte) (s : State) : Answer := .next (branch .cs (sext8 off) s)

/-- BNE (R262) -/
def execBne (off : Byte) (s : State) : Answer := .next (branch .ne (sext8 off) s)

/-- BEQ (R263) -/
def execBeq (off : Byte) (s : State) : Answer := .next (branch .eq (sext8 off) s)

/-- BVC (R264) -/
def execBvc (off : Byte) (s : State) : Answer := .next (branch .vc (sext8 off) s)

/-- BVS (R265) -/
def execBvs (off : Byte) (s : State) : Answer := .next (branch .vs (sext8 off) s)

/-- BPL (R266) -/
def execBpl (off : Byte) (s : State) : Answer := .next (branch .pl (sext8 off) s)

/-- BMI (R267) -/
def execBmi (off : Byte) (s : State) : Answer := .next (branch .mi (sext8 off) s)

/-- BGE (R268) -/
def execBge (off : Byte) (s : State) : Answer := .next (branch .ge (sext8 off) s)

/-- BLT (R269) -/
def execBlt (off : Byte) (s : State) : Answer := .next (branch .lt (sext8 off) s)

/-- BGT (R270) -/
def execBgt (off : Byte) (s : State) : Answer := .next (branch .gt (sext8 off) s)

/-- BLE (R271) -/
def execBle (off : Byte) (s : State) : Answer := .next (branch .le (sext8 off) s)

/-- BSR (R272) -/
def execBsr (off : Byte) (s : State) : Answer := .next (call (s.pc + sext8 off) s)

/-- LBRA (R273) -/
def execLbra (off : Word) (s : State) : Answer := .next (branch .always off s)

/-- LBRN (R274) -/
def execLbrn (off : Word) (s : State) : Answer := .next (branch .never off s)

/-- LBHI (R275) -/
def execLbhi (off : Word) (s : State) : Answer := .next (branch .hi off s)

/-- LBLS (R276) -/
def execLbls (off : Word) (s : State) : Answer := .next (branch .ls off s)

/-- LBCC (R277) -/
def execLbcc (off : Word) (s : State) : Answer := .next (branch .cc off s)

/-- LBCS (R278) -/
def execLbcs (off : Word) (s : State) : Answer := .next (branch .cs off s)

/-- LBNE (R279) -/
def execLbne (off : Word) (s : State) : Answer := .next (branch .ne off s)

/-- LBEQ (R280) -/
def execLbeq (off : Word) (s : State) : Answer := .next (branch .eq off s)

/-- LBVC (R281) -/
def execLbvc (off : Word) (s : State) : Answer := .next (branch .vc off s)

/-- LBVS (R282) -/
def execLbvs (off : Word) (s : State) : Answer := .next (branch .vs off s)

/-- LBPL (R283) -/
def execLbpl (off : Word) (s : State) : Answer := .next (branch .pl off s)

/-- LBMI (R284) -/
def execLbmi (off : Word) (s : State) : Answer := .next (branch .mi off s)

/-- LBGE (R285) -/
def execLbge (off : Word) (s : State) : Answer := .next (branch .ge off s)

/-- LBLT (R286) -/
def execLblt (off : Word) (s : State) : Answer := .next (branch .lt off s)

/-- LBGT (R287) -/
def execLbgt (off : Word) (s : State) : Answer := .next (branch .gt off s)

/-- LBLE (R288) -/
def execLble (off : Word) (s : State) : Answer := .next (branch .le off s)

/-- LBSR (R289) -/
def execLbsr (off : Word) (s : State) : Answer := .next (call (s.pc + off) s)

end Sys2Proof.Machine
end

