-- ==== Sys2Proof/Machine/IndexStack.lean ====
section
/-! DEFINITION. Index register and stack pointer instructions, TFR, EXG and ABX: 44_index_stack.md R233 to R255. -/

namespace Sys2Proof.Machine

/-- CMPS (R233) -/
def execCmps (src : Src16) (s : State) : Answer := .next (compare16 .s src s)

/-- CMPU (R234) -/
def execCmpu (src : Src16) (s : State) : Answer := .next (compare16 .u src s)

/-- CMPX (R235) -/
def execCmpx (src : Src16) (s : State) : Answer := .next (compare16 .x src s)

/-- CMPY (R236) -/
def execCmpy (src : Src16) (s : State) : Answer := .next (compare16 .y src s)

/-- EXG (R237): an EXG with S may arm NMI (R403, D6; log 6) -/
def execExg (src dst : Reg) (s : State) : Answer :=
  match exchange src dst s with
  | some τ => .next (armNmiIf (Config.exgArmsNmi && (src == .r16 .s || dst == .r16 .s)) τ)
  | none => .refused .unusedRegisterPostbyte

/-- LEAS (R238): no flags (log 14); LEAS may arm NMI (R403, D6; log 6) -/
def execLeas (i : Idx) (s : State) : Answer :=
  let e := idxAddr i s
  .next (armNmiIf Config.leasArmsNmi (setPtr .s e.1 e.2))

/-- LEAU (R239): no flags (log 14) -/
def execLeau (i : Idx) (s : State) : Answer :=
  let e := idxAddr i s
  .next (setPtr .u e.1 e.2)

/-- LEAX (R240): Z from the address (log 14) -/
def execLeax (i : Idx) (s : State) : Answer :=
  let e := idxAddr i s
  .next (setPtr .x e.1 (setCc { e.2.cc with z := e.1 == 0 } e.2))

/-- LEAY (R241): Z from the address (log 14) -/
def execLeay (i : Idx) (s : State) : Answer :=
  let e := idxAddr i s
  .next (setPtr .y e.1 (setCc { e.2.cc with z := e.1 == 0 } e.2))

/-- LDS (R242): every form arms NMI (R403) -/
def execLds (src : Src16) (s : State) : Answer := .next (armNmiIf true (load16 .s src s))

/-- LDU (R243) -/
def execLdu (src : Src16) (s : State) : Answer := .next (load16 .u src s)

/-- LDX (R244) -/
def execLdx (src : Src16) (s : State) : Answer := .next (load16 .x src s)

/-- LDY (R245) -/
def execLdy (src : Src16) (s : State) : Answer := .next (load16 .y src s)

/-- PSHS (R246) -/
def execPshs (mask : Byte) (s : State) : Answer := .next (pushRegs .s mask s)

/-- PSHU (R247) -/
def execPshu (mask : Byte) (s : State) : Answer := .next (pushRegs .u mask s)

/-- PULS (R248): does not arm NMI (D6) -/
def execPuls (mask : Byte) (s : State) : Answer := .next (pullRegs .s mask s)

/-- PULU (R249): pulling S may arm NMI (R403, D6; log 6) -/
def execPulu (mask : Byte) (s : State) : Answer := .next (armNmiIf (Config.puluArmsNmi && mask.getLsbD 6) (pullRegs .u mask s))

/-- STS (R250) -/
def execSts (a : Addr) (s : State) : Answer := .next (store16 .s a s)

/-- STU (R251) -/
def execStu (a : Addr) (s : State) : Answer := .next (store16 .u a s)

/-- STX (R252) -/
def execStx (a : Addr) (s : State) : Answer := .next (store16 .x a s)

/-- STY (R253) -/
def execSty (a : Addr) (s : State) : Answer := .next (store16 .y a s)

/-- TFR (R254): TFR to S may arm NMI (R403, D6; log 6) -/
def execTfr (src dst : Reg) (s : State) : Answer :=
  match transfer src dst s with
  | some τ => .next (armNmiIf (Config.tfrArmsNmi && dst == .r16 .s) τ)
  | none => .refused .unusedRegisterPostbyte

/-- ABX (R255): B unsigned, no flags -/
def execAbx (s : State) : Answer := .next (setPtr .x (s.x + zext8 s.b) s)

end Sys2Proof.Machine
end

