-- ==== Sys2Proof/Machine/Misc.lean ====
section
/-! DEFINITION. Miscellaneous instructions: 46_miscellaneous.md R290 to R301. -/

namespace Sys2Proof.Machine

/-- ANDCC (R290) -/
def execAndcc (n : Byte) (s : State) : Answer := .next (setCc (CC.ofByte (s.cc.toByte &&& n)) s)

/-- CWAI (R291): AND, E set, entire state stacked, then the wait of R419 (D10; log 18) -/
def execCwai (n : Byte) (s : State) : Answer :=
  let cc := { CC.ofByte (s.cc.toByte &&& n) with e := true }
  .next (setRun .cwaiWaiting (pushEntireState (setCc cc s)))

/-- NOP (R292) -/
def execNop (s : State) : Answer := .next s

/-- ORCC (R293) -/
def execOrcc (n : Byte) (s : State) : Answer := .next (setCc (CC.ofByte (s.cc.toByte ||| n)) s)

/-- JMP (R294) -/
def execJmp (a : Addr) (s : State) : Answer :=
  let e := effAddr a s
  .next (setPc e.1 e.2)

/-- JSR (R295): the address is complete before the push -/
def execJsr (a : Addr) (s : State) : Answer :=
  let e := effAddr a s
  .next (call e.1 e.2)

/-- RTI (R296) -/
def execRti (s : State) : Answer := .next (returnFromInterrupt s)

/-- RTS (R297) -/
def execRts (s : State) : Answer := .next (pullInto16 .s setPc s)

/-- SWI (R298) -/
def execSwi (s : State) : Answer := .next (takeException .swi s)

/-- SWI2 (R299) -/
def execSwi2 (s : State) : Answer := .next (takeException .swi2 s)

/-- SWI3 (R300) -/
def execSwi3 (s : State) : Answer := .next (takeException .swi3 s)

/-- SYNC (R301): the Sync state of R418 -/
def execSync (s : State) : Answer := .next (setRun .syncing s)

end Sys2Proof.Machine
end

