-- ==== Sys2Proof/Machine/Rmw8.lean ====
section
/-! DEFINITION. 8-bit read-modify-write instructions, DAA and MUL: 42_8bit_read_modify_write.md R192 to R226. -/

namespace Sys2Proof.Machine

/-- ASL (R192) -/
def execAsl (a : Addr) (s : State) : Answer := .next (rmwMemUndef asl8 a s)

/-- ASLA (R193) -/
def execAsla (s : State) : Answer := .next (rmwAccUndef asl8 .a s)

/-- ASLB (R194) -/
def execAslb (s : State) : Answer := .next (rmwAccUndef asl8 .b s)

/-- ASR (R195) -/
def execAsr (a : Addr) (s : State) : Answer := .next (rmwMemUndef asr8 a s)

/-- ASRA (R196) -/
def execAsra (s : State) : Answer := .next (rmwAccUndef asr8 .a s)

/-- ASRB (R197) -/
def execAsrb (s : State) : Answer := .next (rmwAccUndef asr8 .b s)

/-- CLR (R198) -/
def execClr (a : Addr) (s : State) : Answer := .next (rmwMem clr8 a s)

/-- CLRA (R199) -/
def execClra (s : State) : Answer := .next (rmwAcc clr8 .a s)

/-- CLRB (R200) -/
def execClrb (s : State) : Answer := .next (rmwAcc clr8 .b s)

/-- COM (R201) -/
def execCom (a : Addr) (s : State) : Answer := .next (rmwMem com8 a s)

/-- COMA (R202) -/
def execComa (s : State) : Answer := .next (rmwAcc com8 .a s)

/-- COMB (R203) -/
def execComb (s : State) : Answer := .next (rmwAcc com8 .b s)

/-- DAA (R204): the flag left `UNDEF` is V -/
def execDaa (s : State) : Answer := .next (rmwAccUndef daa8 .a s)

/-- DEC (R205) -/
def execDec (a : Addr) (s : State) : Answer := .next (rmwMem dec8 a s)

/-- DECA (R206) -/
def execDeca (s : State) : Answer := .next (rmwAcc dec8 .a s)

/-- DECB (R207) -/
def execDecb (s : State) : Answer := .next (rmwAcc dec8 .b s)

/-- INC (R208) -/
def execInc (a : Addr) (s : State) : Answer := .next (rmwMem inc8 a s)

/-- INCA (R209) -/
def execInca (s : State) : Answer := .next (rmwAcc inc8 .a s)

/-- INCB (R210) -/
def execIncb (s : State) : Answer := .next (rmwAcc inc8 .b s)

/-- LSR (R211) -/
def execLsr (a : Addr) (s : State) : Answer := .next (rmwMem lsr8 a s)

/-- LSRA (R212) -/
def execLsra (s : State) : Answer := .next (rmwAcc lsr8 .a s)

/-- LSRB (R213) -/
def execLsrb (s : State) : Answer := .next (rmwAcc lsr8 .b s)

/-- MUL (R214) -/
def execMul (s : State) : Answer :=
  let res := mul8 s.a s.b s.cc
  .next (setD res.1 (setCc res.2 s))

/-- NEG (R215) -/
def execNeg (a : Addr) (s : State) : Answer := .next (rmwMemUndef neg8 a s)

/-- NEGA (R216) -/
def execNega (s : State) : Answer := .next (rmwAccUndef neg8 .a s)

/-- NEGB (R217) -/
def execNegb (s : State) : Answer := .next (rmwAccUndef neg8 .b s)

/-- ROL (R218) -/
def execRol (a : Addr) (s : State) : Answer := .next (rmwMem rol8 a s)

/-- ROLA (R219) -/
def execRola (s : State) : Answer := .next (rmwAcc rol8 .a s)

/-- ROLB (R220) -/
def execRolb (s : State) : Answer := .next (rmwAcc rol8 .b s)

/-- ROR (R221) -/
def execRor (a : Addr) (s : State) : Answer := .next (rmwMem ror8 a s)

/-- RORA (R222) -/
def execRora (s : State) : Answer := .next (rmwAcc ror8 .a s)

/-- RORB (R223) -/
def execRorb (s : State) : Answer := .next (rmwAcc ror8 .b s)

/-- TST (R224) -/
def execTst (a : Addr) (s : State) : Answer := .next (testMem a s)

/-- TSTA (R225) -/
def execTsta (s : State) : Answer := .next (testAcc .a s)

/-- TSTB (R226) -/
def execTstb (s : State) : Answer := .next (testAcc .b s)

end Sys2Proof.Machine
end

