-- ==== Sys2Proof/Machine/Dispatch.lean ====
section
/-! DEFINITION. One arm per instruction, each one call of its meaning. The state given is the one in which the instruction's bytes have been fetched: PC is the address of the next instruction (R167). -/

namespace Sys2Proof.Machine

def exec (i : Instr) (s : State) : Host.Outcome State Fault Refusal :=
  match i with
  | .adca src => Sys2Proof.Machine.execAdca src s
  | .adcb src => Sys2Proof.Machine.execAdcb src s
  | .adda src => Sys2Proof.Machine.execAdda src s
  | .addb src => Sys2Proof.Machine.execAddb src s
  | .anda src => Sys2Proof.Machine.execAnda src s
  | .andb src => Sys2Proof.Machine.execAndb src s
  | .bita src => Sys2Proof.Machine.execBita src s
  | .bitb src => Sys2Proof.Machine.execBitb src s
  | .cmpa src => Sys2Proof.Machine.execCmpa src s
  | .cmpb src => Sys2Proof.Machine.execCmpb src s
  | .eora src => Sys2Proof.Machine.execEora src s
  | .eorb src => Sys2Proof.Machine.execEorb src s
  | .lda src => Sys2Proof.Machine.execLda src s
  | .ldb src => Sys2Proof.Machine.execLdb src s
  | .ora src => Sys2Proof.Machine.execOra src s
  | .orb src => Sys2Proof.Machine.execOrb src s
  | .sbca src => Sys2Proof.Machine.execSbca src s
  | .sbcb src => Sys2Proof.Machine.execSbcb src s
  | .sta a => Sys2Proof.Machine.execSta a s
  | .stb a => Sys2Proof.Machine.execStb a s
  | .suba src => Sys2Proof.Machine.execSuba src s
  | .subb src => Sys2Proof.Machine.execSubb src s
  | .asl a => Sys2Proof.Machine.execAsl a s
  | .asla => Sys2Proof.Machine.execAsla s
  | .aslb => Sys2Proof.Machine.execAslb s
  | .asr a => Sys2Proof.Machine.execAsr a s
  | .asra => Sys2Proof.Machine.execAsra s
  | .asrb => Sys2Proof.Machine.execAsrb s
  | .clr a => Sys2Proof.Machine.execClr a s
  | .clra => Sys2Proof.Machine.execClra s
  | .clrb => Sys2Proof.Machine.execClrb s
  | .com a => Sys2Proof.Machine.execCom a s
  | .coma => Sys2Proof.Machine.execComa s
  | .comb => Sys2Proof.Machine.execComb s
  | .daa => Sys2Proof.Machine.execDaa s
  | .dec a => Sys2Proof.Machine.execDec a s
  | .deca => Sys2Proof.Machine.execDeca s
  | .decb => Sys2Proof.Machine.execDecb s
  | .inc a => Sys2Proof.Machine.execInc a s
  | .inca => Sys2Proof.Machine.execInca s
  | .incb => Sys2Proof.Machine.execIncb s
  | .lsr a => Sys2Proof.Machine.execLsr a s
  | .lsra => Sys2Proof.Machine.execLsra s
  | .lsrb => Sys2Proof.Machine.execLsrb s
  | .mul => Sys2Proof.Machine.execMul s
  | .neg a => Sys2Proof.Machine.execNeg a s
  | .nega => Sys2Proof.Machine.execNega s
  | .negb => Sys2Proof.Machine.execNegb s
  | .rol a => Sys2Proof.Machine.execRol a s
  | .rola => Sys2Proof.Machine.execRola s
  | .rolb => Sys2Proof.Machine.execRolb s
  | .ror a => Sys2Proof.Machine.execRor a s
  | .rora => Sys2Proof.Machine.execRora s
  | .rorb => Sys2Proof.Machine.execRorb s
  | .tst a => Sys2Proof.Machine.execTst a s
  | .tsta => Sys2Proof.Machine.execTsta s
  | .tstb => Sys2Proof.Machine.execTstb s
  | .addd src => Sys2Proof.Machine.execAddd src s
  | .cmpd src => Sys2Proof.Machine.execCmpd src s
  | .ldd src => Sys2Proof.Machine.execLdd src s
  | .sex => Sys2Proof.Machine.execSex s
  | .std a => Sys2Proof.Machine.execStd a s
  | .subd src => Sys2Proof.Machine.execSubd src s
  | .cmps src => Sys2Proof.Machine.execCmps src s
  | .cmpu src => Sys2Proof.Machine.execCmpu src s
  | .cmpx src => Sys2Proof.Machine.execCmpx src s
  | .cmpy src => Sys2Proof.Machine.execCmpy src s
  | .exg src dst => Sys2Proof.Machine.execExg src dst s
  | .leas ix => Sys2Proof.Machine.execLeas ix s
  | .leau ix => Sys2Proof.Machine.execLeau ix s
  | .leax ix => Sys2Proof.Machine.execLeax ix s
  | .leay ix => Sys2Proof.Machine.execLeay ix s
  | .lds src => Sys2Proof.Machine.execLds src s
  | .ldu src => Sys2Proof.Machine.execLdu src s
  | .ldx src => Sys2Proof.Machine.execLdx src s
  | .ldy src => Sys2Proof.Machine.execLdy src s
  | .pshs mask => Sys2Proof.Machine.execPshs mask s
  | .pshu mask => Sys2Proof.Machine.execPshu mask s
  | .puls mask => Sys2Proof.Machine.execPuls mask s
  | .pulu mask => Sys2Proof.Machine.execPulu mask s
  | .sts a => Sys2Proof.Machine.execSts a s
  | .stu a => Sys2Proof.Machine.execStu a s
  | .stx a => Sys2Proof.Machine.execStx a s
  | .sty a => Sys2Proof.Machine.execSty a s
  | .tfr src dst => Sys2Proof.Machine.execTfr src dst s
  | .abx => Sys2Proof.Machine.execAbx s
  | .bra off => Sys2Proof.Machine.execBra off s
  | .brn off => Sys2Proof.Machine.execBrn off s
  | .bhi off => Sys2Proof.Machine.execBhi off s
  | .bls off => Sys2Proof.Machine.execBls off s
  | .bcc off => Sys2Proof.Machine.execBcc off s
  | .bcs off => Sys2Proof.Machine.execBcs off s
  | .bne off => Sys2Proof.Machine.execBne off s
  | .beq off => Sys2Proof.Machine.execBeq off s
  | .bvc off => Sys2Proof.Machine.execBvc off s
  | .bvs off => Sys2Proof.Machine.execBvs off s
  | .bpl off => Sys2Proof.Machine.execBpl off s
  | .bmi off => Sys2Proof.Machine.execBmi off s
  | .bge off => Sys2Proof.Machine.execBge off s
  | .blt off => Sys2Proof.Machine.execBlt off s
  | .bgt off => Sys2Proof.Machine.execBgt off s
  | .ble off => Sys2Proof.Machine.execBle off s
  | .bsr off => Sys2Proof.Machine.execBsr off s
  | .lbra off => Sys2Proof.Machine.execLbra off s
  | .lbrn off => Sys2Proof.Machine.execLbrn off s
  | .lbhi off => Sys2Proof.Machine.execLbhi off s
  | .lbls off => Sys2Proof.Machine.execLbls off s
  | .lbcc off => Sys2Proof.Machine.execLbcc off s
  | .lbcs off => Sys2Proof.Machine.execLbcs off s
  | .lbne off => Sys2Proof.Machine.execLbne off s
  | .lbeq off => Sys2Proof.Machine.execLbeq off s
  | .lbvc off => Sys2Proof.Machine.execLbvc off s
  | .lbvs off => Sys2Proof.Machine.execLbvs off s
  | .lbpl off => Sys2Proof.Machine.execLbpl off s
  | .lbmi off => Sys2Proof.Machine.execLbmi off s
  | .lbge off => Sys2Proof.Machine.execLbge off s
  | .lblt off => Sys2Proof.Machine.execLblt off s
  | .lbgt off => Sys2Proof.Machine.execLbgt off s
  | .lble off => Sys2Proof.Machine.execLble off s
  | .lbsr off => Sys2Proof.Machine.execLbsr off s
  | .andcc n => Sys2Proof.Machine.execAndcc n s
  | .cwai n => Sys2Proof.Machine.execCwai n s
  | .nop => Sys2Proof.Machine.execNop s
  | .orcc n => Sys2Proof.Machine.execOrcc n s
  | .jmp a => Sys2Proof.Machine.execJmp a s
  | .jsr a => Sys2Proof.Machine.execJsr a s
  | .rti => Sys2Proof.Machine.execRti s
  | .rts => Sys2Proof.Machine.execRts s
  | .swi => Sys2Proof.Machine.execSwi s
  | .swi2 => Sys2Proof.Machine.execSwi2 s
  | .swi3 => Sys2Proof.Machine.execSwi3 s
  | .sync => Sys2Proof.Machine.execSync s

end Sys2Proof.Machine
end

