-- ==== Sys2Proof/WellFormed.lean ====
section
/-! DEFINITION. Which terms of `Instr` are instructions of the machine. The illegal indexed postbytes have no term (R122); what is left to check is that TFR and EXG pair registers of one size (30_encoding.md R81). -/

namespace Sys2Proof

/-- "any register may be transferred to or exchanged with another of like-size" (R81). -/
def Reg.likeSize : Reg → Reg → Bool
  | .r16 _, .r16 _ => true
  | .r8 _, .r8 _ => true
  | .r16 _, .r8 _ => false
  | .r8 _, .r16 _ => false

/-- An instruction is well formed when TFR and EXG name two registers of like size (R81, R85); every other term is. -/
def Instr.wf : Instr → Bool
  | .tfr src dst => src.likeSize dst
  | .exg src dst => src.likeSize dst
  | _ => true

end Sys2Proof
end

