-- ==== Sys2Proof/Decode.lean ====
section
/-! DEFINITION. From bytes to instructions and back (30_encoding.md, 31_addressing_modes.md). `decode` is total: it answers an instruction with the bytes after it, or the name of what it found instead. -/

namespace Sys2Proof

open Sys2Proof.Machine (hi lo join)

/-- Why bytes are not an instruction. Each is a refusal of the model, not an event of the hardware (R84, R85, R400). -/
inductive DecodeError where
  /-- an opcode that page 1, 2 or 3 does not list (R84) -/
  | unusedOpcode (page : Nat) (op : Byte)
  /-- one of the 39 unused indexed postbytes (R122) -/
  | unusedPostbyte (pb : Byte)
  /-- a TFR or EXG postbyte that names no like-size pair (R85) -/
  | unusedRegisterPair (pb : Byte)
  /-- the bytes end before the instruction does -/
  | truncated
deriving DecidableEq, Repr

/-- What a decoder answers: a value and the bytes after it, or an error. -/
abbrev Decoded (α : Type) := Except DecodeError (α × List Byte)

/-- Bits 7 to 4 of an opcode (the column of R75 and R77). -/
def hiNibble (op : Byte) : Nat := op.toNat / 16

/-- Bits 3 to 0 of an opcode (the row of R75 and R77). -/
def loNibble (op : Byte) : Nat := op.toNat % 16

/-- Apply a function to a decoded value. -/
def mapDecoded {α β : Type} (f : α → β) : Decoded α → Decoded β
  | .ok (v, rest) => .ok (f v, rest)
  | .error e => .error e

/-- One operand byte (R80). -/
def takeByte : List Byte → Decoded Byte
  | n :: rest => .ok (n, rest)
  | [] => .error .truncated

/-- Two operand bytes, the high byte first (R41, R70). -/
def takeWord : List Byte → Decoded Word
  | h :: l :: rest => .ok (join h l, rest)
  | _ => .error .truncated

/-! ## Operand fields -/

/-- Bits 6 and 5 of an indexed postbyte: 00 X, 01 Y, 10 U, 11 S (R103). -/
def postbytePtr (pb : Byte) : Ptr :=
  match pb.toNat / 32 % 4 with
  | 0 => .x
  | 1 => .y
  | 2 => .u
  | _ => .s

/-- The `type` field of a postbyte whose bit 7 is 1, for the forms that may be indirect (R104); the extra bytes follow (R83). -/
def decodeBase (pb : Byte) (rest : List Byte) : Decoded IdxBase :=
  let r := postbytePtr pb
  match loNibble pb with
  | 0x1 => .ok (.inc2 r, rest)
  | 0x3 => .ok (.dec2 r, rest)
  | 0x4 => .ok (.zero r, rest)
  | 0x5 => .ok (.accB r, rest)
  | 0x6 => .ok (.accA r, rest)
  | 0x8 => mapDecoded (.off8 r) (takeByte rest)
  | 0x9 => mapDecoded (.off16 r) (takeWord rest)
  | 0xB => .ok (.accD r, rest)
  | 0xC => mapDecoded .pcr8 (takeByte rest)
  | 0xD => mapDecoded .pcr16 (takeWord rest)
  | _ => .error (.unusedPostbyte pb)

/-- The indexed postbyte and its extra bytes (R103, R104, R122, R123). -/
def decodeIdx : List Byte → Decoded Idx
  | [] => .error .truncated
  | pb :: rest =>
    if pb.getLsbD 7 then
      if pb.getLsbD 4 then
        if pb = 0x9F#8 then mapDecoded .extIndirect (takeWord rest)
        else mapDecoded .indirect (decodeBase pb rest)
      else
        match loNibble pb with
        | 0x0 => .ok (.inc1 (postbytePtr pb), rest)
        | 0x2 => .ok (.dec1 (postbytePtr pb), rest)
        | _ => mapDecoded .plain (decodeBase pb rest)
    else .ok (.off5 (postbytePtr pb) (pb.extractLsb' 0 5), rest)

/-- The memory modes of the regular columns (R74): direct, indexed, extended. -/
inductive MemMode where
  | direct | indexed | extended
deriving DecidableEq, Repr

/-- The modes of the accumulator group (R74): immediate or in memory. -/
inductive Mode where
  | immediate
  | memory (m : MemMode)
deriving DecidableEq, Repr

/-- An effective address in a given mode (R98, R99, R103). -/
def decodeAddr (m : MemMode) (rest : List Byte) : Decoded Addr :=
  match m with
  | .direct => mapDecoded .direct (takeByte rest)
  | .indexed => mapDecoded .indexed (decodeIdx rest)
  | .extended => mapDecoded .extended (takeWord rest)

/-- An 8-bit operand in a given mode (R140). -/
def decodeSrc8 (m : Mode) (rest : List Byte) : Decoded Src8 :=
  match m with
  | .immediate => mapDecoded .imm (takeByte rest)
  | .memory m => mapDecoded .mem (decodeAddr m rest)

/-- A 16-bit operand in a given mode (R140). -/
def decodeSrc16 (m : Mode) (rest : List Byte) : Decoded Src16 :=
  match m with
  | .immediate => mapDecoded .imm (takeWord rest)
  | .memory m => mapDecoded .mem (decodeAddr m rest)

/-- A register code of the TFR/EXG postbyte (R81). -/
def decodeReg : Nat → Option Reg
  | 0x0 => some (.r16 .d)
  | 0x1 => some (.r16 .x)
  | 0x2 => some (.r16 .y)
  | 0x3 => some (.r16 .u)
  | 0x4 => some (.r16 .s)
  | 0x5 => some (.r16 .pc)
  | 0x8 => some (.r8 .a)
  | 0x9 => some (.r8 .b)
  | 0xA => some (.r8 .cc)
  | 0xB => some (.r8 .dp)
  | _ => none

/-- The TFR/EXG postbyte: bits 7 to 4 the source, bits 3 to 0 the destination, both of one size (R81, R85). -/
def decodeRegPair (f : Reg → Reg → Instr) : List Byte → Decoded Instr
  | [] => .error .truncated
  | pb :: rest =>
    match decodeReg (hiNibble pb), decodeReg (loNibble pb) with
    | some src, some dst => if src.likeSize dst then .ok (f src dst, rest) else .error (.unusedRegisterPair pb)
    | _, _ => .error (.unusedRegisterPair pb)

/-! ## The opcode map -/

/-- What a cell of the $8x to $Fx columns holds (R77): an instruction that still wants its operand. -/
inductive Slot where
  | src8 (f : Src8 → Instr)
  | src16 (f : Src16 → Instr)
  | addr (f : Addr → Instr)

/-- Decode the operand of a cell; the store and JSR rows have no immediate form (R74). -/
def decodeSlot (page : Nat) (op : Byte) (s : Slot) (m : Mode) (rest : List Byte) : Decoded Instr :=
  match s with
  | .src8 f => mapDecoded f (decodeSrc8 m rest)
  | .src16 f => mapDecoded f (decodeSrc16 m rest)
  | .addr f =>
    match m with
    | .immediate => .error (.unusedOpcode page op)
    | .memory m => mapDecoded f (decodeAddr m rest)

/-- Bits 5 and 4 of a $8x to $Fx opcode (R74). -/
def columnMode (op : Byte) : Mode :=
  match op.toNat / 16 % 4 with
  | 0 => .immediate
  | 1 => .memory .direct
  | 2 => .memory .indexed
  | _ => .memory .extended

/-- The memory read-modify-write group, columns $0x, $6x, $7x (R75). -/
def rmwRow : Nat → Option (Addr → Instr)
  | 0x0 => some .neg
  | 0x3 => some .com
  | 0x4 => some .lsr
  | 0x6 => some .ror
  | 0x7 => some .asr
  | 0x8 => some .asl
  | 0x9 => some .rol
  | 0xA => some .dec
  | 0xC => some .inc
  | 0xD => some .tst
  | 0xE => some .jmp
  | 0xF => some .clr
  | _ => none

/-- The same operations on A, column $4x (R75). -/
def accARow : Nat → Option Instr
  | 0x0 => some .nega
  | 0x3 => some .coma
  | 0x4 => some .lsra
  | 0x6 => some .rora
  | 0x7 => some .asra
  | 0x8 => some .asla
  | 0x9 => some .rola
  | 0xA => some .deca
  | 0xC => some .inca
  | 0xD => some .tsta
  | 0xF => some .clra
  | _ => none

/-- The same operations on B, column $5x (R75). -/
def accBRow : Nat → Option Instr
  | 0x0 => some .negb
  | 0x3 => some .comb
  | 0x4 => some .lsrb
  | 0x6 => some .rorb
  | 0x7 => some .asrb
  | 0x8 => some .aslb
  | 0x9 => some .rolb
  | 0xA => some .decb
  | 0xC => some .incb
  | 0xD => some .tstb
  | 0xF => some .clrb
  | _ => none

/-- The short branches, column $2x, the condition in the low nibble (R75, R164). -/
def shortRow : Nat → Byte → Instr
  | 0x0 => .bra
  | 0x1 => .brn
  | 0x2 => .bhi
  | 0x3 => .bls
  | 0x4 => .bcc
  | 0x5 => .bcs
  | 0x6 => .bne
  | 0x7 => .beq
  | 0x8 => .bvc
  | 0x9 => .bvs
  | 0xA => .bpl
  | 0xB => .bmi
  | 0xC => .bge
  | 0xD => .blt
  | 0xE => .bgt
  | _ => .ble

/-- The long branches behind $10; $10 $20 is unused (R78). -/
def longRow : Nat → Option (Word → Instr)
  | 0x1 => some .lbrn
  | 0x2 => some .lbhi
  | 0x3 => some .lbls
  | 0x4 => some .lbcc
  | 0x5 => some .lbcs
  | 0x6 => some .lbne
  | 0x7 => some .lbeq
  | 0x8 => some .lbvc
  | 0x9 => some .lbvs
  | 0xA => some .lbpl
  | 0xB => some .lbmi
  | 0xC => some .lbge
  | 0xD => some .lblt
  | 0xE => some .lbgt
  | 0xF => some .lble
  | _ => none

/-- Columns $8x to $Bx of page 1, but for BSR (R77). -/
def slotA : Nat → Slot
  | 0x0 => .src8 .suba
  | 0x1 => .src8 .cmpa
  | 0x2 => .src8 .sbca
  | 0x3 => .src16 .subd
  | 0x4 => .src8 .anda
  | 0x5 => .src8 .bita
  | 0x6 => .src8 .lda
  | 0x7 => .addr .sta
  | 0x8 => .src8 .eora
  | 0x9 => .src8 .adca
  | 0xA => .src8 .ora
  | 0xB => .src8 .adda
  | 0xC => .src16 .cmpx
  | 0xD => .addr .jsr
  | 0xE => .src16 .ldx
  | _ => .addr .stx

/-- Columns $Cx to $Fx of page 1 (R77). -/
def slotB : Nat → Slot
  | 0x0 => .src8 .subb
  | 0x1 => .src8 .cmpb
  | 0x2 => .src8 .sbcb
  | 0x3 => .src16 .addd
  | 0x4 => .src8 .andb
  | 0x5 => .src8 .bitb
  | 0x6 => .src8 .ldb
  | 0x7 => .addr .stb
  | 0x8 => .src8 .eorb
  | 0x9 => .src8 .adcb
  | 0xA => .src8 .orb
  | 0xB => .src8 .addb
  | 0xC => .src16 .ldd
  | 0xD => .addr .std
  | 0xE => .src16 .ldu
  | _ => .addr .stu

/-- Column $1x of page 1 after the prefixes (R75). -/
def decodeColumn1 (op : Byte) (rest : List Byte) : Decoded Instr :=
  match loNibble op with
  | 0x2 => .ok (.nop, rest)
  | 0x3 => .ok (.sync, rest)
  | 0x6 => mapDecoded .lbra (takeWord rest)
  | 0x7 => mapDecoded .lbsr (takeWord rest)
  | 0x9 => .ok (.daa, rest)
  | 0xA => mapDecoded .orcc (takeByte rest)
  | 0xC => mapDecoded .andcc (takeByte rest)
  | 0xD => .ok (.sex, rest)
  | 0xE => decodeRegPair .exg rest
  | 0xF => decodeRegPair .tfr rest
  | _ => .error (.unusedOpcode 1 op)

/-- Column $3x of page 1 (R75). -/
def decodeColumn3 (op : Byte) (rest : List Byte) : Decoded Instr :=
  match loNibble op with
  | 0x0 => mapDecoded .leax (decodeIdx rest)
  | 0x1 => mapDecoded .leay (decodeIdx rest)
  | 0x2 => mapDecoded .leas (decodeIdx rest)
  | 0x3 => mapDecoded .leau (decodeIdx rest)
  | 0x4 => mapDecoded .pshs (takeByte rest)
  | 0x5 => mapDecoded .puls (takeByte rest)
  | 0x6 => mapDecoded .pshu (takeByte rest)
  | 0x7 => mapDecoded .pulu (takeByte rest)
  | 0x9 => .ok (.rts, rest)
  | 0xA => .ok (.abx, rest)
  | 0xB => .ok (.rti, rest)
  | 0xC => mapDecoded .cwai (takeByte rest)
  | 0xD => .ok (.mul, rest)
  | 0xF => .ok (.swi, rest)
  | _ => .error (.unusedOpcode 1 op)

/-- A cell that may be empty. -/
def decodeInherent (op : Byte) (i : Option Instr) (rest : List Byte) : Decoded Instr :=
  match i with
  | some i => .ok (i, rest)
  | none => .error (.unusedOpcode 1 op)

/-- A cell of the memory read-modify-write columns. -/
def decodeRmw (op : Byte) (m : MemMode) (rest : List Byte) : Decoded Instr :=
  match rmwRow (loNibble op) with
  | some f => mapDecoded f (decodeAddr m rest)
  | none => .error (.unusedOpcode 1 op)

/-- Page 1 after the prefixes: R75 and R77. -/
def decodePage1 (op : Byte) (rest : List Byte) : Decoded Instr :=
  match hiNibble op with
  | 0x0 => decodeRmw op .direct rest
  | 0x1 => decodeColumn1 op rest
  | 0x2 => mapDecoded (shortRow (loNibble op)) (takeByte rest)
  | 0x3 => decodeColumn3 op rest
  | 0x4 => decodeInherent op (accARow (loNibble op)) rest
  | 0x5 => decodeInherent op (accBRow (loNibble op)) rest
  | 0x6 => decodeRmw op .indexed rest
  | 0x7 => decodeRmw op .extended rest
  | h =>
    if op = 0x8D#8 then mapDecoded .bsr (takeByte rest)
    else if h < 0xC then decodeSlot 1 op (slotA (loNibble op)) (columnMode op) rest
    else decodeSlot 1 op (slotB (loNibble op)) (columnMode op) rest

/-- Page 2, the byte after $10 (R78). -/
def decodePage2 (op : Byte) (rest : List Byte) : Decoded Instr :=
  match hiNibble op, loNibble op with
  | 0x2, c =>
    match longRow c with
    | some f => mapDecoded f (takeWord rest)
    | none => .error (.unusedOpcode 2 op)
  | 0x3, 0xF => .ok (.swi2, rest)
  | h, 0x3 => if 0x8 ≤ h ∧ h < 0xC then decodeSlot 2 op (.src16 .cmpd) (columnMode op) rest else .error (.unusedOpcode 2 op)
  | h, 0xC => if 0x8 ≤ h ∧ h < 0xC then decodeSlot 2 op (.src16 .cmpy) (columnMode op) rest else .error (.unusedOpcode 2 op)
  | h, 0xE =>
    if 0xC ≤ h then decodeSlot 2 op (.src16 .lds) (columnMode op) rest
    else if 0x8 ≤ h then decodeSlot 2 op (.src16 .ldy) (columnMode op) rest
    else .error (.unusedOpcode 2 op)
  | h, 0xF =>
    if 0xC ≤ h then decodeSlot 2 op (.addr .sts) (columnMode op) rest
    else if 0x8 ≤ h then decodeSlot 2 op (.addr .sty) (columnMode op) rest
    else .error (.unusedOpcode 2 op)
  | _, _ => .error (.unusedOpcode 2 op)

/-- Page 3, the byte after $11 (R79). -/
def decodePage3 (op : Byte) (rest : List Byte) : Decoded Instr :=
  match hiNibble op, loNibble op with
  | 0x3, 0xF => .ok (.swi3, rest)
  | h, 0x3 => if 0x8 ≤ h ∧ h < 0xC then decodeSlot 3 op (.src16 .cmpu) (columnMode op) rest else .error (.unusedOpcode 3 op)
  | h, 0xC => if 0x8 ≤ h ∧ h < 0xC then decodeSlot 3 op (.src16 .cmps) (columnMode op) rest else .error (.unusedOpcode 3 op)
  | _, _ => .error (.unusedOpcode 3 op)

/-- An instruction and the bytes after it (R70, R73, R167's `lookup`). -/
def decode : List Byte → Decoded Instr
  | [] => .error .truncated
  | b0 :: rest =>
    if b0 = 0x10#8 then
      match rest with
      | [] => .error .truncated
      | op :: rest => decodePage2 op rest
    else if b0 = 0x11#8 then
      match rest with
      | [] => .error .truncated
      | op :: rest => decodePage3 op rest
    else decodePage1 b0 rest

/-! ## The encoder -/

/-- The code of a pointer register in bits 6 and 5 (R103). -/
def encodePtr : Ptr → Byte
  | .x => 0x00
  | .y => 0x20
  | .u => 0x40
  | .s => 0x60

/-- Two operand bytes, high byte first. -/
def encodeWord (w : Word) : List Byte := [hi w, lo w]

/-- The postbyte of a form that may be indirect, `i` its bit 4, and the bytes after it (R104); the don't-care bits of the PC-relative forms are 00. -/
def encodeBase (i : Byte) : IdxBase → List Byte
  | .zero r => [0x84 ||| encodePtr r ||| i]
  | .off8 r n => [0x88 ||| encodePtr r ||| i, n]
  | .off16 r n => (0x89 ||| encodePtr r ||| i) :: encodeWord n
  | .accA r => [0x86 ||| encodePtr r ||| i]
  | .accB r => [0x85 ||| encodePtr r ||| i]
  | .accD r => [0x8B ||| encodePtr r ||| i]
  | .inc2 r => [0x81 ||| encodePtr r ||| i]
  | .dec2 r => [0x83 ||| encodePtr r ||| i]
  | .pcr8 n => [0x8C ||| i, n]
  | .pcr16 n => (0x8D ||| i) :: encodeWord n

/-- The indexed postbyte and the bytes after it (R104). -/
def encodeIdx : Idx → List Byte
  | .off5 r n => [encodePtr r ||| n.setWidth 8]
  | .inc1 r => [0x80 ||| encodePtr r]
  | .dec1 r => [0x82 ||| encodePtr r]
  | .plain m => encodeBase 0x00 m
  | .indirect m => encodeBase 0x10 m
  | .extIndirect n => 0x9F :: encodeWord n

/-- An address behind the opcodes of its three modes. -/
def encodeAddr (direct indexed extended : List Byte) : Addr → List Byte
  | .direct n => direct ++ [n]
  | .indexed i => indexed ++ encodeIdx i
  | .extended n => extended ++ encodeWord n

/-- The read-modify-write columns: row `r` of $0x, $6x, $7x (R75). -/
def encodeRmw (r : Byte) : Addr → List Byte :=
  encodeAddr [r] [0x60 ||| r] [0x70 ||| r]

/-- The store columns: `p` the prefix bytes, `op` the opcode of the direct form (R77, R78). -/
def encodeStore (p : List Byte) (op : Byte) : Addr → List Byte :=
  encodeAddr (p ++ [op]) (p ++ [op + 0x10]) (p ++ [op + 0x20])

/-- An 8-bit operand: `op` the opcode of the immediate form (R77). -/
def encodeSrc8 (op : Byte) : Src8 → List Byte
  | .imm n => [op, n]
  | .mem a => encodeStore [] (op + 0x10) a

/-- A 16-bit operand: `p` the prefix bytes, `op` the opcode of the immediate form (R77 to R79). -/
def encodeSrc16 (p : List Byte) (op : Byte) : Src16 → List Byte
  | .imm n => p ++ op :: encodeWord n
  | .mem a => encodeStore p (op + 0x10) a

/-- The code of a register in the TFR/EXG postbyte (R81). -/
def encodeReg : Reg → Byte
  | .r16 .d => 0x0
  | .r16 .x => 0x1
  | .r16 .y => 0x2
  | .r16 .u => 0x3
  | .r16 .s => 0x4
  | .r16 .pc => 0x5
  | .r8 .a => 0x8
  | .r8 .b => 0x9
  | .r8 .cc => 0xA
  | .r8 .dp => 0xB

/-- The TFR/EXG postbyte (R81). -/
def encodePair (src dst : Reg) : Byte := encodeReg src <<< 4 ||| encodeReg dst

/-- The bytes of an instruction, the first fetched first (R70, R72). -/
def encode : Instr → List Byte
  | .adca src => encodeSrc8 0x89 src
  | .adcb src => encodeSrc8 0xC9 src
  | .adda src => encodeSrc8 0x8B src
  | .addb src => encodeSrc8 0xCB src
  | .anda src => encodeSrc8 0x84 src
  | .andb src => encodeSrc8 0xC4 src
  | .bita src => encodeSrc8 0x85 src
  | .bitb src => encodeSrc8 0xC5 src
  | .cmpa src => encodeSrc8 0x81 src
  | .cmpb src => encodeSrc8 0xC1 src
  | .eora src => encodeSrc8 0x88 src
  | .eorb src => encodeSrc8 0xC8 src
  | .lda src => encodeSrc8 0x86 src
  | .ldb src => encodeSrc8 0xC6 src
  | .ora src => encodeSrc8 0x8A src
  | .orb src => encodeSrc8 0xCA src
  | .sbca src => encodeSrc8 0x82 src
  | .sbcb src => encodeSrc8 0xC2 src
  | .sta a => encodeStore [] 0x97 a
  | .stb a => encodeStore [] 0xD7 a
  | .suba src => encodeSrc8 0x80 src
  | .subb src => encodeSrc8 0xC0 src
  | .asl a => encodeRmw 0x08 a
  | .asla => [0x48]
  | .aslb => [0x58]
  | .asr a => encodeRmw 0x07 a
  | .asra => [0x47]
  | .asrb => [0x57]
  | .clr a => encodeRmw 0x0F a
  | .clra => [0x4F]
  | .clrb => [0x5F]
  | .com a => encodeRmw 0x03 a
  | .coma => [0x43]
  | .comb => [0x53]
  | .daa => [0x19]
  | .dec a => encodeRmw 0x0A a
  | .deca => [0x4A]
  | .decb => [0x5A]
  | .inc a => encodeRmw 0x0C a
  | .inca => [0x4C]
  | .incb => [0x5C]
  | .lsr a => encodeRmw 0x04 a
  | .lsra => [0x44]
  | .lsrb => [0x54]
  | .mul => [0x3D]
  | .neg a => encodeRmw 0x00 a
  | .nega => [0x40]
  | .negb => [0x50]
  | .rol a => encodeRmw 0x09 a
  | .rola => [0x49]
  | .rolb => [0x59]
  | .ror a => encodeRmw 0x06 a
  | .rora => [0x46]
  | .rorb => [0x56]
  | .tst a => encodeRmw 0x0D a
  | .tsta => [0x4D]
  | .tstb => [0x5D]
  | .addd src => encodeSrc16 [] 0xC3 src
  | .cmpd src => encodeSrc16 [0x10] 0x83 src
  | .ldd src => encodeSrc16 [] 0xCC src
  | .sex => [0x1D]
  | .std a => encodeStore [] 0xDD a
  | .subd src => encodeSrc16 [] 0x83 src
  | .cmps src => encodeSrc16 [0x11] 0x8C src
  | .cmpu src => encodeSrc16 [0x11] 0x83 src
  | .cmpx src => encodeSrc16 [] 0x8C src
  | .cmpy src => encodeSrc16 [0x10] 0x8C src
  | .exg src dst => [0x1E, encodePair src dst]
  | .leas i => 0x32 :: encodeIdx i
  | .leau i => 0x33 :: encodeIdx i
  | .leax i => 0x30 :: encodeIdx i
  | .leay i => 0x31 :: encodeIdx i
  | .lds src => encodeSrc16 [0x10] 0xCE src
  | .ldu src => encodeSrc16 [] 0xCE src
  | .ldx src => encodeSrc16 [] 0x8E src
  | .ldy src => encodeSrc16 [0x10] 0x8E src
  | .pshs mask => [0x34, mask]
  | .pshu mask => [0x36, mask]
  | .puls mask => [0x35, mask]
  | .pulu mask => [0x37, mask]
  | .sts a => encodeStore [0x10] 0xDF a
  | .stu a => encodeStore [] 0xDF a
  | .stx a => encodeStore [] 0x9F a
  | .sty a => encodeStore [0x10] 0x9F a
  | .tfr src dst => [0x1F, encodePair src dst]
  | .abx => [0x3A]
  | .bra off => [0x20, off]
  | .brn off => [0x21, off]
  | .bhi off => [0x22, off]
  | .bls off => [0x23, off]
  | .bcc off => [0x24, off]
  | .bcs off => [0x25, off]
  | .bne off => [0x26, off]
  | .beq off => [0x27, off]
  | .bvc off => [0x28, off]
  | .bvs off => [0x29, off]
  | .bpl off => [0x2A, off]
  | .bmi off => [0x2B, off]
  | .bge off => [0x2C, off]
  | .blt off => [0x2D, off]
  | .bgt off => [0x2E, off]
  | .ble off => [0x2F, off]
  | .bsr off => [0x8D, off]
  | .lbra off => 0x16 :: encodeWord off
  | .lbrn off => 0x10 :: 0x21 :: encodeWord off
  | .lbhi off => 0x10 :: 0x22 :: encodeWord off
  | .lbls off => 0x10 :: 0x23 :: encodeWord off
  | .lbcc off => 0x10 :: 0x24 :: encodeWord off
  | .lbcs off => 0x10 :: 0x25 :: encodeWord off
  | .lbne off => 0x10 :: 0x26 :: encodeWord off
  | .lbeq off => 0x10 :: 0x27 :: encodeWord off
  | .lbvc off => 0x10 :: 0x28 :: encodeWord off
  | .lbvs off => 0x10 :: 0x29 :: encodeWord off
  | .lbpl off => 0x10 :: 0x2A :: encodeWord off
  | .lbmi off => 0x10 :: 0x2B :: encodeWord off
  | .lbge off => 0x10 :: 0x2C :: encodeWord off
  | .lblt off => 0x10 :: 0x2D :: encodeWord off
  | .lbgt off => 0x10 :: 0x2E :: encodeWord off
  | .lble off => 0x10 :: 0x2F :: encodeWord off
  | .lbsr off => 0x17 :: encodeWord off
  | .andcc n => [0x1C, n]
  | .cwai n => [0x3C, n]
  | .nop => [0x12]
  | .orcc n => [0x1A, n]
  | .jmp a => encodeRmw 0x0E a
  | .jsr a => encodeStore [] 0x9D a
  | .rti => [0x3B]
  | .rts => [0x39]
  | .swi => [0x3F]
  | .swi2 => [0x10, 0x3F]
  | .swi3 => [0x11, 0x3F]
  | .sync => [0x13]

/-! ## The words of spec/opcode_table.json -/

/-- The five bytes of an instruction whose table bits are `w` (log 32). The first byte is bits 7 to 0, the next one bits 15 to 8, and so on; where the table's own number of a two-byte opcode holds the prefix in bits 15 to 8, the two bytes are taken in that order. Bytes above `nbits` are zero. -/
def tableBytes (nbits w : Nat) : List Byte :=
  let v := w % 2 ^ nbits
  let b (k : Nat) : Byte := BitVec.ofNat 8 (v / 256 ^ k)
  if nbits = 16 ∧ (b 1 = 0x10#8 ∨ b 1 = 0x11#8) then [b 1, b 0, 0, 0, 0]
  else [b 0, b 1, b 2, b 3, b 4]

/-- The instruction `decode` reads from a table word (log 32). -/
def decodeTableWord (nbits w : Nat) : Option Instr :=
  match decode (tableBytes nbits w) with
  | .ok (i, _) => some i
  | .error _ => none

end Sys2Proof
end

