-- ==== Sys2Proof/Machine/Fetch.lean ====
section
/-! DEFINITION. Fetching an instruction (20_memory.md R45, 40_common_operations.md R167) and laying one out in memory. -/

namespace Sys2Proof.Machine

/-- `Fetch8` for its effect: one read at PC, then PC + 1 (R45). -/
def fetchByte (σ : State) : State := setPc (σ.pc + 1) (readByte σ.pc σ).2

/-- `n` bytes fetched one after the other (R45). -/
def fetchBytes : Nat → State → State
  | 0, σ => σ
  | n + 1, σ => fetchBytes n (fetchByte σ)

/-- The byte that the fetch after `n` others reads. -/
def fetched (n : Nat) (σ : State) : Byte :=
  (readByte (fetchBytes n σ).pc (fetchBytes n σ)).1

/-- The five bytes that fetches from PC on would read: no instruction is longer (R71), and decoding depends on the instruction's own bytes alone, so only those are fetched (log 36). -/
def fetchWindow (σ : State) : List Byte := [fetched 0 σ, fetched 1 σ, fetched 2 σ, fetched 3 σ, fetched 4 σ]

/-- The state an instruction of `n` bytes starts its operation in: its bytes fetched, PC past them (R15), and the cycles without an access passed that the spec puts right after the fetch. -/
def afterFetch (i : Instr) (n : Nat) (σ : State) : State :=
  vmaCycles (leadCycles i) (fetchBytes n σ)

/-- `exec` is done: its cycles are counted, and those without an access are still to pass (R468; log 26, log 28). -/
def settleOutcome (i : Instr) (o : Host.Outcome State Fault Refusal) : Host.Outcome State Fault Refusal :=
  match o with
  | .next σ => .next (completeCycles (instrCycles i σ) σ)
  | .fault r => .fault r
  | .refused r => .refused r

/-- The refusal a decoder's error turns into (R84, R85). -/
def refusalOf : DecodeError → Refusal
  | .unusedOpcode _ _ => .unusedOpcode
  | .unusedPostbyte _ => .unusedIndexedPostbyte
  | .unusedRegisterPair _ => .unusedRegisterPostbyte
  | .truncated => .incompleteInstruction

/-- Bytes stored at consecutive addresses, wrapping (R44). -/
def storeBytes (a : Word) : List Byte → Memory → Memory
  | [], m => m
  | v :: vs, m => storeBytes (a + 1) vs (m.write a.toNat v)

end Sys2Proof.Machine
end

