-- ==== Sys2Proof/Machine/Step.lean ====
section
/-! DEFINITION. One step of the machine (R8, R428): one instruction, one entry sequence, or one more cycle of a wait. -/

namespace Sys2Proof.Machine

/-- Run the instruction at PC, or refuse the bytes found there (R84, R85, R167). -/
def stepInstruction (s : State) : Host.Outcome State Fault Refusal :=
  match decode (fetchWindow s) with
  | .ok (i, rest) =>
    settleOutcome i (exec i (afterFetch i (5 - rest.length) s))
  | .error e => .refused (refusalOf e)

/-- One step of the main loop (R428); RES may cut it short (R430). -/
def step (s : State) : Host.Outcome State Fault Refusal :=
  match boundary s with
  | .done t => .next (cutByReset s t)
  | .instruction t =>
    match stepInstruction t with
    | .next u => .next (cutByReset s u)
    | .fault r => .fault r
    | .refused r => .refused r

/-- `s` with the instruction of a table word stored at PC, and with nothing that would keep the next step from fetching it (log 32). -/
def State.withFetchWord (s : State) (nbits w : Nat) : State :=
  { s with
    platform := []
    mem := storeBytes s.pc (tableBytes nbits w) s.mem
    env := []
    run := .running
    halted := false
    busGranted := false
    inReset := false
    nmiPending := false }

end Sys2Proof.Machine
end

