-- ==== Sys2Proof/Safety.lean ====
section
/-! DEFINITION. The terms the statements use: families of instructions under one name, what an instruction leaves unchanged, the results the rules give written over the integers, stack frames, and the invariant of the machine. Nothing here is part of the machine. -/

namespace Sys2Proof.Machine

/-! ## Families of instructions -/

/-- ADDA, ADDB, and with the carry ADCA, ADCB. -/
def addI : Acc → Bool → Src8 → Instr
  | .a, false => .adda
  | .b, false => .addb
  | .a, true => .adca
  | .b, true => .adcb

/-- SUBA, SUBB, and with the borrow SBCA, SBCB. -/
def subI : Acc → Bool → Src8 → Instr
  | .a, false => .suba
  | .b, false => .subb
  | .a, true => .sbca
  | .b, true => .sbcb

/-- CMPA, CMPB. -/
def cmpI : Acc → Src8 → Instr
  | .a => .cmpa
  | .b => .cmpb

/-- BITA, BITB. -/
def bitI : Acc → Src8 → Instr
  | .a => .bita
  | .b => .bitb

/-- The three logical operations of an accumulator. -/
inductive LogicOp where
  | and | or | eor
deriving DecidableEq, Repr

/-- ANDA ANDB ORA ORB EORA EORB. -/
def logicI : LogicOp → Acc → Src8 → Instr
  | .and, .a => .anda
  | .and, .b => .andb
  | .or, .a => .ora
  | .or, .b => .orb
  | .eor, .a => .eora
  | .eor, .b => .eorb

/-- One bit of the result of a logical operation. -/
def logicBit : LogicOp → Bool → Bool → Bool
  | .and, p, q => p && q
  | .or, p, q => p || q
  | .eor, p, q => p != q

/-- LDA, LDB. -/
def ldI : Acc → Src8 → Instr
  | .a => .lda
  | .b => .ldb

/-- STA, STB. -/
def stI : Acc → Addr → Instr
  | .a => .sta
  | .b => .stb

/-- The ten read-modify-write operations (R148 to R158 but for TST). -/
inductive RmwOp where
  | neg | com | lsr | ror | asr | asl | rol | dec | inc | clr
deriving DecidableEq, Repr

/-- NEG COM LSR ROR ASR ASL ROL DEC INC CLR on memory. -/
def rmwI : RmwOp → Addr → Instr
  | .neg => .neg
  | .com => .com
  | .lsr => .lsr
  | .ror => .ror
  | .asr => .asr
  | .asl => .asl
  | .rol => .rol
  | .dec => .dec
  | .inc => .inc
  | .clr => .clr

/-- The same on A and B: NEGA to CLRA, NEGB to CLRB. -/
def rmwAccI : RmwOp → Acc → Instr
  | .neg, .a => .nega
  | .com, .a => .coma
  | .lsr, .a => .lsra
  | .ror, .a => .rora
  | .asr, .a => .asra
  | .asl, .a => .asla
  | .rol, .a => .rola
  | .dec, .a => .deca
  | .inc, .a => .inca
  | .clr, .a => .clra
  | .neg, .b => .negb
  | .com, .b => .comb
  | .lsr, .b => .lsrb
  | .ror, .b => .rorb
  | .asr, .b => .asrb
  | .asl, .b => .aslb
  | .rol, .b => .rolb
  | .dec, .b => .decb
  | .inc, .b => .incb
  | .clr, .b => .clrb

/-- TSTA, TSTB. -/
def tstAccI : Acc → Instr
  | .a => .tsta
  | .b => .tstb

/-- The five registers of the 16-bit compares, loads and stores. -/
inductive WordReg where
  | d | x | y | u | s
deriving DecidableEq, Repr

/-- The register's value. -/
def wordReg : WordReg → State → Word
  | .d, σ => dReg σ
  | .x, σ => σ.x
  | .y, σ => σ.y
  | .u, σ => σ.u
  | .s, σ => σ.s

/-- The registers it is made of. -/
def wordRegParts : WordReg → List Reg
  | .d => [.r8 .a, .r8 .b]
  | .x => [.r16 .x]
  | .y => [.r16 .y]
  | .u => [.r16 .u]
  | .s => [.r16 .s]

/-- CMPD CMPX CMPY CMPU CMPS. -/
def cmpWordI : WordReg → Src16 → Instr
  | .d => .cmpd
  | .x => .cmpx
  | .y => .cmpy
  | .u => .cmpu
  | .s => .cmps

/-- LDD LDX LDY LDU LDS. -/
def ldWordI : WordReg → Src16 → Instr
  | .d => .ldd
  | .x => .ldx
  | .y => .ldy
  | .u => .ldu
  | .s => .lds

/-- STD STX STY STU STS. -/
def stWordI : WordReg → Addr → Instr
  | .d => .std
  | .x => .stx
  | .y => .sty
  | .u => .stu
  | .s => .sts

/-- The pointer registers among them. -/
def ptrWord : Ptr → WordReg
  | .x => .x
  | .y => .y
  | .u => .u
  | .s => .s

/-- LEAX LEAY LEAU LEAS. -/
def leaI : Ptr → Idx → Instr
  | .x => .leax
  | .y => .leay
  | .u => .leau
  | .s => .leas

/-- PSHS, PSHU. -/
def pshI : Stk → Byte → Instr
  | .s => .pshs
  | .u => .pshu

/-- PULS, PULU. -/
def pulI : Stk → Byte → Instr
  | .s => .puls
  | .u => .pulu

/-- The sixteen short branches. -/
def shortI : Cond → Byte → Instr
  | .always => .bra
  | .never => .brn
  | .hi => .bhi
  | .ls => .bls
  | .cc => .bcc
  | .cs => .bcs
  | .ne => .bne
  | .eq => .beq
  | .vc => .bvc
  | .vs => .bvs
  | .pl => .bpl
  | .mi => .bmi
  | .ge => .bge
  | .lt => .blt
  | .gt => .bgt
  | .le => .ble

/-- The sixteen long branches. -/
def longI : Cond → Word → Instr
  | .always => .lbra
  | .never => .lbrn
  | .hi => .lbhi
  | .ls => .lbls
  | .cc => .lbcc
  | .cs => .lbcs
  | .ne => .lbne
  | .eq => .lbeq
  | .vc => .lbvc
  | .vs => .lbvs
  | .pl => .lbpl
  | .mi => .lbmi
  | .ge => .lbge
  | .lt => .lblt
  | .gt => .lbgt
  | .le => .lble

/-- The condition of R164 in the words of its table, as a proposition about the flags. -/
def CondHolds : Cond → CC → Prop
  | .always, _ => True
  | .never, _ => False
  | .hi, cc => cc.c = false ∧ cc.z = false
  | .ls, cc => cc.c = true ∨ cc.z = true
  | .cc, cc => cc.c = false
  | .cs, cc => cc.c = true
  | .ne, cc => cc.z = false
  | .eq, cc => cc.z = true
  | .vc, cc => cc.v = false
  | .vs, cc => cc.v = true
  | .pl, cc => cc.n = false
  | .mi, cc => cc.n = true
  | .ge, cc => cc.n = cc.v
  | .lt, cc => cc.n ≠ cc.v
  | .gt, cc => cc.z = false ∧ cc.n = cc.v
  | .le, cc => cc.z = true ∨ cc.n ≠ cc.v

/-- SWI, SWI2, SWI3 (R410). -/
inductive SwiLevel where
  | one | two | three
deriving DecidableEq, Repr

/-- The instruction. -/
def swiI : SwiLevel → Instr
  | .one => .swi
  | .two => .swi2
  | .three => .swi3

/-- The vector address of R410. -/
def swiVector : SwiLevel → Word
  | .one => 0xFFFA
  | .two => 0xFFF4
  | .three => 0xFFF2

/-! ## Addresses and pointer updates -/

/-- What an auto increment or decrement adds to a pointer register (R113, R115). -/
def baseDelta : IdxBase → Ptr → Word
  | .inc2 q, r => if q = r then 2 else 0
  | .dec2 q, r => if q = r then -2 else 0
  | _, _ => 0

/-- What an indexed form adds to a pointer register (R112 to R115). -/
def idxDelta : Idx → Ptr → Word
  | .inc1 q, r => if q = r then 1 else 0
  | .dec1 q, r => if q = r then -1 else 0
  | .plain m, r => baseDelta m r
  | .indirect m, r => baseDelta m r
  | .off5 _ _, _ => 0
  | .extIndirect _, _ => 0

/-- What an addressing mode adds to a pointer register. -/
def addrDelta : Addr → Ptr → Word
  | .indexed i => idxDelta i
  | .direct _ => fun _ => 0
  | .extended _ => fun _ => 0

/-- What an 8-bit operand's mode adds to a pointer register. -/
def src8Delta : Src8 → Ptr → Word
  | .mem a => addrDelta a
  | .imm _ => fun _ => 0

/-- What a 16-bit operand's mode adds to a pointer register. -/
def src16Delta : Src16 → Ptr → Word
  | .mem a => addrDelta a
  | .imm _ => fun _ => 0

/-- No pointer register moves. -/
def noDelta : Ptr → Word := fun _ => 0

/-- The address of a form of `IdxBase` over the integers, before reduction modulo 2^16 (R105, R107 to R111, R113, R115 to R117). -/
def baseInt : IdxBase → State → Int
  | .zero r, σ => (ptr r σ).toNat
  | .off8 r n, σ => (ptr r σ).toNat + n.toInt
  | .off16 r n, σ => (ptr r σ).toNat + n.toNat
  | .accA r, σ => (ptr r σ).toNat + σ.a.toInt
  | .accB r, σ => (ptr r σ).toNat + σ.b.toInt
  | .accD r, σ => (ptr r σ).toNat + 256 * σ.a.toNat + σ.b.toNat
  | .inc2 r, σ => (ptr r σ).toNat
  | .dec2 r, σ => (ptr r σ).toNat - 2
  | .pcr8 n, σ => σ.pc.toNat + n.toInt
  | .pcr16 n, σ => σ.pc.toNat + n.toNat

/-! ## What stays -/

/-- Every register but those of `dst` is unchanged, a pointer register but for what the addressing mode adds to it; PC too. -/
def KeepsRegs (dst : List Reg) (d : Ptr → Word) (σ τ : State) : Prop :=
  (.r8 .a ∉ dst → τ.a = σ.a) ∧ (.r8 .b ∉ dst → τ.b = σ.b) ∧ (.r8 .dp ∉ dst → τ.dp = σ.dp) ∧
  (.r16 .x ∉ dst → τ.x = σ.x + d .x) ∧ (.r16 .y ∉ dst → τ.y = σ.y + d .y) ∧
  (.r16 .u ∉ dst → τ.u = σ.u + d .u) ∧ (.r16 .s ∉ dst → τ.s = σ.s + d .s) ∧
  (.r16 .pc ∉ dst → τ.pc = σ.pc)

/-- No cycle of this step is granted to DMA/BREQ, and every address is plain memory. -/
def Undisturbed (σ : State) : Prop := σ.platform = [] ∧ σ.cycles = none

/-- The bus grant and the counters of DMA/BREQ and of cycles are unchanged (R33, R421). -/
def KeepsCounters (σ τ : State) : Prop :=
  τ.busGranted = σ.busGranted ∧ τ.refreshCount = σ.refreshCount ∧ τ.dmaIdle = σ.dmaIdle ∧ τ.dmaLow = σ.dmaLow ∧
  τ.elapsed = σ.elapsed

/-- The main loop's own state is unchanged: the run state and its overlays, the pins to come, the platform; and, where no cycle is granted inside the step, the counters. -/
def KeepsControl (σ τ : State) : Prop :=
  τ.run = σ.run ∧ τ.halted = σ.halted ∧ τ.inReset = σ.inReset ∧ τ.env = σ.env ∧ τ.platform = σ.platform ∧
  (σ.cycles = none → τ.cycles = none ∧ KeepsCounters σ τ)

/-- The NMI bits are unchanged (R27, R28). -/
def KeepsNmi (σ τ : State) : Prop := τ.nmiArmed = σ.nmiArmed ∧ τ.nmiPending = σ.nmiPending

/-- Every byte of memory reads as before. -/
def KeepsMemory (σ τ : State) : Prop := ∀ a : Word, peek a τ = peek a σ

/-- The MPU changes no byte of memory: none changes where no cycle is granted to another master inside the step. -/
def LeavesMemory (σ τ : State) : Prop := σ.cycles = none → KeepsMemory σ τ

/-- Every byte of memory outside the listed addresses reads as before. -/
def KeepsMemoryOutside (as : List Word) (σ τ : State) : Prop := ∀ a : Word, a ∉ as → peek a τ = peek a σ

/-- E, F and I are unchanged. -/
def KeepsMasks (cc cc' : CC) : Prop := cc'.e = cc.e ∧ cc'.f = cc.f ∧ cc'.i = cc.i

/-- The register an accumulator is. -/
def accR : Acc → Reg
  | .a => .r8 .a
  | .b => .r8 .b

/-- The register a pointer register is. -/
def ptrR : Ptr → Reg
  | .x => .r16 .x
  | .y => .r16 .y
  | .u => .r16 .u
  | .s => .r16 .s

/-- The register a stack pointer is. -/
def stkR : Stk → Reg
  | .s => .r16 .s
  | .u => .r16 .u

/-- A register of TFR and EXG as a number. -/
def regNat : Reg → State → Nat
  | .r16 r, σ => (readReg16 r σ).toNat
  | .r8 r, σ => (readReg8 r σ).toNat

/-! ## Results, over the integers -/

/-- N and Z of a byte (R141). -/
def Nz (r : Byte) (cc' : CC) : Prop := (cc'.n = true ↔ 128 ≤ r.toNat) ∧ (cc'.z = true ↔ r.toNat = 0)

/-- N and Z of a word (R141). -/
def NzWord (r : Word) (cc' : CC) : Prop := (cc'.n = true ↔ 32768 ≤ r.toNat) ∧ (cc'.z = true ↔ r.toNat = 0)

/-- The sum of R142: V is signed overflow, H the carry out of bit 3, C the carry out of bit 7. -/
def IsSum (a m : Byte) (cin : Bool) (r : Byte) (cc cc' : CC) : Prop :=
  r.toNat = (a.toNat + m.toNat + cin.toNat) % 256 ∧ Nz r cc' ∧
  (cc'.h = true ↔ 15 < a.toNat % 16 + m.toNat % 16 + cin.toNat) ∧
  (cc'.c = true ↔ 255 < a.toNat + m.toNat + cin.toNat) ∧
  (cc'.v = true ↔ r.toInt ≠ a.toInt + m.toInt + cin.toNat) ∧ KeepsMasks cc cc'

/-- The difference of R143: V is signed overflow, C the borrow; H is not said, it is `UNDEF` (R165). -/
def IsDifference (a m : Byte) (bin : Bool) (r : Byte) (cc cc' : CC) : Prop :=
  (r.toNat : Int) = ((a.toNat : Int) - m.toNat - bin.toNat) % 256 ∧ Nz r cc' ∧
  (cc'.c = true ↔ a.toNat < m.toNat + bin.toNat) ∧
  (cc'.v = true ↔ r.toInt ≠ a.toInt - m.toInt - bin.toNat) ∧ KeepsMasks cc cc'

/-- The sum of R144; H is unchanged. -/
def IsWordSum (a m r : Word) (cc cc' : CC) : Prop :=
  r.toNat = (a.toNat + m.toNat) % 65536 ∧ NzWord r cc' ∧
  (cc'.c = true ↔ 65535 < a.toNat + m.toNat) ∧
  (cc'.v = true ↔ r.toInt ≠ a.toInt + m.toInt) ∧ cc'.h = cc.h ∧ KeepsMasks cc cc'

/-- The difference of R145; H is not said, it is `UNDEF` (R165). -/
def IsWordDifference (a m r : Word) (cc cc' : CC) : Prop :=
  (r.toNat : Int) = ((a.toNat : Int) - m.toNat) % 65536 ∧ NzWord r cc' ∧
  (cc'.c = true ↔ a.toNat < m.toNat) ∧
  (cc'.v = true ↔ r.toInt ≠ a.toInt - m.toInt) ∧ KeepsMasks cc cc'

/-- The flags of R146: N and Z of the byte, V cleared, H and C unchanged. -/
def LogicFlags (r : Byte) (cc cc' : CC) : Prop :=
  Nz r cc' ∧ cc'.v = false ∧ cc'.h = cc.h ∧ cc'.c = cc.c ∧ KeepsMasks cc cc'

/-- The flags of R147: N and Z of the word, V cleared, H and C unchanged. -/
def LogicWordFlags (r : Word) (cc cc' : CC) : Prop :=
  NzWord r cc' ∧ cc'.v = false ∧ cc'.h = cc.h ∧ cc'.c = cc.c ∧ KeepsMasks cc cc'

/-- The result and the flags of a read-modify-write operation on the byte `v` (R148 to R158); a flag that R165 calls `UNDEF` is not said. -/
def IsRmw (op : RmwOp) (v r : Byte) (cc cc' : CC) : Prop :=
  KeepsMasks cc cc' ∧ Nz r cc' ∧
  match op with
  | .neg => r.toNat = (256 - v.toNat) % 256 ∧ (cc'.c = true ↔ v.toNat ≠ 0) ∧ (cc'.v = true ↔ v.toNat = 128)
  | .com => r.toNat = 255 - v.toNat ∧ cc'.c = true ∧ cc'.v = false ∧ cc'.h = cc.h
  | .lsr => r.toNat = v.toNat / 2 ∧ (cc'.c = true ↔ v.toNat % 2 = 1) ∧ cc'.v = cc.v ∧ cc'.h = cc.h
  | .ror => r.toNat = v.toNat / 2 + 128 * cc.c.toNat ∧ (cc'.c = true ↔ v.toNat % 2 = 1) ∧ cc'.v = cc.v ∧ cc'.h = cc.h
  | .asr => r.toInt = v.toInt / 2 ∧ (cc'.c = true ↔ v.toNat % 2 = 1) ∧ cc'.v = cc.v
  | .asl => r.toNat = 2 * v.toNat % 256 ∧ (cc'.c = true ↔ 128 ≤ v.toNat) ∧ (cc'.v = true ↔ r.toInt ≠ 2 * v.toInt)
  | .rol => r.toNat = (2 * v.toNat + cc.c.toNat) % 256 ∧ (cc'.c = true ↔ 128 ≤ v.toNat) ∧
      (cc'.v = true ↔ cc'.n ≠ cc'.c) ∧ cc'.h = cc.h
  | .dec => r.toNat = (v.toNat + 255) % 256 ∧ cc'.c = cc.c ∧ (cc'.v = true ↔ v.toNat = 128) ∧ cc'.h = cc.h
  | .inc => r.toNat = (v.toNat + 1) % 256 ∧ cc'.c = cc.c ∧ (cc'.v = true ↔ v.toNat = 127) ∧ cc'.h = cc.h
  | .clr => r.toNat = 0 ∧ cc'.c = false ∧ cc'.v = false ∧ cc'.h = cc.h

/-- Two decimal digits packed in a byte (R204). -/
def IsBcd (v : Byte) (n : Nat) : Prop :=
  v.toNat % 16 ≤ 9 ∧ v.toNat / 16 ≤ 9 ∧ n = 10 * (v.toNat / 16) + v.toNat % 16

/-- A correction of DAA (R204) as a number: 6 for the low digit, 96 for the high one. -/
def daaCorrection (a : Byte) (cc : CC) : Nat :=
  (if cc.h = true ∨ 9 < a.toNat % 16 then 6 else 0) +
  (if cc.c = true ∨ 9 < a.toNat / 16 ∨ (8 < a.toNat / 16 ∧ 9 < a.toNat % 16) then 96 else 0)

/-! ## Stacks and frames -/

/-- The `n` addresses from `a` up, wrapping. -/
def span (a : Word) : Nat → List Word
  | 0 => []
  | n + 1 => a :: span (a + 1) n

/-- The bytes a mask of PSHS or PSHU pushes, lowest address first: CC A B DP X Y (U or S) PC, words high byte first (R82). -/
def frameBytes (k : Stk) (mask : Byte) (σ : State) : List Byte :=
  let other := ptr (otherPtr k) σ
  (if mask.getLsbD 0 then [σ.cc.toByte] else []) ++ (if mask.getLsbD 1 then [σ.a] else []) ++
  (if mask.getLsbD 2 then [σ.b] else []) ++ (if mask.getLsbD 3 then [σ.dp] else []) ++
  (if mask.getLsbD 4 then [hi σ.x, lo σ.x] else []) ++ (if mask.getLsbD 5 then [hi σ.y, lo σ.y] else []) ++
  (if mask.getLsbD 6 then [hi other, lo other] else []) ++ (if mask.getLsbD 7 then [hi σ.pc, lo σ.pc] else [])

/-- Memory holds these bytes from address `a` up. -/
def MemoryHolds (a : Word) (bytes : List Byte) (σ : State) : Prop :=
  (span a bytes.length).map (fun i => peek i σ) = bytes

/-- The entire frame of R412 from the new S up, CC given. -/
def entireFrame (cc : CC) (σ : State) : List Byte :=
  [cc.toByte, σ.a, σ.b, σ.dp, hi σ.x, lo σ.x, hi σ.y, lo σ.y, hi σ.u, lo σ.u, hi σ.pc, lo σ.pc]

/-- The subset frame of R412 from the new S up, CC given. -/
def subsetFrame (cc : CC) (σ : State) : List Byte := [cc.toByte, hi σ.pc, lo σ.pc]

/-- The registers a mask of PULS or PULU loads, and the stack pointer it moves (R248, R249). -/
def pulledRegs (k : Stk) (mask : Byte) : List Reg :=
  [stkR k] ++ (if mask.getLsbD 1 then [.r8 .a] else []) ++ (if mask.getLsbD 2 then [.r8 .b] else []) ++
  (if mask.getLsbD 3 then [.r8 .dp] else []) ++ (if mask.getLsbD 4 then [.r16 .x] else []) ++
  (if mask.getLsbD 5 then [.r16 .y] else []) ++ (if mask.getLsbD 6 then [ptrR (otherPtr k)] else []) ++
  (if mask.getLsbD 7 then [.r16 .pc] else [])

/-- The registers a name of TFR and EXG stands for; CC is not among those `KeepsRegs` speaks of. -/
def regParts : Reg → List Reg
  | .r16 .d => [.r8 .a, .r8 .b]
  | r => [r]

/-! ## What an instruction may touch -/

/-- The instructions that load CC as a whole (R22, R24, R26). -/
def loadsCc : Instr → Bool
  | .andcc _ => true
  | .orcc _ => true
  | .cwai _ => true
  | .rti => true
  | .tfr _ dst => dst == .r8 .cc
  | .exg src dst => src == .r8 .cc || dst == .r8 .cc
  | .puls mask => mask.getLsbD 0
  | .pulu mask => mask.getLsbD 0
  | _ => false

/-- The instructions that load DP (R16). -/
def loadsDp : Instr → Bool
  | .rti => true
  | .tfr _ dst => dst == .r8 .dp
  | .exg src dst => src == .r8 .dp || dst == .r8 .dp
  | .puls mask => mask.getLsbD 3
  | .pulu mask => mask.getLsbD 3
  | _ => false

/-- SWI, SWI2, SWI3. -/
def isSwi : Instr → Bool
  | .swi => true
  | .swi2 => true
  | .swi3 => true
  | _ => false

/-- The instructions that may be in `nmi_arming_set` (R403, D6). -/
def mayArmNmi : Instr → Bool
  | .lds _ => true
  | .leas _ => true
  | .tfr _ dst => dst == .r16 .s
  | .exg src dst => src == .r16 .s || dst == .r16 .s
  | .pulu mask => mask.getLsbD 6
  | _ => false

/-- The forms that write memory (R46). -/
def storesMemory : Instr → Bool
  | .sta _ => true
  | .stb _ => true
  | .std _ => true
  | .stx _ => true
  | .sty _ => true
  | .stu _ => true
  | .sts _ => true
  | .neg _ => true
  | .com _ => true
  | .lsr _ => true
  | .ror _ => true
  | .asr _ => true
  | .asl _ => true
  | .rol _ => true
  | .dec _ => true
  | .inc _ => true
  | .clr _ => true
  | .pshs mask => mask != 0
  | .pshu mask => mask != 0
  | .bsr _ => true
  | .lbsr _ => true
  | .jsr _ => true
  | .swi => true
  | .swi2 => true
  | .swi3 => true
  | .cwai _ => true
  | _ => false

/-! ## Unused encodings -/

/-- The 33 unused opcodes of page 1 (R75, R77). -/
def unusedPage1 : List Byte :=
  [0x01, 0x02, 0x05, 0x0B, 0x14, 0x15, 0x18, 0x1B, 0x38, 0x3E, 0x41, 0x42, 0x45, 0x4B, 0x4E, 0x51, 0x52,
   0x55, 0x5B, 0x5E, 0x61, 0x62, 0x65, 0x6B, 0x71, 0x72, 0x75, 0x7B, 0x87, 0x8F, 0xC7, 0xCD, 0xCF]

/-- The 38 second bytes behind $10 (R78). -/
def usedPage2 : List Byte :=
  [0x21, 0x22, 0x23, 0x24, 0x25, 0x26, 0x27, 0x28, 0x29, 0x2A, 0x2B, 0x2C, 0x2D, 0x2E, 0x2F, 0x3F,
   0x83, 0x93, 0xA3, 0xB3, 0x8C, 0x9C, 0xAC, 0xBC, 0x8E, 0x9E, 0xAE, 0xBE, 0x9F, 0xAF, 0xBF,
   0xCE, 0xDE, 0xEE, 0xFE, 0xDF, 0xEF, 0xFF]

/-- The 9 second bytes behind $11 (R79). -/
def usedPage3 : List Byte := [0x3F, 0x83, 0x93, 0xA3, 0xB3, 0x8C, 0x9C, 0xAC, 0xBC]

/-- The 39 unused indexed postbytes (R104). -/
def unusedPostbytes : List Byte :=
  [0x87, 0x8A, 0x8E, 0x8F, 0x90, 0x92, 0x97, 0x9A, 0x9E, 0xA7, 0xAA, 0xAE, 0xAF, 0xB0, 0xB2, 0xB7, 0xBA,
   0xBE, 0xBF, 0xC7, 0xCA, 0xCE, 0xCF, 0xD0, 0xD2, 0xD7, 0xDA, 0xDE, 0xDF, 0xE7, 0xEA, 0xEE, 0xEF, 0xF0,
   0xF2, 0xF7, 0xFA, 0xFE, 0xFF]

/-- The opcodes of page 1 that a postbyte follows, as an indexed form (R75, R77). -/
def indexedPage1 : List Byte :=
  [0x30, 0x31, 0x32, 0x33, 0x60, 0x63, 0x64, 0x66, 0x67, 0x68, 0x69, 0x6A, 0x6C, 0x6D, 0x6E, 0x6F,
   0xA0, 0xA1, 0xA2, 0xA3, 0xA4, 0xA5, 0xA6, 0xA7, 0xA8, 0xA9, 0xAA, 0xAB, 0xAC, 0xAD, 0xAE, 0xAF,
   0xE0, 0xE1, 0xE2, 0xE3, 0xE4, 0xE5, 0xE6, 0xE7, 0xE8, 0xE9, 0xEA, 0xEB, 0xEC, 0xED, 0xEE, 0xEF]

/-- The same behind $10 (R78). -/
def indexedPage2 : List Byte := [0xA3, 0xAC, 0xAE, 0xAF, 0xEE, 0xEF]

/-- The same behind $11 (R79). -/
def indexedPage3 : List Byte := [0xA3, 0xAC]

/-- A TFR or EXG postbyte whose two nibbles are both 16-bit codes or both 8-bit codes (R81). -/
def LikePair (pb : Byte) : Prop :=
  (pb.toNat / 16 < 6 ∧ pb.toNat % 16 < 6) ∨
  (8 ≤ pb.toNat / 16 ∧ pb.toNat / 16 < 12 ∧ 8 ≤ pb.toNat % 16 ∧ pb.toNat % 16 < 12)

/-! ## The invariant -/

/-- What every step keeps: memory is canonical; an NMI is pending only where NMI is armed, or where edges before arming are remembered (R403); the wait of CWAI has E set (R291); every acknowledge cycle is a read of the vector table by the MPU (R51, R413). -/
def StateInv (σ : State) : Prop :=
  σ.mem.wf = true ∧
  (σ.nmiPending = true → σ.nmiArmed = true ∨ Config.nmiEdgeBeforeArming = true) ∧
  (σ.run = .cwaiWaiting → σ.cc.e = true) ∧
  (∀ c ∈ σ.bus, c.ack = true → 0xFFF2 ≤ c.addr.toNat ∧ c.write = false ∧ c.other = false)

/-- A boundary at which the next instruction is run: nothing on the pins, nothing latched, no overlay (R428). -/
def AtInstruction (σ : State) : Prop :=
  σ.run = .running ∧ σ.halted = false ∧ σ.inReset = false ∧ nmiTakeable σ = false ∧ σ.env = []

/-- No pin keeps the MPU from its own work: RES, HALT and DMA/BREQ are high, and stay so throughout the step. -/
def PinsLetRun (p : PinSample) : Prop :=
  p.res = false ∧ p.halt = false ∧ p.dmaBreq = false ∧ p.cycles = [] ∧ p.resCut = none

/-- The refresh counter after `n` cycles in which DMA/BREQ is inactive: it is "only cleared if DMA/BREQ is inactive (High) for 3 or more MPU cycles" (R463). -/
def refreshAfter (n : Nat) (σ : State) : Nat := if 3 ≤ σ.dmaIdle + n then 0 else σ.refreshCount

/-- How many cycles begin where no cycle is granted: the MPU's next one, and before it the dead one where the MPU takes the bus after a grant (R421, R422). -/
def lookedCycles (p : PinSample) (σ : State) : Nat := 1 + (σ.busGranted && !staysReleased p σ).toNat

/-- Neither halted nor in reset. -/
def Unstopped (σ : State) : Prop := σ.halted = false ∧ σ.inReset = false

/-- What `nmi_pending` is once the edge of this step's sample is noted (R403). -/
def pendingAfterNote (σ : State) : Bool :=
  if (nextSample σ).nmiFell then σ.nmiArmed || Config.nmiEdgeBeforeArming else σ.nmiPending

/-- CC is unchanged, and every register but those of `dst` too. -/
def KeepsRegsAndFlags (dst : List Reg) (d : Ptr → Word) (σ τ : State) : Prop :=
  KeepsRegs dst d σ τ ∧ τ.cc = σ.cc

/-! ## Reset and calls -/

/-- What RES leaves in the registers (R451, R452), from a draw where the spec leaves them unspecified (D4), and an NMI edge of the same sample noted (D7). -/
def IsResetBy (p : PinSample) (σ τ : State) : Prop :=
  let v := Config.resetUnspecified σ.draws
  τ.dp = 0 ∧ τ.cc.i = true ∧ τ.cc.f = true ∧ τ.inReset = false ∧
  τ.nmiArmed = false ∧ τ.nmiPending = (p.nmiFell && Config.nmiEdgeBeforeArming) ∧
  τ.a = v.a ∧ τ.b = v.b ∧ τ.x = v.x ∧ τ.y = v.y ∧ τ.u = v.u ∧ τ.s = v.s ∧
  τ.cc.e = v.e ∧ τ.cc.h = v.h ∧ τ.cc.n = v.n ∧ τ.cc.z = v.z ∧ τ.cc.v = v.v ∧ τ.cc.c = v.c

/-- The reset vector is fetched, in two acknowledge cycles and no other access (R401, R413). -/
def FetchedResetVector (σ τ : State) : Prop :=
  τ.pc = peekWord 0xFFFE σ ∧
  τ.bus = [{ write := false, ack := true, addr := 0xFFFE, data := peek 0xFFFE σ },
           { write := false, ack := true, addr := 0xFFFF, data := peek 0xFFFF σ }]

/-- What a subroutine call does but for the jump: the next instruction's address is pushed below `s`, low byte first at the higher address, after the accesses `before` of the address; no flag and no register but PC, S and what the addressing mode moves changes (R272, R289, R295). -/
def CallEffect (d : Ptr → Word) (s : Word) (before : List BusCycle) (σ τ : State) : Prop :=
  τ.s = s - 2 ∧ KeepsRegsAndFlags [.r16 .pc, .r16 .s] d σ τ ∧ KeepsNmi σ τ ∧ KeepsControl σ τ ∧
  (σ.cycles = none → τ.bus = before ++ [{ write := true, ack := false, addr := s - 1, data := lo σ.pc },
    { write := true, ack := false, addr := s - 2, data := hi σ.pc }]) ∧
  (Undisturbed σ → σ.mem.wf = true → peekWord (s - 2) τ = σ.pc ∧ KeepsMemoryOutside [s - 2, s - 1] σ τ)

end Sys2Proof.Machine
end

