-- ==== Sys2Proof/Certificates/Slice0/Obligations.lean ====
section
/-! DEFINITION. The statements about the machine that the provers prove. -/

section

open Sys2Proof Sys2Proof.Machine

/-! ## Encoding -/

/-- Decoding the encoding of a well-formed instruction, whatever bytes follow, gives it back (R70 to R83). -/
def Obligations.DecodeInvertsEncode : Prop :=
  ∀ (i : Instr) (rest : List Byte), i.wf = true → decode (encode i ++ rest) = .ok (i, rest)

/-- What decodes is well formed, takes one to five bytes from the front, as many as its encoding has, and depends on no byte after them (R71). -/
def Obligations.DecodeReadsWholeInstruction : Prop :=
  ∀ (bytes : List Byte) (i : Instr) (rest : List Byte), decode bytes = .ok (i, rest) →
    i.wf = true ∧ ∃ used : List Byte, bytes = used ++ rest ∧ 1 ≤ used.length ∧ used.length ≤ 5 ∧
      used.length = (encode i).length ∧ ∀ other : List Byte, decode (used ++ other) = .ok (i, other)

/-- Words written out from the tables of the spec decode to the instructions they stand for. -/
def Obligations.SpecWordsDecode : Prop :=
  decode [0x86, 0x5A] = .ok (.lda (.imm 0x5A), []) ∧
  decode [0xA6, 0x98, 0x10] = .ok (.lda (.mem (.indexed (.indirect (.off8 .x 0x10)))), []) ∧
  decode [0x7A, 0xA0, 0x00] = .ok (.dec (.extended 0xA000), []) ∧
  decode [0xC3, 0x00, 0x01] = .ok (.addd (.imm 0x0001), []) ∧
  decode [0x10, 0xEE, 0x9F, 0x20, 0x00] = .ok (.lds (.mem (.indexed (.extIndirect 0x2000))), []) ∧
  decode [0x11, 0x8C, 0x20, 0x00] = .ok (.cmps (.imm 0x2000), []) ∧
  decode [0x1F, 0x8B] = .ok (.tfr (.r8 .a) (.r8 .dp), []) ∧
  decode [0x34, 0x81] = .ok (.pshs 0x81, []) ∧
  decode [0x17, 0x1F, 0xFD] = .ok (.lbsr 0x1FFD, []) ∧
  decode [0x10, 0x3F] = .ok (.swi2, [])

/-- A step that reaches an instruction is refused for an unused opcode exactly where the byte fetched, or the byte fetched behind a prefix, is one of the unused opcodes; the refusal is the spec's decision D1. -/
def Obligations.UnusedOpcodesRefused : Prop :=
  ∀ σ τ : State, boundary σ = .instruction τ →
    (step σ = .refused .unusedOpcode ↔
      fetched 0 τ ∈ unusedPage1 ∨
      (fetched 0 τ = 0x10 ∧ fetched 1 τ ∉ usedPage2) ∨
      (fetched 0 τ = 0x11 ∧ fetched 1 τ ∉ usedPage3))

/-- A step that reaches an instruction is refused for its postbyte exactly where an instruction with an indexed form has one of the 39 unused indexed postbytes, or TFR or EXG one that names unlike or unlisted registers; the decoder and the meanings of TFR and EXG say the same; the refusal is the spec's decision D2. -/
def Obligations.UnusedPostbytesRefused : Prop :=
  (∀ σ τ : State, boundary σ = .instruction τ →
    (step σ = .refused .unusedIndexedPostbyte ↔
      (fetched 0 τ ∈ indexedPage1 ∧ fetched 1 τ ∈ unusedPostbytes) ∨
      (fetched 0 τ = 0x10 ∧ fetched 1 τ ∈ indexedPage2 ∧ fetched 2 τ ∈ unusedPostbytes) ∨
      (fetched 0 τ = 0x11 ∧ fetched 1 τ ∈ indexedPage3 ∧ fetched 2 τ ∈ unusedPostbytes)) ∧
    (step σ = .refused .unusedRegisterPostbyte ↔
      (fetched 0 τ = 0x1E ∨ fetched 0 τ = 0x1F) ∧ ¬ LikePair (fetched 1 τ))) ∧
  (∀ (pb x y : Byte) (rest : List Byte),
    (decodeIdx (pb :: x :: y :: rest) = .error (.unusedPostbyte pb) ↔ pb ∈ unusedPostbytes) ∧
    (decode (0x1F :: pb :: rest) = .error (.unusedRegisterPair pb) ↔ ¬ LikePair pb) ∧
    (decode (0x1E :: pb :: rest) = .error (.unusedRegisterPair pb) ↔ ¬ LikePair pb) ∧
    (pb ∉ unusedPostbytes → ∃ (i : Idx) (rest' : List Byte), decodeIdx (pb :: x :: y :: rest) = .ok (i, rest'))) ∧
  (∀ (src dst : Reg) (σ : State), src.likeSize dst = false →
    exec (.tfr src dst) σ = .refused .unusedRegisterPostbyte ∧
    exec (.exg src dst) σ = .refused .unusedRegisterPostbyte)

/-! ## The step -/

/-- Where a boundary leads to the next instruction and the bytes fetched decode, the step is `exec` of that instruction on the state with those bytes fetched, and then the rest of its cycles without an access, unless RES cuts it short. That those cycles come last, and where the dead cycle of an ended grant falls and that no other cycle passes there, is the model's choice of log 26, what RES inside the step leaves its choice of log 27, and how cycles of inactive DMA/BREQ are counted its choice of log 3. Fetching moves PC past the bytes; no register, flag or byte changes, nor run, halted, inReset, env or the platform, and with no cycle granted inside the step no bus grant; only the bus log moves; the counters then move by the instruction's length, which is the model's choice of log 28. With nothing on the pins, nothing latched and no overlay the boundary does lead there. -/
def Obligations.StepRunsDecodedInstruction : Prop :=
  (∀ (σ τ : State) (i : Instr) (rest : List Byte), boundary σ = .instruction τ →
    decode (fetchWindow τ) = .ok (i, rest) →
    let n := 5 - rest.length
    let υ := afterFetch i n τ
    (∀ ω : State, exec i υ = .next ω → step σ = .next (cutByReset σ (completeCycles (instrCycles i ω) ω))) ∧
    ((nextSample σ).resCut = none → τ.cycles = none → ∀ ω : State, exec i υ = .next ω →
      step σ = .next { ω with
        lines := ω.lines ++ List.replicate (instrCycles i ω - mpuCycles ω.lines) .vma
        refreshCount := refreshAfter (instrCycles i ω - 1) ω
        dmaIdle := ω.dmaIdle + (instrCycles i ω - 1)
        elapsed := ω.elapsed + instrCycles i ω }) ∧
    (Undisturbed τ → fetchWindow τ = (span τ.pc 5).map (fun a => peek a τ)) ∧
    υ.pc = τ.pc + BitVec.ofNat 16 n ∧ KeepsRegsAndFlags [.r16 .pc] noDelta τ υ ∧ LeavesMemory τ υ ∧ KeepsNmi τ υ ∧
    υ.run = τ.run ∧ υ.halted = τ.halted ∧ υ.inReset = τ.inReset ∧ υ.env = τ.env ∧ υ.platform = τ.platform ∧
    (τ.cycles = none → υ.cycles = none ∧ KeepsCounters τ υ)) ∧
  (∀ σ : State, AtInstruction σ → boundary σ = .instruction { σ with
    env := []
    bus := []
    lines := if σ.busGranted then [.pass (some (false, false)) false] else []
    cycles := none
    busGranted := false
    refreshCount := refreshAfter (1 + σ.busGranted.toNat) σ
    dmaIdle := σ.dmaIdle + (1 + σ.busGranted.toNat)
    elapsed := σ.elapsed + σ.busGranted.toNat })

/-- Every well-formed instruction completes in every state: none ends in a fault or a refusal (R400). -/
def Obligations.EveryInstructionCompletes : Prop :=
  ∀ (i : Instr) (σ : State), i.wf = true → ∃ τ : State, exec i σ = .next τ

/-! ## Reset -/

/-- What the spec states of the state after reset; PC is the word at the reset vector of the empty memory the model starts with (log 1), and that no NMI is pending is the spec's own decision D7 (log 7). -/
def Obligations.ResetStateValues : Prop :=
  State.reset.dp = 0 ∧ State.reset.cc.i = true ∧ State.reset.cc.f = true ∧
  State.reset.nmiArmed = false ∧ State.reset.nmiPending = false ∧
  runStateName State.reset = .running ∧ State.reset.pc = peekWord 0xFFFE State.reset

/-- When RES returns high the registers are reset, each one the spec leaves unspecified from a draw (D4, log 4), and no NMI is pending but for an edge that falls with the release where edges before arming are remembered (the spec's decision D7, log 7). With HALT and DMA/BREQ high PC is fetched from $FFFE in two acknowledge cycles and memory is not touched; with HALT low, or DMA/BREQ low and a cycle granted, the vector fetch waits with the registers reset, and the first step that neither pin stops makes it (log 27). Where HALT or DMA/BREQ has kept the bus released under RES, a dead cycle comes before the fetch (R422). -/
def Obligations.LeavingResetRunsFromVector : Prop :=
  (∀ σ : State, σ.inReset = true → (nextSample σ).res = false →
    (PinsLetRun (nextSample σ) → ∃ τ : State, step σ = .next τ ∧ IsResetBy (nextSample σ) σ τ ∧
      runStateName τ = .running ∧ τ.run = .running ∧ τ.mem = σ.mem ∧
      (σ.halted = true ∨ σ.busGranted = true → τ.lines.head? = some (.pass (some (false, false)) false)) ∧
      (σ.platform = [] → FetchedResetVector σ τ)) ∧
    ((nextSample σ).halt = true → (nextSample σ).dmaBreq = false → ∃ τ : State, step σ = .next τ ∧
      IsResetBy (nextSample σ) σ τ ∧ runStateName τ = .halted ∧ τ.run = .resetVector ∧ τ.pc = σ.pc ∧
      ∀ c ∈ τ.bus, c.other = true) ∧
    ((nextSample σ).dmaBreq = true → (nextSample σ).resCut = none → ∃ τ : State, step σ = .next τ ∧
      IsResetBy (nextSample σ) σ τ ∧
      if grants true (busSide (leaveReset (beginStep σ))) then
        runStateName τ = .busGranted ∧ τ.run = .resetVector ∧ τ.pc = σ.pc ∧ ∀ c ∈ τ.bus, c.other = true
      else τ.run = (if (nextSample σ).halt then .resetVector else .running))) ∧
  (∀ σ : State, σ.run = .resetVector → Unstopped σ → PinsLetRun (nextSample σ) → ∃ τ : State, step σ = .next τ ∧
    runStateName τ = .running ∧ τ.run = .running ∧ KeepsRegs [.r16 .pc] noDelta σ τ ∧ τ.mem = σ.mem ∧
    τ.cc = { σ.cc with i := true, f := true } ∧ (σ.platform = [] → FetchedResetVector σ τ))

/-- RES low holds the machine in reset from every state: nothing runs, no register changes, the MPU makes no access, and memory changes only where another master writes while HALT or DMA/BREQ keeps the bus released. -/
def Obligations.ResetHeldFromAnyState : Prop :=
  ∀ σ : State, (nextSample σ).res = true →
    ∃ τ : State, step σ = .next τ ∧ runStateName τ = .inReset ∧
      KeepsRegsAndFlags [] noDelta σ τ ∧ KeepsNmi σ τ ∧ τ.run = σ.run ∧ (∀ c ∈ τ.bus, c.other = true) ∧
      ((nextSample σ).halt = false → (nextSample σ).dmaBreq = false → τ.mem = σ.mem ∧ τ.bus = []) ∧
      ((nextSample σ).halt = true ∨ (nextSample σ).dmaBreq = true →
        τ.mem = (otherWrite (nextSample σ).write (busSide σ)).mem) ∧
      (baBs τ = some (true, true) ↔ (nextSample σ).halt = true ∨ (nextSample σ).dmaBreq = true)

/-! ## What an instruction may touch -/

/-- DP changes only by TFR, EXG, PULS, PULU and RTI (R16); F and I only by an instruction that loads CC as a whole or by SWI (R22, R24); E only by those and SWI2, SWI3 (R25). -/
def Obligations.SystemRegisterWriters : Prop :=
  ∀ (i : Instr) (σ τ : State), exec i σ = .next τ →
    (loadsDp i = false → τ.dp = σ.dp) ∧
    (loadsCc i = false → i ≠ .swi → τ.cc.f = σ.cc.f ∧ τ.cc.i = σ.cc.i) ∧
    (loadsCc i = false → isSwi i = false → τ.cc.e = σ.cc.e)

/-- No instruction latches, takes or drops an NMI or disarms it; every LDS arms it; an instruction outside the candidates of `nmi_arming_set` leaves the arming alone (R27, R403; D6, log 6). -/
def Obligations.NmiArmingInstructions : Prop :=
  ∀ (i : Instr) (σ τ : State), exec i σ = .next τ →
    τ.nmiPending = σ.nmiPending ∧ (σ.nmiArmed = true → τ.nmiArmed = true) ∧
    (∀ src : Src16, i = .lds src → τ.nmiArmed = true) ∧
    (mayArmNmi i = false → τ.nmiArmed = σ.nmiArmed)

/-- SYNC enters the Sync state, CWAI its wait, and no other instruction changes the place in the main loop; none touches HALT's overlay, the pins to come or the platform, nor the bus grant and the counters where no cycle is granted inside it (R29, R428). -/
def Obligations.OnlyWaitsChangeRunState : Prop :=
  ∀ (i : Instr) (σ τ : State), exec i σ = .next τ →
    τ.run = (match i with
      | .sync => .syncing
      | .cwai _ => .cwaiWaiting
      | _ => σ.run) ∧
    τ.halted = σ.halted ∧ τ.inReset = σ.inReset ∧ τ.env = σ.env ∧ τ.platform = σ.platform ∧
    (σ.cycles = none → τ.cycles = none ∧ KeepsCounters σ τ)

/-- An instruction outside the storing forms of R46 makes no write, so it leaves every byte of memory as it was unless another master writes inside it. -/
def Obligations.NonStoringInstructionsKeepMemory : Prop :=
  ∀ (i : Instr) (σ τ : State), storesMemory i = false → exec i σ = .next τ →
    LeavesMemory σ τ ∧ ∃ cycles : List BusCycle, τ.bus = σ.bus ++ cycles ∧ ∀ c ∈ cycles, c.write = true → c.other = true

/-- Memory and the devices after an instruction are what the accesses it logs, done one after the other, make of them; the log only grows; with no cycle granted inside the step all are the MPU's own; a byte that changes is one of plain memory, and a write to it is logged (R50, R54, R61). -/
def Obligations.BusLogAccountsForMemory : Prop :=
  ∀ (i : Instr) (σ τ : State), exec i σ = .next τ →
    ∃ cycles : List BusCycle, τ.bus = σ.bus ++ cycles ∧ τ.mem = (replay cycles σ).mem ∧
      τ.devices = (replay cycles σ).devices ∧ (σ.cycles = none → ∀ c ∈ cycles, c.other = false) ∧
      ∀ a : Word, peek a τ ≠ peek a σ →
        kindAt σ.platform a = .ram ∧ ∃ c ∈ cycles, c.write = true ∧ c.addr = a

/-- The only acknowledge cycles of an instruction are the two reads of its vector by SWI, SWI2 and SWI3; in a step that nothing disturbs they come last (R413). That the vector is fetched after everything else is the spec's decision D9 (log 16), and that no access is logged but those the rules name is its decision D12 (log 21). -/
def Obligations.AcknowledgeCyclesAreVectorFetches : Prop :=
  ∀ (i : Instr) (σ τ : State), exec i σ = .next τ →
    (∃ cycles : List BusCycle, τ.bus = σ.bus ++ cycles ∧
      (cycles.filter (fun c => c.ack)).map (fun c => (c.addr, c.write)) = (match i with
        | .swi => [(0xFFFA, false), (0xFFFB, false)]
        | .swi2 => [(0xFFF4, false), (0xFFF5, false)]
        | .swi3 => [(0xFFF2, false), (0xFFF3, false)]
        | _ => [])) ∧
    (Undisturbed σ → ∃ plain : List BusCycle, (∀ c ∈ plain, c.ack = false) ∧
      τ.bus = σ.bus ++ plain ++ (match i with
        | .swi => [{ write := false, ack := true, addr := 0xFFFA, data := peek 0xFFFA τ },
                   { write := false, ack := true, addr := 0xFFFB, data := peek 0xFFFB τ }]
        | .swi2 => [{ write := false, ack := true, addr := 0xFFF4, data := peek 0xFFF4 τ },
                    { write := false, ack := true, addr := 0xFFF5, data := peek 0xFFF5 τ }]
        | .swi3 => [{ write := false, ack := true, addr := 0xFFF2, data := peek 0xFFF2 τ },
                    { write := false, ack := true, addr := 0xFFF3, data := peek 0xFFF3 τ }]
        | _ => []))

/-! ## Addresses and operands -/

/-- Zero, constant and accumulator offsets: the sum modulo 2^16, the offsets two's complement (R105 to R111); no register changes. That the sum wraps is the spec's own decision D21 (log 23). -/
def Obligations.OffsetAddresses : Prop :=
  ∀ (r : Ptr) (σ : State),
    (idxAddr (.plain (.zero r)) σ = (ptr r σ, σ)) ∧
    (∀ n : BitVec 5, ((idxAddr (.off5 r n) σ).1.toNat : Int) = ((ptr r σ).toNat + n.toInt) % 65536 ∧
      (idxAddr (.off5 r n) σ).2 = σ) ∧
    (∀ n : Byte, ((idxAddr (.plain (.off8 r n)) σ).1.toNat : Int) = ((ptr r σ).toNat + n.toInt) % 65536 ∧
      (idxAddr (.plain (.off8 r n)) σ).2 = σ) ∧
    (∀ n : Word, ((idxAddr (.plain (.off16 r n)) σ).1.toNat : Int) = ((ptr r σ).toNat + n.toInt) % 65536 ∧
      (idxAddr (.plain (.off16 r n)) σ).2 = σ) ∧
    (((idxAddr (.plain (.accA r)) σ).1.toNat : Int) = ((ptr r σ).toNat + σ.a.toInt) % 65536 ∧
      (idxAddr (.plain (.accA r)) σ).2 = σ) ∧
    (((idxAddr (.plain (.accB r)) σ).1.toNat : Int) = ((ptr r σ).toNat + σ.b.toInt) % 65536 ∧
      (idxAddr (.plain (.accB r)) σ).2 = σ) ∧
    ((idxAddr (.plain (.accD r)) σ).1.toNat = ((ptr r σ).toNat + (256 * σ.a.toNat + σ.b.toNat)) % 65536 ∧
      (idxAddr (.plain (.accD r)) σ).2 = σ)

/-- Auto increment uses the old pointer and then adds 1 or 2; auto decrement subtracts first; all modulo 2^16, and no other register, flag or byte changes (R112 to R115). That the pointer wraps is the spec's own decision D21 (log 23). -/
def Obligations.AutoUpdateAddresses : Prop :=
  ∀ (r : Ptr) (σ : State),
    (∀ (i : Idx) (n : Nat), (i = .inc1 r ∧ n = 1) ∨ (i = .plain (.inc2 r) ∧ n = 2) →
      (idxAddr i σ).1 = ptr r σ ∧
      (ptr r (idxAddr i σ).2).toNat = ((ptr r σ).toNat + n) % 65536 ∧
      (∀ q : Ptr, q ≠ r → ptr q (idxAddr i σ).2 = ptr q σ) ∧
      setPtr r (ptr r σ) (idxAddr i σ).2 = σ) ∧
    (∀ (i : Idx) (n : Nat), (i = .dec1 r ∧ n = 1) ∨ (i = .plain (.dec2 r) ∧ n = 2) →
      ((idxAddr i σ).1.toNat : Int) = ((ptr r σ).toNat - n) % 65536 ∧
      ptr r (idxAddr i σ).2 = (idxAddr i σ).1 ∧
      (∀ q : Ptr, q ≠ r → ptr q (idxAddr i σ).2 = ptr q σ) ∧
      setPtr r (ptr r σ) (idxAddr i σ).2 = σ)

/-- Direct is DP : byte, extended the word itself, PC-relative is counted from the next instruction, and the indirect forms read the big-endian word at the address of the form they are made from, after its pointer update (R98, R99, R116 to R120). That PC-relative indexing counts from the next instruction is the spec's own decision D11 (R15, log 19), and that the PC-relative sum, the address before an indirect read and the address of that word's second byte wrap modulo 2^16 is its decision D21 (R44, log 23). -/
def Obligations.DirectRelativeAndIndirectAddresses : Prop :=
  ∀ σ : State,
    (∀ n : Byte, (effAddr (.direct n) σ).1.toNat = 256 * σ.dp.toNat + n.toNat ∧ (effAddr (.direct n) σ).2 = σ) ∧
    (∀ n : Word, effAddr (.extended n) σ = (n, σ)) ∧
    (∀ n : Byte, ((idxAddr (.plain (.pcr8 n)) σ).1.toNat : Int) = (σ.pc.toNat + n.toInt) % 65536 ∧
      (idxAddr (.plain (.pcr8 n)) σ).2 = σ) ∧
    (∀ n : Word, ((idxAddr (.plain (.pcr16 n)) σ).1.toNat : Int) = (σ.pc.toNat + n.toInt) % 65536 ∧
      (idxAddr (.plain (.pcr16 n)) σ).2 = σ) ∧
    (∀ (m : IdxBase) (p : Word), (p.toNat : Int) = baseInt m σ % 65536 →
      (Undisturbed σ → (idxAddr (.indirect m) σ).1.toNat = 256 * (peek p σ).toNat + (peek (p + 1) σ).toNat) ∧
      ∀ q : Ptr, ptr q (idxAddr (.indirect m) σ).2 = ptr q σ + baseDelta m q) ∧
    (∀ n : Word, Undisturbed σ → (idxAddr (.extIndirect n) σ).1.toNat = 256 * (peek n σ).toNat + (peek (n + 1) σ).toNat)

/-- An immediate is its own value; a memory operand is what a read at the effective address is answered once other masters have had their cycles before it, so with plain memory the byte, or the big-endian word, that stands there (R140, R41, R61). -/
def Obligations.OperandValues : Prop :=
  ∀ σ : State,
    (∀ n : Byte, operand8 (.imm n) σ = (n, σ)) ∧
    (∀ n : Word, operand16 (.imm n) σ = (n, σ)) ∧
    (∀ a : Addr, (operand8 (.mem a) σ).1 = answer false (effAddr a σ).1 (nextCycle (effAddr a σ).2)) ∧
    (Undisturbed σ →
      (∀ a : Addr, (operand8 (.mem a) σ).1 = peek (effAddr a σ).1 σ) ∧
      (∀ a : Addr, (operand16 (.mem a) σ).1.toNat =
        256 * (peek (effAddr a σ).1 σ).toNat + (peek ((effAddr a σ).1 + 1) σ).toNat))

/-- A 16-bit store whose address auto updates the very register it stores, stores the updated value (R120, R458). -/
def Obligations.PointerStoredAfterUpdate : Prop :=
  ∀ (r : Ptr) (σ : State), Undisturbed σ → σ.mem.wf = true →
    (∃ τ : State, exec (stWordI (ptrWord r) (.indexed (.plain (.inc2 r)))) σ = .next τ ∧
      peekWord (ptr r σ) τ = ptr r σ + 2 ∧ ptr r τ = ptr r σ + 2) ∧
    (∃ τ : State, exec (stWordI (ptrWord r) (.indexed (.inc1 r))) σ = .next τ ∧
      peekWord (ptr r σ) τ = ptr r σ + 1 ∧ ptr r τ = ptr r σ + 1) ∧
    (∃ τ : State, exec (stWordI (ptrWord r) (.indexed (.plain (.dec2 r)))) σ = .next τ ∧
      peekWord (ptr r σ - 2) τ = ptr r σ - 2 ∧ ptr r τ = ptr r σ - 2) ∧
    (∃ τ : State, exec (stWordI (ptrWord r) (.indexed (.dec1 r))) σ = .next τ ∧
      peekWord (ptr r σ - 1) τ = ptr r σ - 1 ∧ ptr r τ = ptr r σ - 1)

/-- LEAa with the auto increment or decrement of b: b is updated, then a takes the address, the old b or the decremented one; so of one register LEA with an increment leaves it unchanged, with a decrement lowers it by one or two, and the offset form `1,X` raises it by one (R459). -/
def Obligations.LeaWithAutoUpdateOfSameRegister : Prop :=
  ∀ (r q : Ptr) (σ : State),
    (∀ (i : Idx) (n : Word), (i = .inc1 q ∧ n = 1) ∨ (i = .plain (.inc2 q) ∧ n = 2) →
      ∃ τ : State, exec (leaI r i) σ = .next τ ∧ ptr r τ = ptr q σ ∧ (q ≠ r → ptr q τ = ptr q σ + n)) ∧
    (∀ (i : Idx) (n : Word), (i = .dec1 q ∧ n = 1) ∨ (i = .plain (.dec2 q) ∧ n = 2) →
      ∃ τ : State, exec (leaI r i) σ = .next τ ∧ ptr r τ = ptr q σ - n ∧ (q ≠ r → ptr q τ = ptr q σ - n)) ∧
    (∃ τ : State, exec (leaI r (.off5 r 1)) σ = .next τ ∧ ptr r τ = ptr r σ + 1)

/-- D is A : B, A the more significant byte: writing D writes both, and writing A or B changes D (R12). -/
def Obligations.AccumulatorDIsAB : Prop :=
  ∀ (σ : State) (w : Word) (v : Byte),
    (readReg16 .d σ).toNat = 256 * σ.a.toNat + σ.b.toNat ∧
    (writeReg16 .d w σ).a.toNat = w.toNat / 256 ∧ (writeReg16 .d w σ).b.toNat = w.toNat % 256 ∧
    readReg16 .d (writeReg16 .d w σ) = w ∧
    (readReg16 .d (setAcc .a v σ)).toNat = 256 * v.toNat + σ.b.toNat ∧
    (readReg16 .d (setAcc .b v σ)).toNat = 256 * σ.a.toNat + v.toNat

/-! ## 8-bit accumulator and memory -/

/-- ADDA, ADDB, ADCA, ADCB complete with the sum and the flags H N Z V C of R142, and change nothing else but what the addressing mode updates. -/
def Obligations.AddResults : Prop :=
  ∀ (r : Acc) (withCarry : Bool) (src : Src8) (σ : State),
    ∃ τ : State, exec (addI r withCarry src) σ = .next τ ∧
      IsSum (acc r σ) (operand8 src σ).1 (withCarry && σ.cc.c) (acc r τ) σ.cc τ.cc ∧
      KeepsRegs [accR r] (src8Delta src) σ τ ∧ LeavesMemory σ τ ∧ KeepsNmi σ τ ∧ KeepsControl σ τ

/-- SUBA, SUBB, SBCA, SBCB complete with the difference and the flags N Z V C of R143, CMPA and CMPB with those flags and no accumulator changed; H is free, so nothing is said of it. -/
def Obligations.SubtractResults : Prop :=
  (∀ (r : Acc) (withBorrow : Bool) (src : Src8) (σ : State),
    ∃ τ : State, exec (subI r withBorrow src) σ = .next τ ∧
      IsDifference (acc r σ) (operand8 src σ).1 (withBorrow && σ.cc.c) (acc r τ) σ.cc τ.cc ∧
      KeepsRegs [accR r] (src8Delta src) σ τ ∧ LeavesMemory σ τ ∧ KeepsNmi σ τ ∧ KeepsControl σ τ) ∧
  (∀ (r : Acc) (src : Src8) (σ : State),
    ∃ τ : State, exec (cmpI r src) σ = .next τ ∧
      IsDifference (acc r σ) (operand8 src σ).1 false (acc r σ - (operand8 src σ).1) σ.cc τ.cc ∧
      KeepsRegs [] (src8Delta src) σ τ ∧ LeavesMemory σ τ ∧ KeepsNmi σ τ ∧ KeepsControl σ τ)

/-- ANDA ANDB ORA ORB EORA EORB complete with the bitwise result and the flags of R146; BITA, BITB with the flags of the bitwise product, and no accumulator changes. -/
def Obligations.LogicalResults : Prop :=
  (∀ (op : LogicOp) (r : Acc) (src : Src8) (σ : State),
    ∃ τ : State, exec (logicI op r src) σ = .next τ ∧
      (∀ k : Nat, k < 8 → (acc r τ).getLsbD k = logicBit op ((acc r σ).getLsbD k) ((operand8 src σ).1.getLsbD k)) ∧
      LogicFlags (acc r τ) σ.cc τ.cc ∧
      KeepsRegs [accR r] (src8Delta src) σ τ ∧ LeavesMemory σ τ ∧ KeepsNmi σ τ ∧ KeepsControl σ τ) ∧
  (∀ (r : Acc) (src : Src8) (σ : State),
    ∃ τ : State, exec (bitI r src) σ = .next τ ∧
      LogicFlags (acc r σ &&& (operand8 src σ).1) σ.cc τ.cc ∧
      KeepsRegs [] (src8Delta src) σ τ ∧ LeavesMemory σ τ ∧ KeepsNmi σ τ ∧ KeepsControl σ τ)

/-- LDA, LDB complete with the operand loaded and the flags of R146. -/
def Obligations.LoadByteResults : Prop :=
  ∀ (r : Acc) (src : Src8) (σ : State),
    ∃ τ : State, exec (ldI r src) σ = .next τ ∧ acc r τ = (operand8 src σ).1 ∧
      LogicFlags (acc r τ) σ.cc τ.cc ∧
      KeepsRegs [accR r] (src8Delta src) σ τ ∧ LeavesMemory σ τ ∧ KeepsNmi σ τ ∧ KeepsControl σ τ

/-- STA, STB complete with the accumulator at the effective address and nowhere else, in one write and no read of the location (R48), and the flags of R146. -/
def Obligations.StoreByteResults : Prop :=
  ∀ (r : Acc) (a : Addr) (σ : State),
    ∃ τ : State, exec (stI r a) σ = .next τ ∧ LogicFlags (acc r σ) σ.cc τ.cc ∧
      KeepsRegs [] (addrDelta a) σ τ ∧ KeepsNmi σ τ ∧ KeepsControl σ τ ∧
      (σ.cycles = none → KeepsMemoryOutside [(effAddr a σ).1] σ τ ∧
        τ.bus = (effAddr a σ).2.bus ++ [{ write := true, ack := false, addr := (effAddr a σ).1, data := acc r σ }]) ∧
      (Undisturbed σ → σ.mem.wf = true → peek (effAddr a σ).1 τ = acc r σ)

/-! ## 8-bit read-modify-write -/

/-- NEG COM LSR ROR ASR ASL ROL DEC INC CLR on memory complete: the byte read at the effective address gives the result written there and the flags of R148 to R158, and the two accesses are a read and then a write of that one address (R159). -/
def Obligations.RmwMemoryResults : Prop :=
  ∀ (op : RmwOp) (a : Addr) (σ : State),
    let v := (operand8 (.mem a) σ).1
    ∃ (r : Byte) (τ : State), exec (rmwI op a) σ = .next τ ∧ IsRmw op v r σ.cc τ.cc ∧
      KeepsRegs [] (addrDelta a) σ τ ∧ KeepsNmi σ τ ∧ KeepsControl σ τ ∧
      (σ.cycles = none → KeepsMemoryOutside [(effAddr a σ).1] σ τ ∧
        τ.bus = (effAddr a σ).2.bus ++
          [{ write := false, ack := false, addr := (effAddr a σ).1, data := v },
           { write := true, ack := false, addr := (effAddr a σ).1, data := r }]) ∧
      (Undisturbed σ → σ.mem.wf = true → v = peek (effAddr a σ).1 σ ∧ peek (effAddr a σ).1 τ = r)

/-- NEGA to CLRA and NEGB to CLRB complete with the result of R148 to R158 in the accumulator, and make no access. -/
def Obligations.RmwAccumulatorResults : Prop :=
  ∀ (op : RmwOp) (r : Acc) (σ : State),
    ∃ τ : State, exec (rmwAccI op r) σ = .next τ ∧ IsRmw op (acc r σ) (acc r τ) σ.cc τ.cc ∧
      τ.bus = σ.bus ∧ KeepsRegs [accR r] noDelta σ τ ∧ LeavesMemory σ τ ∧ KeepsNmi σ τ ∧ KeepsControl σ τ

/-- TST, TSTA, TSTB complete with the flags of R157 and write nothing back: TST's one access of the location is a read, TSTA and TSTB make none. -/
def Obligations.TestResults : Prop :=
  ∀ σ : State,
    (∀ a : Addr, ∃ τ : State, exec (.tst a) σ = .next τ ∧
      LogicFlags (operand8 (.mem a) σ).1 σ.cc τ.cc ∧
      (σ.cycles = none → τ.bus = (effAddr a σ).2.bus ++
        [{ write := false, ack := false, addr := (effAddr a σ).1, data := (operand8 (.mem a) σ).1 }]) ∧
      KeepsRegs [] (addrDelta a) σ τ ∧ LeavesMemory σ τ ∧ KeepsNmi σ τ ∧ KeepsControl σ τ) ∧
    (∀ r : Acc, ∃ τ : State, exec (tstAccI r) σ = .next τ ∧ LogicFlags (acc r σ) σ.cc τ.cc ∧ τ.bus = σ.bus ∧
      KeepsRegs [] noDelta σ τ ∧ LeavesMemory σ τ ∧ KeepsNmi σ τ ∧ KeepsControl σ τ)

/-- DAA completes in every state: A plus the correction of R204, N and Z of it, C kept or set by a carry out, H unchanged, V free; the correction is the spec's decision D28 (log 12). -/
def Obligations.DecimalAdjustResult : Prop :=
  ∀ σ : State, ∃ τ : State, exec .daa σ = .next τ ∧
    τ.a.toNat = (σ.a.toNat + daaCorrection σ.a σ.cc) % 256 ∧ Nz τ.a τ.cc ∧
    (τ.cc.c = true ↔ σ.cc.c = true ∨ 255 < σ.a.toNat + daaCorrection σ.a σ.cc) ∧
    τ.cc.h = σ.cc.h ∧ KeepsMasks σ.cc τ.cc ∧
    KeepsRegs [.r8 .a] noDelta σ τ ∧ LeavesMemory σ τ ∧ KeepsNmi σ τ ∧ KeepsControl σ τ

/-- ADDA or ADCA of two packed decimal bytes, whatever the operand's form, and then DAA is decimal addition: A holds the digits of the sum modulo 100 and C is the decimal carry. -/
def Obligations.DecimalAdditionIsDecimal : Prop :=
  ∀ (σ : State) (src : Src8) (na nm : Nat) (withCarry : Bool), IsBcd σ.a na → IsBcd (operand8 src σ).1 nm →
    ∃ τ υ : State, exec (addI .a withCarry src) σ = .next τ ∧ exec .daa τ = .next υ ∧
      IsBcd υ.a ((na + nm + (withCarry && σ.cc.c).toNat) % 100) ∧
      (υ.cc.c = true ↔ 100 ≤ na + nm + (withCarry && σ.cc.c).toNat)

/-- MUL gives the unsigned product in D with Z and C of R214; SEX gives B's signed value in D with N and Z of R230; ABX adds B unsigned to X and writes no flag (R255). -/
def Obligations.MultiplyExtendAndAbxResults : Prop :=
  ∀ σ : State,
    (∃ τ : State, exec .mul σ = .next τ ∧ (dReg τ).toNat = σ.a.toNat * σ.b.toNat ∧
      (τ.cc.z = true ↔ σ.a.toNat = 0 ∨ σ.b.toNat = 0) ∧ (τ.cc.c = true ↔ 128 ≤ τ.b.toNat) ∧
      τ.cc.h = σ.cc.h ∧ τ.cc.n = σ.cc.n ∧ τ.cc.v = σ.cc.v ∧ KeepsMasks σ.cc τ.cc ∧
      KeepsRegs [.r8 .a, .r8 .b] noDelta σ τ ∧ LeavesMemory σ τ ∧ KeepsNmi σ τ ∧ KeepsControl σ τ) ∧
    (∃ τ : State, exec .sex σ = .next τ ∧ (dReg τ).toInt = σ.b.toInt ∧ NzWord (dReg τ) τ.cc ∧
      τ.cc.h = σ.cc.h ∧ τ.cc.v = σ.cc.v ∧ τ.cc.c = σ.cc.c ∧ KeepsMasks σ.cc τ.cc ∧
      KeepsRegs [.r8 .a] noDelta σ τ ∧ LeavesMemory σ τ ∧ KeepsNmi σ τ ∧ KeepsControl σ τ) ∧
    (∃ τ : State, exec .abx σ = .next τ ∧ τ.x.toNat = (σ.x.toNat + σ.b.toNat) % 65536 ∧
      KeepsRegsAndFlags [.r16 .x] noDelta σ τ ∧ LeavesMemory σ τ ∧ KeepsNmi σ τ ∧ KeepsControl σ τ)

/-! ## 16-bit operands -/

/-- ADDD and SUBD complete with the sum and the difference of R144 and R145 in D. -/
def Obligations.AddSubDResults : Prop :=
  ∀ (src : Src16) (σ : State),
    (∃ τ : State, exec (.addd src) σ = .next τ ∧
      IsWordSum (dReg σ) (operand16 src σ).1 (dReg τ) σ.cc τ.cc ∧
      KeepsRegs [.r8 .a, .r8 .b] (src16Delta src) σ τ ∧ LeavesMemory σ τ ∧ KeepsNmi σ τ ∧ KeepsControl σ τ) ∧
    (∃ τ : State, exec (.subd src) σ = .next τ ∧
      IsWordDifference (dReg σ) (operand16 src σ).1 (dReg τ) σ.cc τ.cc ∧
      KeepsRegs [.r8 .a, .r8 .b] (src16Delta src) σ τ ∧ LeavesMemory σ τ ∧ KeepsNmi σ τ ∧ KeepsControl σ τ)

/-- CMPD CMPX CMPY CMPU CMPS complete with the flags of the difference of R145, taken from the register as the addressing mode leaves it (R120); nothing else changes. -/
def Obligations.CompareWordResults : Prop :=
  ∀ (r : WordReg) (src : Src16) (σ : State),
    ∃ τ : State, exec (cmpWordI r src) σ = .next τ ∧
      IsWordDifference (wordReg r (operand16 src σ).2) (operand16 src σ).1
        (wordReg r (operand16 src σ).2 - (operand16 src σ).1) σ.cc τ.cc ∧
      KeepsRegs [] (src16Delta src) σ τ ∧ LeavesMemory σ τ ∧ KeepsNmi σ τ ∧ KeepsControl σ τ

/-- LDD LDX LDY LDU LDS complete with the word loaded, which overrides an auto update of the same register (R120), and the flags of R147; LDS arms NMI (R403). -/
def Obligations.LoadWordResults : Prop :=
  ∀ (r : WordReg) (src : Src16) (σ : State),
    ∃ τ : State, exec (ldWordI r src) σ = .next τ ∧ wordReg r τ = (operand16 src σ).1 ∧
      LogicWordFlags (wordReg r τ) σ.cc τ.cc ∧
      KeepsRegs (wordRegParts r) (src16Delta src) σ τ ∧ LeavesMemory σ τ ∧ KeepsControl σ τ ∧
      τ.nmiPending = σ.nmiPending ∧ τ.nmiArmed = (σ.nmiArmed || r == .s)

/-- STD STX STY STU STS complete with the register, as the addressing mode leaves it, at the effective address, high byte first, and nowhere else, and the flags of R147. -/
def Obligations.StoreWordResults : Prop :=
  ∀ (r : WordReg) (a : Addr) (σ : State),
    let ea := (effAddr a σ).1
    let w := wordReg r (effAddr a σ).2
    ∃ τ : State, exec (stWordI r a) σ = .next τ ∧ LogicWordFlags w σ.cc τ.cc ∧
      KeepsRegs [] (addrDelta a) σ τ ∧ KeepsNmi σ τ ∧ KeepsControl σ τ ∧
      (σ.cycles = none → KeepsMemoryOutside [ea, ea + 1] σ τ ∧
        τ.bus = (effAddr a σ).2.bus ++ [{ write := true, ack := false, addr := ea, data := hi w },
          { write := true, ack := false, addr := ea + 1, data := lo w }]) ∧
      (Undisturbed σ → σ.mem.wf = true →
        (peek ea τ).toNat = w.toNat / 256 ∧ (peek (ea + 1) τ).toNat = w.toNat % 256)

/-- LEAX LEAY LEAU LEAS complete with the effective address in the register; LEAX and LEAY write Z from it, LEAU and LEAS no flag (D26, log 14); only LEAS may arm NMI (D6, log 6). -/
def Obligations.LeaResults : Prop :=
  ∀ (r : Ptr) (i : Idx) (σ : State),
    ∃ τ : State, exec (leaI r i) σ = .next τ ∧ ptr r τ = (idxAddr i σ).1 ∧
      (r = .x ∨ r = .y → (τ.cc.z = true ↔ (idxAddr i σ).1.toNat = 0) ∧ τ.cc = { σ.cc with z := τ.cc.z }) ∧
      (r = .u ∨ r = .s → τ.cc = σ.cc) ∧
      KeepsRegs [ptrR r] (idxDelta i) σ τ ∧ LeavesMemory σ τ ∧ KeepsControl σ τ ∧
      τ.nmiPending = σ.nmiPending ∧ (r ≠ .s → τ.nmiArmed = σ.nmiArmed)

/-! ## Transfers and stacks -/

/-- TFR of like-size registers completes: the destination takes the source's value, CC all eight bits, PC read as the next instruction's address, and nothing else changes (R254); EXG completes with the two values exchanged and nothing else changed (R237). TFR to S and EXG of S may arm NMI (D6, log 6). -/
def Obligations.TransferAndExchangeResults : Prop :=
  (∀ (src dst : Reg) (σ : State), src.likeSize dst = true →
    ∃ τ : State, exec (.tfr src dst) σ = .next τ ∧ regNat dst τ = regNat src σ ∧
      KeepsRegs (regParts dst) noDelta σ τ ∧ (dst ≠ .r8 .cc → τ.cc = σ.cc) ∧
      LeavesMemory σ τ ∧ KeepsControl σ τ ∧
      τ.nmiPending = σ.nmiPending ∧ (dst ≠ .r16 .s → τ.nmiArmed = σ.nmiArmed)) ∧
  (∀ (r t : Reg) (σ : State), r.likeSize t = true →
    ∃ τ : State, exec (.exg r t) σ = .next τ ∧ regNat t τ = regNat r σ ∧ regNat r τ = regNat t σ ∧
      KeepsRegs (regParts r ++ regParts t) noDelta σ τ ∧ (r ≠ .r8 .cc → t ≠ .r8 .cc → τ.cc = σ.cc) ∧
      LeavesMemory σ τ ∧ KeepsControl σ τ ∧
      τ.nmiPending = σ.nmiPending ∧ (r ≠ .r16 .s → t ≠ .r16 .s → τ.nmiArmed = σ.nmiArmed))

/-- PSHS, PSHU complete for every mask: the selected registers stand below the old pointer in the fixed order, CC lowest, the pointer is at the last byte pushed, and nothing else changes. PULS, PULU complete for every mask: the registers selected are those whose frame stood at the old pointer, the pointer is past it, and nothing else changes. The bit numbers are log 9's; PULU of S may arm NMI (D6, log 6). -/
def Obligations.PushAndPullResults : Prop :=
  (∀ (k : Stk) (mask : Byte) (σ : State),
    ∃ τ : State, exec (pshI k mask) σ = .next τ ∧
      (frameBytes k mask σ).length = maskBytes mask ∧
      ptr (stackPtr k) τ = ptr (stackPtr k) σ - BitVec.ofNat 16 (maskBytes mask) ∧
      KeepsRegsAndFlags [stkR k] noDelta σ τ ∧ KeepsNmi σ τ ∧ KeepsControl σ τ ∧
      (Undisturbed σ → σ.mem.wf = true → MemoryHolds (ptr (stackPtr k) τ) (frameBytes k mask σ) τ ∧
        KeepsMemoryOutside (span (ptr (stackPtr k) τ) (maskBytes mask)) σ τ)) ∧
  (∀ (k : Stk) (mask : Byte) (σ : State),
    ∃ τ : State, exec (pulI k mask) σ = .next τ ∧
      ptr (stackPtr k) τ = ptr (stackPtr k) σ + BitVec.ofNat 16 (maskBytes mask) ∧
      (Undisturbed σ → MemoryHolds (ptr (stackPtr k) σ) (frameBytes k mask τ) σ) ∧
      KeepsRegs (pulledRegs k mask) noDelta σ τ ∧ (mask.getLsbD 0 = false → τ.cc = σ.cc) ∧
      LeavesMemory σ τ ∧ KeepsControl σ τ ∧ τ.nmiPending = σ.nmiPending ∧
      (k = .s ∨ mask.getLsbD 6 = false → τ.nmiArmed = σ.nmiArmed))

/-! ## Branches, jumps, calls -/

/-- The sixteen short and the sixteen long branches complete: where the condition of R164 holds PC becomes PC plus the signed offset modulo 2^16, else PC stays at the next instruction; nothing else changes. -/
def Obligations.BranchResults : Prop :=
  ∀ (c : Cond) (σ : State),
    (∀ off : Byte, ∃ τ : State, exec (shortI c off) σ = .next τ ∧
      (CondHolds c σ.cc → (τ.pc.toNat : Int) = (σ.pc.toNat + off.toInt) % 65536) ∧
      (¬ CondHolds c σ.cc → τ.pc = σ.pc) ∧
      KeepsRegsAndFlags [.r16 .pc] noDelta σ τ ∧ LeavesMemory σ τ ∧ KeepsNmi σ τ ∧ KeepsControl σ τ) ∧
    (∀ off : Word, ∃ τ : State, exec (longI c off) σ = .next τ ∧
      (CondHolds c σ.cc → (τ.pc.toNat : Int) = (σ.pc.toNat + off.toInt) % 65536) ∧
      (¬ CondHolds c σ.cc → τ.pc = σ.pc) ∧
      KeepsRegsAndFlags [.r16 .pc] noDelta σ τ ∧ LeavesMemory σ τ ∧ KeepsNmi σ τ ∧ KeepsControl σ τ)

/-- After CMPA or CMPB, and after CMPX, CMPY, CMPU, CMPS or CMPD, each condition of R164 means what its table says of the two numbers compared, unsigned or signed. -/
def Obligations.BranchesAfterCompare : Prop :=
  (∀ (r : Acc) (src : Src8) (σ τ : State), exec (cmpI r src) σ = .next τ →
    let p := acc r σ
    let m := (operand8 src σ).1
    (CondHolds .hi τ.cc ↔ m.toNat < p.toNat) ∧ (CondHolds .ls τ.cc ↔ p.toNat ≤ m.toNat) ∧
    (CondHolds .cc τ.cc ↔ m.toNat ≤ p.toNat) ∧ (CondHolds .cs τ.cc ↔ p.toNat < m.toNat) ∧
    (CondHolds .ne τ.cc ↔ p ≠ m) ∧ (CondHolds .eq τ.cc ↔ p = m) ∧
    (CondHolds .ge τ.cc ↔ m.toInt ≤ p.toInt) ∧ (CondHolds .lt τ.cc ↔ p.toInt < m.toInt) ∧
    (CondHolds .gt τ.cc ↔ m.toInt < p.toInt) ∧ (CondHolds .le τ.cc ↔ p.toInt ≤ m.toInt)) ∧
  (∀ (r : WordReg) (src : Src16) (σ τ : State), exec (cmpWordI r src) σ = .next τ →
    let p := wordReg r (operand16 src σ).2
    let m := (operand16 src σ).1
    (CondHolds .hi τ.cc ↔ m.toNat < p.toNat) ∧ (CondHolds .ls τ.cc ↔ p.toNat ≤ m.toNat) ∧
    (CondHolds .cc τ.cc ↔ m.toNat ≤ p.toNat) ∧ (CondHolds .cs τ.cc ↔ p.toNat < m.toNat) ∧
    (CondHolds .ne τ.cc ↔ p ≠ m) ∧ (CondHolds .eq τ.cc ↔ p = m) ∧
    (CondHolds .ge τ.cc ↔ m.toInt ≤ p.toInt) ∧ (CondHolds .lt τ.cc ↔ p.toInt < m.toInt) ∧
    (CondHolds .gt τ.cc ↔ m.toInt < p.toInt) ∧ (CondHolds .le τ.cc ↔ p.toInt ≤ m.toInt))

/-- JMP goes to the effective address; BSR, LBSR and JSR push the next instruction's address, low byte first at the higher address, and go to their target, JSR's computed before the push; RTS goes to the word on top of the stack. None writes a flag. That the address pushed is the next instruction's is the spec's decision D11 (log 19). -/
def Obligations.JumpCallReturnResults : Prop :=
  ∀ σ : State,
    (∀ a : Addr, ∃ τ : State, exec (.jmp a) σ = .next τ ∧ τ.pc = (effAddr a σ).1 ∧
      KeepsRegsAndFlags [.r16 .pc] (addrDelta a) σ τ ∧ LeavesMemory σ τ ∧ KeepsNmi σ τ ∧ KeepsControl σ τ) ∧
    (∃ τ : State, exec .rts σ = .next τ ∧ (Undisturbed σ → τ.pc = peekWord σ.s σ) ∧ τ.s = σ.s + 2 ∧
      KeepsRegsAndFlags [.r16 .pc, .r16 .s] noDelta σ τ ∧ LeavesMemory σ τ ∧ KeepsNmi σ τ ∧ KeepsControl σ τ) ∧
    (∀ off : Byte, ∃ τ : State, exec (.bsr off) σ = .next τ ∧
      (τ.pc.toNat : Int) = (σ.pc.toNat + off.toInt) % 65536 ∧ CallEffect noDelta σ.s σ.bus σ τ) ∧
    (∀ off : Word, ∃ τ : State, exec (.lbsr off) σ = .next τ ∧
      τ.pc.toNat = (σ.pc.toNat + off.toNat) % 65536 ∧ CallEffect noDelta σ.s σ.bus σ τ) ∧
    (∀ a : Addr, ∃ τ : State, exec (.jsr a) σ = .next τ ∧ τ.pc = (effAddr a σ).1 ∧
      CallEffect (addrDelta a) (effAddr a σ).2.s (effAddr a σ).2.bus σ τ)

/-! ## Flag masks, waits, software interrupts, return -/

/-- ANDCC clears the CC bits whose mask bit is 0, ORCC sets those whose mask bit is 1; NOP changes nothing; SYNC changes the run state alone (R290, R292, R293, R301). -/
def Obligations.FlagMaskNopAndSyncResults : Prop :=
  ∀ σ : State,
    (∀ n : Byte, ∃ τ : State, exec (.andcc n) σ = .next τ ∧
      (∀ k : Nat, k < 8 → τ.cc.toByte.getLsbD k = (σ.cc.toByte.getLsbD k && n.getLsbD k)) ∧
      τ = { σ with cc := τ.cc }) ∧
    (∀ n : Byte, ∃ τ : State, exec (.orcc n) σ = .next τ ∧
      (∀ k : Nat, k < 8 → τ.cc.toByte.getLsbD k = (σ.cc.toByte.getLsbD k || n.getLsbD k)) ∧
      τ = { σ with cc := τ.cc }) ∧
    exec .nop σ = .next σ ∧
    exec .sync σ = .next { σ with run := .syncing }

/-- SWI, SWI2, SWI3 complete by taking their exception: E set, the entire state stacked with the next instruction's address and the old I and F, then I and F set by SWI alone and PC from the vector; H N Z V C unchanged. Order and frame are the spec's decisions D8, D9 and D11 (log 16, log 17, log 19). -/
def Obligations.SoftwareInterruptResults : Prop :=
  ∀ (l : SwiLevel) (σ : State),
    ∃ τ : State, exec (swiI l) σ = .next τ ∧ τ.s = σ.s - 12 ∧
      τ.cc = { σ.cc with e := true, i := σ.cc.i || l == .one, f := σ.cc.f || l == .one } ∧
      KeepsRegs [.r16 .s, .r16 .pc] noDelta σ τ ∧ KeepsNmi σ τ ∧ KeepsControl σ τ ∧
      (Undisturbed σ → σ.mem.wf = true → MemoryHolds τ.s (entireFrame { σ.cc with e := true } σ) τ ∧
        KeepsMemoryOutside (span τ.s 12) σ τ ∧ τ.pc = peekWord (swiVector l) τ)

/-- RTI completes: CC is the byte on top of the stack, and by the E just pulled the twelve bytes of an entire frame or the three of a subset frame are unstacked; memory is not written. The order of the frame is the spec's decision D8 (log 16). -/
def Obligations.ReturnFromInterruptResults : Prop :=
  ∀ σ : State, ∃ τ : State, exec .rti σ = .next τ ∧ τ.cc.toByte = (readByte σ.s σ).1 ∧
    (τ.cc.e = true → τ.s = σ.s + 12) ∧
    (τ.cc.e = false → τ.s = σ.s + 3 ∧ KeepsRegs [.r16 .s, .r16 .pc] noDelta σ τ) ∧
    LeavesMemory σ τ ∧ KeepsNmi σ τ ∧ KeepsControl σ τ ∧
    (Undisturbed σ → τ.cc.toByte = peek σ.s σ ∧
      MemoryHolds σ.s (if τ.cc.e then entireFrame τ.cc τ else subsetFrame τ.cc τ) σ)

/-- RTI straight after any entry but RES restores every register, S and PC of the interrupted program and its CC but for E, which is 0 after a FIRQ and 1 after the others; memory outside the frame is untouched. Order of the frame and of the entry are the spec's decisions D8 and D9 (log 16); that SWI, SWI2 and SWI3 stack the entire state with E = 1 is PRESUMED (R410, log 17). -/
def Obligations.EntryThenReturnRestores : Prop :=
  ∀ (e : Exc) (σ : State), Undisturbed σ → σ.mem.wf = true → e ≠ .res →
    ∃ τ : State, exec .rti (takeException e σ) = .next τ ∧ KeepsRegs [] noDelta σ τ ∧
      τ.cc = { σ.cc with e := !(e == .firq) } ∧
      KeepsMemoryOutside (span (takeException e σ).s (if e = .firq then 3 else 12)) σ τ

/-- CWAI completes: CC is masked and E set, the entire state is stacked with that CC and the next instruction's address, and the machine waits; the sequence is the spec's decision D10 (log 18), the order of the frame its decision D8 (log 16), and that the next instruction's address is stacked its decision D11 (log 19). -/
def Obligations.CwaiResults : Prop :=
  ∀ (n : Byte) (σ : State),
    ∃ τ : State, exec (.cwai n) σ = .next τ ∧ τ.run = .cwaiWaiting ∧
      (∀ k : Nat, k < 7 → τ.cc.toByte.getLsbD k = (σ.cc.toByte.getLsbD k && n.getLsbD k)) ∧ τ.cc.e = true ∧
      τ.s = σ.s - 12 ∧ KeepsRegs [.r16 .s] noDelta σ τ ∧ KeepsNmi σ τ ∧
      τ.halted = σ.halted ∧ τ.inReset = σ.inReset ∧ τ.env = σ.env ∧ τ.platform = σ.platform ∧
      (σ.cycles = none → τ.cycles = none ∧ KeepsCounters σ τ) ∧
      (Undisturbed σ → σ.mem.wf = true → MemoryHolds τ.s (entireFrame τ.cc σ) τ ∧ KeepsMemoryOutside (span τ.s 12) σ τ)

/-! ## Hardware interrupts, waits, HALT, DMA/BREQ -/

/-- Which interrupt a boundary takes: an armed pending NMI; else FIRQ, low with F clear; else IRQ, low with I clear; else none, and the next instruction is run (R403 to R405, R407). -/
def Obligations.InterruptPriority : Prop :=
  ∀ (p : PinSample) (σ : State),
    (takeable p σ = some .nmi ↔ σ.nmiPending = true ∧ σ.nmiArmed = true) ∧
    (takeable p σ = some .firq ↔ ¬ (σ.nmiPending = true ∧ σ.nmiArmed = true) ∧ p.firq = true ∧ σ.cc.f = false) ∧
    (takeable p σ = some .irq ↔ ¬ (σ.nmiPending = true ∧ σ.nmiArmed = true) ∧
      ¬ (p.firq = true ∧ σ.cc.f = false) ∧ p.irq = true ∧ σ.cc.i = false) ∧
    (takeable p σ = none ↔ ¬ (σ.nmiPending = true ∧ σ.nmiArmed = true) ∧
      ¬ (p.firq = true ∧ σ.cc.f = false) ∧ ¬ (p.irq = true ∧ σ.cc.i = false)) ∧
    (σ.run = .running → takeable p σ = none → serve p σ = .instruction σ)

/-- A step of the running machine that finds a takeable NMI, IRQ or FIRQ enters it: the entire frame with E = 1, or for FIRQ the subset frame with E = 0, stacked with the old I and F; then I set, and F by NMI and FIRQ; PC from the vector; a taken NMI no longer pending. Order and frame are the spec's decisions D8 and D9 (log 16). -/
def Obligations.HardwareInterruptEntry : Prop :=
  ∀ (e : Exc) (σ : State), σ.platform = [] → σ.mem.wf = true → σ.run = .running → Unstopped σ → PinsLetRun (nextSample σ) →
    takeable (nextSample σ) (noteNmi (nextSample σ) σ) = some e →
    ∃ τ : State, step σ = .next τ ∧
      (let n := if e = .firq then 3 else 12
       let pushed : CC := { σ.cc with e := !(e == .firq) }
       τ.s = σ.s - BitVec.ofNat 16 n ∧
       MemoryHolds τ.s (if e = .firq then subsetFrame pushed σ else entireFrame pushed σ) τ ∧
       KeepsMemoryOutside (span τ.s n) σ τ ∧
       τ.cc = { pushed with i := true, f := pushed.f || e != .irq }) ∧
      τ.pc = peekWord (vectorOf e) τ ∧
      τ.nmiPending = (if e = .nmi then false else pendingAfterNote σ) ∧ τ.nmiArmed = σ.nmiArmed ∧
      KeepsRegs [.r16 .s, .r16 .pc] noDelta σ τ ∧ τ.run = .running ∧ Unstopped τ

/-- What each entry does to I, F and E, in CC and in the stacked CC (R411): RES, NMI, SWI and FIRQ set I and F, IRQ sets I, SWI2 and SWI3 neither; E is set by all but FIRQ, which clears it, and RES, of which E is not said and which stacks nothing; H N Z V C are not changed, but of RES this speaks only of its vector fetch, before which R452 has left them unspecified. The FIRQ that ends CWAI's wait leaves E set in CC and in the frame CWAI stacked. That E is written before and the masks after the push is the spec's decision D9 (log 16), that the software interrupts stack the entire state log 17, and that CWAI's FIRQ keeps E D10 (log 18). -/
def Obligations.EntryMaskTable : Prop :=
  (∀ (e : Exc) (σ : State),
    (takeException e σ).cc =
      (match e with
      | .res => { σ.cc with i := true, f := true, e := (takeException .res σ).cc.e }
      | .nmi => { σ.cc with e := true, i := true, f := true }
      | .swi => { σ.cc with e := true, i := true, f := true }
      | .irq => { σ.cc with e := true, i := true }
      | .firq => { σ.cc with e := false, i := true, f := true }
      | .swi2 => { σ.cc with e := true }
      | .swi3 => { σ.cc with e := true }) ∧
    (Undisturbed σ → σ.mem.wf = true → e ≠ .res →
      peek (takeException e σ).s (takeException e σ) = CC.toByte { σ.cc with e := !(e == .firq) }) ∧
    (e = .res → LeavesMemory σ (takeException e σ))) ∧
  (∀ (n : Byte) (σ : State), ∃ τ : State, exec (.cwai n) σ = .next τ ∧
    (takeVector .firq τ).cc = { CC.ofByte (σ.cc.toByte &&& n) with e := true, i := true, f := true } ∧
    (Undisturbed σ → σ.mem.wf = true → peek (takeVector .firq τ).s (takeVector .firq τ) =
      CC.toByte { CC.ofByte (σ.cc.toByte &&& n) with e := true }))

/-- In the Sync state a step ends the wait for a takeable NMI or for FIRQ or IRQ low, masked or not, with nothing stacked; else it stays, and another master may write. In CWAI's wait a takeable interrupt ends it with its masks and its vector and nothing more stacked, and an NMI that ends it is no longer pending; a masked request does not end it. -/
def Obligations.WaitsEndOnRequests : Prop :=
  ∀ σ : State, Unstopped σ → PinsLetRun (nextSample σ) →
    let request := takeable (nextSample σ) (noteNmi (nextSample σ) σ)
    (σ.run = .syncing → ∃ τ : State, step σ = .next τ ∧
      (τ.run = .running ↔ request ≠ none ∨ (nextSample σ).firq = true ∨ (nextSample σ).irq = true) ∧
      (τ.run ≠ .running → τ.run = .syncing ∧ τ.mem = (otherWrite (nextSample σ).write (busSide σ)).mem) ∧
      (τ.run = .running → τ.mem = σ.mem) ∧ (∀ c ∈ τ.bus, c.other = true) ∧
      KeepsRegsAndFlags [] noDelta σ τ ∧ τ.nmiPending = pendingAfterNote σ) ∧
    (σ.run = .cwaiWaiting → ∃ τ : State, step σ = .next τ ∧ KeepsMemory σ τ ∧
      (∀ e : Exc, request = some e → τ.run = .running ∧ (σ.platform = [] → τ.pc = peekWord (vectorOf e) σ) ∧
        τ.cc = { σ.cc with i := true, f := σ.cc.f || e != .irq } ∧ KeepsRegs [.r16 .pc] noDelta σ τ ∧
        τ.nmiPending = (if e = .nmi then false else pendingAfterNote σ)) ∧
      (request = none → τ.run = .cwaiWaiting ∧ KeepsRegsAndFlags [] noDelta σ τ ∧ τ.nmiPending = pendingAfterNote σ))

/-- HALT low stops the machine at the boundary, before any interrupt, in every run state, and it stays stopped while HALT is low: no register or flag changes, memory only by another master, NMI edges are latched; HALT high lets it go on where it was. BA and BS are high in each halted cycle (R422). Each such cycle is one of inactive DMA/BREQ, and the third in a row clears the self-refresh counter (R33, R463; log 3); that another master may write in the first is the model's choice (log 24). -/
def Obligations.HaltStopsAndResumes : Prop :=
  ∀ σ : State, σ.inReset = false → (nextSample σ).res = false → (nextSample σ).dmaBreq = false →
    ((nextSample σ).halt = true → ∃ τ : State, step σ = .next τ ∧ runStateName τ = .halted ∧
      baBs τ = some (true, true) ∧ (shownCycles τ).map (fun c => c.2) = [some (true, true)] ∧ τ.run = σ.run ∧ KeepsRegsAndFlags [] noDelta σ τ ∧ (∀ c ∈ τ.bus, c.other = true) ∧
      τ.mem = (otherWrite (nextSample σ).write (busSide σ)).mem ∧
      τ.nmiPending = pendingAfterNote σ ∧ τ.nmiArmed = σ.nmiArmed ∧
      τ.dmaIdle = σ.dmaIdle + 1 ∧ τ.refreshCount = refreshAfter 1 σ) ∧
    ((nextSample σ).halt = false → σ.halted = true → ∃ τ : State, step σ = .next τ ∧ τ.halted = false ∧
      τ.run = σ.run ∧ KeepsRegsAndFlags [] noDelta σ τ ∧ τ.mem = σ.mem ∧
      τ.nmiPending = pendingAfterNote σ ∧ τ.nmiArmed = σ.nmiArmed ∧
      τ.dmaIdle = σ.dmaIdle + 1 ∧ τ.refreshCount = refreshAfter 1 σ)

/-- DMA/BREQ low at a boundary: up to 15 cycles are granted, each with BA = BS = 1, the counter one higher, and no register, flag or run state changed, and another master may write in all but the first; where none is granted the MPU has its next cycle, and the counter is cleared if 15 were granted. DMA/BREQ high, the MPU has its next cycle, after a dead one where it takes the bus from a grant, and both are cycles of inactive DMA/BREQ (R9). The counter is cleared besides only after three or more such cycles (R33, R421, R463): an instruction inside which the pin stays high has all its cycles after the first counted so. Which cycles count as inactive is the model's choice (log 3), and the delay of BA and BS is its reading of R463 (log 26). -/
def Obligations.DmaRequestGrantsBus : Prop :=
  (∀ σ : State, σ.inReset = false → (nextSample σ).res = false → (nextSample σ).dmaBreq = true →
    (σ.refreshCount < 15 → assertionDelayed (busSide σ) = false → ∃ τ : State, step σ = .next τ ∧
      runStateName τ = .busGranted ∧ baBs τ = some (true, true) ∧
      (shownCycles τ).map (fun c => c.2) = [some (true, true)] ∧ τ.refreshCount = σ.refreshCount + 1 ∧ τ.dmaIdle = 0 ∧
      τ.run = σ.run ∧ τ.halted = σ.halted ∧ KeepsRegsAndFlags [] noDelta σ τ ∧ (∀ c ∈ τ.bus, c.other = true) ∧
      τ.mem = (if σ.busGranted then (otherWrite (nextSample σ).write (busSide σ)).mem else σ.mem) ∧
      τ.nmiPending = pendingAfterNote σ ∧ τ.nmiArmed = σ.nmiArmed) ∧
    (15 ≤ σ.refreshCount ∨ assertionDelayed (busSide σ) = true → ∃ τ : State,
      boundary σ = serveHalt (nextSample σ) τ ∧ τ.busGranted = false ∧ τ.dmaIdle = 0 ∧
      τ.refreshCount = (if 15 ≤ σ.refreshCount then 0 else σ.refreshCount) ∧
      τ.run = σ.run ∧ τ.halted = σ.halted ∧ KeepsRegsAndFlags [] noDelta σ τ ∧ τ.mem = σ.mem ∧ τ.bus = [] ∧
      τ.nmiPending = pendingAfterNote σ ∧ τ.nmiArmed = σ.nmiArmed)) ∧
  (∀ σ : State, σ.inReset = false → (nextSample σ).res = false → (nextSample σ).dmaBreq = false → ∃ τ : State,
    boundary σ = serveHalt (nextSample σ) τ ∧ τ.busGranted = false ∧
    τ.dmaIdle = σ.dmaIdle + lookedCycles (nextSample σ) σ ∧
    τ.refreshCount = refreshAfter (lookedCycles (nextSample σ) σ) σ ∧ τ.run = σ.run ∧ τ.halted = σ.halted ∧ KeepsRegsAndFlags [] noDelta σ τ ∧
    τ.mem = σ.mem ∧ τ.bus = []) ∧
  (∀ (σ τ ω υ : State) (i : Instr) (rest : List Byte), boundary σ = .instruction τ → τ.cycles = none →
    (nextSample σ).resCut = none → decode (fetchWindow τ) = .ok (i, rest) →
    exec i (afterFetch i (5 - rest.length) τ) = .next ω → step σ = .next υ →
    υ.refreshCount = refreshAfter (instrCycles i ω - 1) τ ∧ υ.dmaIdle = τ.dmaIdle + (instrCycles i ω - 1))

/-- DMA/BREQ inside an instruction: a read-modify-write instruction can be held up twice between its read and its write, before and after the cycle without an access that stands between them (R48), and what another master writes to the byte there is lost; between the two bytes of a word read it may change the second, and the word read is torn (R47, R55, R57). BA and BS show every granted and every dead cycle (R31, R422). Where the dead cycle that ends a grant falls is the model's choice (log 26); that the byte at the lower address is read first, which the torn word rests on, is the spec's decision D5 (log 20); the flags of the shifts and rotates are PRESUMED (log 10). -/
def Obligations.GrantsFallBetweenBusCycles : Prop :=
  ∀ (σ : State) (ea : Word) (v w : Byte), σ.platform = [] → σ.mem.wf = true → σ.busGranted = false →
    σ.refreshCount ≤ 11 → σ.dmaLow < 6 → mpuCycles σ.lines ≠ 0 →
    (∀ op : RmwOp, σ.cycles = some [⟨false, none⟩, ⟨true, none⟩, ⟨true, some (ea, v)⟩, ⟨false, none⟩,
        ⟨true, none⟩, ⟨true, some (ea, w)⟩, ⟨false, none⟩] →
      ∃ τ : State, exec (rmwI op (.extended ea)) σ = .next τ ∧
        IsRmw op (peek ea σ) (peek ea τ) σ.cc τ.cc ∧ KeepsMemoryOutside [ea] σ τ ∧
        τ.bus = σ.bus ++ [{ write := false, ack := false, addr := ea, data := peek ea σ },
          { write := true, ack := false, addr := ea, data := v, other := true },
          { write := true, ack := false, addr := ea, data := w, other := true },
          { write := true, ack := false, addr := ea, data := peek ea τ }] ∧
        τ.lines = σ.lines ++ [.access,
          .pass (some (true, true)) false, .pass (some (true, true)) true, .pass (some (false, false)) false, .vma,
          .pass (some (true, true)) false, .pass (some (true, true)) true, .pass (some (false, false)) false, .access]) ∧
    (σ.cycles = some [⟨false, none⟩, ⟨true, none⟩, ⟨true, some (ea + 1, w)⟩, ⟨false, none⟩] →
      ∃ τ : State, exec (.ldx (.mem (.extended ea))) σ = .next τ ∧ τ.x = join (peek ea σ) w ∧
        peek (ea + 1) τ = w ∧ KeepsMemoryOutside [ea + 1] σ τ ∧
        τ.lines = σ.lines ++ [.access,
          .pass (some (true, true)) false, .pass (some (true, true)) true, .pass (some (false, false)) false, .access])

/-- Granted cycles in which no other master writes take time and nothing else: an instruction leaves the same registers, flags, memory, devices and accesses whether DMA/BREQ takes cycles inside it or not (R55, R463). That a granted cycle changes no device, though R55 and R61 let another master's read change one, and that a device's answer does not depend on time, are the model's choices (log 26, log 29). -/
def Obligations.GrantsWithoutWritesChangeNoOutcome : Prop :=
  ∀ (i : Instr) (σ τ : State) (cs : List CycleSample), (∀ c ∈ cs, c.write = none) →
    exec i { σ with cycles := none } = .next τ →
    ∃ υ : State, exec i { σ with cycles := some cs } = .next υ ∧
      υ = { τ with
        cycles := υ.cycles
        lines := υ.lines
        busGranted := υ.busGranted
        refreshCount := υ.refreshCount
        dmaIdle := υ.dmaIdle
        dmaLow := υ.dmaLow
        elapsed := υ.elapsed }

/-- RES inside a step: of the accesses that the whole step makes, those that the sample says have happened, and other masters', take effect in order and no other does; the machine is held in reset, so an interrupt entry may leave part of its frame; a step in which the MPU makes no access is not cut (R402, R450, R455; log 27). -/
def Obligations.ResetCutsStepShort : Prop :=
  ∀ (σ τ : State) (happened : List Bool), (nextSample σ).resCut = some happened →
    step { σ with env := { nextSample σ with resCut := none } :: σ.env.tail } = .next τ →
    (ownAccesses τ = 0 → step σ = .next τ) ∧
    (ownAccesses τ ≠ 0 → ∃ υ : State, step σ = .next υ ∧ runStateName υ = .inReset ∧
      υ.bus = survivors happened τ.bus ∧ υ.mem = (replay (survivors happened τ.bus) σ).mem ∧
      (∀ a : Word, peek a υ ≠ peek a σ → ∃ c ∈ τ.bus, c.write = true ∧ c.addr = a) ∧
      (happened = [] → (∀ c ∈ τ.bus, c.other = false) → υ.mem = σ.mem) ∧
      ((∀ b ∈ happened, b = true) → happened.length = τ.bus.length → υ.mem = τ.mem) ∧
      KeepsRegsAndFlags [] noDelta σ υ ∧ KeepsNmi σ υ ∧ υ.run = σ.run ∧ υ.env = σ.env.tail)

/-! ## The invariant -/

/-- Every step keeps the invariant: canonical memory, no NMI pending unarmed unless edges before arming are remembered, E set throughout CWAI's wait, acknowledge cycles only in the vector table; and it keeps the platform and every byte that is not plain memory. -/
def Obligations.StepKeepsInvariant : Prop :=
  ∀ σ τ : State, StateInv σ → step σ = .next τ →
    StateInv τ ∧ τ.platform = σ.platform ∧ ∀ a : Word, kindAt σ.platform a ≠ .ram → peek a τ = peek a σ

/-- The invariant holds right after reset. -/
def Obligations.ResetMeetsInvariant : Prop := StateInv State.reset

end
end

