-- ==== Sys2Proof/Laws/Memory.lean ====
section
/-! SUPPORT. Reading and writing memory: read after write, and that a write keeps the canonical form. -/

namespace Sys2Proof.Machine

@[simp] theorem Memory.read_nil (a : Nat) : Memory.read [] a = Memory.unlisted := rfl

@[simp] theorem Memory.wf_nil : Memory.wf [] = true := rfl

theorem Memory.wfFrom_cons (low k : Nat) (v : Byte) (m : Memory) :
    Memory.wfFrom low ((k, v) :: m) = true ↔
      low ≤ k ∧ k < 65536 ∧ v ≠ Memory.unlisted ∧ Memory.wfFrom (k + 1) m = true := by
  simp [Memory.wfFrom, and_assoc]

/-- A canonical list from `low` up is one from any lower bound up. -/
theorem Memory.wfFrom_mono {low low' : Nat} (h : low' ≤ low) :
    ∀ {m : Memory}, Memory.wfFrom low m = true → Memory.wfFrom low' m = true
  | [], _ => rfl
  | (k, v) :: m, hm => by
    rw [Memory.wfFrom_cons] at hm ⊢
    exact ⟨h.trans hm.1, hm.2⟩

/-- Below its first address a canonical list reads as unlisted. -/
theorem Memory.read_below {a low : Nat} (h : a < low) :
    ∀ {m : Memory}, Memory.wfFrom low m = true → Memory.read m a = Memory.unlisted
  | [], _ => rfl
  | (k, v) :: m, hm => by
    rw [Memory.wfFrom_cons] at hm
    have hk : k ≠ a := by omega
    rw [Memory.read, if_neg hk]
    exact Memory.read_below (low := k + 1) (by omega) hm.2.2.2

/-- A write leaves every other address alone. -/
theorem Memory.read_write_other {a b : Nat} (h : a ≠ b) (v : Byte) :
    ∀ m : Memory, Memory.read (Memory.write m b v) a = Memory.read m a
  | [] => by
    simp only [Memory.write]
    split <;> simp [Memory.read, h.symm]
  | (k, w) :: m => by
    have ih := Memory.read_write_other h v m
    simp only [Memory.write]
    split
    · split <;> simp [Memory.read, h.symm]
    · split
      · subst b
        split <;> simp [Memory.read, h.symm]
      · simp [Memory.read, ih]

/-- A canonical memory reads what was last written (R54, R61). -/
theorem Memory.read_write_same (a : Nat) (v : Byte) :
    ∀ {low : Nat} {m : Memory}, Memory.wfFrom low m = true → Memory.read (Memory.write m a v) a = v
  | _, [], _ => by
    simp only [Memory.write]
    split <;> simp_all [Memory.read]
  | low, (k, w) :: m, hm => by
    rw [Memory.wfFrom_cons] at hm
    simp only [Memory.write]
    split
    · rename_i hlt
      have hk : k ≠ a := by omega
      split
      · rename_i hv
        rw [Memory.read, if_neg hk, hv]
        exact Memory.read_below (low := k + 1) (by omega) hm.2.2.2
      · simp [Memory.read]
    · split
      · subst k
        split
        · rename_i hv
          rw [hv]
          exact Memory.read_below (low := a + 1) (by omega) hm.2.2.2
        · simp [Memory.read]
      · rename_i hne
        rw [Memory.read, if_neg (fun h => hne h.symm)]
        exact Memory.read_write_same a v hm.2.2.2

/-- A write keeps the canonical form. -/
theorem Memory.wfFrom_write {a : Nat} (ha : a < 65536) (v : Byte) :
    ∀ {low : Nat} {m : Memory}, low ≤ a → Memory.wfFrom low m = true → Memory.wfFrom low (Memory.write m a v) = true
  | low, [], hl, _ => by
    simp only [Memory.write]
    split
    · rfl
    · rename_i hv
      rw [Memory.wfFrom_cons]
      exact ⟨hl, ha, hv, rfl⟩
  | low, (k, w) :: m, hl, hm => by
    have hm' := (Memory.wfFrom_cons low k w m).1 hm
    simp only [Memory.write]
    split
    · rename_i hlt
      split
      · exact hm
      · rename_i hv
        rw [Memory.wfFrom_cons]
        refine ⟨hl, ha, hv, ?_⟩
        rw [Memory.wfFrom_cons]
        exact ⟨hlt, hm'.2⟩
    · split
      · subst k
        split
        · exact Memory.wfFrom_mono (by omega) hm'.2.2.2
        · rename_i hv
          rw [Memory.wfFrom_cons]
          exact ⟨hl, ha, hv, hm'.2.2.2⟩
      · rename_i h1 h2
        rw [Memory.wfFrom_cons]
        exact ⟨hm'.1, hm'.2.1, hm'.2.2.1, Memory.wfFrom_write ha v (by omega) hm'.2.2.2⟩

theorem Memory.wf_write {a : Nat} (ha : a < 65536) (v : Byte) {m : Memory} (hm : m.wf = true) :
    (Memory.write m a v).wf = true :=
  Memory.wfFrom_write ha v (Nat.zero_le a) hm

/-- Two canonical memories that read alike everywhere are equal. -/
theorem Memory.ext_of_read : ∀ {low : Nat} {m m' : Memory}, Memory.wfFrom low m = true →
    Memory.wfFrom low m' = true → (∀ a, Memory.read m a = Memory.read m' a) → m = m'
  | _, [], [], _, _, _ => rfl
  | _, [], (k, v) :: m', _, h', he => by
    have h := (Memory.wfFrom_cons _ k v m').1 h'
    have := he k
    simp [Memory.read] at this
    exact absurd this.symm h.2.2.1
  | _, (k, v) :: m, [], h, _, he => by
    have h := (Memory.wfFrom_cons _ k v m).1 h
    have := he k
    simp [Memory.read] at this
    exact absurd this h.2.2.1
  | low, (k, v) :: m, (k', v') :: m', h, h', he => by
    have h := (Memory.wfFrom_cons _ k v m).1 h
    have h' := (Memory.wfFrom_cons _ k' v' m').1 h'
    have hk : k = k' := by
      rcases Nat.lt_trichotomy k k' with hlt | heq | hgt
      · have := he k
        rw [Memory.read, if_pos rfl, Memory.read, if_neg (by omega),
          Memory.read_below (low := k' + 1) (by omega) h'.2.2.2] at this
        exact absurd this h.2.2.1
      · exact heq
      · have := he k'
        rw [Memory.read, if_neg (by omega), Memory.read_below (low := k + 1) (by omega) h.2.2.2,
          Memory.read, if_pos rfl] at this
        exact absurd this.symm h'.2.2.1
    subst hk
    have hv : v = v' := by
      have := he k
      simpa [Memory.read] using this
    subst hv
    have hm : m = m' := by
      refine Memory.ext_of_read h.2.2.2 h'.2.2.2 fun a => ?_
      by_cases ha : k = a
      · subst ha
        rw [Memory.read_below (low := k + 1) (by omega) h.2.2.2,
          Memory.read_below (low := k + 1) (by omega) h'.2.2.2]
      · have := he a
        rwa [Memory.read, if_neg ha, Memory.read, if_neg ha] at this
    rw [hm]

end Sys2Proof.Machine
end

