-- ==== Sys2Proof/Laws/State.lean ====
section
/-! SUPPORT. The named updates of Ops.lean, field by field: what each writes and what each leaves. A bus cycle may let other masters in (R421), so what it does to memory, to the log and to the counters is said for a step whose cycles list is none. The lemmas about `cycles` and `platform` are not proved by rfl, so that simp can discharge the side conditions of the others with them. -/

namespace Sys2Proof.Machine

variable (σ : State)

/-! ### setAcc -/

@[simp] theorem setAcc_dp (r : Acc) (v : Byte) : (setAcc r v σ).dp = σ.dp := by cases r <;> rfl

@[simp] theorem setAcc_cc (r : Acc) (v : Byte) : (setAcc r v σ).cc = σ.cc := by cases r <;> rfl

@[simp] theorem setAcc_x (r : Acc) (v : Byte) : (setAcc r v σ).x = σ.x := by cases r <;> rfl

@[simp] theorem setAcc_y (r : Acc) (v : Byte) : (setAcc r v σ).y = σ.y := by cases r <;> rfl

@[simp] theorem setAcc_u (r : Acc) (v : Byte) : (setAcc r v σ).u = σ.u := by cases r <;> rfl

@[simp] theorem setAcc_s (r : Acc) (v : Byte) : (setAcc r v σ).s = σ.s := by cases r <;> rfl

@[simp] theorem setAcc_pc (r : Acc) (v : Byte) : (setAcc r v σ).pc = σ.pc := by cases r <;> rfl

@[simp] theorem setAcc_nmiArmed (r : Acc) (v : Byte) : (setAcc r v σ).nmiArmed = σ.nmiArmed := by cases r <;> rfl

@[simp] theorem setAcc_nmiPending (r : Acc) (v : Byte) : (setAcc r v σ).nmiPending = σ.nmiPending := by cases r <;> rfl

@[simp] theorem setAcc_run (r : Acc) (v : Byte) : (setAcc r v σ).run = σ.run := by cases r <;> rfl

@[simp] theorem setAcc_halted (r : Acc) (v : Byte) : (setAcc r v σ).halted = σ.halted := by cases r <;> rfl

@[simp] theorem setAcc_busGranted (r : Acc) (v : Byte) : (setAcc r v σ).busGranted = σ.busGranted := by cases r <;> rfl

@[simp] theorem setAcc_inReset (r : Acc) (v : Byte) : (setAcc r v σ).inReset = σ.inReset := by cases r <;> rfl

@[simp] theorem setAcc_refreshCount (r : Acc) (v : Byte) : (setAcc r v σ).refreshCount = σ.refreshCount := by cases r <;> rfl

@[simp] theorem setAcc_dmaIdle (r : Acc) (v : Byte) : (setAcc r v σ).dmaIdle = σ.dmaIdle := by cases r <;> rfl

@[simp] theorem setAcc_dmaLow (r : Acc) (v : Byte) : (setAcc r v σ).dmaLow = σ.dmaLow := by cases r <;> rfl

@[simp] theorem setAcc_platform (r : Acc) (v : Byte) : (setAcc r v σ).platform = σ.platform := by cases r <;> rfl

@[simp] theorem setAcc_mem (r : Acc) (v : Byte) : (setAcc r v σ).mem = σ.mem := by cases r <;> rfl

@[simp] theorem setAcc_devices (r : Acc) (v : Byte) : (setAcc r v σ).devices = σ.devices := by cases r <;> rfl

@[simp] theorem setAcc_cycles (r : Acc) (v : Byte) : (setAcc r v σ).cycles = σ.cycles := by cases r <;> rfl

@[simp] theorem setAcc_bus (r : Acc) (v : Byte) : (setAcc r v σ).bus = σ.bus := by cases r <;> rfl

@[simp] theorem setAcc_lines (r : Acc) (v : Byte) : (setAcc r v σ).lines = σ.lines := by cases r <;> rfl

@[simp] theorem setAcc_env (r : Acc) (v : Byte) : (setAcc r v σ).env = σ.env := by cases r <;> rfl

@[simp] theorem setAcc_elapsed (r : Acc) (v : Byte) : (setAcc r v σ).elapsed = σ.elapsed := by cases r <;> rfl

@[simp] theorem setAcc_draws (r : Acc) (v : Byte) : (setAcc r v σ).draws = σ.draws := by cases r <;> rfl

/-! ### setPtr -/

@[simp] theorem setPtr_a (r : Ptr) (w : Word) : (setPtr r w σ).a = σ.a := by cases r <;> rfl

@[simp] theorem setPtr_b (r : Ptr) (w : Word) : (setPtr r w σ).b = σ.b := by cases r <;> rfl

@[simp] theorem setPtr_dp (r : Ptr) (w : Word) : (setPtr r w σ).dp = σ.dp := by cases r <;> rfl

@[simp] theorem setPtr_cc (r : Ptr) (w : Word) : (setPtr r w σ).cc = σ.cc := by cases r <;> rfl

@[simp] theorem setPtr_pc (r : Ptr) (w : Word) : (setPtr r w σ).pc = σ.pc := by cases r <;> rfl

@[simp] theorem setPtr_nmiArmed (r : Ptr) (w : Word) : (setPtr r w σ).nmiArmed = σ.nmiArmed := by cases r <;> rfl

@[simp] theorem setPtr_nmiPending (r : Ptr) (w : Word) : (setPtr r w σ).nmiPending = σ.nmiPending := by cases r <;> rfl

@[simp] theorem setPtr_run (r : Ptr) (w : Word) : (setPtr r w σ).run = σ.run := by cases r <;> rfl

@[simp] theorem setPtr_halted (r : Ptr) (w : Word) : (setPtr r w σ).halted = σ.halted := by cases r <;> rfl

@[simp] theorem setPtr_busGranted (r : Ptr) (w : Word) : (setPtr r w σ).busGranted = σ.busGranted := by cases r <;> rfl

@[simp] theorem setPtr_inReset (r : Ptr) (w : Word) : (setPtr r w σ).inReset = σ.inReset := by cases r <;> rfl

@[simp] theorem setPtr_refreshCount (r : Ptr) (w : Word) : (setPtr r w σ).refreshCount = σ.refreshCount := by cases r <;> rfl

@[simp] theorem setPtr_dmaIdle (r : Ptr) (w : Word) : (setPtr r w σ).dmaIdle = σ.dmaIdle := by cases r <;> rfl

@[simp] theorem setPtr_dmaLow (r : Ptr) (w : Word) : (setPtr r w σ).dmaLow = σ.dmaLow := by cases r <;> rfl

@[simp] theorem setPtr_platform (r : Ptr) (w : Word) : (setPtr r w σ).platform = σ.platform := by cases r <;> rfl

@[simp] theorem setPtr_mem (r : Ptr) (w : Word) : (setPtr r w σ).mem = σ.mem := by cases r <;> rfl

@[simp] theorem setPtr_devices (r : Ptr) (w : Word) : (setPtr r w σ).devices = σ.devices := by cases r <;> rfl

@[simp] theorem setPtr_cycles (r : Ptr) (w : Word) : (setPtr r w σ).cycles = σ.cycles := by cases r <;> rfl

@[simp] theorem setPtr_bus (r : Ptr) (w : Word) : (setPtr r w σ).bus = σ.bus := by cases r <;> rfl

@[simp] theorem setPtr_lines (r : Ptr) (w : Word) : (setPtr r w σ).lines = σ.lines := by cases r <;> rfl

@[simp] theorem setPtr_env (r : Ptr) (w : Word) : (setPtr r w σ).env = σ.env := by cases r <;> rfl

@[simp] theorem setPtr_elapsed (r : Ptr) (w : Word) : (setPtr r w σ).elapsed = σ.elapsed := by cases r <;> rfl

@[simp] theorem setPtr_draws (r : Ptr) (w : Word) : (setPtr r w σ).draws = σ.draws := by cases r <;> rfl

/-! ### setD -/

@[simp] theorem setD_a (w : Word) : (setD w σ).a = hi w := rfl

@[simp] theorem setD_b (w : Word) : (setD w σ).b = lo w := rfl

@[simp] theorem setD_dp (w : Word) : (setD w σ).dp = σ.dp := rfl

@[simp] theorem setD_cc (w : Word) : (setD w σ).cc = σ.cc := rfl

@[simp] theorem setD_x (w : Word) : (setD w σ).x = σ.x := rfl

@[simp] theorem setD_y (w : Word) : (setD w σ).y = σ.y := rfl

@[simp] theorem setD_u (w : Word) : (setD w σ).u = σ.u := rfl

@[simp] theorem setD_s (w : Word) : (setD w σ).s = σ.s := rfl

@[simp] theorem setD_pc (w : Word) : (setD w σ).pc = σ.pc := rfl

@[simp] theorem setD_nmiArmed (w : Word) : (setD w σ).nmiArmed = σ.nmiArmed := rfl

@[simp] theorem setD_nmiPending (w : Word) : (setD w σ).nmiPending = σ.nmiPending := rfl

@[simp] theorem setD_run (w : Word) : (setD w σ).run = σ.run := rfl

@[simp] theorem setD_halted (w : Word) : (setD w σ).halted = σ.halted := rfl

@[simp] theorem setD_busGranted (w : Word) : (setD w σ).busGranted = σ.busGranted := rfl

@[simp] theorem setD_inReset (w : Word) : (setD w σ).inReset = σ.inReset := rfl

@[simp] theorem setD_refreshCount (w : Word) : (setD w σ).refreshCount = σ.refreshCount := rfl

@[simp] theorem setD_dmaIdle (w : Word) : (setD w σ).dmaIdle = σ.dmaIdle := rfl

@[simp] theorem setD_dmaLow (w : Word) : (setD w σ).dmaLow = σ.dmaLow := rfl

@[simp] theorem setD_platform (w : Word) : (setD w σ).platform = σ.platform := by simp only [setD]

@[simp] theorem setD_mem (w : Word) : (setD w σ).mem = σ.mem := rfl

@[simp] theorem setD_devices (w : Word) : (setD w σ).devices = σ.devices := rfl

@[simp] theorem setD_cycles (w : Word) : (setD w σ).cycles = σ.cycles := by simp only [setD]

@[simp] theorem setD_bus (w : Word) : (setD w σ).bus = σ.bus := rfl

@[simp] theorem setD_lines (w : Word) : (setD w σ).lines = σ.lines := rfl

@[simp] theorem setD_env (w : Word) : (setD w σ).env = σ.env := rfl

@[simp] theorem setD_elapsed (w : Word) : (setD w σ).elapsed = σ.elapsed := rfl

@[simp] theorem setD_draws (w : Word) : (setD w σ).draws = σ.draws := rfl

/-! ### setCc -/

@[simp] theorem setCc_a (cc : CC) : (setCc cc σ).a = σ.a := rfl

@[simp] theorem setCc_b (cc : CC) : (setCc cc σ).b = σ.b := rfl

@[simp] theorem setCc_dp (cc : CC) : (setCc cc σ).dp = σ.dp := rfl

@[simp] theorem setCc_cc (cc : CC) : (setCc cc σ).cc = cc := rfl

@[simp] theorem setCc_x (cc : CC) : (setCc cc σ).x = σ.x := rfl

@[simp] theorem setCc_y (cc : CC) : (setCc cc σ).y = σ.y := rfl

@[simp] theorem setCc_u (cc : CC) : (setCc cc σ).u = σ.u := rfl

@[simp] theorem setCc_s (cc : CC) : (setCc cc σ).s = σ.s := rfl

@[simp] theorem setCc_pc (cc : CC) : (setCc cc σ).pc = σ.pc := rfl

@[simp] theorem setCc_nmiArmed (cc : CC) : (setCc cc σ).nmiArmed = σ.nmiArmed := rfl

@[simp] theorem setCc_nmiPending (cc : CC) : (setCc cc σ).nmiPending = σ.nmiPending := rfl

@[simp] theorem setCc_run (cc : CC) : (setCc cc σ).run = σ.run := rfl

@[simp] theorem setCc_halted (cc : CC) : (setCc cc σ).halted = σ.halted := rfl

@[simp] theorem setCc_busGranted (cc : CC) : (setCc cc σ).busGranted = σ.busGranted := rfl

@[simp] theorem setCc_inReset (cc : CC) : (setCc cc σ).inReset = σ.inReset := rfl

@[simp] theorem setCc_refreshCount (cc : CC) : (setCc cc σ).refreshCount = σ.refreshCount := rfl

@[simp] theorem setCc_dmaIdle (cc : CC) : (setCc cc σ).dmaIdle = σ.dmaIdle := rfl

@[simp] theorem setCc_dmaLow (cc : CC) : (setCc cc σ).dmaLow = σ.dmaLow := rfl

@[simp] theorem setCc_platform (cc : CC) : (setCc cc σ).platform = σ.platform := by simp only [setCc]

@[simp] theorem setCc_mem (cc : CC) : (setCc cc σ).mem = σ.mem := rfl

@[simp] theorem setCc_devices (cc : CC) : (setCc cc σ).devices = σ.devices := rfl

@[simp] theorem setCc_cycles (cc : CC) : (setCc cc σ).cycles = σ.cycles := by simp only [setCc]

@[simp] theorem setCc_bus (cc : CC) : (setCc cc σ).bus = σ.bus := rfl

@[simp] theorem setCc_lines (cc : CC) : (setCc cc σ).lines = σ.lines := rfl

@[simp] theorem setCc_env (cc : CC) : (setCc cc σ).env = σ.env := rfl

@[simp] theorem setCc_elapsed (cc : CC) : (setCc cc σ).elapsed = σ.elapsed := rfl

@[simp] theorem setCc_draws (cc : CC) : (setCc cc σ).draws = σ.draws := rfl

/-! ### setDp -/

@[simp] theorem setDp_a (v : Byte) : (setDp v σ).a = σ.a := rfl

@[simp] theorem setDp_b (v : Byte) : (setDp v σ).b = σ.b := rfl

@[simp] theorem setDp_dp (v : Byte) : (setDp v σ).dp = v := rfl

@[simp] theorem setDp_cc (v : Byte) : (setDp v σ).cc = σ.cc := rfl

@[simp] theorem setDp_x (v : Byte) : (setDp v σ).x = σ.x := rfl

@[simp] theorem setDp_y (v : Byte) : (setDp v σ).y = σ.y := rfl

@[simp] theorem setDp_u (v : Byte) : (setDp v σ).u = σ.u := rfl

@[simp] theorem setDp_s (v : Byte) : (setDp v σ).s = σ.s := rfl

@[simp] theorem setDp_pc (v : Byte) : (setDp v σ).pc = σ.pc := rfl

@[simp] theorem setDp_nmiArmed (v : Byte) : (setDp v σ).nmiArmed = σ.nmiArmed := rfl

@[simp] theorem setDp_nmiPending (v : Byte) : (setDp v σ).nmiPending = σ.nmiPending := rfl

@[simp] theorem setDp_run (v : Byte) : (setDp v σ).run = σ.run := rfl

@[simp] theorem setDp_halted (v : Byte) : (setDp v σ).halted = σ.halted := rfl

@[simp] theorem setDp_busGranted (v : Byte) : (setDp v σ).busGranted = σ.busGranted := rfl

@[simp] theorem setDp_inReset (v : Byte) : (setDp v σ).inReset = σ.inReset := rfl

@[simp] theorem setDp_refreshCount (v : Byte) : (setDp v σ).refreshCount = σ.refreshCount := rfl

@[simp] theorem setDp_dmaIdle (v : Byte) : (setDp v σ).dmaIdle = σ.dmaIdle := rfl

@[simp] theorem setDp_dmaLow (v : Byte) : (setDp v σ).dmaLow = σ.dmaLow := rfl

@[simp] theorem setDp_platform (v : Byte) : (setDp v σ).platform = σ.platform := by simp only [setDp]

@[simp] theorem setDp_mem (v : Byte) : (setDp v σ).mem = σ.mem := rfl

@[simp] theorem setDp_devices (v : Byte) : (setDp v σ).devices = σ.devices := rfl

@[simp] theorem setDp_cycles (v : Byte) : (setDp v σ).cycles = σ.cycles := by simp only [setDp]

@[simp] theorem setDp_bus (v : Byte) : (setDp v σ).bus = σ.bus := rfl

@[simp] theorem setDp_lines (v : Byte) : (setDp v σ).lines = σ.lines := rfl

@[simp] theorem setDp_env (v : Byte) : (setDp v σ).env = σ.env := rfl

@[simp] theorem setDp_elapsed (v : Byte) : (setDp v σ).elapsed = σ.elapsed := rfl

@[simp] theorem setDp_draws (v : Byte) : (setDp v σ).draws = σ.draws := rfl

/-! ### setPc -/

@[simp] theorem setPc_a (w : Word) : (setPc w σ).a = σ.a := rfl

@[simp] theorem setPc_b (w : Word) : (setPc w σ).b = σ.b := rfl

@[simp] theorem setPc_dp (w : Word) : (setPc w σ).dp = σ.dp := rfl

@[simp] theorem setPc_cc (w : Word) : (setPc w σ).cc = σ.cc := rfl

@[simp] theorem setPc_x (w : Word) : (setPc w σ).x = σ.x := rfl

@[simp] theorem setPc_y (w : Word) : (setPc w σ).y = σ.y := rfl

@[simp] theorem setPc_u (w : Word) : (setPc w σ).u = σ.u := rfl

@[simp] theorem setPc_s (w : Word) : (setPc w σ).s = σ.s := rfl

@[simp] theorem setPc_pc (w : Word) : (setPc w σ).pc = w := rfl

@[simp] theorem setPc_nmiArmed (w : Word) : (setPc w σ).nmiArmed = σ.nmiArmed := rfl

@[simp] theorem setPc_nmiPending (w : Word) : (setPc w σ).nmiPending = σ.nmiPending := rfl

@[simp] theorem setPc_run (w : Word) : (setPc w σ).run = σ.run := rfl

@[simp] theorem setPc_halted (w : Word) : (setPc w σ).halted = σ.halted := rfl

@[simp] theorem setPc_busGranted (w : Word) : (setPc w σ).busGranted = σ.busGranted := rfl

@[simp] theorem setPc_inReset (w : Word) : (setPc w σ).inReset = σ.inReset := rfl

@[simp] theorem setPc_refreshCount (w : Word) : (setPc w σ).refreshCount = σ.refreshCount := rfl

@[simp] theorem setPc_dmaIdle (w : Word) : (setPc w σ).dmaIdle = σ.dmaIdle := rfl

@[simp] theorem setPc_dmaLow (w : Word) : (setPc w σ).dmaLow = σ.dmaLow := rfl

@[simp] theorem setPc_platform (w : Word) : (setPc w σ).platform = σ.platform := by simp only [setPc]

@[simp] theorem setPc_mem (w : Word) : (setPc w σ).mem = σ.mem := rfl

@[simp] theorem setPc_devices (w : Word) : (setPc w σ).devices = σ.devices := rfl

@[simp] theorem setPc_cycles (w : Word) : (setPc w σ).cycles = σ.cycles := by simp only [setPc]

@[simp] theorem setPc_bus (w : Word) : (setPc w σ).bus = σ.bus := rfl

@[simp] theorem setPc_lines (w : Word) : (setPc w σ).lines = σ.lines := rfl

@[simp] theorem setPc_env (w : Word) : (setPc w σ).env = σ.env := rfl

@[simp] theorem setPc_elapsed (w : Word) : (setPc w σ).elapsed = σ.elapsed := rfl

@[simp] theorem setPc_draws (w : Word) : (setPc w σ).draws = σ.draws := rfl

/-! ### setRun -/

@[simp] theorem setRun_a (r : RunState) : (setRun r σ).a = σ.a := rfl

@[simp] theorem setRun_b (r : RunState) : (setRun r σ).b = σ.b := rfl

@[simp] theorem setRun_dp (r : RunState) : (setRun r σ).dp = σ.dp := rfl

@[simp] theorem setRun_cc (r : RunState) : (setRun r σ).cc = σ.cc := rfl

@[simp] theorem setRun_x (r : RunState) : (setRun r σ).x = σ.x := rfl

@[simp] theorem setRun_y (r : RunState) : (setRun r σ).y = σ.y := rfl

@[simp] theorem setRun_u (r : RunState) : (setRun r σ).u = σ.u := rfl

@[simp] theorem setRun_s (r : RunState) : (setRun r σ).s = σ.s := rfl

@[simp] theorem setRun_pc (r : RunState) : (setRun r σ).pc = σ.pc := rfl

@[simp] theorem setRun_nmiArmed (r : RunState) : (setRun r σ).nmiArmed = σ.nmiArmed := rfl

@[simp] theorem setRun_nmiPending (r : RunState) : (setRun r σ).nmiPending = σ.nmiPending := rfl

@[simp] theorem setRun_run (r : RunState) : (setRun r σ).run = r := rfl

@[simp] theorem setRun_halted (r : RunState) : (setRun r σ).halted = σ.halted := rfl

@[simp] theorem setRun_busGranted (r : RunState) : (setRun r σ).busGranted = σ.busGranted := rfl

@[simp] theorem setRun_inReset (r : RunState) : (setRun r σ).inReset = σ.inReset := rfl

@[simp] theorem setRun_refreshCount (r : RunState) : (setRun r σ).refreshCount = σ.refreshCount := rfl

@[simp] theorem setRun_dmaIdle (r : RunState) : (setRun r σ).dmaIdle = σ.dmaIdle := rfl

@[simp] theorem setRun_dmaLow (r : RunState) : (setRun r σ).dmaLow = σ.dmaLow := rfl

@[simp] theorem setRun_platform (r : RunState) : (setRun r σ).platform = σ.platform := by simp only [setRun]

@[simp] theorem setRun_mem (r : RunState) : (setRun r σ).mem = σ.mem := rfl

@[simp] theorem setRun_devices (r : RunState) : (setRun r σ).devices = σ.devices := rfl

@[simp] theorem setRun_cycles (r : RunState) : (setRun r σ).cycles = σ.cycles := by simp only [setRun]

@[simp] theorem setRun_bus (r : RunState) : (setRun r σ).bus = σ.bus := rfl

@[simp] theorem setRun_lines (r : RunState) : (setRun r σ).lines = σ.lines := rfl

@[simp] theorem setRun_env (r : RunState) : (setRun r σ).env = σ.env := rfl

@[simp] theorem setRun_elapsed (r : RunState) : (setRun r σ).elapsed = σ.elapsed := rfl

@[simp] theorem setRun_draws (r : RunState) : (setRun r σ).draws = σ.draws := rfl

/-! ### armNmiIf -/

@[simp] theorem armNmiIf_a (c : Bool) : (armNmiIf c σ).a = σ.a := rfl

@[simp] theorem armNmiIf_b (c : Bool) : (armNmiIf c σ).b = σ.b := rfl

@[simp] theorem armNmiIf_dp (c : Bool) : (armNmiIf c σ).dp = σ.dp := rfl

@[simp] theorem armNmiIf_cc (c : Bool) : (armNmiIf c σ).cc = σ.cc := rfl

@[simp] theorem armNmiIf_x (c : Bool) : (armNmiIf c σ).x = σ.x := rfl

@[simp] theorem armNmiIf_y (c : Bool) : (armNmiIf c σ).y = σ.y := rfl

@[simp] theorem armNmiIf_u (c : Bool) : (armNmiIf c σ).u = σ.u := rfl

@[simp] theorem armNmiIf_s (c : Bool) : (armNmiIf c σ).s = σ.s := rfl

@[simp] theorem armNmiIf_pc (c : Bool) : (armNmiIf c σ).pc = σ.pc := rfl

@[simp] theorem armNmiIf_nmiArmed (c : Bool) : (armNmiIf c σ).nmiArmed = (σ.nmiArmed || c) := rfl

@[simp] theorem armNmiIf_nmiPending (c : Bool) : (armNmiIf c σ).nmiPending = σ.nmiPending := rfl

@[simp] theorem armNmiIf_run (c : Bool) : (armNmiIf c σ).run = σ.run := rfl

@[simp] theorem armNmiIf_halted (c : Bool) : (armNmiIf c σ).halted = σ.halted := rfl

@[simp] theorem armNmiIf_busGranted (c : Bool) : (armNmiIf c σ).busGranted = σ.busGranted := rfl

@[simp] theorem armNmiIf_inReset (c : Bool) : (armNmiIf c σ).inReset = σ.inReset := rfl

@[simp] theorem armNmiIf_refreshCount (c : Bool) : (armNmiIf c σ).refreshCount = σ.refreshCount := rfl

@[simp] theorem armNmiIf_dmaIdle (c : Bool) : (armNmiIf c σ).dmaIdle = σ.dmaIdle := rfl

@[simp] theorem armNmiIf_dmaLow (c : Bool) : (armNmiIf c σ).dmaLow = σ.dmaLow := rfl

@[simp] theorem armNmiIf_platform (c : Bool) : (armNmiIf c σ).platform = σ.platform := by simp only [armNmiIf]

@[simp] theorem armNmiIf_mem (c : Bool) : (armNmiIf c σ).mem = σ.mem := rfl

@[simp] theorem armNmiIf_devices (c : Bool) : (armNmiIf c σ).devices = σ.devices := rfl

@[simp] theorem armNmiIf_cycles (c : Bool) : (armNmiIf c σ).cycles = σ.cycles := by simp only [armNmiIf]

@[simp] theorem armNmiIf_bus (c : Bool) : (armNmiIf c σ).bus = σ.bus := rfl

@[simp] theorem armNmiIf_lines (c : Bool) : (armNmiIf c σ).lines = σ.lines := rfl

@[simp] theorem armNmiIf_env (c : Bool) : (armNmiIf c σ).env = σ.env := rfl

@[simp] theorem armNmiIf_elapsed (c : Bool) : (armNmiIf c σ).elapsed = σ.elapsed := rfl

@[simp] theorem armNmiIf_draws (c : Bool) : (armNmiIf c σ).draws = σ.draws := rfl

/-! ### countDraw -/

@[simp] theorem countDraw_a : (countDraw σ).a = σ.a := rfl

@[simp] theorem countDraw_b : (countDraw σ).b = σ.b := rfl

@[simp] theorem countDraw_dp : (countDraw σ).dp = σ.dp := rfl

@[simp] theorem countDraw_cc : (countDraw σ).cc = σ.cc := rfl

@[simp] theorem countDraw_x : (countDraw σ).x = σ.x := rfl

@[simp] theorem countDraw_y : (countDraw σ).y = σ.y := rfl

@[simp] theorem countDraw_u : (countDraw σ).u = σ.u := rfl

@[simp] theorem countDraw_s : (countDraw σ).s = σ.s := rfl

@[simp] theorem countDraw_pc : (countDraw σ).pc = σ.pc := rfl

@[simp] theorem countDraw_nmiArmed : (countDraw σ).nmiArmed = σ.nmiArmed := rfl

@[simp] theorem countDraw_nmiPending : (countDraw σ).nmiPending = σ.nmiPending := rfl

@[simp] theorem countDraw_run : (countDraw σ).run = σ.run := rfl

@[simp] theorem countDraw_halted : (countDraw σ).halted = σ.halted := rfl

@[simp] theorem countDraw_busGranted : (countDraw σ).busGranted = σ.busGranted := rfl

@[simp] theorem countDraw_inReset : (countDraw σ).inReset = σ.inReset := rfl

@[simp] theorem countDraw_refreshCount : (countDraw σ).refreshCount = σ.refreshCount := rfl

@[simp] theorem countDraw_dmaIdle : (countDraw σ).dmaIdle = σ.dmaIdle := rfl

@[simp] theorem countDraw_dmaLow : (countDraw σ).dmaLow = σ.dmaLow := rfl

@[simp] theorem countDraw_platform : (countDraw σ).platform = σ.platform := by simp only [countDraw]

@[simp] theorem countDraw_mem : (countDraw σ).mem = σ.mem := rfl

@[simp] theorem countDraw_devices : (countDraw σ).devices = σ.devices := rfl

@[simp] theorem countDraw_cycles : (countDraw σ).cycles = σ.cycles := by simp only [countDraw]

@[simp] theorem countDraw_bus : (countDraw σ).bus = σ.bus := rfl

@[simp] theorem countDraw_lines : (countDraw σ).lines = σ.lines := rfl

@[simp] theorem countDraw_env : (countDraw σ).env = σ.env := rfl

@[simp] theorem countDraw_elapsed : (countDraw σ).elapsed = σ.elapsed := rfl

@[simp] theorem countDraw_draws : (countDraw σ).draws = σ.draws + 1 := rfl

/-! ### onBus -/

@[simp] theorem onBus_a (f : BusSide → BusSide) : (onBus f σ).a = σ.a := rfl

@[simp] theorem onBus_b (f : BusSide → BusSide) : (onBus f σ).b = σ.b := rfl

@[simp] theorem onBus_dp (f : BusSide → BusSide) : (onBus f σ).dp = σ.dp := rfl

@[simp] theorem onBus_cc (f : BusSide → BusSide) : (onBus f σ).cc = σ.cc := rfl

@[simp] theorem onBus_x (f : BusSide → BusSide) : (onBus f σ).x = σ.x := rfl

@[simp] theorem onBus_y (f : BusSide → BusSide) : (onBus f σ).y = σ.y := rfl

@[simp] theorem onBus_u (f : BusSide → BusSide) : (onBus f σ).u = σ.u := rfl

@[simp] theorem onBus_s (f : BusSide → BusSide) : (onBus f σ).s = σ.s := rfl

@[simp] theorem onBus_pc (f : BusSide → BusSide) : (onBus f σ).pc = σ.pc := rfl

@[simp] theorem onBus_nmiArmed (f : BusSide → BusSide) : (onBus f σ).nmiArmed = σ.nmiArmed := rfl

@[simp] theorem onBus_nmiPending (f : BusSide → BusSide) : (onBus f σ).nmiPending = σ.nmiPending := rfl

@[simp] theorem onBus_run (f : BusSide → BusSide) : (onBus f σ).run = σ.run := rfl

@[simp] theorem onBus_halted (f : BusSide → BusSide) : (onBus f σ).halted = σ.halted := rfl

@[simp] theorem onBus_inReset (f : BusSide → BusSide) : (onBus f σ).inReset = σ.inReset := rfl

@[simp] theorem onBus_platform (f : BusSide → BusSide) : (onBus f σ).platform = σ.platform := by simp only [onBus, setBusSide]

@[simp] theorem onBus_env (f : BusSide → BusSide) : (onBus f σ).env = σ.env := rfl

@[simp] theorem onBus_draws (f : BusSide → BusSide) : (onBus f σ).draws = σ.draws := rfl

/-! ### nextCycle -/

@[simp] theorem nextCycle_a : (nextCycle σ).a = σ.a := rfl

@[simp] theorem nextCycle_b : (nextCycle σ).b = σ.b := rfl

@[simp] theorem nextCycle_dp : (nextCycle σ).dp = σ.dp := rfl

@[simp] theorem nextCycle_cc : (nextCycle σ).cc = σ.cc := rfl

@[simp] theorem nextCycle_x : (nextCycle σ).x = σ.x := rfl

@[simp] theorem nextCycle_y : (nextCycle σ).y = σ.y := rfl

@[simp] theorem nextCycle_u : (nextCycle σ).u = σ.u := rfl

@[simp] theorem nextCycle_s : (nextCycle σ).s = σ.s := rfl

@[simp] theorem nextCycle_pc : (nextCycle σ).pc = σ.pc := rfl

@[simp] theorem nextCycle_nmiArmed : (nextCycle σ).nmiArmed = σ.nmiArmed := rfl

@[simp] theorem nextCycle_nmiPending : (nextCycle σ).nmiPending = σ.nmiPending := rfl

@[simp] theorem nextCycle_run : (nextCycle σ).run = σ.run := rfl

@[simp] theorem nextCycle_halted : (nextCycle σ).halted = σ.halted := rfl

@[simp] theorem nextCycle_inReset : (nextCycle σ).inReset = σ.inReset := rfl

@[simp] theorem nextCycle_platform : (nextCycle σ).platform = σ.platform := by rw [nextCycle, onBus_platform]

@[simp] theorem nextCycle_env : (nextCycle σ).env = σ.env := rfl

@[simp] theorem nextCycle_draws : (nextCycle σ).draws = σ.draws := rfl

theorem between_cycles (cs : List CycleSample) (b : BusSide) : (between cs b).cycles ≠ none := by
  have back : ∀ low (b : BusSide), (takeBack low b).cycles = b.cycles := fun low b => by cases low <;> rfl
  have leave : ∀ low (b : BusSide), (leaveGrant low b).cycles = b.cycles := fun low b => by
    rw [leaveGrant]; split
    · cases low <;> rfl
    · rfl
  induction cs generalizing b with
  | nil => simp [between, back, leave]
  | cons c cs ih =>
    rw [between]; split
    · exact ih _
    · simp [back, leave]

@[simp] theorem look_cycles (b : BusSide) : (look b).cycles = none ↔ b.cycles = none := by
  rw [look]; split
  · exact Iff.rfl
  · rename_i cs h
    split
    · exact Iff.rfl
    · simp [h, between_cycles]

/-- Where no cycle is granted inside the step, the MPU has its next cycle at once. -/
@[simp] theorem nextCycle_of_none (hc : σ.cycles = none) : nextCycle σ = σ := by
  have : look (busSide σ) = busSide σ := by simp [look, busSide, hc]
  rw [nextCycle, onBus, this]; rfl

@[simp] theorem nextCycle_cycles : (nextCycle σ).cycles = none ↔ σ.cycles = none := look_cycles _

/-! ### busCycle -/

@[simp] theorem busCycle_a (c : BusCycle) : (busCycle c σ).a = σ.a := rfl

@[simp] theorem busCycle_b (c : BusCycle) : (busCycle c σ).b = σ.b := rfl

@[simp] theorem busCycle_dp (c : BusCycle) : (busCycle c σ).dp = σ.dp := rfl

@[simp] theorem busCycle_cc (c : BusCycle) : (busCycle c σ).cc = σ.cc := rfl

@[simp] theorem busCycle_x (c : BusCycle) : (busCycle c σ).x = σ.x := rfl

@[simp] theorem busCycle_y (c : BusCycle) : (busCycle c σ).y = σ.y := rfl

@[simp] theorem busCycle_u (c : BusCycle) : (busCycle c σ).u = σ.u := rfl

@[simp] theorem busCycle_s (c : BusCycle) : (busCycle c σ).s = σ.s := rfl

@[simp] theorem busCycle_pc (c : BusCycle) : (busCycle c σ).pc = σ.pc := rfl

@[simp] theorem busCycle_nmiArmed (c : BusCycle) : (busCycle c σ).nmiArmed = σ.nmiArmed := rfl

@[simp] theorem busCycle_nmiPending (c : BusCycle) : (busCycle c σ).nmiPending = σ.nmiPending := rfl

@[simp] theorem busCycle_run (c : BusCycle) : (busCycle c σ).run = σ.run := rfl

@[simp] theorem busCycle_halted (c : BusCycle) : (busCycle c σ).halted = σ.halted := rfl

@[simp] theorem busCycle_inReset (c : BusCycle) : (busCycle c σ).inReset = σ.inReset := rfl

@[simp] theorem busCycle_platform (c : BusCycle) : (busCycle c σ).platform = σ.platform := by rw [busCycle, onBus_platform]

@[simp] theorem busCycle_env (c : BusCycle) : (busCycle c σ).env = σ.env := rfl

@[simp] theorem busCycle_draws (c : BusCycle) : (busCycle c σ).draws = σ.draws := rfl

@[simp] theorem busCycle_mem (c : BusCycle) (hp : σ.platform = []) :
    (busCycle c σ).mem = if c.write then σ.mem.write c.addr.toNat c.data else σ.mem := by
  simp [busCycle, onBus, setBusSide, busSide, perform, kindAt, hp]

@[simp] theorem busCycle_mem_read (c : BusCycle) (hw : c.write = false) : (busCycle c σ).mem = σ.mem := by
  simp only [busCycle, onBus, setBusSide, busSide, perform, hw]
  split <;> rfl

@[simp] theorem busCycle_devices (c : BusCycle) (hp : σ.platform = []) : (busCycle c σ).devices = σ.devices := by
  simp [busCycle, onBus, setBusSide, busSide, perform, kindAt, hp]

@[simp] theorem busCycle_cycles (c : BusCycle) : (busCycle c σ).cycles = σ.cycles := by simp only [busCycle, onBus, setBusSide, busSide, perform]

@[simp] theorem busCycle_bus (c : BusCycle) : (busCycle c σ).bus = σ.bus ++ [c] := rfl

@[simp] theorem busCycle_lines (c : BusCycle) : (busCycle c σ).lines = σ.lines ++ [.access] := rfl

@[simp] theorem busCycle_busGranted (c : BusCycle) : (busCycle c σ).busGranted = σ.busGranted := rfl

@[simp] theorem busCycle_refreshCount (c : BusCycle) : (busCycle c σ).refreshCount = σ.refreshCount := rfl

@[simp] theorem busCycle_dmaIdle (c : BusCycle) : (busCycle c σ).dmaIdle = σ.dmaIdle := rfl

@[simp] theorem busCycle_dmaLow (c : BusCycle) : (busCycle c σ).dmaLow = σ.dmaLow := rfl

@[simp] theorem busCycle_elapsed (c : BusCycle) : (busCycle c σ).elapsed = σ.elapsed := rfl

/-! ### writeByte -/

@[simp] theorem writeByte_a (a : Word) (v : Byte) : (writeByte a v σ).a = σ.a := rfl

@[simp] theorem writeByte_b (a : Word) (v : Byte) : (writeByte a v σ).b = σ.b := rfl

@[simp] theorem writeByte_dp (a : Word) (v : Byte) : (writeByte a v σ).dp = σ.dp := rfl

@[simp] theorem writeByte_cc (a : Word) (v : Byte) : (writeByte a v σ).cc = σ.cc := rfl

@[simp] theorem writeByte_x (a : Word) (v : Byte) : (writeByte a v σ).x = σ.x := rfl

@[simp] theorem writeByte_y (a : Word) (v : Byte) : (writeByte a v σ).y = σ.y := rfl

@[simp] theorem writeByte_u (a : Word) (v : Byte) : (writeByte a v σ).u = σ.u := rfl

@[simp] theorem writeByte_s (a : Word) (v : Byte) : (writeByte a v σ).s = σ.s := rfl

@[simp] theorem writeByte_pc (a : Word) (v : Byte) : (writeByte a v σ).pc = σ.pc := rfl

@[simp] theorem writeByte_nmiArmed (a : Word) (v : Byte) : (writeByte a v σ).nmiArmed = σ.nmiArmed := rfl

@[simp] theorem writeByte_nmiPending (a : Word) (v : Byte) : (writeByte a v σ).nmiPending = σ.nmiPending := rfl

@[simp] theorem writeByte_run (a : Word) (v : Byte) : (writeByte a v σ).run = σ.run := rfl

@[simp] theorem writeByte_halted (a : Word) (v : Byte) : (writeByte a v σ).halted = σ.halted := rfl

@[simp] theorem writeByte_inReset (a : Word) (v : Byte) : (writeByte a v σ).inReset = σ.inReset := rfl

@[simp] theorem writeByte_platform (a : Word) (v : Byte) : (writeByte a v σ).platform = σ.platform := by rw [writeByte, busCycle_platform, nextCycle_platform]

@[simp] theorem writeByte_env (a : Word) (v : Byte) : (writeByte a v σ).env = σ.env := rfl

@[simp] theorem writeByte_draws (a : Word) (v : Byte) : (writeByte a v σ).draws = σ.draws := rfl

@[simp] theorem writeByte_mem (a : Word) (v : Byte) (hc : σ.cycles = none) (hp : σ.platform = []) : (writeByte a v σ).mem = σ.mem.write a.toNat v := by
  simp [writeByte, hc, hp]

@[simp] theorem writeByte_devices (a : Word) (v : Byte) (hc : σ.cycles = none) (hp : σ.platform = []) : (writeByte a v σ).devices = σ.devices := by
  simp [writeByte, hc, hp]

@[simp] theorem writeByte_cycles (a : Word) (v : Byte) : (writeByte a v σ).cycles = none ↔ σ.cycles = none := by
  rw [writeByte, busCycle_cycles, nextCycle_cycles]

@[simp] theorem writeByte_bus (a : Word) (v : Byte) (hc : σ.cycles = none) : (writeByte a v σ).bus = σ.bus ++ [{ write := true, ack := false, addr := a, data := v }] := by
  simp [writeByte, hc]

@[simp] theorem writeByte_lines (a : Word) (v : Byte) (hc : σ.cycles = none) : (writeByte a v σ).lines = σ.lines ++ [.access] := by
  simp [writeByte, hc]

@[simp] theorem writeByte_busGranted (a : Word) (v : Byte) (hc : σ.cycles = none) : (writeByte a v σ).busGranted = σ.busGranted := by
  simp [writeByte, hc]

@[simp] theorem writeByte_refreshCount (a : Word) (v : Byte) (hc : σ.cycles = none) : (writeByte a v σ).refreshCount = σ.refreshCount := by
  simp [writeByte, hc]

@[simp] theorem writeByte_dmaIdle (a : Word) (v : Byte) (hc : σ.cycles = none) : (writeByte a v σ).dmaIdle = σ.dmaIdle := by
  simp [writeByte, hc]

@[simp] theorem writeByte_dmaLow (a : Word) (v : Byte) (hc : σ.cycles = none) : (writeByte a v σ).dmaLow = σ.dmaLow := by
  simp [writeByte, hc]

@[simp] theorem writeByte_elapsed (a : Word) (v : Byte) (hc : σ.cycles = none) : (writeByte a v σ).elapsed = σ.elapsed := by
  simp [writeByte, hc]

/-! ### tick -/

@[simp] theorem tick_a (n : Nat) : (tick n σ).a = σ.a := rfl

@[simp] theorem tick_b (n : Nat) : (tick n σ).b = σ.b := rfl

@[simp] theorem tick_dp (n : Nat) : (tick n σ).dp = σ.dp := rfl

@[simp] theorem tick_cc (n : Nat) : (tick n σ).cc = σ.cc := rfl

@[simp] theorem tick_x (n : Nat) : (tick n σ).x = σ.x := rfl

@[simp] theorem tick_y (n : Nat) : (tick n σ).y = σ.y := rfl

@[simp] theorem tick_u (n : Nat) : (tick n σ).u = σ.u := rfl

@[simp] theorem tick_s (n : Nat) : (tick n σ).s = σ.s := rfl

@[simp] theorem tick_pc (n : Nat) : (tick n σ).pc = σ.pc := rfl

@[simp] theorem tick_nmiArmed (n : Nat) : (tick n σ).nmiArmed = σ.nmiArmed := rfl

@[simp] theorem tick_nmiPending (n : Nat) : (tick n σ).nmiPending = σ.nmiPending := rfl

@[simp] theorem tick_run (n : Nat) : (tick n σ).run = σ.run := rfl

@[simp] theorem tick_halted (n : Nat) : (tick n σ).halted = σ.halted := rfl

@[simp] theorem tick_inReset (n : Nat) : (tick n σ).inReset = σ.inReset := rfl

@[simp] theorem tick_platform (n : Nat) : (tick n σ).platform = σ.platform := by rw [tick, onBus_platform]

@[simp] theorem tick_env (n : Nat) : (tick n σ).env = σ.env := rfl

@[simp] theorem tick_draws (n : Nat) : (tick n σ).draws = σ.draws := rfl

@[simp] theorem tick_mem (n : Nat) : (tick n σ).mem = σ.mem := by
  cases h : σ.cycles <;> simp [tick, onBus, setBusSide, busSide, idle, h]

@[simp] theorem tick_devices (n : Nat) : (tick n σ).devices = σ.devices := by
  cases h : σ.cycles <;> simp [tick, onBus, setBusSide, busSide, idle, h]

@[simp] theorem tick_cycles (n : Nat) : (tick n σ).cycles = σ.cycles := by
  cases h : σ.cycles <;> simp [tick, onBus, setBusSide, busSide, idle, h]

@[simp] theorem tick_bus (n : Nat) : (tick n σ).bus = σ.bus := by
  cases h : σ.cycles <;> simp [tick, onBus, setBusSide, busSide, idle, h]

@[simp] theorem tick_lines (n : Nat) : (tick n σ).lines = σ.lines := by
  cases h : σ.cycles <;> simp [tick, onBus, setBusSide, busSide, idle, h]

@[simp] theorem tick_busGranted (n : Nat) : (tick n σ).busGranted = σ.busGranted := by
  cases h : σ.cycles <;> simp [tick, onBus, setBusSide, busSide, idle, h]

@[simp] theorem tick_dmaLow (n : Nat) : (tick n σ).dmaLow = σ.dmaLow := by
  cases h : σ.cycles <;> simp [tick, onBus, setBusSide, busSide, idle, h]

@[simp] theorem tick_elapsed (n : Nat) : (tick n σ).elapsed = σ.elapsed + n := by
  cases h : σ.cycles <;> simp [tick, onBus, setBusSide, busSide, idle, h]

theorem tick_refreshCount (n : Nat) (hc : σ.cycles = none) :
    (tick n σ).refreshCount = if 3 ≤ σ.dmaIdle + (n - 1) then 0 else σ.refreshCount := by
  simp [tick, onBus, setBusSide, busSide, idle, hc]

theorem tick_dmaIdle (n : Nat) (hc : σ.cycles = none) : (tick n σ).dmaIdle = σ.dmaIdle + (n - 1) := by
  simp [tick, onBus, setBusSide, busSide, idle, hc]

/-! ### vmaCycles and settle -/

@[simp] theorem vmaCycles_a (n : Nat) : (vmaCycles n σ).a = σ.a := rfl

@[simp] theorem vmaCycles_b (n : Nat) : (vmaCycles n σ).b = σ.b := rfl

@[simp] theorem vmaCycles_dp (n : Nat) : (vmaCycles n σ).dp = σ.dp := rfl

@[simp] theorem vmaCycles_cc (n : Nat) : (vmaCycles n σ).cc = σ.cc := rfl

@[simp] theorem vmaCycles_x (n : Nat) : (vmaCycles n σ).x = σ.x := rfl

@[simp] theorem vmaCycles_y (n : Nat) : (vmaCycles n σ).y = σ.y := rfl

@[simp] theorem vmaCycles_u (n : Nat) : (vmaCycles n σ).u = σ.u := rfl

@[simp] theorem vmaCycles_s (n : Nat) : (vmaCycles n σ).s = σ.s := rfl

@[simp] theorem vmaCycles_pc (n : Nat) : (vmaCycles n σ).pc = σ.pc := rfl

@[simp] theorem vmaCycles_nmiArmed (n : Nat) : (vmaCycles n σ).nmiArmed = σ.nmiArmed := rfl

@[simp] theorem vmaCycles_nmiPending (n : Nat) : (vmaCycles n σ).nmiPending = σ.nmiPending := rfl

@[simp] theorem vmaCycles_run (n : Nat) : (vmaCycles n σ).run = σ.run := rfl

@[simp] theorem vmaCycles_halted (n : Nat) : (vmaCycles n σ).halted = σ.halted := rfl

@[simp] theorem vmaCycles_inReset (n : Nat) : (vmaCycles n σ).inReset = σ.inReset := rfl

@[simp] theorem vmaCycles_platform (n : Nat) : (vmaCycles n σ).platform = σ.platform := by rw [vmaCycles, onBus_platform]

@[simp] theorem vmaCycles_env (n : Nat) : (vmaCycles n σ).env = σ.env := rfl

@[simp] theorem vmaCycles_draws (n : Nat) : (vmaCycles n σ).draws = σ.draws := rfl

@[simp] theorem vmaCycles_mem (n : Nat) (hc : σ.cycles = none) : (vmaCycles n σ).mem = σ.mem := by
  simp [vmaCycles, onBus, setBusSide, busSide, hc]

@[simp] theorem vmaCycles_devices (n : Nat) (hc : σ.cycles = none) : (vmaCycles n σ).devices = σ.devices := by
  simp [vmaCycles, onBus, setBusSide, busSide, hc]

@[simp] theorem vmaCycles_bus (n : Nat) (hc : σ.cycles = none) : (vmaCycles n σ).bus = σ.bus := by
  simp [vmaCycles, onBus, setBusSide, busSide, hc]

@[simp] theorem vmaCycles_busGranted (n : Nat) (hc : σ.cycles = none) : (vmaCycles n σ).busGranted = σ.busGranted := by
  simp [vmaCycles, onBus, setBusSide, busSide, hc]

@[simp] theorem vmaCycles_refreshCount (n : Nat) (hc : σ.cycles = none) : (vmaCycles n σ).refreshCount = σ.refreshCount := by
  simp [vmaCycles, onBus, setBusSide, busSide, hc]

@[simp] theorem vmaCycles_dmaIdle (n : Nat) (hc : σ.cycles = none) : (vmaCycles n σ).dmaIdle = σ.dmaIdle := by
  simp [vmaCycles, onBus, setBusSide, busSide, hc]

@[simp] theorem vmaCycles_dmaLow (n : Nat) (hc : σ.cycles = none) : (vmaCycles n σ).dmaLow = σ.dmaLow := by
  simp [vmaCycles, onBus, setBusSide, busSide, hc]

@[simp] theorem vmaCycles_elapsed (n : Nat) (hc : σ.cycles = none) : (vmaCycles n σ).elapsed = σ.elapsed := by
  simp [vmaCycles, onBus, setBusSide, busSide, hc]

@[simp] theorem vmaCycles_lines (n : Nat) (hc : σ.cycles = none) : (vmaCycles n σ).lines = σ.lines ++ List.replicate n .vma := by
  simp [vmaCycles, onBus, setBusSide, busSide, hc]

theorem innerCycles_cycles (n : Nat) (b : BusSide) : (innerCycles n b).cycles = none ↔ b.cycles = none := by
  induction n generalizing b with
  | zero => exact Iff.rfl
  | succ n ih => rw [innerCycles, ih]; exact look_cycles b

@[simp] theorem vmaCycles_cycles (n : Nat) : (vmaCycles n σ).cycles = none ↔ σ.cycles = none := by
  cases h : σ.cycles
  · simp [vmaCycles, onBus, setBusSide, busSide, h]
  · simp [vmaCycles, onBus, setBusSide, busSide, innerCycles_cycles, h]

/-- In a step inside which no cycle is granted the cycles without an access only show on BA and BS. -/
theorem settle_of_none (n : Nat) (hc : σ.cycles = none) :
    settle n σ = { σ with lines := σ.lines ++ List.replicate (n - mpuCycles σ.lines) .vma } := by
  simp [settle, vmaCycles, onBus, setBusSide, busSide, hc]

@[simp] theorem settle_a (n : Nat) : (settle n σ).a = σ.a := rfl

@[simp] theorem settle_b (n : Nat) : (settle n σ).b = σ.b := rfl

@[simp] theorem settle_dp (n : Nat) : (settle n σ).dp = σ.dp := rfl

@[simp] theorem settle_cc (n : Nat) : (settle n σ).cc = σ.cc := rfl

@[simp] theorem settle_x (n : Nat) : (settle n σ).x = σ.x := rfl

@[simp] theorem settle_y (n : Nat) : (settle n σ).y = σ.y := rfl

@[simp] theorem settle_u (n : Nat) : (settle n σ).u = σ.u := rfl

@[simp] theorem settle_s (n : Nat) : (settle n σ).s = σ.s := rfl

@[simp] theorem settle_pc (n : Nat) : (settle n σ).pc = σ.pc := rfl

@[simp] theorem settle_nmiArmed (n : Nat) : (settle n σ).nmiArmed = σ.nmiArmed := rfl

@[simp] theorem settle_nmiPending (n : Nat) : (settle n σ).nmiPending = σ.nmiPending := rfl

@[simp] theorem settle_run (n : Nat) : (settle n σ).run = σ.run := rfl

@[simp] theorem settle_halted (n : Nat) : (settle n σ).halted = σ.halted := rfl

@[simp] theorem settle_inReset (n : Nat) : (settle n σ).inReset = σ.inReset := rfl

@[simp] theorem settle_platform (n : Nat) : (settle n σ).platform = σ.platform := by rw [settle, vmaCycles_platform]

@[simp] theorem settle_env (n : Nat) : (settle n σ).env = σ.env := rfl

@[simp] theorem settle_draws (n : Nat) : (settle n σ).draws = σ.draws := rfl

@[simp] theorem settle_mem (n : Nat) (hc : σ.cycles = none) : (settle n σ).mem = σ.mem := by
  rw [settle, vmaCycles_mem _ _ hc]

@[simp] theorem settle_devices (n : Nat) (hc : σ.cycles = none) : (settle n σ).devices = σ.devices := by
  rw [settle, vmaCycles_devices _ _ hc]

@[simp] theorem settle_bus (n : Nat) (hc : σ.cycles = none) : (settle n σ).bus = σ.bus := by
  rw [settle, vmaCycles_bus _ _ hc]

@[simp] theorem settle_busGranted (n : Nat) (hc : σ.cycles = none) : (settle n σ).busGranted = σ.busGranted := by
  rw [settle, vmaCycles_busGranted _ _ hc]

@[simp] theorem settle_refreshCount (n : Nat) (hc : σ.cycles = none) : (settle n σ).refreshCount = σ.refreshCount := by
  rw [settle, vmaCycles_refreshCount _ _ hc]

@[simp] theorem settle_dmaIdle (n : Nat) (hc : σ.cycles = none) : (settle n σ).dmaIdle = σ.dmaIdle := by
  rw [settle, vmaCycles_dmaIdle _ _ hc]

@[simp] theorem settle_dmaLow (n : Nat) (hc : σ.cycles = none) : (settle n σ).dmaLow = σ.dmaLow := by
  rw [settle, vmaCycles_dmaLow _ _ hc]

@[simp] theorem settle_elapsed (n : Nat) (hc : σ.cycles = none) : (settle n σ).elapsed = σ.elapsed := by
  rw [settle, vmaCycles_elapsed _ _ hc]

@[simp] theorem settle_cycles (n : Nat) : (settle n σ).cycles = none ↔ σ.cycles = none := by rw [settle, vmaCycles_cycles]

/-! ### completeCycles -/

@[simp] theorem completeCycles_a (n : Nat) : (completeCycles n σ).a = σ.a := rfl

@[simp] theorem completeCycles_b (n : Nat) : (completeCycles n σ).b = σ.b := rfl

@[simp] theorem completeCycles_dp (n : Nat) : (completeCycles n σ).dp = σ.dp := rfl

@[simp] theorem completeCycles_cc (n : Nat) : (completeCycles n σ).cc = σ.cc := rfl

@[simp] theorem completeCycles_x (n : Nat) : (completeCycles n σ).x = σ.x := rfl

@[simp] theorem completeCycles_y (n : Nat) : (completeCycles n σ).y = σ.y := rfl

@[simp] theorem completeCycles_u (n : Nat) : (completeCycles n σ).u = σ.u := rfl

@[simp] theorem completeCycles_s (n : Nat) : (completeCycles n σ).s = σ.s := rfl

@[simp] theorem completeCycles_pc (n : Nat) : (completeCycles n σ).pc = σ.pc := rfl

@[simp] theorem completeCycles_nmiArmed (n : Nat) : (completeCycles n σ).nmiArmed = σ.nmiArmed := rfl

@[simp] theorem completeCycles_nmiPending (n : Nat) : (completeCycles n σ).nmiPending = σ.nmiPending := rfl

@[simp] theorem completeCycles_run (n : Nat) : (completeCycles n σ).run = σ.run := rfl

@[simp] theorem completeCycles_halted (n : Nat) : (completeCycles n σ).halted = σ.halted := rfl

@[simp] theorem completeCycles_inReset (n : Nat) : (completeCycles n σ).inReset = σ.inReset := rfl

@[simp] theorem completeCycles_platform (n : Nat) : (completeCycles n σ).platform = σ.platform := by rw [completeCycles, settle_platform, tick_platform]

@[simp] theorem completeCycles_env (n : Nat) : (completeCycles n σ).env = σ.env := rfl

@[simp] theorem completeCycles_draws (n : Nat) : (completeCycles n σ).draws = σ.draws := rfl

@[simp] theorem completeCycles_mem (n : Nat) (hc : σ.cycles = none) : (completeCycles n σ).mem = σ.mem := by
  simp [completeCycles, hc]

@[simp] theorem completeCycles_devices (n : Nat) (hc : σ.cycles = none) : (completeCycles n σ).devices = σ.devices := by
  simp [completeCycles, hc]

@[simp] theorem completeCycles_bus (n : Nat) (hc : σ.cycles = none) : (completeCycles n σ).bus = σ.bus := by
  simp [completeCycles, hc]

@[simp] theorem completeCycles_busGranted (n : Nat) (hc : σ.cycles = none) : (completeCycles n σ).busGranted = σ.busGranted := by
  simp [completeCycles, hc]

@[simp] theorem completeCycles_dmaLow (n : Nat) (hc : σ.cycles = none) : (completeCycles n σ).dmaLow = σ.dmaLow := by
  simp [completeCycles, hc]

@[simp] theorem completeCycles_elapsed (n : Nat) (hc : σ.cycles = none) : (completeCycles n σ).elapsed = σ.elapsed + n := by
  simp [completeCycles, hc]

theorem completeCycles_dmaIdle (n : Nat) (hc : σ.cycles = none) : (completeCycles n σ).dmaIdle = σ.dmaIdle + (n - 1) := by
  simp [completeCycles, tick_dmaIdle, hc]

theorem completeCycles_refreshCount (n : Nat) (hc : σ.cycles = none) :
    (completeCycles n σ).refreshCount = if 3 ≤ σ.dmaIdle + (n - 1) then 0 else σ.refreshCount := by
  simp [completeCycles, tick_refreshCount, hc]

@[simp] theorem completeCycles_cycles (n : Nat) : (completeCycles n σ).cycles = none ↔ σ.cycles = none := by simp [completeCycles]

/-! ### Single registers of setAcc and setPtr -/

@[simp] theorem setAcc_a_a (v : Byte) : (setAcc .a v σ).a = v := rfl

@[simp] theorem setAcc_a_b (v : Byte) : (setAcc .a v σ).b = σ.b := rfl

@[simp] theorem setAcc_b_a (v : Byte) : (setAcc .b v σ).a = σ.a := rfl

@[simp] theorem setAcc_b_b (v : Byte) : (setAcc .b v σ).b = v := rfl

@[simp] theorem setPtr_x_x (w : Word) : (setPtr .x w σ).x = w := rfl

@[simp] theorem setPtr_x_y (w : Word) : (setPtr .x w σ).y = σ.y := rfl

@[simp] theorem setPtr_x_u (w : Word) : (setPtr .x w σ).u = σ.u := rfl

@[simp] theorem setPtr_x_s (w : Word) : (setPtr .x w σ).s = σ.s := rfl

@[simp] theorem setPtr_y_x (w : Word) : (setPtr .y w σ).x = σ.x := rfl

@[simp] theorem setPtr_y_y (w : Word) : (setPtr .y w σ).y = w := rfl

@[simp] theorem setPtr_y_u (w : Word) : (setPtr .y w σ).u = σ.u := rfl

@[simp] theorem setPtr_y_s (w : Word) : (setPtr .y w σ).s = σ.s := rfl

@[simp] theorem setPtr_u_x (w : Word) : (setPtr .u w σ).x = σ.x := rfl

@[simp] theorem setPtr_u_y (w : Word) : (setPtr .u w σ).y = σ.y := rfl

@[simp] theorem setPtr_u_u (w : Word) : (setPtr .u w σ).u = w := rfl

@[simp] theorem setPtr_u_s (w : Word) : (setPtr .u w σ).s = σ.s := rfl

@[simp] theorem setPtr_s_x (w : Word) : (setPtr .s w σ).x = σ.x := rfl

@[simp] theorem setPtr_s_y (w : Word) : (setPtr .s w σ).y = σ.y := rfl

@[simp] theorem setPtr_s_u (w : Word) : (setPtr .s w σ).u = σ.u := rfl

@[simp] theorem setPtr_s_s (w : Word) : (setPtr .s w σ).s = w := rfl

/-! ### Registers read by name -/

@[simp] theorem acc_a : acc .a σ = σ.a := rfl

@[simp] theorem acc_b : acc .b σ = σ.b := rfl

@[simp] theorem ptr_x : ptr .x σ = σ.x := rfl

@[simp] theorem ptr_y : ptr .y σ = σ.y := rfl

@[simp] theorem ptr_u : ptr .u σ = σ.u := rfl

@[simp] theorem ptr_s : ptr .s σ = σ.s := rfl

@[simp] theorem acc_setAcc (r t : Acc) (v : Byte) : acc r (setAcc t v σ) = if r = t then v else acc r σ := by
  cases r <;> cases t <;> rfl

@[simp] theorem ptr_setPtr (r t : Ptr) (w : Word) : ptr r (setPtr t w σ) = if r = t then w else ptr r σ := by
  cases r <;> cases t <;> rfl

@[simp] theorem ptr_setAcc (q : Ptr) (t : Acc) (v : Byte) : ptr q (setAcc t v σ) = ptr q σ := by cases q <;> cases t <;> rfl

@[simp] theorem peek_setAcc (i : Word) (t : Acc) (v : Byte) : peek i (setAcc t v σ) = peek i σ := by cases t <;> rfl

@[simp] theorem acc_setPtr (q : Acc) (t : Ptr) (w : Word) : acc q (setPtr t w σ) = acc q σ := by cases q <;> cases t <;> rfl

@[simp] theorem peek_setPtr (i : Word) (t : Ptr) (w : Word) : peek i (setPtr t w σ) = peek i σ := by cases t <;> rfl

@[simp] theorem dReg_setPtr (t : Ptr) (w : Word) : dReg (setPtr t w σ) = dReg σ := by cases t <;> rfl

@[simp] theorem ptr_setD (q : Ptr) (w : Word) : ptr q (setD w σ) = ptr q σ := by cases q <;> rfl

@[simp] theorem peek_setD (i : Word) (w : Word) : peek i (setD w σ) = peek i σ := rfl

@[simp] theorem acc_setCc (q : Acc) (cc : CC) : acc q (setCc cc σ) = acc q σ := by cases q <;> rfl

@[simp] theorem ptr_setCc (q : Ptr) (cc : CC) : ptr q (setCc cc σ) = ptr q σ := by cases q <;> rfl

@[simp] theorem peek_setCc (i : Word) (cc : CC) : peek i (setCc cc σ) = peek i σ := rfl

@[simp] theorem dReg_setCc (cc : CC) : dReg (setCc cc σ) = dReg σ := rfl

@[simp] theorem acc_setDp (q : Acc) (v : Byte) : acc q (setDp v σ) = acc q σ := by cases q <;> rfl

@[simp] theorem ptr_setDp (q : Ptr) (v : Byte) : ptr q (setDp v σ) = ptr q σ := by cases q <;> rfl

@[simp] theorem peek_setDp (i : Word) (v : Byte) : peek i (setDp v σ) = peek i σ := rfl

@[simp] theorem dReg_setDp (v : Byte) : dReg (setDp v σ) = dReg σ := rfl

@[simp] theorem acc_setPc (q : Acc) (w : Word) : acc q (setPc w σ) = acc q σ := by cases q <;> rfl

@[simp] theorem ptr_setPc (q : Ptr) (w : Word) : ptr q (setPc w σ) = ptr q σ := by cases q <;> rfl

@[simp] theorem peek_setPc (i : Word) (w : Word) : peek i (setPc w σ) = peek i σ := rfl

@[simp] theorem dReg_setPc (w : Word) : dReg (setPc w σ) = dReg σ := rfl

@[simp] theorem acc_setRun (q : Acc) (r : RunState) : acc q (setRun r σ) = acc q σ := by cases q <;> rfl

@[simp] theorem ptr_setRun (q : Ptr) (r : RunState) : ptr q (setRun r σ) = ptr q σ := by cases q <;> rfl

@[simp] theorem peek_setRun (i : Word) (r : RunState) : peek i (setRun r σ) = peek i σ := rfl

@[simp] theorem dReg_setRun (r : RunState) : dReg (setRun r σ) = dReg σ := rfl

@[simp] theorem acc_armNmiIf (q : Acc) (c : Bool) : acc q (armNmiIf c σ) = acc q σ := by cases q <;> rfl

@[simp] theorem ptr_armNmiIf (q : Ptr) (c : Bool) : ptr q (armNmiIf c σ) = ptr q σ := by cases q <;> rfl

@[simp] theorem peek_armNmiIf (i : Word) (c : Bool) : peek i (armNmiIf c σ) = peek i σ := rfl

@[simp] theorem dReg_armNmiIf (c : Bool) : dReg (armNmiIf c σ) = dReg σ := rfl

@[simp] theorem acc_countDraw (q : Acc) : acc q (countDraw σ) = acc q σ := by cases q <;> rfl

@[simp] theorem ptr_countDraw (q : Ptr) : ptr q (countDraw σ) = ptr q σ := by cases q <;> rfl

@[simp] theorem peek_countDraw (i : Word) : peek i (countDraw σ) = peek i σ := rfl

@[simp] theorem dReg_countDraw : dReg (countDraw σ) = dReg σ := rfl

@[simp] theorem acc_onBus (q : Acc) (f : BusSide → BusSide) : acc q (onBus f σ) = acc q σ := by cases q <;> rfl

@[simp] theorem ptr_onBus (q : Ptr) (f : BusSide → BusSide) : ptr q (onBus f σ) = ptr q σ := by cases q <;> rfl

@[simp] theorem dReg_onBus (f : BusSide → BusSide) : dReg (onBus f σ) = dReg σ := rfl

@[simp] theorem acc_nextCycle (q : Acc) : acc q (nextCycle σ) = acc q σ := by cases q <;> rfl

@[simp] theorem ptr_nextCycle (q : Ptr) : ptr q (nextCycle σ) = ptr q σ := by cases q <;> rfl

@[simp] theorem dReg_nextCycle : dReg (nextCycle σ) = dReg σ := rfl

@[simp] theorem acc_busCycle (q : Acc) (c : BusCycle) : acc q (busCycle c σ) = acc q σ := by cases q <;> rfl

@[simp] theorem ptr_busCycle (q : Ptr) (c : BusCycle) : ptr q (busCycle c σ) = ptr q σ := by cases q <;> rfl

@[simp] theorem dReg_busCycle (c : BusCycle) : dReg (busCycle c σ) = dReg σ := rfl

@[simp] theorem acc_vmaCycles (q : Acc) (n : Nat) : acc q (vmaCycles n σ) = acc q σ := by cases q <;> rfl

@[simp] theorem ptr_vmaCycles (q : Ptr) (n : Nat) : ptr q (vmaCycles n σ) = ptr q σ := by cases q <;> rfl

@[simp] theorem dReg_vmaCycles (n : Nat) : dReg (vmaCycles n σ) = dReg σ := rfl

@[simp] theorem acc_tick (q : Acc) (n : Nat) : acc q (tick n σ) = acc q σ := by cases q <;> rfl

@[simp] theorem ptr_tick (q : Ptr) (n : Nat) : ptr q (tick n σ) = ptr q σ := by cases q <;> rfl

@[simp] theorem dReg_tick (n : Nat) : dReg (tick n σ) = dReg σ := rfl

@[simp] theorem acc_writeByte (q : Acc) (a : Word) (v : Byte) : acc q (writeByte a v σ) = acc q σ := by cases q <;> rfl

@[simp] theorem ptr_writeByte (q : Ptr) (a : Word) (v : Byte) : ptr q (writeByte a v σ) = ptr q σ := by cases q <;> rfl

@[simp] theorem dReg_writeByte (a : Word) (v : Byte) : dReg (writeByte a v σ) = dReg σ := rfl

@[simp] theorem peek_tick (i : Word) (n : Nat) : peek i (tick n σ) = peek i σ := by simp [peek]

@[simp] theorem peek_busCycle_read (i : Word) (c : BusCycle) (hw : c.write = false) :
    peek i (busCycle c σ) = peek i σ := by simp [peek, busCycle_mem_read, hw]

@[simp] theorem peek_vmaCycles (i : Word) (n : Nat) (hc : σ.cycles = none) : peek i (vmaCycles n σ) = peek i σ := by simp [peek, hc]

/-! ### The bus side -/

@[simp] theorem busSide_setAcc (t : Acc) (v : Byte) : busSide (setAcc t v σ) = busSide σ := by cases t <;> rfl

@[simp] theorem busSide_setPtr (t : Ptr) (w : Word) : busSide (setPtr t w σ) = busSide σ := by cases t <;> rfl

@[simp] theorem busSide_setD (w : Word) : busSide (setD w σ) = busSide σ := rfl

@[simp] theorem busSide_setCc (cc : CC) : busSide (setCc cc σ) = busSide σ := rfl

@[simp] theorem busSide_setDp (v : Byte) : busSide (setDp v σ) = busSide σ := rfl

@[simp] theorem busSide_setPc (w : Word) : busSide (setPc w σ) = busSide σ := rfl

@[simp] theorem busSide_setRun (r : RunState) : busSide (setRun r σ) = busSide σ := rfl

@[simp] theorem busSide_armNmiIf (c : Bool) : busSide (armNmiIf c σ) = busSide σ := rfl

@[simp] theorem busSide_countDraw : busSide (countDraw σ) = busSide σ := rfl

end Sys2Proof.Machine
end

