-- ==== Sys2Proof/Laws/Ops.lean ====
section
/-! SUPPORT. What each shared operation over memory, stacks and addresses does: the value it answers, and the state it leaves field by field. Later proofs cite these and do not unfold the operations. -/

namespace Sys2Proof.Machine

variable (σ : State)

/-! ## Halves and words -/

theorem toNat_hi (w : Word) : (hi w).toNat = w.toNat / 256 := by
  have := w.isLt
  simp only [hi, BitVec.extractLsb'_toNat, Nat.shiftRight_eq_div_pow]; omega

theorem toNat_lo (w : Word) : (lo w).toNat = w.toNat % 256 := by
  simp [lo, BitVec.extractLsb'_toNat]

theorem toNat_join (h l : Byte) : (join h l).toNat = 256 * h.toNat + l.toNat := by
  simp only [join, BitVec.toNat_append]
  rw [Nat.shiftLeft_eq, Nat.mul_comm, ← Nat.two_pow_add_eq_or_of_lt l.isLt]

@[simp] theorem join_hi_lo (w : Word) : join (hi w) (lo w) = w := by
  apply BitVec.eq_of_toNat_eq
  rw [toNat_join, toNat_hi, toNat_lo]; omega

@[simp] theorem hi_join (h l : Byte) : hi (join h l) = h := by
  have := l.isLt
  apply BitVec.eq_of_toNat_eq
  rw [toNat_hi, toNat_join]; omega

@[simp] theorem lo_join (h l : Byte) : lo (join h l) = l := by
  have := l.isLt
  apply BitVec.eq_of_toNat_eq
  rw [toNat_lo, toNat_join]; omega

@[simp] theorem dReg_setD (w : Word) : dReg (setD w σ) = w := by simp [dReg]

/-! ## CC as a byte -/

@[simp] theorem CC.ofByte_toByte (cc : CC) : CC.ofByte cc.toByte = cc := by
  rcases cc with ⟨_ | _, _ | _, _ | _, _ | _, _ | _, _ | _, _ | _, _ | _⟩ <;> rfl

@[simp] theorem CC.toByte_ofByte (b : Byte) : (CC.ofByte b).toByte = b := by
  revert b; decide

/-! ## One byte of memory -/

theorem toNat_inj_word {a b : Word} : a.toNat = b.toNat ↔ a = b := BitVec.toNat_inj

theorem peek_writeByte_other {a b : Word} (h : a ≠ b) (v : Byte) (hc : σ.cycles = none) :
    peek a (writeByte b v σ) = peek a σ := by
  have h' := Memory.read_write_other (fun e => h (BitVec.eq_of_toNat_eq e)) v σ.mem
  simp only [peek, writeByte, nextCycle_of_none σ hc, busCycle, onBus, setBusSide, busSide, perform, if_true]
  split
  · exact h'
  · rfl
  · rfl

theorem peek_writeByte_same (a : Word) (v : Byte) (u : Undisturbed σ) (h : σ.mem.wf = true) :
    peek a (writeByte a v σ) = v := by
  rw [peek, writeByte_mem _ _ _ u.2 u.1]; exact Memory.read_write_same a.toNat v h

theorem peek_writeByte (a b : Word) (v : Byte) (u : Undisturbed σ) (h : σ.mem.wf = true) :
    peek a (writeByte b v σ) = if a = b then v else peek a σ := by
  split
  · rename_i e; subst e; exact peek_writeByte_same σ a v u h
  · rename_i e; exact peek_writeByte_other σ e v u.2

theorem peek_congr {σ τ : State} (h : τ.mem = σ.mem) (a : Word) : peek a τ = peek a σ := by
  rw [peek, peek, h]

/-! ## Reads -/

/-- With plain memory everywhere a read is answered by the byte that stands there. -/
@[simp] theorem answer_eq_peek (ack : Bool) (a : Word) (hp : σ.platform = []) : answer ack a σ = peek a σ := by
  simp [answer, hp, kindAt]

@[simp] theorem readByte_fst (a : Word) : (readByte a σ).1 = answer false a (nextCycle σ) := rfl

theorem readByte_snd (a : Word) :
    (readByte a σ).2 = busCycle { write := false, ack := false, addr := a, data := (readByte a σ).1 } (nextCycle σ) := rfl

@[simp] theorem readAck_fst (a : Word) : (readAck a σ).1 = answer true a (nextCycle σ) := rfl

theorem readAck_snd (a : Word) :
    (readAck a σ).2 = busCycle { write := false, ack := true, addr := a, data := (readAck a σ).1 } (nextCycle σ) := rfl

/-! ### readByte -/

@[simp] theorem a_readByte (a : Word) : (readByte a σ).2.a = σ.a := rfl

@[simp] theorem b_readByte (a : Word) : (readByte a σ).2.b = σ.b := rfl

@[simp] theorem dp_readByte (a : Word) : (readByte a σ).2.dp = σ.dp := rfl

@[simp] theorem cc_readByte (a : Word) : (readByte a σ).2.cc = σ.cc := rfl

@[simp] theorem x_readByte (a : Word) : (readByte a σ).2.x = σ.x := rfl

@[simp] theorem y_readByte (a : Word) : (readByte a σ).2.y = σ.y := rfl

@[simp] theorem u_readByte (a : Word) : (readByte a σ).2.u = σ.u := rfl

@[simp] theorem s_readByte (a : Word) : (readByte a σ).2.s = σ.s := rfl

@[simp] theorem pc_readByte (a : Word) : (readByte a σ).2.pc = σ.pc := rfl

@[simp] theorem nmiArmed_readByte (a : Word) : (readByte a σ).2.nmiArmed = σ.nmiArmed := rfl

@[simp] theorem nmiPending_readByte (a : Word) : (readByte a σ).2.nmiPending = σ.nmiPending := rfl

@[simp] theorem run_readByte (a : Word) : (readByte a σ).2.run = σ.run := rfl

@[simp] theorem halted_readByte (a : Word) : (readByte a σ).2.halted = σ.halted := rfl

@[simp] theorem inReset_readByte (a : Word) : (readByte a σ).2.inReset = σ.inReset := rfl

@[simp] theorem platform_readByte (a : Word) : (readByte a σ).2.platform = σ.platform := by rw [readByte_snd, busCycle_platform, nextCycle_platform]

@[simp] theorem env_readByte (a : Word) : (readByte a σ).2.env = σ.env := rfl

@[simp] theorem draws_readByte (a : Word) : (readByte a σ).2.draws = σ.draws := rfl

@[simp] theorem acc_readByte (q : Acc) (a : Word) : acc q (readByte a σ).2 = acc q σ := by cases q <;> rfl

@[simp] theorem ptr_readByte (q : Ptr) (a : Word) : ptr q (readByte a σ).2 = ptr q σ := by cases q <;> rfl

@[simp] theorem dReg_readByte (a : Word) : dReg (readByte a σ).2 = dReg σ := rfl

@[simp] theorem cycles_readByte (a : Word) : (readByte a σ).2.cycles = none ↔ σ.cycles = none := by
  simp [readByte_snd]

@[simp] theorem busGranted_readByte (a : Word) (hc : σ.cycles = none) : (readByte a σ).2.busGranted = σ.busGranted := by
  simp [readByte_snd, hc]

@[simp] theorem refreshCount_readByte (a : Word) (hc : σ.cycles = none) : (readByte a σ).2.refreshCount = σ.refreshCount := by
  simp [readByte_snd, hc]

@[simp] theorem dmaIdle_readByte (a : Word) (hc : σ.cycles = none) : (readByte a σ).2.dmaIdle = σ.dmaIdle := by
  simp [readByte_snd, hc]

@[simp] theorem dmaLow_readByte (a : Word) (hc : σ.cycles = none) : (readByte a σ).2.dmaLow = σ.dmaLow := by
  simp [readByte_snd, hc]

@[simp] theorem elapsed_readByte (a : Word) (hc : σ.cycles = none) : (readByte a σ).2.elapsed = σ.elapsed := by
  simp [readByte_snd, hc]

@[simp] theorem mem_readByte (a : Word) (hc : σ.cycles = none) : (readByte a σ).2.mem = σ.mem := by
  simp [readByte_snd, hc]

@[simp] theorem devices_readByte (a : Word) (hc : σ.cycles = none) (hp : σ.platform = []) :
    (readByte a σ).2.devices = σ.devices := by
  simp [readByte_snd, hc, hp]

@[simp] theorem peek_readByte (a k : Word) (hc : σ.cycles = none) : peek k (readByte a σ).2 = peek k σ :=
  peek_congr (mem_readByte σ a hc) k

@[simp] theorem bus_readByte (a : Word) (hc : σ.cycles = none) :
    (readByte a σ).2.bus = σ.bus ++ [{ write := false, ack := false, addr := a, data := (readByte a σ).1 }] := by
  simp [readByte_snd, hc]

/-! ### readAck -/

@[simp] theorem a_readAck (a : Word) : (readAck a σ).2.a = σ.a := rfl

@[simp] theorem b_readAck (a : Word) : (readAck a σ).2.b = σ.b := rfl

@[simp] theorem dp_readAck (a : Word) : (readAck a σ).2.dp = σ.dp := rfl

@[simp] theorem cc_readAck (a : Word) : (readAck a σ).2.cc = σ.cc := rfl

@[simp] theorem x_readAck (a : Word) : (readAck a σ).2.x = σ.x := rfl

@[simp] theorem y_readAck (a : Word) : (readAck a σ).2.y = σ.y := rfl

@[simp] theorem u_readAck (a : Word) : (readAck a σ).2.u = σ.u := rfl

@[simp] theorem s_readAck (a : Word) : (readAck a σ).2.s = σ.s := rfl

@[simp] theorem pc_readAck (a : Word) : (readAck a σ).2.pc = σ.pc := rfl

@[simp] theorem nmiArmed_readAck (a : Word) : (readAck a σ).2.nmiArmed = σ.nmiArmed := rfl

@[simp] theorem nmiPending_readAck (a : Word) : (readAck a σ).2.nmiPending = σ.nmiPending := rfl

@[simp] theorem run_readAck (a : Word) : (readAck a σ).2.run = σ.run := rfl

@[simp] theorem halted_readAck (a : Word) : (readAck a σ).2.halted = σ.halted := rfl

@[simp] theorem inReset_readAck (a : Word) : (readAck a σ).2.inReset = σ.inReset := rfl

@[simp] theorem platform_readAck (a : Word) : (readAck a σ).2.platform = σ.platform := by rw [readAck_snd, busCycle_platform, nextCycle_platform]

@[simp] theorem env_readAck (a : Word) : (readAck a σ).2.env = σ.env := rfl

@[simp] theorem draws_readAck (a : Word) : (readAck a σ).2.draws = σ.draws := rfl

@[simp] theorem acc_readAck (q : Acc) (a : Word) : acc q (readAck a σ).2 = acc q σ := by cases q <;> rfl

@[simp] theorem ptr_readAck (q : Ptr) (a : Word) : ptr q (readAck a σ).2 = ptr q σ := by cases q <;> rfl

@[simp] theorem dReg_readAck (a : Word) : dReg (readAck a σ).2 = dReg σ := rfl

@[simp] theorem cycles_readAck (a : Word) : (readAck a σ).2.cycles = none ↔ σ.cycles = none := by
  simp [readAck_snd]

@[simp] theorem busGranted_readAck (a : Word) (hc : σ.cycles = none) : (readAck a σ).2.busGranted = σ.busGranted := by
  simp [readAck_snd, hc]

@[simp] theorem refreshCount_readAck (a : Word) (hc : σ.cycles = none) : (readAck a σ).2.refreshCount = σ.refreshCount := by
  simp [readAck_snd, hc]

@[simp] theorem dmaIdle_readAck (a : Word) (hc : σ.cycles = none) : (readAck a σ).2.dmaIdle = σ.dmaIdle := by
  simp [readAck_snd, hc]

@[simp] theorem dmaLow_readAck (a : Word) (hc : σ.cycles = none) : (readAck a σ).2.dmaLow = σ.dmaLow := by
  simp [readAck_snd, hc]

@[simp] theorem elapsed_readAck (a : Word) (hc : σ.cycles = none) : (readAck a σ).2.elapsed = σ.elapsed := by
  simp [readAck_snd, hc]

@[simp] theorem mem_readAck (a : Word) (hc : σ.cycles = none) : (readAck a σ).2.mem = σ.mem := by
  simp [readAck_snd, hc]

@[simp] theorem devices_readAck (a : Word) (hc : σ.cycles = none) (hp : σ.platform = []) :
    (readAck a σ).2.devices = σ.devices := by
  simp [readAck_snd, hc, hp]

@[simp] theorem peek_readAck (a k : Word) (hc : σ.cycles = none) : peek k (readAck a σ).2 = peek k σ :=
  peek_congr (mem_readAck σ a hc) k

@[simp] theorem bus_readAck (a : Word) (hc : σ.cycles = none) :
    (readAck a σ).2.bus = σ.bus ++ [{ write := false, ack := true, addr := a, data := (readAck a σ).1 }] := by
  simp [readAck_snd, hc]

theorem readWord_eq (a : Word) : (readWord a σ).1 = join (readByte a σ).1 (readByte (a + 1) (readByte a σ).2).1 := rfl

@[simp] theorem readWord_fst (a : Word) (hp : σ.platform = []) (hc : σ.cycles = none) : (readWord a σ).1 = peekWord a σ := by
  simp [readWord_eq, peekWord, hp, hc]

theorem readWord_snd (a : Word) : (readWord a σ).2 = (readByte (a + 1) (readByte a σ).2).2 := rfl

@[simp] theorem readVector_fst (a : Word) (hp : σ.platform = []) (hc : σ.cycles = none) : (readVector a σ).1 = peekWord a σ := by
  rw [readVector]; simp [peekWord, hp, hc]

theorem readVector_snd (a : Word) : (readVector a σ).2 = (readAck (a + 1) (readAck a σ).2).2 := rfl

/-! ### readWord -/

@[simp] theorem a_readWord (a : Word) : (readWord a σ).2.a = σ.a := rfl

@[simp] theorem b_readWord (a : Word) : (readWord a σ).2.b = σ.b := rfl

@[simp] theorem dp_readWord (a : Word) : (readWord a σ).2.dp = σ.dp := rfl

@[simp] theorem cc_readWord (a : Word) : (readWord a σ).2.cc = σ.cc := rfl

@[simp] theorem x_readWord (a : Word) : (readWord a σ).2.x = σ.x := rfl

@[simp] theorem y_readWord (a : Word) : (readWord a σ).2.y = σ.y := rfl

@[simp] theorem u_readWord (a : Word) : (readWord a σ).2.u = σ.u := rfl

@[simp] theorem s_readWord (a : Word) : (readWord a σ).2.s = σ.s := rfl

@[simp] theorem pc_readWord (a : Word) : (readWord a σ).2.pc = σ.pc := rfl

@[simp] theorem nmiArmed_readWord (a : Word) : (readWord a σ).2.nmiArmed = σ.nmiArmed := rfl

@[simp] theorem nmiPending_readWord (a : Word) : (readWord a σ).2.nmiPending = σ.nmiPending := rfl

@[simp] theorem run_readWord (a : Word) : (readWord a σ).2.run = σ.run := rfl

@[simp] theorem halted_readWord (a : Word) : (readWord a σ).2.halted = σ.halted := rfl

@[simp] theorem inReset_readWord (a : Word) : (readWord a σ).2.inReset = σ.inReset := rfl

@[simp] theorem platform_readWord (a : Word) : (readWord a σ).2.platform = σ.platform := by rw [readWord_snd, platform_readByte, platform_readByte]

@[simp] theorem env_readWord (a : Word) : (readWord a σ).2.env = σ.env := rfl

@[simp] theorem draws_readWord (a : Word) : (readWord a σ).2.draws = σ.draws := rfl

@[simp] theorem acc_readWord (q : Acc) (a : Word) : acc q (readWord a σ).2 = acc q σ := by cases q <;> rfl

@[simp] theorem ptr_readWord (q : Ptr) (a : Word) : ptr q (readWord a σ).2 = ptr q σ := by cases q <;> rfl

@[simp] theorem dReg_readWord (a : Word) : dReg (readWord a σ).2 = dReg σ := rfl

@[simp] theorem cycles_readWord (a : Word) : (readWord a σ).2.cycles = none ↔ σ.cycles = none := by
  simp [readWord_snd]

@[simp] theorem busGranted_readWord (a : Word) (hc : σ.cycles = none) : (readWord a σ).2.busGranted = σ.busGranted := by
  simp [readWord_snd, hc]

@[simp] theorem refreshCount_readWord (a : Word) (hc : σ.cycles = none) : (readWord a σ).2.refreshCount = σ.refreshCount := by
  simp [readWord_snd, hc]

@[simp] theorem dmaIdle_readWord (a : Word) (hc : σ.cycles = none) : (readWord a σ).2.dmaIdle = σ.dmaIdle := by
  simp [readWord_snd, hc]

@[simp] theorem dmaLow_readWord (a : Word) (hc : σ.cycles = none) : (readWord a σ).2.dmaLow = σ.dmaLow := by
  simp [readWord_snd, hc]

@[simp] theorem elapsed_readWord (a : Word) (hc : σ.cycles = none) : (readWord a σ).2.elapsed = σ.elapsed := by
  simp [readWord_snd, hc]

@[simp] theorem mem_readWord (a : Word) (hc : σ.cycles = none) : (readWord a σ).2.mem = σ.mem := by
  simp [readWord_snd, hc]

@[simp] theorem devices_readWord (a : Word) (hc : σ.cycles = none) (hp : σ.platform = []) :
    (readWord a σ).2.devices = σ.devices := by
  simp [readWord_snd, hc, hp]

@[simp] theorem peek_readWord (a k : Word) (hc : σ.cycles = none) : peek k (readWord a σ).2 = peek k σ :=
  peek_congr (mem_readWord σ a hc) k

@[simp] theorem bus_readWord (a : Word) (hc : σ.cycles = none) (hp : σ.platform = []) :
    (readWord a σ).2.bus = σ.bus ++ [{ write := false, ack := false, addr := a, data := peek a σ },
      { write := false, ack := false, addr := a + 1, data := peek (a + 1) σ }] := by
  simp [readWord_snd, hc, hp]

/-! ### readVector -/

@[simp] theorem a_readVector (a : Word) : (readVector a σ).2.a = σ.a := rfl

@[simp] theorem b_readVector (a : Word) : (readVector a σ).2.b = σ.b := rfl

@[simp] theorem dp_readVector (a : Word) : (readVector a σ).2.dp = σ.dp := rfl

@[simp] theorem cc_readVector (a : Word) : (readVector a σ).2.cc = σ.cc := rfl

@[simp] theorem x_readVector (a : Word) : (readVector a σ).2.x = σ.x := rfl

@[simp] theorem y_readVector (a : Word) : (readVector a σ).2.y = σ.y := rfl

@[simp] theorem u_readVector (a : Word) : (readVector a σ).2.u = σ.u := rfl

@[simp] theorem s_readVector (a : Word) : (readVector a σ).2.s = σ.s := rfl

@[simp] theorem pc_readVector (a : Word) : (readVector a σ).2.pc = σ.pc := rfl

@[simp] theorem nmiArmed_readVector (a : Word) : (readVector a σ).2.nmiArmed = σ.nmiArmed := rfl

@[simp] theorem nmiPending_readVector (a : Word) : (readVector a σ).2.nmiPending = σ.nmiPending := rfl

@[simp] theorem run_readVector (a : Word) : (readVector a σ).2.run = σ.run := rfl

@[simp] theorem halted_readVector (a : Word) : (readVector a σ).2.halted = σ.halted := rfl

@[simp] theorem inReset_readVector (a : Word) : (readVector a σ).2.inReset = σ.inReset := rfl

@[simp] theorem platform_readVector (a : Word) : (readVector a σ).2.platform = σ.platform := by rw [readVector_snd, platform_readAck, platform_readAck]

@[simp] theorem env_readVector (a : Word) : (readVector a σ).2.env = σ.env := rfl

@[simp] theorem draws_readVector (a : Word) : (readVector a σ).2.draws = σ.draws := rfl

@[simp] theorem acc_readVector (q : Acc) (a : Word) : acc q (readVector a σ).2 = acc q σ := by cases q <;> rfl

@[simp] theorem ptr_readVector (q : Ptr) (a : Word) : ptr q (readVector a σ).2 = ptr q σ := by cases q <;> rfl

@[simp] theorem dReg_readVector (a : Word) : dReg (readVector a σ).2 = dReg σ := rfl

@[simp] theorem cycles_readVector (a : Word) : (readVector a σ).2.cycles = none ↔ σ.cycles = none := by
  simp [readVector_snd]

@[simp] theorem busGranted_readVector (a : Word) (hc : σ.cycles = none) : (readVector a σ).2.busGranted = σ.busGranted := by
  simp [readVector_snd, hc]

@[simp] theorem refreshCount_readVector (a : Word) (hc : σ.cycles = none) : (readVector a σ).2.refreshCount = σ.refreshCount := by
  simp [readVector_snd, hc]

@[simp] theorem dmaIdle_readVector (a : Word) (hc : σ.cycles = none) : (readVector a σ).2.dmaIdle = σ.dmaIdle := by
  simp [readVector_snd, hc]

@[simp] theorem dmaLow_readVector (a : Word) (hc : σ.cycles = none) : (readVector a σ).2.dmaLow = σ.dmaLow := by
  simp [readVector_snd, hc]

@[simp] theorem elapsed_readVector (a : Word) (hc : σ.cycles = none) : (readVector a σ).2.elapsed = σ.elapsed := by
  simp [readVector_snd, hc]

@[simp] theorem mem_readVector (a : Word) (hc : σ.cycles = none) : (readVector a σ).2.mem = σ.mem := by
  simp [readVector_snd, hc]

@[simp] theorem devices_readVector (a : Word) (hc : σ.cycles = none) (hp : σ.platform = []) :
    (readVector a σ).2.devices = σ.devices := by
  simp [readVector_snd, hc, hp]

@[simp] theorem peek_readVector (a k : Word) (hc : σ.cycles = none) : peek k (readVector a σ).2 = peek k σ :=
  peek_congr (mem_readVector σ a hc) k

@[simp] theorem bus_readVector (a : Word) (hc : σ.cycles = none) (hp : σ.platform = []) :
    (readVector a σ).2.bus = σ.bus ++ [{ write := false, ack := true, addr := a, data := peek a σ },
      { write := false, ack := true, addr := a + 1, data := peek (a + 1) σ }] := by
  simp [readVector_snd, hc, hp]

@[simp] theorem drawFlag_snd : (drawFlag σ).2 = countDraw σ := rfl

@[simp] theorem doIf_true (f : State → State) : doIf true f σ = f σ := rfl

@[simp] theorem doIf_false (f : State → State) : doIf false f σ = σ := rfl

/-! ## Stacks -/

@[simp] theorem pull8_fst (r : Ptr) : (pull8 r σ).1 = answer false (ptr r σ) (nextCycle σ) := rfl

@[simp] theorem pull16_fst (r : Ptr) (hp : σ.platform = []) (hc : σ.cycles = none) : (pull16 r σ).1 = peekWord (ptr r σ) σ := by
  simp [pull16, pull8, peekWord, hp, hc]

theorem ptr_push8 (r q : Ptr) (v : Byte) :
    ptr q (push8 r v σ) = if q = r then ptr r σ - 1 else ptr q σ := by simp [push8]

theorem ptr_push16 (r q : Ptr) (w : Word) :
    ptr q (push16 r w σ) = if q = r then ptr r σ - 2 else ptr q σ := by
  rw [push16, ptr_push8, ptr_push8, ptr_push8]
  by_cases h : q = r
  · rw [if_pos h, if_pos rfl, if_pos h]; bv_omega
  · rw [if_neg h, if_neg h, if_neg h]

theorem ptr_pull8 (r q : Ptr) :
    ptr q (pull8 r σ).2 = if q = r then ptr r σ + 1 else ptr q σ := by simp [pull8]

theorem ptr_pull16 (r q : Ptr) :
    ptr q (pull16 r σ).2 = if q = r then ptr r σ + 2 else ptr q σ := by
  simp only [pull16, ptr_pull8]
  by_cases h : q = r
  · rw [if_pos h, if_pos h]; simp; bv_omega
  · rw [if_neg h, if_neg h, if_neg h]

theorem peek_push8 (r : Ptr) (v : Byte) (a : Word) (u : Undisturbed σ) (h : σ.mem.wf = true) :
    peek a (push8 r v σ) = if a = ptr r σ - 1 then v else peek a σ := by
  rw [push8, peek_writeByte _ _ _ _ ⟨by simpa using u.1, by simpa using u.2⟩ (by simpa using h), peek_setPtr]

theorem peek_push8_other (r : Ptr) (v : Byte) {a : Word} (h : a ≠ ptr r σ - 1) (hc : σ.cycles = none) :
    peek a (push8 r v σ) = peek a σ := by
  rw [push8, peek_writeByte_other _ h _ (by simpa using hc), peek_setPtr]

theorem wf_push8 (r : Ptr) (v : Byte) (u : Undisturbed σ) (h : σ.mem.wf = true) : (push8 r v σ).mem.wf = true := by
  rw [push8, writeByte_mem _ _ _ (by simpa using u.2) (by simpa using u.1)]
  exact Memory.wf_write (BitVec.isLt _) v (by simpa using h)

/-! ## Addresses and operands -/

theorem ptr_setPtr_add (r q : Ptr) (d : Word) :
    ptr q (setPtr r (ptr r σ + d) σ) = ptr q σ + if r = q then d else 0 := by
  rw [ptr_setPtr]
  by_cases h : q = r
  · subst h; simp
  · rw [if_neg h, if_neg (fun e => h e.symm)]; simp

theorem ptr_setPtr_sub (r q : Ptr) (d : Word) :
    ptr q (setPtr r (ptr r σ - d) σ) = ptr q σ + if r = q then -d else 0 := by
  rw [BitVec.sub_eq_add_neg]; exact ptr_setPtr_add σ r q (-d)

/-- The address part moves the pointer registers by `baseDelta` and nothing else does. -/
theorem ptr_baseAddr (m : IdxBase) (q : Ptr) : ptr q (baseAddr m σ).2 = ptr q σ + baseDelta m q := by
  cases m with
  | inc2 r => exact ptr_setPtr_add σ r q 2
  | dec2 r => exact ptr_setPtr_sub σ r q 2
  | _ => simp [baseAddr, baseDelta]

/-- An indexed form moves the pointer registers by `idxDelta` and nothing else does. -/
theorem ptr_idxAddr (i : Idx) (q : Ptr) : ptr q (idxAddr i σ).2 = ptr q σ + idxDelta i q := by
  cases i with
  | inc1 r => exact ptr_setPtr_add σ r q 1
  | dec1 r => exact ptr_setPtr_sub σ r q 1
  | plain m => exact ptr_baseAddr σ m q
  | indirect m => simp [idxAddr, idxDelta, ptr_baseAddr]
  | _ => simp [idxAddr, idxDelta]

theorem ptr_effAddr (a : Addr) (q : Ptr) : ptr q (effAddr a σ).2 = ptr q σ + addrDelta a q := by
  cases a <;> simp [effAddr, addrDelta, ptr_idxAddr]

theorem ptr_operand8 (src : Src8) (q : Ptr) : ptr q (operand8 src σ).2 = ptr q σ + src8Delta src q := by
  cases src <;> simp [operand8, src8Delta, ptr_effAddr]

theorem ptr_operand16 (src : Src16) (q : Ptr) : ptr q (operand16 src σ).2 = ptr q σ + src16Delta src q := by
  cases src <;> simp [operand16, src16Delta, ptr_effAddr]

@[simp] theorem x_effAddr (a : Addr) : (effAddr a σ).2.x = σ.x + addrDelta a .x := ptr_effAddr σ a .x

@[simp] theorem y_effAddr (a : Addr) : (effAddr a σ).2.y = σ.y + addrDelta a .y := ptr_effAddr σ a .y

@[simp] theorem u_effAddr (a : Addr) : (effAddr a σ).2.u = σ.u + addrDelta a .u := ptr_effAddr σ a .u

@[simp] theorem s_effAddr (a : Addr) : (effAddr a σ).2.s = σ.s + addrDelta a .s := ptr_effAddr σ a .s

@[simp] theorem x_idxAddr (i : Idx) : (idxAddr i σ).2.x = σ.x + idxDelta i .x := ptr_idxAddr σ i .x

@[simp] theorem y_idxAddr (i : Idx) : (idxAddr i σ).2.y = σ.y + idxDelta i .y := ptr_idxAddr σ i .y

@[simp] theorem u_idxAddr (i : Idx) : (idxAddr i σ).2.u = σ.u + idxDelta i .u := ptr_idxAddr σ i .u

@[simp] theorem s_idxAddr (i : Idx) : (idxAddr i σ).2.s = σ.s + idxDelta i .s := ptr_idxAddr σ i .s

@[simp] theorem x_operand8 (src : Src8) : (operand8 src σ).2.x = σ.x + src8Delta src .x := ptr_operand8 σ src .x

@[simp] theorem y_operand8 (src : Src8) : (operand8 src σ).2.y = σ.y + src8Delta src .y := ptr_operand8 σ src .y

@[simp] theorem u_operand8 (src : Src8) : (operand8 src σ).2.u = σ.u + src8Delta src .u := ptr_operand8 σ src .u

@[simp] theorem s_operand8 (src : Src8) : (operand8 src σ).2.s = σ.s + src8Delta src .s := ptr_operand8 σ src .s

@[simp] theorem x_operand16 (src : Src16) : (operand16 src σ).2.x = σ.x + src16Delta src .x := ptr_operand16 σ src .x

@[simp] theorem y_operand16 (src : Src16) : (operand16 src σ).2.y = σ.y + src16Delta src .y := ptr_operand16 σ src .y

@[simp] theorem u_operand16 (src : Src16) : (operand16 src σ).2.u = σ.u + src16Delta src .u := ptr_operand16 σ src .u

@[simp] theorem s_operand16 (src : Src16) : (operand16 src σ).2.s = σ.s + src16Delta src .s := ptr_operand16 σ src .s

/-! ### a -/

@[simp] theorem a_push8 (r : Ptr) (v : Byte) : (push8 r v σ).a = σ.a := by simp [push8]

@[simp] theorem a_push16 (r : Ptr) (w : Word) : (push16 r w σ).a = σ.a := by simp [push16]

@[simp] theorem a_pull8 (r : Ptr) : (pull8 r σ).2.a = σ.a := by simp [pull8]

@[simp] theorem a_pull16 (r : Ptr) : (pull16 r σ).2.a = σ.a := by simp [pull16]

@[simp] theorem a_baseAddr (m : IdxBase) : (baseAddr m σ).2.a = σ.a := by cases m <;> simp [baseAddr]

@[simp] theorem a_idxAddr (i : Idx) : (idxAddr i σ).2.a = σ.a := by cases i <;> simp [idxAddr]

@[simp] theorem a_effAddr (a : Addr) : (effAddr a σ).2.a = σ.a := by cases a <;> simp [effAddr]

@[simp] theorem a_operand8 (src : Src8) : (operand8 src σ).2.a = σ.a := by cases src <;> simp [operand8]

@[simp] theorem a_operand16 (src : Src16) : (operand16 src σ).2.a = σ.a := by cases src <;> simp [operand16]

/-! ### b -/

@[simp] theorem b_push8 (r : Ptr) (v : Byte) : (push8 r v σ).b = σ.b := by simp [push8]

@[simp] theorem b_push16 (r : Ptr) (w : Word) : (push16 r w σ).b = σ.b := by simp [push16]

@[simp] theorem b_pull8 (r : Ptr) : (pull8 r σ).2.b = σ.b := by simp [pull8]

@[simp] theorem b_pull16 (r : Ptr) : (pull16 r σ).2.b = σ.b := by simp [pull16]

@[simp] theorem b_baseAddr (m : IdxBase) : (baseAddr m σ).2.b = σ.b := by cases m <;> simp [baseAddr]

@[simp] theorem b_idxAddr (i : Idx) : (idxAddr i σ).2.b = σ.b := by cases i <;> simp [idxAddr]

@[simp] theorem b_effAddr (a : Addr) : (effAddr a σ).2.b = σ.b := by cases a <;> simp [effAddr]

@[simp] theorem b_operand8 (src : Src8) : (operand8 src σ).2.b = σ.b := by cases src <;> simp [operand8]

@[simp] theorem b_operand16 (src : Src16) : (operand16 src σ).2.b = σ.b := by cases src <;> simp [operand16]

/-! ### dp -/

@[simp] theorem dp_push8 (r : Ptr) (v : Byte) : (push8 r v σ).dp = σ.dp := by simp [push8]

@[simp] theorem dp_push16 (r : Ptr) (w : Word) : (push16 r w σ).dp = σ.dp := by simp [push16]

@[simp] theorem dp_pull8 (r : Ptr) : (pull8 r σ).2.dp = σ.dp := by simp [pull8]

@[simp] theorem dp_pull16 (r : Ptr) : (pull16 r σ).2.dp = σ.dp := by simp [pull16]

@[simp] theorem dp_baseAddr (m : IdxBase) : (baseAddr m σ).2.dp = σ.dp := by cases m <;> simp [baseAddr]

@[simp] theorem dp_idxAddr (i : Idx) : (idxAddr i σ).2.dp = σ.dp := by cases i <;> simp [idxAddr]

@[simp] theorem dp_effAddr (a : Addr) : (effAddr a σ).2.dp = σ.dp := by cases a <;> simp [effAddr]

@[simp] theorem dp_operand8 (src : Src8) : (operand8 src σ).2.dp = σ.dp := by cases src <;> simp [operand8]

@[simp] theorem dp_operand16 (src : Src16) : (operand16 src σ).2.dp = σ.dp := by cases src <;> simp [operand16]

/-! ### cc -/

@[simp] theorem cc_push8 (r : Ptr) (v : Byte) : (push8 r v σ).cc = σ.cc := by simp [push8]

@[simp] theorem cc_push16 (r : Ptr) (w : Word) : (push16 r w σ).cc = σ.cc := by simp [push16]

@[simp] theorem cc_pull8 (r : Ptr) : (pull8 r σ).2.cc = σ.cc := by simp [pull8]

@[simp] theorem cc_pull16 (r : Ptr) : (pull16 r σ).2.cc = σ.cc := by simp [pull16]

@[simp] theorem cc_baseAddr (m : IdxBase) : (baseAddr m σ).2.cc = σ.cc := by cases m <;> simp [baseAddr]

@[simp] theorem cc_idxAddr (i : Idx) : (idxAddr i σ).2.cc = σ.cc := by cases i <;> simp [idxAddr]

@[simp] theorem cc_effAddr (a : Addr) : (effAddr a σ).2.cc = σ.cc := by cases a <;> simp [effAddr]

@[simp] theorem cc_operand8 (src : Src8) : (operand8 src σ).2.cc = σ.cc := by cases src <;> simp [operand8]

@[simp] theorem cc_operand16 (src : Src16) : (operand16 src σ).2.cc = σ.cc := by cases src <;> simp [operand16]

/-! ### pc -/

@[simp] theorem pc_push8 (r : Ptr) (v : Byte) : (push8 r v σ).pc = σ.pc := by simp [push8]

@[simp] theorem pc_push16 (r : Ptr) (w : Word) : (push16 r w σ).pc = σ.pc := by simp [push16]

@[simp] theorem pc_pull8 (r : Ptr) : (pull8 r σ).2.pc = σ.pc := by simp [pull8]

@[simp] theorem pc_pull16 (r : Ptr) : (pull16 r σ).2.pc = σ.pc := by simp [pull16]

@[simp] theorem pc_baseAddr (m : IdxBase) : (baseAddr m σ).2.pc = σ.pc := by cases m <;> simp [baseAddr]

@[simp] theorem pc_idxAddr (i : Idx) : (idxAddr i σ).2.pc = σ.pc := by cases i <;> simp [idxAddr]

@[simp] theorem pc_effAddr (a : Addr) : (effAddr a σ).2.pc = σ.pc := by cases a <;> simp [effAddr]

@[simp] theorem pc_operand8 (src : Src8) : (operand8 src σ).2.pc = σ.pc := by cases src <;> simp [operand8]

@[simp] theorem pc_operand16 (src : Src16) : (operand16 src σ).2.pc = σ.pc := by cases src <;> simp [operand16]

/-! ### nmiArmed -/

@[simp] theorem nmiArmed_push8 (r : Ptr) (v : Byte) : (push8 r v σ).nmiArmed = σ.nmiArmed := by simp [push8]

@[simp] theorem nmiArmed_push16 (r : Ptr) (w : Word) : (push16 r w σ).nmiArmed = σ.nmiArmed := by simp [push16]

@[simp] theorem nmiArmed_pull8 (r : Ptr) : (pull8 r σ).2.nmiArmed = σ.nmiArmed := by simp [pull8]

@[simp] theorem nmiArmed_pull16 (r : Ptr) : (pull16 r σ).2.nmiArmed = σ.nmiArmed := by simp [pull16]

@[simp] theorem nmiArmed_baseAddr (m : IdxBase) : (baseAddr m σ).2.nmiArmed = σ.nmiArmed := by cases m <;> simp [baseAddr]

@[simp] theorem nmiArmed_idxAddr (i : Idx) : (idxAddr i σ).2.nmiArmed = σ.nmiArmed := by cases i <;> simp [idxAddr]

@[simp] theorem nmiArmed_effAddr (a : Addr) : (effAddr a σ).2.nmiArmed = σ.nmiArmed := by cases a <;> simp [effAddr]

@[simp] theorem nmiArmed_operand8 (src : Src8) : (operand8 src σ).2.nmiArmed = σ.nmiArmed := by cases src <;> simp [operand8]

@[simp] theorem nmiArmed_operand16 (src : Src16) : (operand16 src σ).2.nmiArmed = σ.nmiArmed := by cases src <;> simp [operand16]

/-! ### nmiPending -/

@[simp] theorem nmiPending_push8 (r : Ptr) (v : Byte) : (push8 r v σ).nmiPending = σ.nmiPending := by simp [push8]

@[simp] theorem nmiPending_push16 (r : Ptr) (w : Word) : (push16 r w σ).nmiPending = σ.nmiPending := by simp [push16]

@[simp] theorem nmiPending_pull8 (r : Ptr) : (pull8 r σ).2.nmiPending = σ.nmiPending := by simp [pull8]

@[simp] theorem nmiPending_pull16 (r : Ptr) : (pull16 r σ).2.nmiPending = σ.nmiPending := by simp [pull16]

@[simp] theorem nmiPending_baseAddr (m : IdxBase) : (baseAddr m σ).2.nmiPending = σ.nmiPending := by cases m <;> simp [baseAddr]

@[simp] theorem nmiPending_idxAddr (i : Idx) : (idxAddr i σ).2.nmiPending = σ.nmiPending := by cases i <;> simp [idxAddr]

@[simp] theorem nmiPending_effAddr (a : Addr) : (effAddr a σ).2.nmiPending = σ.nmiPending := by cases a <;> simp [effAddr]

@[simp] theorem nmiPending_operand8 (src : Src8) : (operand8 src σ).2.nmiPending = σ.nmiPending := by cases src <;> simp [operand8]

@[simp] theorem nmiPending_operand16 (src : Src16) : (operand16 src σ).2.nmiPending = σ.nmiPending := by cases src <;> simp [operand16]

/-! ### run -/

@[simp] theorem run_push8 (r : Ptr) (v : Byte) : (push8 r v σ).run = σ.run := by simp [push8]

@[simp] theorem run_push16 (r : Ptr) (w : Word) : (push16 r w σ).run = σ.run := by simp [push16]

@[simp] theorem run_pull8 (r : Ptr) : (pull8 r σ).2.run = σ.run := by simp [pull8]

@[simp] theorem run_pull16 (r : Ptr) : (pull16 r σ).2.run = σ.run := by simp [pull16]

@[simp] theorem run_baseAddr (m : IdxBase) : (baseAddr m σ).2.run = σ.run := by cases m <;> simp [baseAddr]

@[simp] theorem run_idxAddr (i : Idx) : (idxAddr i σ).2.run = σ.run := by cases i <;> simp [idxAddr]

@[simp] theorem run_effAddr (a : Addr) : (effAddr a σ).2.run = σ.run := by cases a <;> simp [effAddr]

@[simp] theorem run_operand8 (src : Src8) : (operand8 src σ).2.run = σ.run := by cases src <;> simp [operand8]

@[simp] theorem run_operand16 (src : Src16) : (operand16 src σ).2.run = σ.run := by cases src <;> simp [operand16]

/-! ### halted -/

@[simp] theorem halted_push8 (r : Ptr) (v : Byte) : (push8 r v σ).halted = σ.halted := by simp [push8]

@[simp] theorem halted_push16 (r : Ptr) (w : Word) : (push16 r w σ).halted = σ.halted := by simp [push16]

@[simp] theorem halted_pull8 (r : Ptr) : (pull8 r σ).2.halted = σ.halted := by simp [pull8]

@[simp] theorem halted_pull16 (r : Ptr) : (pull16 r σ).2.halted = σ.halted := by simp [pull16]

@[simp] theorem halted_baseAddr (m : IdxBase) : (baseAddr m σ).2.halted = σ.halted := by cases m <;> simp [baseAddr]

@[simp] theorem halted_idxAddr (i : Idx) : (idxAddr i σ).2.halted = σ.halted := by cases i <;> simp [idxAddr]

@[simp] theorem halted_effAddr (a : Addr) : (effAddr a σ).2.halted = σ.halted := by cases a <;> simp [effAddr]

@[simp] theorem halted_operand8 (src : Src8) : (operand8 src σ).2.halted = σ.halted := by cases src <;> simp [operand8]

@[simp] theorem halted_operand16 (src : Src16) : (operand16 src σ).2.halted = σ.halted := by cases src <;> simp [operand16]

/-! ### inReset -/

@[simp] theorem inReset_push8 (r : Ptr) (v : Byte) : (push8 r v σ).inReset = σ.inReset := by simp [push8]

@[simp] theorem inReset_push16 (r : Ptr) (w : Word) : (push16 r w σ).inReset = σ.inReset := by simp [push16]

@[simp] theorem inReset_pull8 (r : Ptr) : (pull8 r σ).2.inReset = σ.inReset := by simp [pull8]

@[simp] theorem inReset_pull16 (r : Ptr) : (pull16 r σ).2.inReset = σ.inReset := by simp [pull16]

@[simp] theorem inReset_baseAddr (m : IdxBase) : (baseAddr m σ).2.inReset = σ.inReset := by cases m <;> simp [baseAddr]

@[simp] theorem inReset_idxAddr (i : Idx) : (idxAddr i σ).2.inReset = σ.inReset := by cases i <;> simp [idxAddr]

@[simp] theorem inReset_effAddr (a : Addr) : (effAddr a σ).2.inReset = σ.inReset := by cases a <;> simp [effAddr]

@[simp] theorem inReset_operand8 (src : Src8) : (operand8 src σ).2.inReset = σ.inReset := by cases src <;> simp [operand8]

@[simp] theorem inReset_operand16 (src : Src16) : (operand16 src σ).2.inReset = σ.inReset := by cases src <;> simp [operand16]

/-! ### platform -/

@[simp] theorem platform_push8 (r : Ptr) (v : Byte) : (push8 r v σ).platform = σ.platform := by simp [push8]

@[simp] theorem platform_push16 (r : Ptr) (w : Word) : (push16 r w σ).platform = σ.platform := by simp [push16]

@[simp] theorem platform_pull8 (r : Ptr) : (pull8 r σ).2.platform = σ.platform := by simp [pull8]

@[simp] theorem platform_pull16 (r : Ptr) : (pull16 r σ).2.platform = σ.platform := by simp [pull16]

@[simp] theorem platform_baseAddr (m : IdxBase) : (baseAddr m σ).2.platform = σ.platform := by cases m <;> simp [baseAddr]

@[simp] theorem platform_idxAddr (i : Idx) : (idxAddr i σ).2.platform = σ.platform := by cases i <;> simp [idxAddr]

@[simp] theorem platform_effAddr (a : Addr) : (effAddr a σ).2.platform = σ.platform := by cases a <;> simp [effAddr]

@[simp] theorem platform_operand8 (src : Src8) : (operand8 src σ).2.platform = σ.platform := by cases src <;> simp [operand8]

@[simp] theorem platform_operand16 (src : Src16) : (operand16 src σ).2.platform = σ.platform := by cases src <;> simp [operand16]

/-! ### env -/

@[simp] theorem env_push8 (r : Ptr) (v : Byte) : (push8 r v σ).env = σ.env := by simp [push8]

@[simp] theorem env_push16 (r : Ptr) (w : Word) : (push16 r w σ).env = σ.env := by simp [push16]

@[simp] theorem env_pull8 (r : Ptr) : (pull8 r σ).2.env = σ.env := by simp [pull8]

@[simp] theorem env_pull16 (r : Ptr) : (pull16 r σ).2.env = σ.env := by simp [pull16]

@[simp] theorem env_baseAddr (m : IdxBase) : (baseAddr m σ).2.env = σ.env := by cases m <;> simp [baseAddr]

@[simp] theorem env_idxAddr (i : Idx) : (idxAddr i σ).2.env = σ.env := by cases i <;> simp [idxAddr]

@[simp] theorem env_effAddr (a : Addr) : (effAddr a σ).2.env = σ.env := by cases a <;> simp [effAddr]

@[simp] theorem env_operand8 (src : Src8) : (operand8 src σ).2.env = σ.env := by cases src <;> simp [operand8]

@[simp] theorem env_operand16 (src : Src16) : (operand16 src σ).2.env = σ.env := by cases src <;> simp [operand16]

/-! ### draws -/

@[simp] theorem draws_push8 (r : Ptr) (v : Byte) : (push8 r v σ).draws = σ.draws := by simp [push8]

@[simp] theorem draws_push16 (r : Ptr) (w : Word) : (push16 r w σ).draws = σ.draws := by simp [push16]

@[simp] theorem draws_pull8 (r : Ptr) : (pull8 r σ).2.draws = σ.draws := by simp [pull8]

@[simp] theorem draws_pull16 (r : Ptr) : (pull16 r σ).2.draws = σ.draws := by simp [pull16]

@[simp] theorem draws_baseAddr (m : IdxBase) : (baseAddr m σ).2.draws = σ.draws := by cases m <;> simp [baseAddr]

@[simp] theorem draws_idxAddr (i : Idx) : (idxAddr i σ).2.draws = σ.draws := by cases i <;> simp [idxAddr]

@[simp] theorem draws_effAddr (a : Addr) : (effAddr a σ).2.draws = σ.draws := by cases a <;> simp [effAddr]

@[simp] theorem draws_operand8 (src : Src8) : (operand8 src σ).2.draws = σ.draws := by cases src <;> simp [operand8]

@[simp] theorem draws_operand16 (src : Src16) : (operand16 src σ).2.draws = σ.draws := by cases src <;> simp [operand16]

/-! ### What stays where no cycle is granted inside the step -/

@[simp] theorem cycles_push8 (r : Ptr) (v : Byte) : (push8 r v σ).cycles = none ↔ σ.cycles = none := by
  simp [push8]

@[simp] theorem busGranted_push8 (r : Ptr) (v : Byte) (hc : σ.cycles = none) : (push8 r v σ).busGranted = σ.busGranted := by
  simp [push8, hc]

@[simp] theorem refreshCount_push8 (r : Ptr) (v : Byte) (hc : σ.cycles = none) : (push8 r v σ).refreshCount = σ.refreshCount := by
  simp [push8, hc]

@[simp] theorem dmaIdle_push8 (r : Ptr) (v : Byte) (hc : σ.cycles = none) : (push8 r v σ).dmaIdle = σ.dmaIdle := by
  simp [push8, hc]

@[simp] theorem dmaLow_push8 (r : Ptr) (v : Byte) (hc : σ.cycles = none) : (push8 r v σ).dmaLow = σ.dmaLow := by
  simp [push8, hc]

@[simp] theorem elapsed_push8 (r : Ptr) (v : Byte) (hc : σ.cycles = none) : (push8 r v σ).elapsed = σ.elapsed := by
  simp [push8, hc]

@[simp] theorem devices_push8 (r : Ptr) (v : Byte) (hc : σ.cycles = none) (hp : σ.platform = []) :
    (push8 r v σ).devices = σ.devices := by
  simp [push8, hc, hp]

@[simp] theorem cycles_push16 (r : Ptr) (w : Word) : (push16 r w σ).cycles = none ↔ σ.cycles = none := by
  simp [push16]

@[simp] theorem busGranted_push16 (r : Ptr) (w : Word) (hc : σ.cycles = none) : (push16 r w σ).busGranted = σ.busGranted := by
  simp [push16, hc]

@[simp] theorem refreshCount_push16 (r : Ptr) (w : Word) (hc : σ.cycles = none) : (push16 r w σ).refreshCount = σ.refreshCount := by
  simp [push16, hc]

@[simp] theorem dmaIdle_push16 (r : Ptr) (w : Word) (hc : σ.cycles = none) : (push16 r w σ).dmaIdle = σ.dmaIdle := by
  simp [push16, hc]

@[simp] theorem dmaLow_push16 (r : Ptr) (w : Word) (hc : σ.cycles = none) : (push16 r w σ).dmaLow = σ.dmaLow := by
  simp [push16, hc]

@[simp] theorem elapsed_push16 (r : Ptr) (w : Word) (hc : σ.cycles = none) : (push16 r w σ).elapsed = σ.elapsed := by
  simp [push16, hc]

@[simp] theorem devices_push16 (r : Ptr) (w : Word) (hc : σ.cycles = none) (hp : σ.platform = []) :
    (push16 r w σ).devices = σ.devices := by
  simp [push16, hc, hp]

@[simp] theorem cycles_pull8 (r : Ptr) : (pull8 r σ).2.cycles = none ↔ σ.cycles = none := by
  simp [pull8]

@[simp] theorem busGranted_pull8 (r : Ptr) (hc : σ.cycles = none) : (pull8 r σ).2.busGranted = σ.busGranted := by
  simp [pull8, hc]

@[simp] theorem refreshCount_pull8 (r : Ptr) (hc : σ.cycles = none) : (pull8 r σ).2.refreshCount = σ.refreshCount := by
  simp [pull8, hc]

@[simp] theorem dmaIdle_pull8 (r : Ptr) (hc : σ.cycles = none) : (pull8 r σ).2.dmaIdle = σ.dmaIdle := by
  simp [pull8, hc]

@[simp] theorem dmaLow_pull8 (r : Ptr) (hc : σ.cycles = none) : (pull8 r σ).2.dmaLow = σ.dmaLow := by
  simp [pull8, hc]

@[simp] theorem elapsed_pull8 (r : Ptr) (hc : σ.cycles = none) : (pull8 r σ).2.elapsed = σ.elapsed := by
  simp [pull8, hc]

@[simp] theorem devices_pull8 (r : Ptr) (hc : σ.cycles = none) (hp : σ.platform = []) :
    (pull8 r σ).2.devices = σ.devices := by
  simp [pull8, hc, hp]

@[simp] theorem mem_pull8 (r : Ptr) (hc : σ.cycles = none) : (pull8 r σ).2.mem = σ.mem := by
  simp [pull8, hc]

@[simp] theorem peek_pull8 (r : Ptr) (k : Word) (hc : σ.cycles = none) : peek k (pull8 r σ).2 = peek k σ :=
  peek_congr (mem_pull8 σ r hc) k

@[simp] theorem cycles_pull16 (r : Ptr) : (pull16 r σ).2.cycles = none ↔ σ.cycles = none := by
  simp [pull16]

@[simp] theorem busGranted_pull16 (r : Ptr) (hc : σ.cycles = none) : (pull16 r σ).2.busGranted = σ.busGranted := by
  simp [pull16, hc]

@[simp] theorem refreshCount_pull16 (r : Ptr) (hc : σ.cycles = none) : (pull16 r σ).2.refreshCount = σ.refreshCount := by
  simp [pull16, hc]

@[simp] theorem dmaIdle_pull16 (r : Ptr) (hc : σ.cycles = none) : (pull16 r σ).2.dmaIdle = σ.dmaIdle := by
  simp [pull16, hc]

@[simp] theorem dmaLow_pull16 (r : Ptr) (hc : σ.cycles = none) : (pull16 r σ).2.dmaLow = σ.dmaLow := by
  simp [pull16, hc]

@[simp] theorem elapsed_pull16 (r : Ptr) (hc : σ.cycles = none) : (pull16 r σ).2.elapsed = σ.elapsed := by
  simp [pull16, hc]

@[simp] theorem devices_pull16 (r : Ptr) (hc : σ.cycles = none) (hp : σ.platform = []) :
    (pull16 r σ).2.devices = σ.devices := by
  simp [pull16, hc, hp]

@[simp] theorem mem_pull16 (r : Ptr) (hc : σ.cycles = none) : (pull16 r σ).2.mem = σ.mem := by
  simp [pull16, hc]

@[simp] theorem peek_pull16 (r : Ptr) (k : Word) (hc : σ.cycles = none) : peek k (pull16 r σ).2 = peek k σ :=
  peek_congr (mem_pull16 σ r hc) k

@[simp] theorem cycles_baseAddr (m : IdxBase) : (baseAddr m σ).2.cycles = σ.cycles := by
  cases m <;> simp [baseAddr]

@[simp] theorem busGranted_baseAddr (m : IdxBase) : (baseAddr m σ).2.busGranted = σ.busGranted := by
  cases m <;> simp [baseAddr]

@[simp] theorem refreshCount_baseAddr (m : IdxBase) : (baseAddr m σ).2.refreshCount = σ.refreshCount := by
  cases m <;> simp [baseAddr]

@[simp] theorem dmaIdle_baseAddr (m : IdxBase) : (baseAddr m σ).2.dmaIdle = σ.dmaIdle := by
  cases m <;> simp [baseAddr]

@[simp] theorem dmaLow_baseAddr (m : IdxBase) : (baseAddr m σ).2.dmaLow = σ.dmaLow := by
  cases m <;> simp [baseAddr]

@[simp] theorem elapsed_baseAddr (m : IdxBase) : (baseAddr m σ).2.elapsed = σ.elapsed := by
  cases m <;> simp [baseAddr]

@[simp] theorem devices_baseAddr (m : IdxBase) :
    (baseAddr m σ).2.devices = σ.devices := by
  cases m <;> simp [baseAddr]

@[simp] theorem mem_baseAddr (m : IdxBase) : (baseAddr m σ).2.mem = σ.mem := by
  cases m <;> simp [baseAddr]

@[simp] theorem peek_baseAddr (m : IdxBase) (k : Word) : peek k (baseAddr m σ).2 = peek k σ :=
  peek_congr (mem_baseAddr σ m) k

@[simp] theorem cycles_idxAddr (i : Idx) : (idxAddr i σ).2.cycles = none ↔ σ.cycles = none := by
  cases i <;> simp [idxAddr]

@[simp] theorem busGranted_idxAddr (i : Idx) (hc : σ.cycles = none) : (idxAddr i σ).2.busGranted = σ.busGranted := by
  cases i <;> simp [idxAddr, hc]

@[simp] theorem refreshCount_idxAddr (i : Idx) (hc : σ.cycles = none) : (idxAddr i σ).2.refreshCount = σ.refreshCount := by
  cases i <;> simp [idxAddr, hc]

@[simp] theorem dmaIdle_idxAddr (i : Idx) (hc : σ.cycles = none) : (idxAddr i σ).2.dmaIdle = σ.dmaIdle := by
  cases i <;> simp [idxAddr, hc]

@[simp] theorem dmaLow_idxAddr (i : Idx) (hc : σ.cycles = none) : (idxAddr i σ).2.dmaLow = σ.dmaLow := by
  cases i <;> simp [idxAddr, hc]

@[simp] theorem elapsed_idxAddr (i : Idx) (hc : σ.cycles = none) : (idxAddr i σ).2.elapsed = σ.elapsed := by
  cases i <;> simp [idxAddr, hc]

@[simp] theorem devices_idxAddr (i : Idx) (hc : σ.cycles = none) (hp : σ.platform = []) :
    (idxAddr i σ).2.devices = σ.devices := by
  cases i <;> simp [idxAddr, hc, hp]

@[simp] theorem mem_idxAddr (i : Idx) (hc : σ.cycles = none) : (idxAddr i σ).2.mem = σ.mem := by
  cases i <;> simp [idxAddr, hc]

@[simp] theorem peek_idxAddr (i : Idx) (k : Word) (hc : σ.cycles = none) : peek k (idxAddr i σ).2 = peek k σ :=
  peek_congr (mem_idxAddr σ i hc) k

@[simp] theorem cycles_effAddr (a : Addr) : (effAddr a σ).2.cycles = none ↔ σ.cycles = none := by
  cases a <;> simp [effAddr]

@[simp] theorem busGranted_effAddr (a : Addr) (hc : σ.cycles = none) : (effAddr a σ).2.busGranted = σ.busGranted := by
  cases a <;> simp [effAddr, hc]

@[simp] theorem refreshCount_effAddr (a : Addr) (hc : σ.cycles = none) : (effAddr a σ).2.refreshCount = σ.refreshCount := by
  cases a <;> simp [effAddr, hc]

@[simp] theorem dmaIdle_effAddr (a : Addr) (hc : σ.cycles = none) : (effAddr a σ).2.dmaIdle = σ.dmaIdle := by
  cases a <;> simp [effAddr, hc]

@[simp] theorem dmaLow_effAddr (a : Addr) (hc : σ.cycles = none) : (effAddr a σ).2.dmaLow = σ.dmaLow := by
  cases a <;> simp [effAddr, hc]

@[simp] theorem elapsed_effAddr (a : Addr) (hc : σ.cycles = none) : (effAddr a σ).2.elapsed = σ.elapsed := by
  cases a <;> simp [effAddr, hc]

@[simp] theorem devices_effAddr (a : Addr) (hc : σ.cycles = none) (hp : σ.platform = []) :
    (effAddr a σ).2.devices = σ.devices := by
  cases a <;> simp [effAddr, hc, hp]

@[simp] theorem mem_effAddr (a : Addr) (hc : σ.cycles = none) : (effAddr a σ).2.mem = σ.mem := by
  cases a <;> simp [effAddr, hc]

@[simp] theorem peek_effAddr (a : Addr) (k : Word) (hc : σ.cycles = none) : peek k (effAddr a σ).2 = peek k σ :=
  peek_congr (mem_effAddr σ a hc) k

@[simp] theorem cycles_operand8 (src : Src8) : (operand8 src σ).2.cycles = none ↔ σ.cycles = none := by
  cases src <;> simp [operand8]

@[simp] theorem busGranted_operand8 (src : Src8) (hc : σ.cycles = none) : (operand8 src σ).2.busGranted = σ.busGranted := by
  cases src <;> simp [operand8, hc]

@[simp] theorem refreshCount_operand8 (src : Src8) (hc : σ.cycles = none) : (operand8 src σ).2.refreshCount = σ.refreshCount := by
  cases src <;> simp [operand8, hc]

@[simp] theorem dmaIdle_operand8 (src : Src8) (hc : σ.cycles = none) : (operand8 src σ).2.dmaIdle = σ.dmaIdle := by
  cases src <;> simp [operand8, hc]

@[simp] theorem dmaLow_operand8 (src : Src8) (hc : σ.cycles = none) : (operand8 src σ).2.dmaLow = σ.dmaLow := by
  cases src <;> simp [operand8, hc]

@[simp] theorem elapsed_operand8 (src : Src8) (hc : σ.cycles = none) : (operand8 src σ).2.elapsed = σ.elapsed := by
  cases src <;> simp [operand8, hc]

@[simp] theorem devices_operand8 (src : Src8) (hc : σ.cycles = none) (hp : σ.platform = []) :
    (operand8 src σ).2.devices = σ.devices := by
  cases src <;> simp [operand8, hc, hp]

@[simp] theorem mem_operand8 (src : Src8) (hc : σ.cycles = none) : (operand8 src σ).2.mem = σ.mem := by
  cases src <;> simp [operand8, hc]

@[simp] theorem peek_operand8 (src : Src8) (k : Word) (hc : σ.cycles = none) : peek k (operand8 src σ).2 = peek k σ :=
  peek_congr (mem_operand8 σ src hc) k

@[simp] theorem cycles_operand16 (src : Src16) : (operand16 src σ).2.cycles = none ↔ σ.cycles = none := by
  cases src <;> simp [operand16]

@[simp] theorem busGranted_operand16 (src : Src16) (hc : σ.cycles = none) : (operand16 src σ).2.busGranted = σ.busGranted := by
  cases src <;> simp [operand16, hc]

@[simp] theorem refreshCount_operand16 (src : Src16) (hc : σ.cycles = none) : (operand16 src σ).2.refreshCount = σ.refreshCount := by
  cases src <;> simp [operand16, hc]

@[simp] theorem dmaIdle_operand16 (src : Src16) (hc : σ.cycles = none) : (operand16 src σ).2.dmaIdle = σ.dmaIdle := by
  cases src <;> simp [operand16, hc]

@[simp] theorem dmaLow_operand16 (src : Src16) (hc : σ.cycles = none) : (operand16 src σ).2.dmaLow = σ.dmaLow := by
  cases src <;> simp [operand16, hc]

@[simp] theorem elapsed_operand16 (src : Src16) (hc : σ.cycles = none) : (operand16 src σ).2.elapsed = σ.elapsed := by
  cases src <;> simp [operand16, hc]

@[simp] theorem devices_operand16 (src : Src16) (hc : σ.cycles = none) (hp : σ.platform = []) :
    (operand16 src σ).2.devices = σ.devices := by
  cases src <;> simp [operand16, hc, hp]

@[simp] theorem mem_operand16 (src : Src16) (hc : σ.cycles = none) : (operand16 src σ).2.mem = σ.mem := by
  cases src <;> simp [operand16, hc]

@[simp] theorem peek_operand16 (src : Src16) (k : Word) (hc : σ.cycles = none) : peek k (operand16 src σ).2 = peek k σ :=
  peek_congr (mem_operand16 σ src hc) k

end Sys2Proof.Machine
end

