-- ==== Sys2Proof/Laws/Bus.lean ====
section
/-! SUPPORT. Every operation that makes accesses does to memory, to the devices and to the log what its accesses do one after the other, and no more (R54, R61); a byte that is not plain memory never changes, and memory stays canonical. -/

namespace Sys2Proof.Machine

/-! ## Accesses on the bus side -/

/-- The accesses take effect one after the other. -/
def performs (cs : List BusCycle) (b : BusSide) : BusSide := cs.foldl (fun b c => perform c b) b

/-- The two agree on what accesses act on. -/
def SameAccesses (b b' : BusSide) : Prop :=
  b'.platform = b.platform ∧ b'.mem = b.mem ∧ b'.devices = b.devices ∧ b'.bus = b.bus

/-- Another master's write. -/
def IsOtherWrite (c : BusCycle) : Prop := c.other = true ∧ c.write = true ∧ c.ack = false

theorem SameAccesses.refl (b : BusSide) : SameAccesses b b := ⟨rfl, rfl, rfl, rfl⟩

theorem SameAccesses.trans {b b' b'' : BusSide} (h : SameAccesses b b') (k : SameAccesses b' b'') : SameAccesses b b'' :=
  ⟨k.1.trans h.1, k.2.1.trans h.2.1, k.2.2.1.trans h.2.2.1, k.2.2.2.trans h.2.2.2⟩

theorem SameAccesses.perform {b b' : BusSide} (h : SameAccesses b b') (c : BusCycle) :
    SameAccesses (perform c b) (perform c b') := by
  obtain ⟨hp, hm, hd, hb⟩ := h
  simp only [SameAccesses, Machine.perform, hp, hm, hd, hb, and_self]

theorem SameAccesses.performs {b b' : BusSide} (h : SameAccesses b b') (cs : List BusCycle) :
    SameAccesses (performs cs b) (performs cs b') := by
  induction cs generalizing b b' with
  | nil => exact h
  | cons c cs ih => exact ih (h.perform c)

theorem performs_append (xs ys : List BusCycle) (b : BusSide) : performs (xs ++ ys) b = performs ys (performs xs b) :=
  List.foldl_append

theorem performs_platform (cs : List BusCycle) (b : BusSide) : (performs cs b).platform = b.platform := by
  induction cs generalizing b with
  | nil => rfl
  | cons c cs ih => exact ih (perform c b)

theorem performs_bus (cs : List BusCycle) (b : BusSide) : (performs cs b).bus = b.bus ++ cs := by
  induction cs generalizing b with
  | nil => simp [performs]
  | cons c cs ih => exact (ih (perform c b)).trans (by simp [perform])

/-- What one access does to memory: the write of a byte of plain memory, or nothing. -/
theorem perform_mem (c : BusCycle) (b : BusSide) :
    (perform c b).mem = if c.write = true ∧ kindAt b.platform c.addr = .ram then b.mem.write c.addr.toNat c.data else b.mem := by
  simp only [perform]
  cases kindAt b.platform c.addr <;> simp

theorem performs_wf (cs : List BusCycle) {b : BusSide} (h : b.mem.wf = true) : (performs cs b).mem.wf = true := by
  induction cs generalizing b with
  | nil => exact h
  | cons c cs ih =>
    refine ih (b := perform c b) ?_
    rw [perform_mem]
    split
    · exact Memory.wf_write c.addr.isLt _ h
    · exact h

/-- A byte that the accesses change is one of plain memory, and a write to it is among them. -/
theorem performs_written (cs : List BusCycle) (b : BusSide) (a : Word)
    (h : (performs cs b).mem.read a.toNat ≠ b.mem.read a.toNat) :
    kindAt b.platform a = .ram ∧ ∃ c ∈ cs, c.write = true ∧ c.addr = a := by
  induction cs generalizing b with
  | nil => exact absurd rfl h
  | cons c cs ih =>
    by_cases e : (performs cs (perform c b)).mem.read a.toNat = (perform c b).mem.read a.toNat
    · have h' : (perform c b).mem.read a.toNat ≠ b.mem.read a.toNat := fun k => h (e.trans k)
      rw [perform_mem] at h'
      split at h'
      · rename_i hw
        by_cases ha : c.addr = a
        · exact ⟨ha ▸ hw.2, c, List.mem_cons_self .., hw.1, ha⟩
        · exact absurd (Memory.read_write_other (fun k => ha (BitVec.eq_of_toNat_eq k.symm)) _ _) h'
      · exact absurd rfl h'
    · obtain ⟨hk, c', hc', hw⟩ := ih (perform c b) e
      exact ⟨hk, c', List.mem_cons_of_mem _ hc', hw⟩

/-- Reads leave memory alone. -/
theorem performs_reads (cs : List BusCycle) (b : BusSide) (h : ∀ c ∈ cs, c.write = false) : (performs cs b).mem = b.mem := by
  induction cs generalizing b with
  | nil => rfl
  | cons c cs ih =>
    refine (ih (perform c b) fun c' hc' => h c' (List.mem_cons_of_mem _ hc')).trans ?_
    rw [perform_mem, h c (List.mem_cons_self ..)]; simp

/-! ## What other masters add -/

/-- `b'` follows `b` by writes of other masters alone; by none where no cycle is granted. -/
def OthersOnly (b b' : BusSide) : Prop :=
  ∃ cs, SameAccesses (performs cs b) b' ∧ (∀ c ∈ cs, IsOtherWrite c) ∧ (b.cycles = none → cs = [] ∧ b'.cycles = none)

theorem othersOnly_otherWrite (w : Option (Word × Byte)) (b : BusSide) :
    ∃ cs, SameAccesses (performs cs b) (otherWrite w b) ∧ ∀ c ∈ cs, IsOtherWrite c := by
  cases w with
  | none => exact ⟨[], SameAccesses.refl b, by simp⟩
  | some w => exact ⟨[_], SameAccesses.refl _, by simp [IsOtherWrite]⟩

theorem sameAccesses_countPin (low : Bool) (b : BusSide) : SameAccesses b (countPin low b) := by
  cases low <;> exact SameAccesses.refl b

theorem sameAccesses_takeBack (low : Bool) (b : BusSide) : SameAccesses b (takeBack low b) :=
  sameAccesses_countPin low _

theorem sameAccesses_leaveGrant (low : Bool) (b : BusSide) : SameAccesses b (leaveGrant low b) := by
  rw [leaveGrant]; split
  · exact sameAccesses_countPin low _
  · exact SameAccesses.refl b

/-- A cycle that is not the MPU's carries another master's write or nothing. -/
theorem othersOnly_passCycle (levels : Option (Bool × Bool)) (w : Option (Word × Byte)) (b : BusSide) :
    ∃ cs, SameAccesses (performs cs b) (passCycle levels w b) ∧ ∀ c ∈ cs, IsOtherWrite c :=
  othersOnly_otherWrite w b

theorem othersOnly_grantOne (w : Option (Word × Byte)) (b : BusSide) :
    ∃ cs, SameAccesses (performs cs b) (grantOne w b) ∧ ∀ c ∈ cs, IsOtherWrite c := by
  obtain ⟨cs, hs, hw⟩ := othersOnly_passCycle (some (true, true)) (if b.busGranted then w else none) b
  exact ⟨cs, hs.trans (sameAccesses_countPin true _), hw⟩

theorem othersOnly_between (cs : List CycleSample) (b : BusSide) :
    ∃ ws, SameAccesses (performs ws b) (between cs b) ∧ ∀ c ∈ ws, IsOtherWrite c := by
  have back : ∀ (low : Bool) {b b' : BusSide}, SameAccesses b b' → SameAccesses b (takeBack low (leaveGrant low b')) :=
    fun low _ b' h => (h.trans (sameAccesses_leaveGrant low b')).trans (sameAccesses_takeBack low _)
  induction cs generalizing b with
  | nil => exact ⟨[], back _ ⟨rfl, rfl, rfl, rfl⟩, by simp⟩
  | cons c cs ih =>
    rw [between]
    split
    · obtain ⟨xs, hx, hxw⟩ := othersOnly_grantOne c.write b
      obtain ⟨ys, hy, hyw⟩ := ih (grantOne c.write b)
      refine ⟨xs ++ ys, ?_, fun c hc => (List.mem_append.1 hc).elim (hxw c) (hyw c)⟩
      rw [performs_append]; exact (hx.performs ys).trans hy
    · exact ⟨[], back _ ⟨rfl, rfl, rfl, rfl⟩, by simp⟩

theorem othersOnly_look (b : BusSide) : OthersOnly b (look b) := by
  rw [look]
  split
  · rename_i hc; exact ⟨[], SameAccesses.refl b, by simp, fun _ => ⟨rfl, hc⟩⟩
  · rename_i cs hc
    split
    · exact ⟨[], SameAccesses.refl b, by simp, fun h => ⟨rfl, h⟩⟩
    · obtain ⟨ws, hs, hw⟩ := othersOnly_between cs b
      exact ⟨ws, hs, hw, fun h => by rw [h] at hc; cases hc⟩

theorem othersOnly_innerCycles (n : Nat) (b : BusSide) : OthersOnly b (innerCycles n b) := by
  induction n generalizing b with
  | zero => exact ⟨[], SameAccesses.refl b, by simp, fun h => ⟨rfl, h⟩⟩
  | succ n ih =>
    obtain ⟨xs, hx, hxw, hxn⟩ := othersOnly_look b
    obtain ⟨ys, hy, hyw, hyn⟩ := ih { look b with lines := (look b).lines ++ [.vma] }
    refine ⟨xs ++ ys, ?_, fun c hc => (List.mem_append.1 hc).elim (hxw c) (hyw c), fun h => ?_⟩
    · have hx' : SameAccesses (performs xs b) { look b with lines := (look b).lines ++ [.vma] } := hx
      rw [performs_append]; exact (hx'.performs ys).trans hy
    · obtain ⟨e, k⟩ := hxn h
      obtain ⟨e', k'⟩ := hyn k
      exact ⟨by rw [e, e']; rfl, k'⟩

/-! ## Sequences of accesses on a state -/

/-- `τ` follows `σ` by accesses: the MPU's own, of each of which `P` holds, and writes of other masters, of which there are none where no cycle is granted inside the step. -/
def Makes (P : BusCycle → Prop) (σ τ : State) : Prop :=
  ∃ cs, SameAccesses (performs cs (busSide σ)) (busSide τ) ∧ (∀ c ∈ cs, IsOtherWrite c ∨ (c.other = false ∧ P c)) ∧
    (σ.cycles = none → τ.cycles = none ∧ ∀ c ∈ cs, c.other = false)

/-- Any access but an acknowledge cycle. -/
def NoAck (c : BusCycle) : Prop := c.ack = false

/-- A read that is no acknowledge cycle. -/
def IsRead (c : BusCycle) : Prop := c.ack = false ∧ c.write = false

theorem Makes.mono {P Q : BusCycle → Prop} (h : ∀ c, P c → Q c) {σ τ : State} : Makes P σ τ → Makes Q σ τ
  | ⟨cs, hs, hp, hn⟩ => ⟨cs, hs, fun c hc => (hp c hc).imp_right fun k => ⟨k.1, h c k.2⟩, hn⟩

theorem Makes.trans {P : BusCycle → Prop} {σ τ υ : State} : Makes P σ τ → Makes P τ υ → Makes P σ υ
  | ⟨xs, hx, hxp, hxn⟩, ⟨ys, hy, hyp, hyn⟩ => by
    refine ⟨xs ++ ys, ?_, fun c hc => (List.mem_append.1 hc).elim (hxp c) (hyp c), fun h => ?_⟩
    · rw [performs_append]; exact (hx.performs ys).trans hy
    · obtain ⟨k, hk⟩ := hxn h
      obtain ⟨k', hk'⟩ := hyn k
      exact ⟨k', fun c hc => (List.mem_append.1 hc).elim (hk c) (hk' c)⟩

/-- A change of registers alone makes no access. -/
theorem makes_of_eq {P : BusCycle → Prop} {σ τ : State} (h : busSide τ = busSide σ) : Makes P σ τ :=
  ⟨[], by rw [h]; exact SameAccesses.refl _, by simp, fun hc => ⟨by
    have : (busSide τ).cycles = (busSide σ).cycles := by rw [h]
    exact this.trans hc, by simp⟩⟩

theorem Makes.refl {P : BusCycle → Prop} (σ : State) : Makes P σ σ := makes_of_eq rfl

/-- A change of registers after some accesses. -/
theorem Makes.andThen {P : BusCycle → Prop} {σ τ υ : State} (h : Makes P σ τ) (k : busSide υ = busSide τ) : Makes P σ υ :=
  h.trans (makes_of_eq k)

/-- An operation on the bus side that lets other masters in makes no access of the MPU's. -/
theorem makes_of_othersOnly {P : BusCycle → Prop} {f : BusSide → BusSide} {σ : State} (h : OthersOnly (busSide σ) (f (busSide σ))) :
    Makes P σ (onBus f σ) := by
  obtain ⟨cs, hs, hw, hn⟩ := h
  refine ⟨cs, ⟨(performs_platform cs (busSide σ)).symm, hs.2.1, hs.2.2.1, hs.2.2.2⟩, fun c hc => .inl (hw c hc), fun hc => ?_⟩
  obtain ⟨e, k⟩ := hn hc
  exact ⟨k, by simp [e]⟩

theorem makes_nextCycle {P : BusCycle → Prop} (σ : State) : Makes P σ (nextCycle σ) := makes_of_othersOnly (othersOnly_look _)

theorem makes_busCycle {P : BusCycle → Prop} (c : BusCycle) (ho : c.other = false) (h : P c) (σ : State) :
    Makes P σ (busCycle c σ) :=
  ⟨[c], ⟨rfl, rfl, rfl, rfl⟩, by simpa using .inr ⟨ho, h⟩, fun hc => ⟨by simpa using hc, by simpa using ho⟩⟩

theorem makes_vmaCycles {P : BusCycle → Prop} (n : Nat) (σ : State) : Makes P σ (vmaCycles n σ) := by
  refine makes_of_othersOnly ?_
  split
  · exact ⟨[], ⟨rfl, rfl, rfl, rfl⟩, by simp, fun h => ⟨rfl, h⟩⟩
  · exact othersOnly_innerCycles n (busSide σ)

theorem makes_tick {P : BusCycle → Prop} (n : Nat) (σ : State) : Makes P σ (tick n σ) :=
  ⟨[], by simp [SameAccesses, busSide, performs], by simp, fun hc => ⟨by simpa using hc, by simp⟩⟩

theorem makes_settle {P : BusCycle → Prop} (n : Nat) (σ : State) : Makes P σ (settle n σ) := makes_vmaCycles _ σ

theorem makes_completeCycles {P : BusCycle → Prop} (n : Nat) (σ : State) : Makes P σ (completeCycles n σ) :=
  (makes_tick n σ).trans (makes_settle n _)

/-! ## What follows from them -/

/-- `τ` follows `σ` by accesses: the MPU's own, of each of which `P` holds, and writes of other masters. -/
def Follows (P : BusCycle → Prop) (σ τ : State) : Prop :=
  ∃ cs, SameAccesses (performs cs (busSide σ)) (busSide τ) ∧ ∀ c ∈ cs, IsOtherWrite c ∨ (c.other = false ∧ P c)

theorem Makes.follows {P : BusCycle → Prop} {σ τ : State} : Makes P σ τ → Follows P σ τ
  | ⟨cs, hs, hp, _⟩ => ⟨cs, hs, hp⟩

theorem Follows.trans {P : BusCycle → Prop} {σ τ υ : State} : Follows P σ τ → Follows P τ υ → Follows P σ υ
  | ⟨xs, hx, hxp⟩, ⟨ys, hy, hyp⟩ => by
    refine ⟨xs ++ ys, ?_, fun c hc => (List.mem_append.1 hc).elim (hxp c) (hyp c)⟩
    rw [performs_append]; exact (hx.performs ys).trans hy

theorem Follows.platform {P : BusCycle → Prop} {σ τ : State} : Follows P σ τ → τ.platform = σ.platform
  | ⟨cs, hs, _⟩ => hs.1.trans (performs_platform cs _)

theorem Follows.bus {P : BusCycle → Prop} {σ τ : State} :
    Follows P σ τ → ∃ cs, τ.bus = σ.bus ++ cs ∧ ∀ c ∈ cs, IsOtherWrite c ∨ (c.other = false ∧ P c)
  | ⟨cs, hs, hp⟩ => ⟨cs, hs.2.2.2.trans (performs_bus cs _), hp⟩

theorem Follows.wf {P : BusCycle → Prop} {σ τ : State} (m : Follows P σ τ) (h : σ.mem.wf = true) : τ.mem.wf = true := by
  obtain ⟨cs, hs, _⟩ := m
  have e : τ.mem = (performs cs (busSide σ)).mem := hs.2.1
  rw [e]; exact performs_wf cs (b := busSide σ) h

/-- A byte that changes is one of plain memory. -/
theorem Follows.outside_ram {P : BusCycle → Prop} {σ τ : State} (m : Follows P σ τ) (a : Word)
    (h : kindAt σ.platform a ≠ .ram) : peek a τ = peek a σ := by
  obtain ⟨cs, hs, _⟩ := m
  have e : τ.mem = (performs cs (busSide σ)).mem := hs.2.1
  by_contra k
  rw [peek, e] at k
  exact h (performs_written cs (busSide σ) a k).1

/-- `replay` is `performs` on a state. -/
theorem busSide_replay (cs : List BusCycle) (σ : State) : busSide (replay cs σ) = performs cs (busSide σ) := by
  induction cs generalizing σ with
  | nil => rfl
  | cons c cs ih => exact ih (onBus (perform c) σ)

/-- Where the MPU only reads and no cycle is granted, no byte changes. -/
theorem Makes.leavesMemory {σ τ : State} (m : Makes IsRead σ τ) : LeavesMemory σ τ := by
  obtain ⟨cs, hs, hp, hn⟩ := m
  intro hc a
  have : τ.mem = σ.mem := hs.2.1.trans (performs_reads cs _ fun c hcs => by
    rcases hp c hcs with k | k
    · have := k.1
      rw [(hn hc).2 c hcs] at this; cases this
    · exact k.2.2)
  exact peek_congr this a

/-! ## The operations -/

theorem IsRead.noAck {c : BusCycle} (h : IsRead c) : NoAck c := h.1

theorem makes_readByte (a : Word) (σ : State) : Makes IsRead σ (readByte a σ).2 :=
  (makes_nextCycle σ).trans (makes_busCycle _ rfl ⟨rfl, rfl⟩ _)

theorem makes_readWord (a : Word) (σ : State) : Makes IsRead σ (readWord a σ).2 :=
  (makes_readByte a σ).trans (makes_readByte (a + 1) _)

theorem makes_writeByte (a : Word) (v : Byte) (σ : State) : Makes NoAck σ (writeByte a v σ) :=
  (makes_nextCycle σ).trans (makes_busCycle (P := NoAck) { write := true, ack := false, addr := a, data := v } rfl rfl _)

theorem makes_writeWord (a : Word) (v : Word) (σ : State) : Makes NoAck σ (writeWord a v σ) :=
  (makes_writeByte a (hi v) σ).trans (makes_writeByte (a + 1) (lo v) _)

theorem makes_push8 (r : Ptr) (v : Byte) (σ : State) : Makes NoAck σ (push8 r v σ) :=
  (makes_of_eq (by simp)).trans (makes_writeByte _ v (setPtr r (ptr r σ - 1) σ))

theorem makes_push16 (r : Ptr) (w : Word) (σ : State) : Makes NoAck σ (push16 r w σ) :=
  (makes_push8 r (lo w) σ).trans (makes_push8 r (hi w) _)

theorem makes_pull8 (r : Ptr) (σ : State) : Makes IsRead σ (pull8 r σ).2 :=
  (makes_readByte (ptr r σ) σ).andThen (by simp [pull8])

theorem makes_pull16 (r : Ptr) (σ : State) : Makes IsRead σ (pull16 r σ).2 :=
  (makes_pull8 r σ).trans (makes_pull8 r _)

theorem makes_pullInto8 (r : Ptr) (f : Byte → State → State) (hf : ∀ v υ, busSide (f v υ) = busSide υ) (σ : State) :
    Makes IsRead σ (pullInto8 r f σ) :=
  (makes_pull8 r σ).andThen (hf _ _)

theorem makes_pullInto16 (r : Ptr) (f : Word → State → State) (hf : ∀ v υ, busSide (f v υ) = busSide υ) (σ : State) :
    Makes IsRead σ (pullInto16 r f σ) :=
  (makes_pull16 r σ).andThen (hf _ _)

theorem makes_doIf {P : BusCycle → Prop} (c : Bool) {f : State → State} (h : ∀ σ, Makes P σ (f σ)) (σ : State) :
    Makes P σ (doIf c f σ) := by
  cases c
  · exact Makes.refl σ
  · exact h σ

theorem makes_pushRegs (k : Stk) (mask : Byte) (σ : State) : Makes NoAck σ (pushRegs k mask σ) := by
  simp only [pushRegs]
  refine Makes.trans ?_ (makes_doIf _ (fun _ => makes_push8 _ _ _) _)
  refine Makes.trans ?_ (makes_doIf _ (fun _ => makes_push8 _ _ _) _)
  refine Makes.trans ?_ (makes_doIf _ (fun _ => makes_push8 _ _ _) _)
  refine Makes.trans ?_ (makes_doIf _ (fun _ => makes_push8 _ _ _) _)
  refine Makes.trans ?_ (makes_doIf _ (fun _ => makes_push16 _ _ _) _)
  refine Makes.trans ?_ (makes_doIf _ (fun _ => makes_push16 _ _ _) _)
  refine Makes.trans ?_ (makes_doIf _ (fun _ => makes_push16 _ _ _) _)
  exact makes_doIf _ (fun _ => makes_push16 _ _ _) _

theorem makes_pushEntireState (σ : State) : Makes NoAck σ (pushEntireState σ) :=
  makes_pushRegs .s 0xFF σ

theorem makes_stackState (e : Exc) (σ : State) : Makes NoAck σ (stackState e σ) := by
  have entire : ∀ cc : CC, Makes NoAck σ (pushEntireState (setCc cc σ)) := fun cc =>
    (makes_of_eq (σ := σ) (τ := setCc cc σ) rfl).trans (makes_pushEntireState _)
  cases e with
  | res => exact Makes.refl σ
  | firq =>
    refine (makes_of_eq (σ := σ) (τ := setCc { σ.cc with e := false } σ) rfl).trans ?_
    exact (makes_push16 _ _ _).trans (makes_push8 _ _ _)
  | nmi => exact entire _
  | swi => exact entire _
  | irq => exact entire _
  | swi2 => exact entire _
  | swi3 => exact entire _

theorem makes_pullRegs (k : Stk) (mask : Byte) (σ : State) : Makes IsRead σ (pullRegs k mask σ) := by
  simp only [pullRegs]
  refine Makes.trans ?_ (makes_doIf _ (makes_pullInto16 _ _ (by simp)) _)
  refine Makes.trans ?_ (makes_doIf _ (makes_pullInto16 _ _ (by simp)) _)
  refine Makes.trans ?_ (makes_doIf _ (makes_pullInto16 _ _ (by simp)) _)
  refine Makes.trans ?_ (makes_doIf _ (makes_pullInto16 _ _ (by simp)) _)
  refine Makes.trans ?_ (makes_doIf _ (makes_pullInto8 _ _ (by simp)) _)
  refine Makes.trans ?_ (makes_doIf _ (makes_pullInto8 _ _ (by simp)) _)
  refine Makes.trans ?_ (makes_doIf _ (makes_pullInto8 _ _ (by simp)) _)
  exact makes_doIf _ (makes_pullInto8 _ _ (by simp)) _

theorem makes_returnFromInterrupt (σ : State) : Makes IsRead σ (returnFromInterrupt σ) := by
  simp only [returnFromInterrupt]
  refine Makes.trans ?_ (makes_pullInto16 _ _ (by simp) _)
  refine Makes.trans ?_ (makes_doIf _ (fun υ => ?_) _)
  · exact makes_pullInto8 _ _ (by simp) _
  · refine Makes.trans ?_ (makes_pullInto16 _ _ (by simp) _)
    refine Makes.trans ?_ (makes_pullInto16 _ _ (by simp) _)
    refine Makes.trans ?_ (makes_pullInto16 _ _ (by simp) _)
    refine Makes.trans ?_ (makes_pullInto8 _ _ (by simp) _)
    refine Makes.trans ?_ (makes_pullInto8 _ _ (by simp) _)
    exact makes_pullInto8 _ _ (by simp) _

theorem makes_idxAddr (i : Idx) (σ : State) : Makes IsRead σ (idxAddr i σ).2 := by
  have base : ∀ m, Makes IsRead σ (baseAddr m σ).2 := fun m => makes_of_eq (by cases m <;> simp [baseAddr])
  cases i with
  | off5 r n => exact Makes.refl σ
  | inc1 r => exact makes_of_eq (by simp [idxAddr])
  | dec1 r => exact makes_of_eq (by simp [idxAddr])
  | plain m => exact base m
  | indirect m => exact (base m).trans (makes_readWord _ _)
  | extIndirect n => exact makes_readWord _ _

theorem makes_effAddr (a : Addr) (σ : State) : Makes IsRead σ (effAddr a σ).2 := by
  cases a with
  | direct n => exact Makes.refl σ
  | indexed i => exact makes_idxAddr i σ
  | extended n => exact Makes.refl σ

theorem makes_operand8 (src : Src8) (σ : State) : Makes IsRead σ (operand8 src σ).2 := by
  cases src with
  | imm n => exact Makes.refl σ
  | mem a => exact (makes_effAddr a σ).trans (makes_readByte _ _)

theorem makes_operand16 (src : Src16) (σ : State) : Makes IsRead σ (operand16 src σ).2 := by
  cases src with
  | imm n => exact Makes.refl σ
  | mem a => exact (makes_effAddr a σ).trans (makes_readWord _ _)

/-- An access that is an acknowledge cycle reads the vector table. -/
def VectorAck (c : BusCycle) : Prop := c.ack = true → 0xFFF2 ≤ c.addr.toNat ∧ c.write = false

theorem NoAck.vectorAck {c : BusCycle} (h : NoAck c) : VectorAck c := fun k => by rw [NoAck, k] at h; cases h

theorem makes_takeVector (e : Exc) (σ : State) : Makes VectorAck σ (takeVector e σ) := by
  have rd : ∀ (a : Word) (υ : State), 0xFFF2 ≤ a.toNat → Makes VectorAck υ (readAck a υ).2 := fun a υ h =>
    (makes_nextCycle υ).trans (makes_busCycle _ rfl (fun _ => ⟨h, rfl⟩) _)
  have h₁ : 0xFFF2 ≤ (vectorOf e).toNat ∧ 0xFFF2 ≤ (vectorOf e + 1).toNat := by cases e <;> decide
  have key : ∀ υ, busSide υ = busSide σ →
      Makes VectorAck σ (setPc (readVector (vectorOf e) υ).1 (readVector (vectorOf e) υ).2) := fun υ k =>
    ((makes_of_eq k).trans ((rd _ υ h₁.1).trans (rd _ _ h₁.2))).andThen (by simp [readVector_snd])
  exact key _ (by split <;> rfl)

theorem makes_takeException (e : Exc) (σ : State) : Makes VectorAck σ (takeException e σ) :=
  ((makes_stackState e σ).mono fun _ => NoAck.vectorAck).trans (makes_takeVector e _)

end Sys2Proof.Machine
end

