-- ==== Sys2Proof/Laws/Boundary.lean ====
section
/-! SUPPORT. The boundary between two instructions: the state in which it serves a request, its cases, and what each of its operations keeps. -/

namespace Sys2Proof.Machine

@[simp] theorem nextSample_nil {σ : State} (h : σ.env = []) : nextSample σ = idlePins := by rw [nextSample, h]

theorem nextSample_cons {σ : State} {p : PinSample} {ps : List PinSample} (h : σ.env = p :: ps) : nextSample σ = p := by
  rw [nextSample, h]

/-- The state once this step's sample is consumed and its edge noted. -/
def noted (σ : State) : State := noteNmi (nextSample σ) (beginStep σ)

/-- The state in which HALT, the waits and the interrupts are served where no cycle is granted. -/
def served (σ : State) : State := regainBus (nextSample σ) (noted σ)

/-- Taking the bus back touches no register and no control field. -/
theorem regainBus_field {α : Type} (g : State → α) (hb : ∀ f τ, g (onBus f τ) = g τ) (p : PinSample) (σ : State) :
    g (regainBus p σ) = g σ := by
  rw [regainBus, hb]; split
  · rfl
  · exact hb _ _

/-- It counts this look at DMA/BREQ for each cycle that begins with it, a dead one before the MPU's among them (`lookedCycles`), and where 15 cycles had been granted the count of them begins anew (R33, R421). -/
theorem regainBus_counts (p : PinSample) (σ : State) :
    (regainBus p σ).dmaIdle = (if p.dmaBreq then 0 else σ.dmaIdle + lookedCycles p σ) ∧
    (regainBus p σ).refreshCount =
      (if p.dmaBreq then if 15 ≤ σ.refreshCount then 0 else σ.refreshCount else refreshAfter (lookedCycles p σ) σ) := by
  have back : ∀ τ : State, (onBus (takeBack p.dmaBreq) τ).dmaIdle = (if p.dmaBreq then 0 else τ.dmaIdle + 1) ∧
      (onBus (takeBack p.dmaBreq) τ).refreshCount =
        (if p.dmaBreq then if 15 ≤ τ.refreshCount then 0 else τ.refreshCount else refreshAfter 1 τ) := fun τ => by
    by_cases h : 15 ≤ τ.refreshCount <;> cases p.dmaBreq <;>
      simp [onBus, setBusSide, busSide, takeBack, countPin, idle, refreshAfter, h]
  have leave : (onBus (leaveGrant p.dmaBreq) σ).dmaIdle =
        (if σ.busGranted then if p.dmaBreq then 0 else σ.dmaIdle + 1 else σ.dmaIdle) ∧
      (onBus (leaveGrant p.dmaBreq) σ).refreshCount =
        (if σ.busGranted && !p.dmaBreq then refreshAfter 1 σ else σ.refreshCount) := by
    cases h : σ.busGranted <;> cases p.dmaBreq <;>
      simp [busSide, onBus, setBusSide, leaveGrant, passCycle, otherWrite, countPin, idle, refreshAfter, h]
  rw [regainBus, lookedCycles]
  cases hs : staysReleased p σ
  · have b := back (onBus (leaveGrant p.dmaBreq) σ)
    simp only [Bool.false_eq_true, if_false, Bool.not_false, Bool.and_true]
    simp only [refreshAfter] at leave ⊢
    rw [b.1, b.2]
    simp only [refreshAfter, leave.1, leave.2]
    cases σ.busGranted <;> cases p.dmaBreq <;> simp
    repeat' split
    all_goals first | rfl | omega
  · simpa [refreshAfter] using back σ

/-- It makes no access and leaves the samples to come. -/
theorem regainBus_busSide (p : PinSample) (σ : State) :
    SameAccesses (busSide σ) (busSide (regainBus p σ)) ∧ (regainBus p σ).cycles = σ.cycles := by
  have back : ∀ τ : State, SameAccesses (busSide τ) (busSide (onBus (takeBack p.dmaBreq) τ)) ∧
      (onBus (takeBack p.dmaBreq) τ).cycles = τ.cycles := fun τ => by
    cases p.dmaBreq <;> exact ⟨⟨rfl, rfl, rfl, rfl⟩, rfl⟩
  have leave : SameAccesses (busSide σ) (busSide (onBus (leaveGrant p.dmaBreq) σ)) ∧ (onBus (leaveGrant p.dmaBreq) σ).cycles = σ.cycles := by
    cases h : σ.busGranted <;> cases p.dmaBreq <;>
      simp [SameAccesses, busSide, onBus, setBusSide, leaveGrant, passCycle, otherWrite, countPin, idle, h]
  rw [regainBus]; split
  · exact back σ
  · exact ⟨leave.1.trans (back _).1, (back _).2.trans leave.2⟩

/-- A field that neither the sample nor the edge touches. -/
theorem noted_field {α : Type} (g : State → α) (hg : ∀ (τ : State) n e b ls cs,
    g { τ with nmiPending := n, env := e, bus := b, lines := ls, cycles := cs } = g τ) (σ : State) : g (noted σ) = g σ := by
  simp only [noted, noteNmi, beginStep]
  split
  · exact hg σ _ _ _ _ _
  · exact hg σ σ.nmiPending _ _ _ _

@[simp] theorem noted_bus (σ : State) : (noted σ).bus = [] := by
  simp only [noted, noteNmi, beginStep]; split <;> rfl

theorem noted_nmiPending (σ : State) : (noted σ).nmiPending = pendingAfterNote σ := by
  simp only [noted, noteNmi, beginStep, pendingAfterNote]
  split <;> rfl

/-- A register or control field of the state that is served. -/
theorem served_field {α : Type} (g : State → α) (hg : ∀ (τ : State) n e b ls cs,
    g { τ with nmiPending := n, env := e, bus := b, lines := ls, cycles := cs } = g τ)
    (hb : ∀ f τ, g (onBus f τ) = g τ) (σ : State) : g (served σ) = g σ :=
  (regainBus_field g hb _ _).trans (noted_field g hg σ)

theorem served_nmiPending (σ : State) : (served σ).nmiPending = pendingAfterNote σ :=
  (regainBus_field State.nmiPending (fun _ _ => rfl) _ _).trans (noted_nmiPending σ)

@[simp] theorem served_run (σ : State) : (served σ).run = σ.run := served_field State.run (fun _ _ _ _ _ _ => rfl) (fun _ _ => rfl) σ

@[simp] theorem served_cc (σ : State) : (served σ).cc = σ.cc := served_field State.cc (fun _ _ _ _ _ _ => rfl) (fun _ _ => rfl) σ

@[simp] theorem served_halted (σ : State) : (served σ).halted = σ.halted :=
  served_field State.halted (fun _ _ _ _ _ _ => rfl) (fun _ _ => rfl) σ

@[simp] theorem served_mem (σ : State) : (served σ).mem = σ.mem :=
  (regainBus_busSide _ (noted σ)).1.2.1.trans (noted_field State.mem (fun _ _ _ _ _ _ => rfl) σ)

@[simp] theorem served_platform (σ : State) : (served σ).platform = σ.platform :=
  (regainBus_busSide _ (noted σ)).1.1.trans (noted_field State.platform (fun _ _ _ _ _ _ => rfl) σ)

@[simp] theorem served_bus (σ : State) : (served σ).bus = [] := (regainBus_busSide _ (noted σ)).1.2.2.2.trans (noted_bus σ)

@[simp] theorem served_env (σ : State) : (served σ).env = σ.env.tail := by
  refine (regainBus_field State.env (fun _ _ => rfl) _ _).trans ?_
  simp only [noted, noteNmi, beginStep]; split <;> rfl

theorem served_cycles (σ : State) : (served σ).cycles = stepCycles (nextSample σ) := by
  rw [served, (regainBus_busSide _ (noted σ)).2]; simp only [noted, noteNmi, beginStep]; split <;> rfl

@[simp] theorem served_busGranted (σ : State) : (served σ).busGranted = false := by
  rw [served, regainBus]; cases (nextSample σ).dmaBreq <;> rfl

/-- Nothing disturbs the step where every address is plain memory and no cycle is listed. -/
theorem undisturbed_served {σ : State} (hp : σ.platform = []) (hc : (nextSample σ).cycles = []) : Undisturbed (served σ) :=
  ⟨by simpa using hp, by rw [served_cycles, stepCycles, hc]⟩

theorem grants_high (b : BusSide) : grants false b = false := rfl

/-- Out of reset, with RES and DMA/BREQ high, HALT is looked at next (R428). -/
theorem boundary_of_pins {σ : State} (hi : σ.inReset = false) (hr : (nextSample σ).res = false)
    (hd : (nextSample σ).dmaBreq = false) : boundary σ = serveHalt (nextSample σ) (served σ) := by
  have : (beginStep σ).inReset = false := hi
  simp [boundary, hr, this, serveDma, hd, served, noted, grants_high]

/-- A machine that no pin stops serves its waits and interrupts, or runs the next instruction. -/
theorem boundary_of_unstopped {σ : State} (h : Unstopped σ) (p : PinsLetRun (nextSample σ)) :
    boundary σ = serve (nextSample σ) (served σ) := by
  rw [boundary_of_pins h.2 p.1 p.2.2.1, serveHalt, served_halted, h.1, p.2.1]
  rfl

/-- A sample in which RES does not fall leaves the step whole. -/
theorem cutByReset_none {σ : State} (h : (nextSample σ).resCut = none) (τ : State) : cutByReset σ τ = τ := by
  rw [cutByReset, h]

/-- So does a step in which the MPU makes no access. -/
theorem cutByReset_idle (σ : State) {τ : State} (h : ownAccesses τ = 0) : cutByReset σ τ = τ := by
  rw [cutByReset]; split
  · rfl
  · rw [if_pos h]

/-- A cut step keeps what the whole step has drawn, so that no value is drawn twice (R452, D4). -/
@[simp] theorem cutShort_draws (happened : List Bool) (σ τ : State) : (cutShort happened σ τ).draws = τ.draws := rfl

/-- What can be taken does not depend on the bus side or the samples to come. -/
theorem takeable_served (σ : State) :
    takeable (nextSample σ) (served σ) = takeable (nextSample σ) (noteNmi (nextSample σ) σ) := by
  simp only [takeable, nmiTakeable, served_nmiPending, served_cc, served_field State.nmiArmed (fun _ _ _ _ _ _ => rfl) (fun _ _ => rfl) σ,
    noteNmi, pendingAfterNote]
  split <;> rfl

/-- Only NMI, FIRQ and IRQ are taken at a boundary (R403 to R405). -/
theorem takeable_mem {p : PinSample} {σ : State} {e : Exc} (h : takeable p σ = some e) : e = .nmi ∨ e = .firq ∨ e = .irq := by
  simp only [takeable] at h
  split at h
  · exact .inl (Option.some.inj h).symm
  · split at h
    · exact .inr (.inl (Option.some.inj h).symm)
    · split at h
      · exact .inr (.inr (Option.some.inj h).symm)
      · cases h

/-! ## Accesses outside the instructions -/

@[simp] theorem otherWrite_platform (w : Option (Word × Byte)) (b : BusSide) : (otherWrite w b).platform = b.platform := by cases w <;> rfl

@[simp] theorem otherWrite_cycles (w : Option (Word × Byte)) (b : BusSide) : (otherWrite w b).cycles = b.cycles := by cases w <;> rfl

@[simp] theorem otherWrite_lines (w : Option (Word × Byte)) (b : BusSide) : (otherWrite w b).lines = b.lines := by cases w <;> rfl

@[simp] theorem otherWrite_busGranted (w : Option (Word × Byte)) (b : BusSide) : (otherWrite w b).busGranted = b.busGranted := by cases w <;> rfl

@[simp] theorem otherWrite_refreshCount (w : Option (Word × Byte)) (b : BusSide) : (otherWrite w b).refreshCount = b.refreshCount := by cases w <;> rfl

@[simp] theorem otherWrite_dmaIdle (w : Option (Word × Byte)) (b : BusSide) : (otherWrite w b).dmaIdle = b.dmaIdle := by cases w <;> rfl

@[simp] theorem otherWrite_dmaLow (w : Option (Word × Byte)) (b : BusSide) : (otherWrite w b).dmaLow = b.dmaLow := by cases w <;> rfl

@[simp] theorem otherWrite_elapsed (w : Option (Word × Byte)) (b : BusSide) : (otherWrite w b).elapsed = b.elapsed := by cases w <;> rfl

/-- What another master's write makes of memory depends on memory and the platform alone. -/
theorem otherWrite_mem (w : Option (Word × Byte)) {b b' : BusSide} (hm : b.mem = b'.mem) (hp : b.platform = b'.platform) :
    (otherWrite w b).mem = (otherWrite w b').mem := by
  cases w <;> simp [otherWrite, perform, hm, hp]

theorem follows_of_same {P : BusCycle → Prop} {σ τ : State} (h : SameAccesses (busSide σ) (busSide τ)) : Follows P σ τ :=
  ⟨[], h, by simp⟩

theorem follows_of_others {P : BusCycle → Prop} {f : BusSide → BusSide} {σ : State}
    (h : ∃ cs, SameAccesses (performs cs (busSide σ)) (f (busSide σ)) ∧ ∀ c ∈ cs, IsOtherWrite c) : Follows P σ (onBus f σ) := by
  obtain ⟨cs, hs, hw⟩ := h
  exact ⟨cs, ⟨(performs_platform cs (busSide σ)).symm, hs.2.1, hs.2.2.1, hs.2.2.2⟩, fun c hc => .inl (hw c hc)⟩

theorem follows_idleCycle {P : BusCycle → Prop} (p : PinSample) (σ : State) : Follows P σ (idleCycle p σ) :=
  follows_of_others (othersOnly_passCycle _ _ _)

theorem follows_resumeCycle {P : BusCycle → Prop} (σ : State) : Follows P σ (resumeCycle σ) :=
  follows_of_others (othersOnly_passCycle _ _ _)

theorem follows_grantOne {P : BusCycle → Prop} (w : Option (Word × Byte)) (σ : State) : Follows P σ (onBus (grantOne w) σ) :=
  follows_of_others (othersOnly_grantOne w _)

theorem follows_regainBus {P : BusCycle → Prop} (p : PinSample) (σ : State) : Follows P σ (regainBus p σ) :=
  follows_of_same (regainBus_busSide p σ).1

/-- Where every access is another master's, the MPU has made none. -/
theorem ownAccesses_zero {τ : State} (h : ∀ c ∈ τ.bus, c.other = true) : ownAccesses τ = 0 := by
  simp only [ownAccesses, List.countP_eq_zero]
  intro c hc; simp [h c hc]

/-- Accesses of no MPU's own leave only other masters' in the log of a step. -/
theorem Follows.others {σ τ : State} (f : Follows (fun _ => False) σ τ) (h : σ.bus = []) : ∀ c ∈ τ.bus, c.other = true := by
  obtain ⟨cs, e, hw⟩ := f.bus
  rw [e, h]
  intro c hc
  rcases hw c hc with k | k
  · exact k.1
  · exact k.2.elim

/-- Some of the accesses that `τ` has logged since `σ`'s step began, done again. -/
theorem follows_cutShort {P : BusCycle → Prop} (happened : List Bool) (σ τ : State)
    (h : ∀ c ∈ τ.bus, IsOtherWrite c ∨ (c.other = false ∧ P c)) : Follows P (beginStep σ) (cutShort happened σ τ) := by
  have sub : ∀ (cs : List BusCycle) (bs : List Bool), ∀ c ∈ survivors bs cs, c ∈ cs := by
    intro cs
    induction cs with
    | nil => intro bs c hc; cases bs <;> simp [survivors] at hc
    | cons c' cs ih =>
      intro bs c hc
      cases bs <;> simp only [survivors] at hc <;> split at hc
      all_goals
        first
        | (rcases List.mem_cons.1 hc with e | hc
           · exact e ▸ List.mem_cons_self ..
           · exact List.mem_cons_of_mem _ (ih _ c hc))
        | exact List.mem_cons_of_mem _ (ih _ c hc)
  refine ⟨survivors happened τ.bus, ?_, fun c hc => h c (sub _ _ c hc)⟩
  rw [← busSide_replay]; exact ⟨rfl, rfl, rfl, rfl⟩

theorem wf_storeBytes (bs : List Byte) : ∀ (a : Word) {m : Memory}, m.wf = true → (storeBytes a bs m).wf = true := by
  induction bs with
  | nil => exact fun _ _ h => h
  | cons b bs ih => exact fun a _ h => ih (a + 1) (Memory.wf_write a.isLt b h)

/-- A register or control field is kept by the cycle of a wait. -/
theorem idleCycle_field {α : Type} (g : State → α) (hb : ∀ f τ, g (onBus f τ) = g τ) (p : PinSample) (σ : State) :
    g (idleCycle p σ) = g σ := hb _ _

/-- So it is by the cycle in which a wait is left. -/
theorem resumeCycle_field {α : Type} (g : State → α) (hb : ∀ f τ, g (onBus f τ) = g τ) (σ : State) :
    g (resumeCycle σ) = g σ := hb _ _

/-- What memory is after a cycle that is not the MPU's. -/
@[simp] theorem passCycle_mem (levels : Option (Bool × Bool)) (w : Option (Word × Byte)) (b : BusSide) :
    (passCycle levels w b).mem = (otherWrite w b).mem := rfl

/-- The inactive cycles so far, once DMA/BREQ has been looked at. -/
theorem countPin_dmaIdle (low : Bool) (b : BusSide) : (countPin low b).dmaIdle = if low then 0 else b.dmaIdle + 1 := by
  cases low <;> rfl

/-- The self-refresh counter, once DMA/BREQ has been looked at. -/
theorem countPin_refreshCount (low : Bool) (b : BusSide) :
    (countPin low b).refreshCount = if low = false ∧ 3 ≤ b.dmaIdle + 1 then 0 else b.refreshCount := by
  cases low <;> simp [countPin, idle]

end Sys2Proof.Machine
end

