-- ==== Sys2Proof/Laws/Stack.lean ====
section
/-! SUPPORT. What pushes and pulls add up to: the bytes a sequence of pushes leaves in memory, and the bytes a sequence of pulls reads (R160 to R163), in a step that nothing disturbs. -/

namespace Sys2Proof.Machine

/-! ## Runs of addresses -/

@[simp] theorem length_span (a : Word) (n : Nat) : (span a n).length = n := by
  induction n generalizing a with
  | zero => rfl
  | succ n ih => simp [span, ih]

/-- The addresses of a span, as distances from its start. -/
theorem mem_span {a b : Word} {n : Nat} (hn : n ≤ 65536) : b ∈ span a n ↔ (b - a).toNat < n := by
  induction n generalizing a with
  | zero => simp [span]
  | succ n ih =>
    rw [span, List.mem_cons, ih (by omega)]
    have := a.isLt; have := b.isLt
    rw [← BitVec.toNat_inj]
    have h1 : (1 : Word).toNat = 1 := rfl
    simp only [BitVec.toNat_sub, BitVec.toNat_add, h1]
    omega

theorem span_append (a : Word) (m n : Nat) : span a (m + n) = span a m ++ span (a + BitVec.ofNat 16 m) n := by
  induction m generalizing a with
  | zero => simp [span]
  | succ m ih =>
    rw [Nat.add_right_comm, span, span, ih, List.cons_append]
    have : a + 1 + BitVec.ofNat 16 m = a + BitVec.ofNat 16 (m + 1) := by
      rw [BitVec.add_assoc, Nat.add_comm m 1, BitVec.ofNat_add]; rfl
    rw [this]

theorem memoryHolds_append (a : Word) (xs ys : List Byte) (σ : State) :
    MemoryHolds a (xs ++ ys) σ ↔ MemoryHolds a xs σ ∧ MemoryHolds (a + BitVec.ofNat 16 xs.length) ys σ := by
  rw [MemoryHolds, MemoryHolds, MemoryHolds, List.length_append, span_append, List.map_append]
  exact ⟨fun h => List.append_inj h (by simp), fun h => by rw [h.1, h.2]⟩

theorem memoryHolds_congr {σ τ : State} (h : τ.mem = σ.mem) (a : Word) (bs : List Byte) :
    MemoryHolds a bs τ ↔ MemoryHolds a bs σ := by
  simp [MemoryHolds, peek, h]

/-! ## Pushes -/

/-- A write in a step that nothing disturbs: the byte, the log and the cycle, nothing else. -/
theorem writeByte_eq (a : Word) (v : Byte) {σ : State} (u : Undisturbed σ) :
    writeByte a v σ = { σ with
      mem := σ.mem.write a.toNat v
      bus := σ.bus ++ [{ write := true, ack := false, addr := a, data := v }]
      lines := σ.lines ++ [.access] } := by
  simp [writeByte, busCycle, onBus, setBusSide, busSide, perform, kindAt, u.1, u.2]

theorem undisturbed_setPtr (r : Ptr) (w : Word) {σ : State} (u : Undisturbed σ) : Undisturbed (setPtr r w σ) := by
  simpa [Undisturbed] using u

theorem undisturbed_push8 (r : Ptr) (v : Byte) {σ : State} (u : Undisturbed σ) : Undisturbed (push8 r v σ) := by
  simpa [Undisturbed] using u

/-- `τ` is `σ` after the bytes `bs`, last first, are pushed on the stack of `r`. -/
structure Pushed (r : Ptr) (bs : List Byte) (σ τ : State) : Prop where
  ptr_eq : ptr r τ = ptr r σ - BitVec.ofNat 16 bs.length
  holds : MemoryHolds (ptr r τ) bs τ
  outside : KeepsMemoryOutside (span (ptr r τ) bs.length) σ τ
  wf : τ.mem.wf = true
  und : Undisturbed τ
  eq : τ = { setPtr r (ptr r τ) σ with mem := τ.mem, bus := τ.bus, lines := τ.lines }

theorem Pushed.refl {r : Ptr} {σ : State} (u : Undisturbed σ) (h : σ.mem.wf = true) : Pushed r [] σ σ where
  ptr_eq := by simp
  holds := rfl
  outside := fun _ _ => rfl
  wf := h
  und := u
  eq := by cases r <;> rfl

theorem Pushed.push8 {r : Ptr} {bs : List Byte} {σ τ : State} (h : Pushed r bs σ τ) (v : Byte)
    (hn : bs.length < 65535) : Pushed r (v :: bs) σ (push8 r v τ) := by
  have hp : ptr r (Machine.push8 r v τ) = ptr r τ - 1 := by rw [ptr_push8, if_pos rfl]
  have hn' : ptr r τ - 1 + 1 = ptr r τ := by bv_omega
  have hout : ∀ a ∈ span (ptr r τ) bs.length, a ≠ ptr r τ - 1 := by
    intro a ha e
    rw [mem_span (by omega), e] at ha
    have : (ptr r τ - 1 - ptr r τ).toNat = 65535 := by
      have : ptr r τ - 1 - ptr r τ = -1 := by bv_omega
      rw [this]; rfl
    omega
  refine ⟨?_, ?_, ?_, wf_push8 _ _ _ h.und h.wf, undisturbed_push8 _ _ h.und, ?_⟩
  · rw [hp, h.ptr_eq, List.length_cons, BitVec.ofNat_add]; bv_omega
  · rw [hp, MemoryHolds, List.length_cons, span, hn', List.map_cons, peek_push8 _ _ _ _ h.und h.wf, if_pos rfl]
    congr 1
    have := h.holds
    rw [MemoryHolds] at this
    refine Eq.trans (List.map_congr_left fun a ha => ?_) this
    exact peek_push8_other _ _ _ (hout a ha) h.und.2
  · intro a ha
    rw [hp, List.length_cons, span, hn', List.mem_cons, not_or] at ha
    rw [peek_push8_other _ _ _ ha.1 h.und.2]
    exact h.outside a ha.2
  · have he := h.eq
    rw [Machine.push8, writeByte_eq _ _ (undisturbed_setPtr _ _ h.und), he]
    cases r <;> rfl

theorem Pushed.push16 {r : Ptr} {bs : List Byte} {σ τ : State} (h : Pushed r bs σ τ) (w : Word)
    (hn : bs.length < 65534) : Pushed r (hi w :: lo w :: bs) σ (push16 r w τ) :=
  (h.push8 (lo w) (by omega)).push8 (hi w) (by simp; omega)

theorem Pushed.doIf8 {r : Ptr} {bs : List Byte} {σ τ : State} (h : Pushed r bs σ τ) (c : Bool) (f : State → Byte)
    (hn : bs.length < 65535) :
    Pushed r ((if c then [f τ] else []) ++ bs) σ (doIf c (fun υ => Machine.push8 r (f υ) υ) τ) := by
  cases c
  · exact h
  · exact h.push8 (f τ) hn

theorem Pushed.doIf16 {r : Ptr} {bs : List Byte} {σ τ : State} (h : Pushed r bs σ τ) (c : Bool) (f : State → Word)
    (hn : bs.length < 65534) :
    Pushed r ((if c then [hi (f τ), lo (f τ)] else []) ++ bs) σ (doIf c (fun υ => Machine.push16 r (f υ) υ) τ) := by
  cases c
  · exact h
  · exact h.push16 (f τ) hn

/-- A register that is not the pushing pointer is as before, and so is the rest of the state. -/
theorem Pushed.keeps {r : Ptr} {bs : List Byte} {σ τ : State} (h : Pushed r bs σ τ) :
    τ.a = σ.a ∧ τ.b = σ.b ∧ τ.dp = σ.dp ∧ τ.cc = σ.cc ∧ τ.pc = σ.pc ∧ (∀ q, q ≠ r → ptr q τ = ptr q σ) ∧
    KeepsNmi σ τ ∧ KeepsControl σ τ := by
  rw [h.eq]
  cases r <;>
  exact ⟨rfl, rfl, rfl, rfl, rfl, fun q hq => by cases q <;> first | rfl | exact absurd rfl hq, ⟨rfl, rfl⟩,
    rfl, rfl, rfl, rfl, rfl, fun hc => ⟨hc, rfl, rfl, rfl, rfl, rfl⟩⟩

theorem ne_stackPtr (k : Stk) : otherPtr k ≠ stackPtr k := by cases k <;> decide

theorem length_frameBytes_le (k : Stk) (mask : Byte) (σ : State) : (frameBytes k mask σ).length ≤ 12 := by
  simp only [frameBytes, List.length_append]
  repeat' split
  all_goals simp

/-- PSHS and PSHU leave the frame of their mask (R82, R246, R247). -/
theorem pushed_pushRegs (k : Stk) (mask : Byte) {σ : State} (u : Undisturbed σ) (h : σ.mem.wf = true) :
    Pushed (stackPtr k) (frameBytes k mask σ) σ (pushRegs k mask σ) := by
  have hx : Ptr.x ≠ stackPtr k := by cases k <;> decide
  have hy : Ptr.y ≠ stackPtr k := by cases k <;> decide
  have h7 := (Pushed.refl (r := stackPtr k) u h).doIf16 (mask.getLsbD 7) (fun σ => σ.pc) (by simp)
  have h6 := h7.doIf16 (mask.getLsbD 6) (fun σ => ptr (otherPtr k) σ) (by split <;> simp)
  have h5 := h6.doIf16 (mask.getLsbD 5) (fun σ => σ.y) (by repeat' split
                                                           all_goals simp)
  have h4 := h5.doIf16 (mask.getLsbD 4) (fun σ => σ.x) (by repeat' split
                                                           all_goals simp)
  have h3 := h4.doIf8 (mask.getLsbD 3) (fun σ => σ.dp) (by repeat' split
                                                           all_goals simp)
  have h2 := h3.doIf8 (mask.getLsbD 2) (fun σ => σ.b) (by repeat' split
                                                          all_goals simp)
  have h1 := h2.doIf8 (mask.getLsbD 1) (fun σ => σ.a) (by repeat' split
                                                          all_goals simp)
  have h0 := h1.doIf8 (mask.getLsbD 0) (fun σ => σ.cc.toByte) (by repeat' split
                                                                  all_goals simp)
  have e6 := h7.keeps.2.2.2.2.2.1 (otherPtr k) (ne_stackPtr k)
  have e5 : State.y _ = σ.y := h6.keeps.2.2.2.2.2.1 .y hy
  have e4 : State.x _ = σ.x := h5.keeps.2.2.2.2.2.1 .x hx
  have e3 := h4.keeps.2.2.1
  have e2 := h3.keeps.2.1
  have e1 := h2.keeps.1
  have e0 := h1.keeps.2.2.2.1
  simp only [e6, e5, e4, e3, e2, e1, e0] at h0
  simpa only [frameBytes, List.append_assoc, List.append_nil, pushRegs] using h0

/-- The entire frame (R162, R412). -/
theorem pushed_pushEntireState {σ : State} (u : Undisturbed σ) (h : σ.mem.wf = true) :
    Pushed .s (entireFrame σ.cc σ) σ (pushEntireState σ) :=
  pushed_pushRegs .s 0xFF u h

/-! ## Pulls -/

/-- A pulled byte or word is what stands at the pointer, and the pointer is past it. -/
theorem pulled_pullInto8 (r : Ptr) (f : Byte → State → State) {σ : State} (u : Undisturbed σ) :
    pullInto8 r f σ = f (peek (ptr r σ) σ) (pull8 r σ).2 := by
  rw [pullInto8, pull8_fst, nextCycle_of_none _ u.2, answer_eq_peek _ _ _ u.1]

theorem pulled_pullInto16 (r : Ptr) (f : Word → State → State) {σ : State} (u : Undisturbed σ) :
    pullInto16 r f σ = f (peekWord (ptr r σ) σ) (pull16 r σ).2 := by
  rw [pullInto16, pull16_fst _ _ u.1 u.2]

/-- `τ` is `σ` after bytes are pulled from the stack of `r` into what `g` lists. -/
structure Pulled (r : Ptr) (g : State → List Byte) (σ τ : State) : Prop where
  ptr_eq : ptr r τ = ptr r σ + BitVec.ofNat 16 (g τ).length
  holds : MemoryHolds (ptr r σ) (g τ) σ
  mem_eq : τ.mem = σ.mem
  und : Undisturbed τ

theorem Pulled.step8 {r : Ptr} {g : State → List Byte} {σ τ : State} (h : Pulled r g σ τ) (c : Bool) (f : Byte → State → State) (get : State → Byte)
    (hget : ∀ v υ, get (f v υ) = v) (hp : ∀ v υ, ptr r (f v υ) = ptr r υ) (hm : ∀ v υ, busSide (f v υ) = busSide υ)
    (hg : ∀ v υ, g (f v υ) = g υ) (hg2 : g (pull8 r τ).2 = g τ) :
    Pulled r (fun υ => g υ ++ if c then [get υ] else []) σ (doIf c (pullInto8 r f) τ) := by
  cases c
  · simpa using h
  · have hm' : ∀ v υ, (f v υ).mem = υ.mem := fun v υ => congrArg BusSide.mem (hm v υ)
    refine ⟨?_, ?_, ?_, ?_⟩
    · simp only [doIf_true, pulled_pullInto8 r f h.und, hget, hg, hg2, hp, ptr_pull8, if_true, List.length_append, h.ptr_eq, BitVec.ofNat_add, BitVec.add_assoc]
      rfl
    · simp only [doIf_true, pulled_pullInto8 r f h.und, hget, hg, hg2, if_true]
      rw [memoryHolds_append]
      refine ⟨h.holds, ?_⟩
      rw [← h.ptr_eq]; simp [MemoryHolds, span, peek, h.mem_eq]
    · simp [doIf_true, pulled_pullInto8 r f h.und, hm', h.mem_eq, h.und.2]
    · rw [doIf_true, pulled_pullInto8 r f h.und]
      exact ⟨(congrArg BusSide.platform (hm _ _)).trans (by simpa [busSide] using h.und.1),
        (congrArg BusSide.cycles (hm _ _)).trans ((cycles_pull8 τ r).2 h.und.2)⟩

theorem Pulled.step16 {r : Ptr} {g : State → List Byte} {σ τ : State} (h : Pulled r g σ τ) (c : Bool) (f : Word → State → State) (get : State → Word)
    (hget : ∀ v υ, get (f v υ) = v) (hp : ∀ v υ, ptr r (f v υ) = ptr r υ) (hm : ∀ v υ, busSide (f v υ) = busSide υ)
    (hg : ∀ v υ, g (f v υ) = g υ) (hg2 : g (pull16 r τ).2 = g τ) :
    Pulled r (fun υ => g υ ++ if c then [hi (get υ), lo (get υ)] else []) σ (doIf c (pullInto16 r f) τ) := by
  cases c
  · simpa using h
  · have hm' : ∀ v υ, (f v υ).mem = υ.mem := fun v υ => congrArg BusSide.mem (hm v υ)
    refine ⟨?_, ?_, ?_, ?_⟩
    · simp only [doIf_true, pulled_pullInto16 r f h.und, hget, hg, hg2, hp, ptr_pull16, if_true, List.length_append, h.ptr_eq, BitVec.ofNat_add, BitVec.add_assoc]
      rfl
    · simp only [doIf_true, pulled_pullInto16 r f h.und, hget, hg, hg2, if_true]
      rw [memoryHolds_append]
      refine ⟨h.holds, ?_⟩
      rw [← h.ptr_eq]; simp [MemoryHolds, span, peekWord, peek, h.mem_eq]
    · simp [doIf_true, pulled_pullInto16 r f h.und, hm', h.mem_eq, h.und.2]
    · rw [doIf_true, pulled_pullInto16 r f h.und]
      exact ⟨(congrArg BusSide.platform (hm _ _)).trans (by simpa [busSide] using h.und.1),
        (congrArg BusSide.cycles (hm _ _)).trans ((cycles_pull16 τ r).2 h.und.2)⟩

/-- PULS and PULU pull the frame of their mask (R82, R248, R249). -/
theorem pulled_pullRegs (k : Stk) (mask : Byte) {σ : State} (u : Undisturbed σ) :
    Pulled (stackPtr k) (frameBytes k mask) σ (pullRegs k mask σ) := by
  have h0 : Pulled (stackPtr k) (fun _ => []) σ σ := ⟨by simp, rfl, rfl, u⟩
  cases k
  · have h1 := h0.step8 (mask.getLsbD 0) (fun v => setCc (CC.ofByte v)) (fun σ => σ.cc.toByte) (by simp) (by simp) (by simp) (by simp) (by simp)
    have h2 := h1.step8 (mask.getLsbD 1) (setAcc .a) (fun σ => σ.a) (by simp) (by simp) (by simp) (by simp) (by simp)
    have h3 := h2.step8 (mask.getLsbD 2) (setAcc .b) (fun σ => σ.b) (by simp) (by simp) (by simp) (by simp) (by simp)
    have h4 := h3.step8 (mask.getLsbD 3) (setDp) (fun σ => σ.dp) (by simp) (by simp) (by simp) (by simp) (by simp)
    have h5 := h4.step16 (mask.getLsbD 4) (setPtr .x) (fun σ => σ.x) (by simp) (by simp [stackPtr]) (by simp) (by simp) (by simp)
    have h6 := h5.step16 (mask.getLsbD 5) (setPtr .y) (fun σ => σ.y) (by simp) (by simp [stackPtr]) (by simp) (by simp) (by simp [stackPtr, pull16, pull8])
    have h7 := h6.step16 (mask.getLsbD 6) (setPtr .u) (fun σ => σ.u) (by simp) (by simp [stackPtr]) (by simp) (by simp) (by simp [stackPtr, pull16, pull8])
    have h8 := h7.step16 (mask.getLsbD 7) (setPc) (fun σ => σ.pc) (by simp) (by simp) (by simp) (by simp) (by simp [stackPtr, pull16, pull8])
    exact h8
  · have h1 := h0.step8 (mask.getLsbD 0) (fun v => setCc (CC.ofByte v)) (fun σ => σ.cc.toByte) (by simp) (by simp) (by simp) (by simp) (by simp)
    have h2 := h1.step8 (mask.getLsbD 1) (setAcc .a) (fun σ => σ.a) (by simp) (by simp) (by simp) (by simp) (by simp)
    have h3 := h2.step8 (mask.getLsbD 2) (setAcc .b) (fun σ => σ.b) (by simp) (by simp) (by simp) (by simp) (by simp)
    have h4 := h3.step8 (mask.getLsbD 3) (setDp) (fun σ => σ.dp) (by simp) (by simp) (by simp) (by simp) (by simp)
    have h5 := h4.step16 (mask.getLsbD 4) (setPtr .x) (fun σ => σ.x) (by simp) (by simp [stackPtr]) (by simp) (by simp) (by simp)
    have h6 := h5.step16 (mask.getLsbD 5) (setPtr .y) (fun σ => σ.y) (by simp) (by simp [stackPtr]) (by simp) (by simp) (by simp [stackPtr, pull16, pull8])
    have h7 := h6.step16 (mask.getLsbD 6) (setPtr .s) (fun σ => σ.s) (by simp) (by simp [stackPtr]) (by simp) (by simp) (by simp [stackPtr, pull16, pull8])
    have h8 := h7.step16 (mask.getLsbD 7) (setPc) (fun σ => σ.pc) (by simp) (by simp) (by simp) (by simp) (by simp [stackPtr, pull16, pull8])
    exact h8

end Sys2Proof.Machine
end

