-- ==== Sys2Proof/Laws/Exceptions.lean ====
section
/-! SUPPORT. Taking an exception in two parts: what it stacks, and what the masks and the vector leave (R408 to R412), in a step that nothing disturbs. -/

namespace Sys2Proof.Machine

/-- The CC that an entry stacks: E cleared by FIRQ, set by the others (R408 to R410); RES stacks nothing. -/
def stackedCc (e : Exc) (cc : CC) : CC :=
  match e with
  | .res => cc
  | .firq => { cc with e := false }
  | _ => { cc with e := true }

/-- The bytes that an entry stacks, lowest address first (R412). -/
def stackedFrame (e : Exc) (σ : State) : List Byte :=
  match e with
  | .res => []
  | .firq => subsetFrame (stackedCc .firq σ.cc) σ
  | e => entireFrame (stackedCc e σ.cc) σ

theorem pushed_entireWith (cc : CC) {σ : State} (u : Undisturbed σ) (h : σ.mem.wf = true) :
    Pushed .s (entireFrame cc σ) (setCc cc σ) (pushEntireState (setCc cc σ)) :=
  pushed_pushEntireState (σ := setCc cc σ) u h

theorem pushed_stackState (e : Exc) {σ : State} (u : Undisturbed σ) (h : σ.mem.wf = true) :
    Pushed .s (stackedFrame e σ) (setCc (stackedCc e σ.cc) σ) (stackState e σ) := by
  cases e with
  | res => exact Pushed.refl u h
  | firq =>
    have p₀ : Pushed .s [] (setCc (stackedCc .firq σ.cc) σ) (setCc (stackedCc .firq σ.cc) σ) := Pushed.refl u h
    have p₁ := p₀.push16 σ.pc (by simp)
    have p₂ := p₁.push8 (stackedCc .firq σ.cc).toByte (by simp)
    have e : stackState .firq σ =
        push8 .s (stackedCc .firq σ.cc).toByte (push16 .s σ.pc (setCc (stackedCc .firq σ.cc) σ)) := by
      simp [stackState, stackedCc]
    rw [e]; exact p₂
  | nmi => exact pushed_entireWith _ u h
  | swi => exact pushed_entireWith _ u h
  | irq => exact pushed_entireWith _ u h
  | swi2 => exact pushed_entireWith _ u h
  | swi3 => exact pushed_entireWith _ u h

/-- A vector fetch in a step that nothing disturbs: the word that stands there, two acknowledge cycles, nothing else. -/
theorem readVector_eq (a : Word) {σ : State} (u : Undisturbed σ) :
    readVector a σ = (peekWord a σ, { σ with
      bus := σ.bus ++ [{ write := false, ack := true, addr := a, data := peek a σ },
        { write := false, ack := true, addr := a + 1, data := peek (a + 1) σ }]
      lines := σ.lines ++ [.access, .access] }) := by
  refine Prod.ext (readVector_fst σ a u.1 u.2) ?_
  simp [readVector_snd, readAck_snd, busCycle, onBus, setBusSide, busSide, perform, kindAt, u.1, u.2, answer, peek]

theorem takeVector_eq (e : Exc) {σ : State} (u : Undisturbed σ) :
    takeVector e σ =
      { σ with
        cc := maskFor e σ.cc
        nmiPending := if e = .nmi then false else σ.nmiPending
        pc := peekWord (vectorOf e) σ
        bus := σ.bus ++ [{ write := false, ack := true, addr := vectorOf e, data := peek (vectorOf e) σ },
          { write := false, ack := true, addr := vectorOf e + 1, data := peek (vectorOf e + 1) σ }]
        lines := σ.lines ++ [.access, .access] } := by
  have u' : ∀ n, Undisturbed { setCc (maskFor e σ.cc) σ with nmiPending := n } := fun _ => u
  cases e with
  | nmi => simp only [takeVector, if_true, readVector_eq _ (u' false)]; rfl
  | _ => exact congrArg (fun p => setPc p.1 p.2) (readVector_eq _ (u' σ.nmiPending))

/-- The mask bits that an entry sets are those of R411; no other flag is touched. -/
theorem maskFor_eq (e : Exc) (cc : CC) :
    maskFor e cc =
      { cc with
        i := cc.i || (e != .swi2 && e != .swi3)
        f := cc.f || (e != .irq && e != .swi2 && e != .swi3) } := by
  cases e <;> simp [maskFor]

end Sys2Proof.Machine
end

