-- ==== Sys2Proof/Laws/Fetch.lean ====
section
/-! SUPPORT. What fetching an instruction's bytes does (R45, R167). -/

namespace Sys2Proof.Machine

theorem makes_fetchByte (σ : State) : Makes IsRead σ (fetchByte σ) :=
  (makes_readByte σ.pc σ).andThen (υ := fetchByte σ) rfl

/-- Fetching `n` bytes reads them and moves PC past them; no other register changes, nor the place in the main loop. -/
theorem fetchBytes_spec (n : Nat) (σ : State) :
    (fetchBytes n σ).pc = σ.pc + BitVec.ofNat 16 n ∧ KeepsRegsAndFlags [.r16 .pc] noDelta σ (fetchBytes n σ) ∧
    KeepsNmi σ (fetchBytes n σ) ∧ KeepsControl σ (fetchBytes n σ) ∧ Makes IsRead σ (fetchBytes n σ) := by
  induction n generalizing σ with
  | zero => simp [fetchBytes, KeepsRegsAndFlags, KeepsRegs, KeepsNmi, KeepsControl, KeepsCounters, noDelta, Makes.refl]
  | succ n ih =>
    obtain ⟨hpc, hregs, hnmi, hcontrol, hmakes⟩ := ih (fetchByte σ)
    simp only [fetchBytes]
    refine ⟨?_, ?_, ?_, ?_, (makes_fetchByte σ).trans hmakes⟩
    · rw [hpc, Nat.add_comm n 1, BitVec.ofNat_add, ← BitVec.add_assoc]; rfl
    · simpa [KeepsRegsAndFlags, KeepsRegs, fetchByte, noDelta] using hregs
    · simpa [KeepsNmi, fetchByte] using hnmi
    · obtain ⟨h1, h2, h3, h4, h5, h6⟩ := hcontrol
      refine ⟨h1, h2, h3, h4, h5.trans (by simp [fetchByte]), fun hc => ?_⟩
      simpa [KeepsCounters, fetchByte, hc] using h6 (by simpa [fetchByte] using hc)

end Sys2Proof.Machine
end

