-- ==== Sys2Proof/Laws/Flags.lean ====
section
/-! SUPPORT. What each result-with-flags computation of Flags.lean gives, over the integers. -/

namespace Sys2Proof.Machine

/-! ## Signs -/

theorem byte_msb_iff (b : Byte) : b.msb = true ↔ 128 ≤ b.toNat := by
  rw [BitVec.msb_eq_decide]; simp

theorem word_msb_iff (w : Word) : w.msb = true ↔ 32768 ≤ w.toNat := by
  rw [BitVec.msb_eq_decide]; simp

theorem byte_toInt (b : Byte) : b.toInt = if 128 ≤ b.toNat then (b.toNat : Int) - 256 else b.toNat := by
  rw [BitVec.toInt_eq_toNat_cond]; split <;> split <;> omega

theorem word_toInt (w : Word) : w.toInt = if 32768 ≤ w.toNat then (w.toNat : Int) - 65536 else w.toNat := by
  rw [BitVec.toInt_eq_toNat_cond]; split <;> split <;> omega

theorem toNat_ofInt8 (t : Int) : ((BitVec.ofInt 8 t).toNat : Int) = t % 256 := by
  rw [BitVec.toNat_ofInt]; simp; omega

theorem toNat_ofInt16 (t : Int) : ((BitVec.ofInt 16 t).toNat : Int) = t % 65536 := by
  rw [BitVec.toNat_ofInt]; simp; omega

/-! ## N and Z -/

theorem nz_nz8 (r : Byte) (cc : CC) : Nz r (nz8 r cc) := by
  refine ⟨byte_msb_iff r, ?_⟩
  simp only [nz8, beq_iff_eq]
  exact BitVec.toNat_inj.symm

theorem nzWord_nz16 (r : Word) (cc : CC) : NzWord r (nz16 r cc) := by
  refine ⟨word_msb_iff r, ?_⟩
  simp only [nz16, beq_iff_eq]
  exact BitVec.toNat_inj.symm

/-! ## Signed overflow from the three signs -/

theorem byte_add_overflow {a m r : Byte} {k : Nat} (hk : k ≤ 1) (hr : r.toNat = (a.toNat + m.toNat + k) % 256) :
    (a.msb == m.msb && r.msb != a.msb) = true ↔ r.toInt ≠ a.toInt + m.toInt + k := by
  have ha := a.isLt; have hm := m.isLt
  rw [byte_toInt, byte_toInt, byte_toInt]
  simp only [BitVec.msb_eq_decide, Bool.and_eq_true, beq_iff_eq, bne_iff_ne, Ne]
  simp only [show 2 ^ (8 - 1) = 128 from rfl, decide_eq_decide]
  split <;> split <;> split <;> omega

theorem byte_sub_overflow {a m r : Byte} {k : Nat} (hk : k ≤ 1) (hr : (r.toNat : Int) = ((a.toNat : Int) - m.toNat - k) % 256) :
    (a.msb != m.msb && r.msb != a.msb) = true ↔ r.toInt ≠ a.toInt - m.toInt - k := by
  have ha := a.isLt; have hm := m.isLt
  rw [byte_toInt, byte_toInt, byte_toInt]
  simp only [BitVec.msb_eq_decide, Bool.and_eq_true, bne_iff_ne, Ne]
  simp only [show 2 ^ (8 - 1) = 128 from rfl, decide_eq_decide]
  split <;> split <;> split <;> omega

theorem word_add_overflow {a m r : Word} (hr : r.toNat = (a.toNat + m.toNat) % 65536) :
    (a.msb == m.msb && r.msb != a.msb) = true ↔ r.toInt ≠ a.toInt + m.toInt := by
  have ha := a.isLt; have hm := m.isLt
  rw [word_toInt, word_toInt, word_toInt]
  simp only [BitVec.msb_eq_decide, Bool.and_eq_true, beq_iff_eq, bne_iff_ne, Ne]
  simp only [show 2 ^ (16 - 1) = 32768 from rfl, decide_eq_decide]
  split <;> split <;> split <;> omega

theorem word_sub_overflow {a m r : Word} (hr : (r.toNat : Int) = ((a.toNat : Int) - m.toNat) % 65536) :
    (a.msb != m.msb && r.msb != a.msb) = true ↔ r.toInt ≠ a.toInt - m.toInt := by
  have ha := a.isLt; have hm := m.isLt
  rw [word_toInt, word_toInt, word_toInt]
  simp only [BitVec.msb_eq_decide, Bool.and_eq_true, bne_iff_ne, Ne]
  simp only [show 2 ^ (16 - 1) = 32768 from rfl, decide_eq_decide]
  split <;> split <;> split <;> omega

/-! ## Sums and differences (R142 to R145) -/

theorem isSum_add8 (a m : Byte) (cin : Bool) (cc : CC) : IsSum a m cin (add8 a m cin cc).1 cc (add8 a m cin cc).2 := by
  have hr : (BitVec.ofNat 8 (a.toNat + m.toNat + cin.toNat)).toNat = (a.toNat + m.toNat + cin.toNat) % 256 := by simp
  refine ⟨hr, nz_nz8 _ _, ?_, ?_, ?_, rfl, rfl, rfl⟩
  · simp [add8, nz8]
  · simp [add8, nz8]
  · exact byte_add_overflow (Bool.toNat_le cin) hr

theorem isDifference_sub8 (undef : Bool) (a m : Byte) (bin : Bool) (cc : CC) :
    IsDifference a m bin (sub8 undef a m bin cc).1 cc (sub8 undef a m bin cc).2 := by
  have hr := toNat_ofInt8 ((a.toNat : Int) - m.toNat - bin.toNat)
  refine ⟨hr, nz_nz8 _ _, ?_, ?_, rfl, rfl, rfl⟩
  · simp only [sub8, nz8, decide_eq_true_eq]; omega
  · exact byte_sub_overflow (Bool.toNat_le bin) hr

theorem isWordSum_add16 (a m : Word) (cc : CC) : IsWordSum a m (add16 a m cc).1 cc (add16 a m cc).2 := by
  have hr : (BitVec.ofNat 16 (a.toNat + m.toNat)).toNat = (a.toNat + m.toNat) % 65536 := by simp
  refine ⟨hr, nzWord_nz16 _ _, ?_, word_add_overflow hr, rfl, rfl, rfl, rfl⟩
  simp [add16, nz16]

theorem isWordDifference_sub16 (undef : Bool) (a m : Word) (cc : CC) :
    IsWordDifference a m (sub16 undef a m cc).1 cc (sub16 undef a m cc).2 := by
  have hr := toNat_ofInt16 ((a.toNat : Int) - m.toNat)
  refine ⟨hr, nzWord_nz16 _ _, ?_, word_sub_overflow hr, rfl, rfl, rfl⟩
  simp only [sub16, nz16, decide_eq_true_eq]; omega

/-- The difference of bytes without a borrow is the machine's subtraction. -/
theorem sub8_fst (undef : Bool) (a m : Byte) (cc : CC) : (sub8 undef a m false cc).1 = a - m := by
  apply BitVec.eq_of_toNat_eq
  have := toNat_ofInt8 ((a.toNat : Int) - m.toNat)
  have ha := a.isLt; have hm := m.isLt
  simp only [sub8, Bool.toNat_false, Nat.cast_zero, sub_zero, BitVec.toNat_sub]
  omega

theorem sub16_fst (undef : Bool) (a m : Word) (cc : CC) : (sub16 undef a m cc).1 = a - m := by
  apply BitVec.eq_of_toNat_eq
  have := toNat_ofInt16 ((a.toNat : Int) - m.toNat)
  have ha := a.isLt; have hm := m.isLt
  simp only [sub16, BitVec.toNat_sub]
  omega

/-! ## Logic (R146, R147, R157) -/

theorem logicFlags_logic8 (r : Byte) (cc : CC) : LogicFlags r cc (logic8 r cc) :=
  ⟨nz_nz8 _ _, rfl, rfl, rfl, rfl, rfl, rfl⟩

theorem logicFlags_tst8 (r : Byte) (cc : CC) : LogicFlags r cc (tst8 r cc) :=
  ⟨nz_nz8 r cc, rfl, rfl, rfl, rfl, rfl, rfl⟩

theorem logicWordFlags_logic16 (r : Word) (cc : CC) : LogicWordFlags r cc (logic16 r cc) :=
  ⟨nzWord_nz16 _ _, rfl, rfl, rfl, rfl, rfl, rfl⟩

/-! ## The single-operand functions (R148 to R158) -/

theorem isRmw_neg8 (undef : Bool) (v : Byte) (cc : CC) : IsRmw .neg v (neg8 undef v cc).1 cc (neg8 undef v cc).2 := by
  refine ⟨⟨rfl, rfl, rfl⟩, nz_nz8 _ _, ?_, ?_, ?_⟩
  · have := toNat_ofInt8 (0 - (v.toNat : Int)); have hv := v.isLt
    simp only [neg8]; omega
  · simp [neg8, nz8, BitVec.toNat_eq]
  · simp [neg8, nz8, BitVec.toNat_eq]

theorem isRmw_com8 (v : Byte) (cc : CC) : IsRmw .com v (com8 v cc).1 cc (com8 v cc).2 := by
  refine ⟨⟨rfl, rfl, rfl⟩, nz_nz8 _ cc, ?_, rfl, rfl, rfl⟩
  have h : ∀ v : Byte, (v ^^^ 0xFF).toNat = 255 - v.toNat := by decide
  exact h v

theorem isRmw_lsr8 (v : Byte) (cc : CC) : IsRmw .lsr v (lsr8 v cc).1 cc (lsr8 v cc).2 := by
  have h : ∀ v : Byte, (v >>> 1).toNat = v.toNat / 2 ∧ ¬ 128 ≤ (v >>> 1).toNat ∧
      (v.getLsbD 0 = true ↔ v.toNat % 2 = 1) ∧ ((v >>> 1 == 0) = true ↔ (v >>> 1).toNat = 0) := by decide
  obtain ⟨h1, h2, h3, h4⟩ := h v
  exact ⟨⟨rfl, rfl, rfl⟩, ⟨⟨fun h => by simp [lsr8] at h, fun h => absurd h h2⟩, h4⟩, h1, h3, rfl, rfl⟩

theorem isRmw_ror8 (v : Byte) (cc : CC) : IsRmw .ror v (ror8 v cc).1 cc (ror8 v cc).2 := by
  have h : ∀ (c : Bool) (v : Byte), (BitVec.ofBool c ++ v.extractLsb' 1 7 : BitVec 8).toNat = v.toNat / 2 + 128 * c.toNat ∧
      (v.getLsbD 0 = true ↔ v.toNat % 2 = 1) := by decide
  exact ⟨⟨rfl, rfl, rfl⟩, nz_nz8 _ _, (h cc.c v).1, (h cc.c v).2, rfl, rfl⟩

theorem isRmw_asr8 (undef : Bool) (v : Byte) (cc : CC) : IsRmw .asr v (asr8 undef v cc).1 cc (asr8 undef v cc).2 := by
  have h : ∀ v : Byte, (BitVec.ofBool v.msb ++ v.extractLsb' 1 7 : BitVec 8).toInt = v.toInt / 2 ∧
      (v.getLsbD 0 = true ↔ v.toNat % 2 = 1) := by decide
  exact ⟨⟨rfl, rfl, rfl⟩, nz_nz8 _ _, (h v).1, (h v).2, rfl⟩

theorem isRmw_asl8 (undef : Bool) (v : Byte) (cc : CC) : IsRmw .asl v (asl8 undef v cc).1 cc (asl8 undef v cc).2 := by
  have h : ∀ v : Byte, (v <<< 1).toNat = 2 * v.toNat % 256 ∧ (v.getLsbD 7 = true ↔ 128 ≤ v.toNat) ∧
      ((v.getLsbD 7 != v.getLsbD 6) = true ↔ (v <<< 1).toInt ≠ 2 * v.toInt) := by decide
  exact ⟨⟨rfl, rfl, rfl⟩, nz_nz8 _ _, (h v).1, (h v).2.1, (h v).2.2⟩

theorem isRmw_rol8 (v : Byte) (cc : CC) : IsRmw .rol v (rol8 v cc).1 cc (rol8 v cc).2 := by
  have h : ∀ (c : Bool) (v : Byte), (v.extractLsb' 0 7 ++ BitVec.ofBool c : BitVec 8).toNat = (2 * v.toNat + c.toNat) % 256 ∧
      (v.getLsbD 7 = true ↔ 128 ≤ v.toNat) ∧
      ((v.getLsbD 7 != v.getLsbD 6) = true ↔ (v.extractLsb' 0 7 ++ BitVec.ofBool c : BitVec 8).msb ≠ v.getLsbD 7) := by decide
  exact ⟨⟨rfl, rfl, rfl⟩, nz_nz8 _ _, (h cc.c v).1, (h cc.c v).2.1, (h cc.c v).2.2, rfl⟩

theorem isRmw_dec8 (v : Byte) (cc : CC) : IsRmw .dec v (dec8 v cc).1 cc (dec8 v cc).2 := by
  have h : ∀ v : Byte, (v - 1).toNat = (v.toNat + 255) % 256 ∧ ((v == 0x80) = true ↔ v.toNat = 128) := by decide
  exact ⟨⟨rfl, rfl, rfl⟩, nz_nz8 _ _, (h v).1, rfl, (h v).2, rfl⟩

theorem isRmw_inc8 (v : Byte) (cc : CC) : IsRmw .inc v (inc8 v cc).1 cc (inc8 v cc).2 := by
  have h : ∀ v : Byte, (v + 1).toNat = (v.toNat + 1) % 256 ∧ ((v == 0x7F) = true ↔ v.toNat = 127) := by decide
  exact ⟨⟨rfl, rfl, rfl⟩, nz_nz8 _ _, (h v).1, rfl, (h v).2, rfl⟩

theorem isRmw_clr8 (v : Byte) (cc : CC) : IsRmw .clr v (clr8 v cc).1 cc (clr8 v cc).2 :=
  ⟨⟨rfl, rfl, rfl⟩, ⟨⟨fun h => by simp [clr8] at h, fun h => by simp [clr8] at h⟩, ⟨fun _ => rfl, fun _ => rfl⟩⟩,
    rfl, rfl, rfl, rfl⟩

/-! ## DAA, MUL, SEX -/

theorem toNat_daa8 (undef : Bool) (a : Byte) (cc : CC) :
    (daa8 undef a cc).1.toNat = (a.toNat + daaCorrection a cc) % 256 := by
  simp only [daa8, daaCorrection, BitVec.toNat_ofNat]
  split <;> split <;> omega

theorem c_daa8 (undef : Bool) (a : Byte) (cc : CC) :
    (daa8 undef a cc).2.c = true ↔ cc.c = true ∨ 255 < a.toNat + daaCorrection a cc := by
  simp only [daa8, nz8, daaCorrection, Bool.or_eq_true, decide_eq_true_eq]
  split <;> split <;> first | omega | simp_all

theorem toNat_mul8 (a b : Byte) (cc : CC) : (mul8 a b cc).1.toNat = a.toNat * b.toNat := by
  have : a.toNat * b.toNat ≤ 255 * 255 := Nat.mul_le_mul (by have := a.isLt; omega) (by have := b.isLt; omega)
  simp only [mul8, BitVec.toNat_ofNat]; omega

theorem z_mul8 (a b : Byte) (cc : CC) : (mul8 a b cc).2.z = true ↔ a.toNat = 0 ∨ b.toNat = 0 := by
  have h := toNat_mul8 a b cc
  simp only [mul8] at h ⊢
  rw [beq_iff_eq, ← BitVec.toNat_inj, h]; simp

/-! ## Branch conditions (R164) -/

theorem holds_iff (c : Cond) (cc : CC) : holds c cc = true ↔ CondHolds c cc := by
  cases c <;> simp [holds, CondHolds]

end Sys2Proof.Machine
end

