-- ==== Sys2Proof/Laws/PerInstr.lean ====
section
/-! SUPPORT. Statements made per instruction, one lemma for each constructor of `Instr`: every encoding takes one to five bytes (30_encoding.md R71). -/

namespace Sys2Proof.Laws

/-- An encoding's length lies in these bounds. -/
def Between (lo hi : Nat) (bs : List Byte) : Prop := lo ≤ bs.length ∧ bs.length ≤ hi

theorem between_idx (i : Idx) : Between 1 3 (encodeIdx i) := by
  have base : ∀ (b : Byte) (m : IdxBase), Between 1 3 (encodeBase b m) := by
    intro b m; cases m <;> simp [Between, encodeBase, encodeWord]
  cases i with
  | plain m => exact base _ m
  | indirect m => exact base _ m
  | _ => simp [Between, encodeIdx, encodeWord]

theorem between_store (p : List Byte) (op : Byte) (a : Addr) :
    Between (p.length + 2) (p.length + 4) (encodeStore p op a) := by
  cases a with
  | direct n => simp [Between, encodeStore, encodeAddr]
  | indexed i => have := between_idx i; simp only [Between] at this; simp [Between, encodeStore, encodeAddr]; omega
  | extended n => simp [Between, encodeStore, encodeAddr, encodeWord]

theorem between_rmw (r : Byte) (a : Addr) : Between 2 4 (encodeRmw r a) := by
  cases a with
  | direct n => simp [Between, encodeRmw, encodeAddr]
  | indexed i => have := between_idx i; simp only [Between] at this; simp [Between, encodeRmw, encodeAddr]; omega
  | extended n => simp [Between, encodeRmw, encodeAddr, encodeWord]

theorem between_src8 (op : Byte) (src : Src8) : Between 2 4 (encodeSrc8 op src) := by
  cases src with
  | imm n => simp [Between, encodeSrc8]
  | mem a => exact between_store [] _ a

theorem between_src16 (p : List Byte) (op : Byte) (src : Src16) :
    Between (p.length + 2) (p.length + 4) (encodeSrc16 p op src) := by
  cases src with
  | imm n => simp [Between, encodeSrc16, encodeWord]
  | mem a => exact between_store p _ a

/-- Looser bounds. -/
theorem Between.mono {lo hi : Nat} {bs : List Byte} (h : Between lo hi bs) (hl : 1 ≤ lo) (hh : hi ≤ 5) : Between 1 5 bs :=
  ⟨hl.trans h.1, h.2.trans hh⟩

theorem between_src8_five (op : Byte) (src : Src8) : Between 1 5 (encodeSrc8 op src) :=
  (between_src8 op src).mono (by decide) (by decide)

theorem between_rmw_five (r : Byte) (a : Addr) : Between 1 5 (encodeRmw r a) :=
  (between_rmw r a).mono (by decide) (by decide)

theorem between_store_page1 (op : Byte) (a : Addr) : Between 1 5 (encodeStore [] op a) :=
  (between_store [] op a).mono (by simp) (by simp)

theorem between_store_prefixed (x op : Byte) (a : Addr) : Between 1 5 (encodeStore [x] op a) :=
  (between_store [x] op a).mono (by simp) (by simp)

theorem between_src16_page1 (op : Byte) (src : Src16) : Between 1 5 (encodeSrc16 [] op src) :=
  (between_src16 [] op src).mono (by simp) (by simp)

theorem between_src16_prefixed (x op : Byte) (src : Src16) : Between 1 5 (encodeSrc16 [x] op src) :=
  (between_src16 [x] op src).mono (by simp) (by simp)

theorem between_of_ble {bs : List Byte} (hl : Nat.ble 1 bs.length = true) (hh : Nat.ble bs.length 5 = true) :
    Between 1 5 bs := ⟨Nat.le_of_ble_eq_true hl, Nat.le_of_ble_eq_true hh⟩

theorem between_cons_idx (op : Byte) (i : Idx) : Between 1 5 (op :: encodeIdx i) := by
  have := between_idx i; simp only [Between] at this; simp [Between]; omega

/-- The instruction, with whatever operands, takes one to five bytes. -/
def EncodeLength.Statement (i : Instr) : Prop := Between 1 5 (encode i)

theorem EncodeLength.adca (src : Src8) : EncodeLength.Statement (.adca src) := between_src8_five _ _

theorem EncodeLength.adcb (src : Src8) : EncodeLength.Statement (.adcb src) := between_src8_five _ _

theorem EncodeLength.adda (src : Src8) : EncodeLength.Statement (.adda src) := between_src8_five _ _

theorem EncodeLength.addb (src : Src8) : EncodeLength.Statement (.addb src) := between_src8_five _ _

theorem EncodeLength.anda (src : Src8) : EncodeLength.Statement (.anda src) := between_src8_five _ _

theorem EncodeLength.andb (src : Src8) : EncodeLength.Statement (.andb src) := between_src8_five _ _

theorem EncodeLength.bita (src : Src8) : EncodeLength.Statement (.bita src) := between_src8_five _ _

theorem EncodeLength.bitb (src : Src8) : EncodeLength.Statement (.bitb src) := between_src8_five _ _

theorem EncodeLength.cmpa (src : Src8) : EncodeLength.Statement (.cmpa src) := between_src8_five _ _

theorem EncodeLength.cmpb (src : Src8) : EncodeLength.Statement (.cmpb src) := between_src8_five _ _

theorem EncodeLength.eora (src : Src8) : EncodeLength.Statement (.eora src) := between_src8_five _ _

theorem EncodeLength.eorb (src : Src8) : EncodeLength.Statement (.eorb src) := between_src8_five _ _

theorem EncodeLength.lda (src : Src8) : EncodeLength.Statement (.lda src) := between_src8_five _ _

theorem EncodeLength.ldb (src : Src8) : EncodeLength.Statement (.ldb src) := between_src8_five _ _

theorem EncodeLength.ora (src : Src8) : EncodeLength.Statement (.ora src) := between_src8_five _ _

theorem EncodeLength.orb (src : Src8) : EncodeLength.Statement (.orb src) := between_src8_five _ _

theorem EncodeLength.sbca (src : Src8) : EncodeLength.Statement (.sbca src) := between_src8_five _ _

theorem EncodeLength.sbcb (src : Src8) : EncodeLength.Statement (.sbcb src) := between_src8_five _ _

theorem EncodeLength.sta (a : Addr) : EncodeLength.Statement (.sta a) := between_store_page1 _ _

theorem EncodeLength.stb (a : Addr) : EncodeLength.Statement (.stb a) := between_store_page1 _ _

theorem EncodeLength.suba (src : Src8) : EncodeLength.Statement (.suba src) := between_src8_five _ _

theorem EncodeLength.subb (src : Src8) : EncodeLength.Statement (.subb src) := between_src8_five _ _

theorem EncodeLength.asl (a : Addr) : EncodeLength.Statement (.asl a) := between_rmw_five _ _

theorem EncodeLength.asla : EncodeLength.Statement .asla := between_of_ble rfl rfl

theorem EncodeLength.aslb : EncodeLength.Statement .aslb := between_of_ble rfl rfl

theorem EncodeLength.asr (a : Addr) : EncodeLength.Statement (.asr a) := between_rmw_five _ _

theorem EncodeLength.asra : EncodeLength.Statement .asra := between_of_ble rfl rfl

theorem EncodeLength.asrb : EncodeLength.Statement .asrb := between_of_ble rfl rfl

theorem EncodeLength.clr (a : Addr) : EncodeLength.Statement (.clr a) := between_rmw_five _ _

theorem EncodeLength.clra : EncodeLength.Statement .clra := between_of_ble rfl rfl

theorem EncodeLength.clrb : EncodeLength.Statement .clrb := between_of_ble rfl rfl

theorem EncodeLength.com (a : Addr) : EncodeLength.Statement (.com a) := between_rmw_five _ _

theorem EncodeLength.coma : EncodeLength.Statement .coma := between_of_ble rfl rfl

theorem EncodeLength.comb : EncodeLength.Statement .comb := between_of_ble rfl rfl

theorem EncodeLength.daa : EncodeLength.Statement .daa := between_of_ble rfl rfl

theorem EncodeLength.dec (a : Addr) : EncodeLength.Statement (.dec a) := between_rmw_five _ _

theorem EncodeLength.deca : EncodeLength.Statement .deca := between_of_ble rfl rfl

theorem EncodeLength.decb : EncodeLength.Statement .decb := between_of_ble rfl rfl

theorem EncodeLength.inc (a : Addr) : EncodeLength.Statement (.inc a) := between_rmw_five _ _

theorem EncodeLength.inca : EncodeLength.Statement .inca := between_of_ble rfl rfl

theorem EncodeLength.incb : EncodeLength.Statement .incb := between_of_ble rfl rfl

theorem EncodeLength.lsr (a : Addr) : EncodeLength.Statement (.lsr a) := between_rmw_five _ _

theorem EncodeLength.lsra : EncodeLength.Statement .lsra := between_of_ble rfl rfl

theorem EncodeLength.lsrb : EncodeLength.Statement .lsrb := between_of_ble rfl rfl

theorem EncodeLength.mul : EncodeLength.Statement .mul := between_of_ble rfl rfl

theorem EncodeLength.neg (a : Addr) : EncodeLength.Statement (.neg a) := between_rmw_five _ _

theorem EncodeLength.nega : EncodeLength.Statement .nega := between_of_ble rfl rfl

theorem EncodeLength.negb : EncodeLength.Statement .negb := between_of_ble rfl rfl

theorem EncodeLength.rol (a : Addr) : EncodeLength.Statement (.rol a) := between_rmw_five _ _

theorem EncodeLength.rola : EncodeLength.Statement .rola := between_of_ble rfl rfl

theorem EncodeLength.rolb : EncodeLength.Statement .rolb := between_of_ble rfl rfl

theorem EncodeLength.ror (a : Addr) : EncodeLength.Statement (.ror a) := between_rmw_five _ _

theorem EncodeLength.rora : EncodeLength.Statement .rora := between_of_ble rfl rfl

theorem EncodeLength.rorb : EncodeLength.Statement .rorb := between_of_ble rfl rfl

theorem EncodeLength.tst (a : Addr) : EncodeLength.Statement (.tst a) := between_rmw_five _ _

theorem EncodeLength.tsta : EncodeLength.Statement .tsta := between_of_ble rfl rfl

theorem EncodeLength.tstb : EncodeLength.Statement .tstb := between_of_ble rfl rfl

theorem EncodeLength.addd (src : Src16) : EncodeLength.Statement (.addd src) := between_src16_page1 _ _

theorem EncodeLength.cmpd (src : Src16) : EncodeLength.Statement (.cmpd src) := between_src16_prefixed _ _ _

theorem EncodeLength.ldd (src : Src16) : EncodeLength.Statement (.ldd src) := between_src16_page1 _ _

theorem EncodeLength.sex : EncodeLength.Statement .sex := between_of_ble rfl rfl

theorem EncodeLength.std (a : Addr) : EncodeLength.Statement (.std a) := between_store_page1 _ _

theorem EncodeLength.subd (src : Src16) : EncodeLength.Statement (.subd src) := between_src16_page1 _ _

theorem EncodeLength.cmps (src : Src16) : EncodeLength.Statement (.cmps src) := between_src16_prefixed _ _ _

theorem EncodeLength.cmpu (src : Src16) : EncodeLength.Statement (.cmpu src) := between_src16_prefixed _ _ _

theorem EncodeLength.cmpx (src : Src16) : EncodeLength.Statement (.cmpx src) := between_src16_page1 _ _

theorem EncodeLength.cmpy (src : Src16) : EncodeLength.Statement (.cmpy src) := between_src16_prefixed _ _ _

theorem EncodeLength.exg (src dst : Reg) : EncodeLength.Statement (.exg src dst) := between_of_ble rfl rfl

theorem EncodeLength.leas (i : Idx) : EncodeLength.Statement (.leas i) := between_cons_idx _ i

theorem EncodeLength.leau (i : Idx) : EncodeLength.Statement (.leau i) := between_cons_idx _ i

theorem EncodeLength.leax (i : Idx) : EncodeLength.Statement (.leax i) := between_cons_idx _ i

theorem EncodeLength.leay (i : Idx) : EncodeLength.Statement (.leay i) := between_cons_idx _ i

theorem EncodeLength.lds (src : Src16) : EncodeLength.Statement (.lds src) := between_src16_prefixed _ _ _

theorem EncodeLength.ldu (src : Src16) : EncodeLength.Statement (.ldu src) := between_src16_page1 _ _

theorem EncodeLength.ldx (src : Src16) : EncodeLength.Statement (.ldx src) := between_src16_page1 _ _

theorem EncodeLength.ldy (src : Src16) : EncodeLength.Statement (.ldy src) := between_src16_prefixed _ _ _

theorem EncodeLength.pshs (mask : Byte) : EncodeLength.Statement (.pshs mask) := between_of_ble rfl rfl

theorem EncodeLength.pshu (mask : Byte) : EncodeLength.Statement (.pshu mask) := between_of_ble rfl rfl

theorem EncodeLength.puls (mask : Byte) : EncodeLength.Statement (.puls mask) := between_of_ble rfl rfl

theorem EncodeLength.pulu (mask : Byte) : EncodeLength.Statement (.pulu mask) := between_of_ble rfl rfl

theorem EncodeLength.sts (a : Addr) : EncodeLength.Statement (.sts a) := between_store_prefixed _ _ _

theorem EncodeLength.stu (a : Addr) : EncodeLength.Statement (.stu a) := between_store_page1 _ _

theorem EncodeLength.stx (a : Addr) : EncodeLength.Statement (.stx a) := between_store_page1 _ _

theorem EncodeLength.sty (a : Addr) : EncodeLength.Statement (.sty a) := between_store_prefixed _ _ _

theorem EncodeLength.tfr (src dst : Reg) : EncodeLength.Statement (.tfr src dst) := between_of_ble rfl rfl

theorem EncodeLength.abx : EncodeLength.Statement .abx := between_of_ble rfl rfl

theorem EncodeLength.bra (off : Byte) : EncodeLength.Statement (.bra off) := between_of_ble rfl rfl

theorem EncodeLength.brn (off : Byte) : EncodeLength.Statement (.brn off) := between_of_ble rfl rfl

theorem EncodeLength.bhi (off : Byte) : EncodeLength.Statement (.bhi off) := between_of_ble rfl rfl

theorem EncodeLength.bls (off : Byte) : EncodeLength.Statement (.bls off) := between_of_ble rfl rfl

theorem EncodeLength.bcc (off : Byte) : EncodeLength.Statement (.bcc off) := between_of_ble rfl rfl

theorem EncodeLength.bcs (off : Byte) : EncodeLength.Statement (.bcs off) := between_of_ble rfl rfl

theorem EncodeLength.bne (off : Byte) : EncodeLength.Statement (.bne off) := between_of_ble rfl rfl

theorem EncodeLength.beq (off : Byte) : EncodeLength.Statement (.beq off) := between_of_ble rfl rfl

theorem EncodeLength.bvc (off : Byte) : EncodeLength.Statement (.bvc off) := between_of_ble rfl rfl

theorem EncodeLength.bvs (off : Byte) : EncodeLength.Statement (.bvs off) := between_of_ble rfl rfl

theorem EncodeLength.bpl (off : Byte) : EncodeLength.Statement (.bpl off) := between_of_ble rfl rfl

theorem EncodeLength.bmi (off : Byte) : EncodeLength.Statement (.bmi off) := between_of_ble rfl rfl

theorem EncodeLength.bge (off : Byte) : EncodeLength.Statement (.bge off) := between_of_ble rfl rfl

theorem EncodeLength.blt (off : Byte) : EncodeLength.Statement (.blt off) := between_of_ble rfl rfl

theorem EncodeLength.bgt (off : Byte) : EncodeLength.Statement (.bgt off) := between_of_ble rfl rfl

theorem EncodeLength.ble (off : Byte) : EncodeLength.Statement (.ble off) := between_of_ble rfl rfl

theorem EncodeLength.bsr (off : Byte) : EncodeLength.Statement (.bsr off) := between_of_ble rfl rfl

theorem EncodeLength.lbra (off : Word) : EncodeLength.Statement (.lbra off) := between_of_ble rfl rfl

theorem EncodeLength.lbrn (off : Word) : EncodeLength.Statement (.lbrn off) := between_of_ble rfl rfl

theorem EncodeLength.lbhi (off : Word) : EncodeLength.Statement (.lbhi off) := between_of_ble rfl rfl

theorem EncodeLength.lbls (off : Word) : EncodeLength.Statement (.lbls off) := between_of_ble rfl rfl

theorem EncodeLength.lbcc (off : Word) : EncodeLength.Statement (.lbcc off) := between_of_ble rfl rfl

theorem EncodeLength.lbcs (off : Word) : EncodeLength.Statement (.lbcs off) := between_of_ble rfl rfl

theorem EncodeLength.lbne (off : Word) : EncodeLength.Statement (.lbne off) := between_of_ble rfl rfl

theorem EncodeLength.lbeq (off : Word) : EncodeLength.Statement (.lbeq off) := between_of_ble rfl rfl

theorem EncodeLength.lbvc (off : Word) : EncodeLength.Statement (.lbvc off) := between_of_ble rfl rfl

theorem EncodeLength.lbvs (off : Word) : EncodeLength.Statement (.lbvs off) := between_of_ble rfl rfl

theorem EncodeLength.lbpl (off : Word) : EncodeLength.Statement (.lbpl off) := between_of_ble rfl rfl

theorem EncodeLength.lbmi (off : Word) : EncodeLength.Statement (.lbmi off) := between_of_ble rfl rfl

theorem EncodeLength.lbge (off : Word) : EncodeLength.Statement (.lbge off) := between_of_ble rfl rfl

theorem EncodeLength.lblt (off : Word) : EncodeLength.Statement (.lblt off) := between_of_ble rfl rfl

theorem EncodeLength.lbgt (off : Word) : EncodeLength.Statement (.lbgt off) := between_of_ble rfl rfl

theorem EncodeLength.lble (off : Word) : EncodeLength.Statement (.lble off) := between_of_ble rfl rfl

theorem EncodeLength.lbsr (off : Word) : EncodeLength.Statement (.lbsr off) := between_of_ble rfl rfl

theorem EncodeLength.andcc (n : Byte) : EncodeLength.Statement (.andcc n) := between_of_ble rfl rfl

theorem EncodeLength.cwai (n : Byte) : EncodeLength.Statement (.cwai n) := between_of_ble rfl rfl

theorem EncodeLength.nop : EncodeLength.Statement .nop := between_of_ble rfl rfl

theorem EncodeLength.orcc (n : Byte) : EncodeLength.Statement (.orcc n) := between_of_ble rfl rfl

theorem EncodeLength.jmp (a : Addr) : EncodeLength.Statement (.jmp a) := between_rmw_five _ _

theorem EncodeLength.jsr (a : Addr) : EncodeLength.Statement (.jsr a) := between_store_page1 _ _

theorem EncodeLength.rti : EncodeLength.Statement .rti := between_of_ble rfl rfl

theorem EncodeLength.rts : EncodeLength.Statement .rts := between_of_ble rfl rfl

theorem EncodeLength.swi : EncodeLength.Statement .swi := between_of_ble rfl rfl

theorem EncodeLength.swi2 : EncodeLength.Statement .swi2 := between_of_ble rfl rfl

theorem EncodeLength.swi3 : EncodeLength.Statement .swi3 := between_of_ble rfl rfl

theorem EncodeLength.sync : EncodeLength.Statement .sync := between_of_ble rfl rfl

end Sys2Proof.Laws
end

