-- ==== Sys2Proof/Laws/Shapes.lean ====
section
/-! SUPPORT. What the shapes of Shapes.lean do: results, frames, and the accesses they make. -/

namespace Sys2Proof.Machine

/-! ## Read-modify-write (R159) -/

/-- RMW on memory with an operation that is `op`: the byte at the address, the flags, the two accesses, and what stays. -/
theorem rmwMem_spec (f : Byte → CC → Byte × CC) (op : RmwOp)
    (hf : ∀ v cc, IsRmw op v (f v cc).1 cc (f v cc).2) (a : Addr)
    (σ τ : State) (u : Undisturbed σ) (h : σ.mem.wf = true) (ht : τ = rmwMem f a σ) :
      IsRmw op (peek (effAddr a σ).1 σ) (peek (effAddr a σ).1 τ) σ.cc τ.cc ∧
      KeepsMemoryOutside [(effAddr a σ).1] σ τ ∧
      τ.bus = (effAddr a σ).2.bus ++
        [{ write := false, ack := false, addr := (effAddr a σ).1, data := peek (effAddr a σ).1 σ },
         { write := true, ack := false, addr := (effAddr a σ).1, data := peek (effAddr a σ).1 τ }] ∧
      KeepsRegs [] (addrDelta a) σ τ ∧ KeepsNmi σ τ ∧ KeepsControl σ τ := by
  subst ht
  have hp : peek (effAddr a σ).1 (rmwMem f a σ) = (f (peek (effAddr a σ).1 σ) σ.cc).1 := by
    simp only [rmwMem]; rw [peek_writeByte_same _ _ _ (by simp [Undisturbed, u.1, u.2]) (by simpa [u.2] using h)]; simp [u.1, u.2]
  refine ⟨?_, ?_, ?_, ?_, ?_, ?_⟩
  · rw [hp]; simpa [rmwMem, u.1, u.2] using hf _ σ.cc
  · intro i hi; simp at hi; simp only [rmwMem]; rw [peek_writeByte_other _ hi _ (by simp [u.2])]; simp [u.2]
  · rw [hp]; simp [rmwMem, u.1, u.2]
  all_goals simp [rmwMem, KeepsRegs, KeepsNmi, KeepsControl, KeepsCounters, u.1, u.2]

/-- The same where one flag is drawn. -/
theorem rmwMemUndef_spec (f : Bool → Byte → CC → Byte × CC) (op : RmwOp)
    (hf : ∀ u v cc, IsRmw op v (f u v cc).1 cc (f u v cc).2) (a : Addr)
    (σ τ : State) (u : Undisturbed σ) (h : σ.mem.wf = true) (ht : τ = rmwMemUndef f a σ) :
      IsRmw op (peek (effAddr a σ).1 σ) (peek (effAddr a σ).1 τ) σ.cc τ.cc ∧
      KeepsMemoryOutside [(effAddr a σ).1] σ τ ∧
      τ.bus = (effAddr a σ).2.bus ++
        [{ write := false, ack := false, addr := (effAddr a σ).1, data := peek (effAddr a σ).1 σ },
         { write := true, ack := false, addr := (effAddr a σ).1, data := peek (effAddr a σ).1 τ }] ∧
      KeepsRegs [] (addrDelta a) σ τ ∧ KeepsNmi σ τ ∧ KeepsControl σ τ := by
  subst ht
  have hp : peek (effAddr a σ).1 (rmwMemUndef f a σ) = (f (Config.undefFlag σ.draws) (peek (effAddr a σ).1 σ) σ.cc).1 := by
    simp only [rmwMemUndef]
    rw [peek_writeByte_same _ _ _ (by simp [Undisturbed, u.1, u.2]) (by simpa [u.2] using h)]; simp [drawFlag, u.1, u.2]
  refine ⟨?_, ?_, ?_, ?_, ?_, ?_⟩
  · rw [hp]; simpa [rmwMemUndef, drawFlag, u.1, u.2] using hf _ _ σ.cc
  · intro i hi; simp at hi; simp only [rmwMemUndef]; rw [peek_writeByte_other _ hi _ (by simp [u.2])]; simp [u.2]
  · rw [hp]; simp [rmwMemUndef, drawFlag, u.1, u.2]
  all_goals simp [rmwMemUndef, KeepsRegs, KeepsNmi, KeepsControl, KeepsCounters, u.1, u.2]

/-- The same on an accumulator. -/
theorem rmwAcc_spec (f : Byte → CC → Byte × CC) (op : RmwOp)
    (hf : ∀ v cc, IsRmw op v (f v cc).1 cc (f v cc).2) (r : Acc)
    (σ τ : State) (ht : τ = rmwAcc f r σ) :
    IsRmw op (acc r σ) (acc r τ) σ.cc τ.cc ∧
      τ.bus = σ.bus ∧ KeepsRegs [accR r] noDelta σ τ ∧ KeepsMemory σ τ ∧ KeepsNmi σ τ ∧ KeepsControl σ τ := by
  subst ht
  refine ⟨by simpa [rmwAcc] using hf _ _, ?_⟩
  cases r <;> simp [rmwAcc, KeepsRegs, KeepsMemory, KeepsNmi, KeepsControl, KeepsCounters, accR, noDelta]

/-- The same where one flag is drawn. -/
theorem rmwAccUndef_spec (f : Bool → Byte → CC → Byte × CC) (op : RmwOp)
    (hf : ∀ u v cc, IsRmw op v (f u v cc).1 cc (f u v cc).2) (r : Acc)
    (σ τ : State) (ht : τ = rmwAccUndef f r σ) :
    IsRmw op (acc r σ) (acc r τ) σ.cc τ.cc ∧
      τ.bus = σ.bus ∧ KeepsRegs [accR r] noDelta σ τ ∧ KeepsMemory σ τ ∧ KeepsNmi σ τ ∧ KeepsControl σ τ := by
  subst ht
  refine ⟨by simpa [rmwAccUndef] using hf _ _ _, ?_⟩
  cases r <;> simp [rmwAccUndef, KeepsRegs, KeepsMemory, KeepsNmi, KeepsControl, KeepsCounters, accR, noDelta]

/-! ## Accesses -/

theorem makes_setCc {P : BusCycle → Prop} (cc : CC) (σ : State) : Makes P σ (setCc cc σ) := makes_of_eq rfl

theorem makes_countDraw {P : BusCycle → Prop} (σ : State) : Makes P σ (countDraw σ) := makes_of_eq rfl

theorem makes_accBinary (f : Byte → Byte → CC → Byte × CC) (r : Acc) (src : Src8) (σ : State) :
    Makes IsRead σ (accBinary f r src σ) :=
  (makes_operand8 src σ).andThen (by simp [accBinary])

theorem makes_accBinaryUndef (f : Bool → Byte → Byte → CC → Byte × CC) (r : Acc) (src : Src8) (σ : State) :
    Makes IsRead σ (accBinaryUndef f r src σ) :=
  (makes_operand8 src σ).andThen (by simp [accBinaryUndef])

theorem makes_accTest (f : Byte → Byte → CC → Byte × CC) (r : Acc) (src : Src8) (σ : State) :
    Makes IsRead σ (accTest f r src σ) :=
  (makes_operand8 src σ).andThen (by simp [accTest])

theorem makes_accCompare (r : Acc) (src : Src8) (σ : State) : Makes IsRead σ (accCompare r src σ) :=
  (makes_operand8 src σ).andThen (by simp [accCompare])

theorem makes_storeAcc (r : Acc) (a : Addr) (σ : State) : Makes NoAck σ (storeAcc r a σ) :=
  (((makes_effAddr a σ).mono fun _ => IsRead.noAck).trans (makes_setCc _ _)).trans (makes_writeByte _ _ _)

theorem makes_rmwMem (f : Byte → CC → Byte × CC) (a : Addr) (σ : State) : Makes NoAck σ (rmwMem f a σ) :=
  (((((makes_effAddr a σ).trans (makes_readByte _ _)).mono fun _ => IsRead.noAck).trans (makes_setCc _ _)).trans (makes_vmaCycles 1 _)).trans
    (makes_writeByte _ _ _)

theorem makes_rmwMemUndef (f : Bool → Byte → CC → Byte × CC) (a : Addr) (σ : State) : Makes NoAck σ (rmwMemUndef f a σ) :=
  ((((((makes_effAddr a σ).trans (makes_readByte _ _)).mono fun _ => IsRead.noAck).trans (makes_countDraw _)).trans
    (makes_setCc _ _)).trans (makes_vmaCycles 1 _)).trans (makes_writeByte _ _ _)

theorem makes_rmwAcc (f : Byte → CC → Byte × CC) (r : Acc) (σ : State) : Makes IsRead σ (rmwAcc f r σ) :=
  makes_of_eq (by simp [rmwAcc])

theorem makes_rmwAccUndef (f : Bool → Byte → CC → Byte × CC) (r : Acc) (σ : State) : Makes IsRead σ (rmwAccUndef f r σ) :=
  makes_of_eq (by simp [rmwAccUndef])

theorem makes_testMem (a : Addr) (σ : State) : Makes IsRead σ (testMem a σ) :=
  (makes_effAddr a σ).trans ((makes_readByte _ _).andThen rfl)

theorem makes_testAcc (r : Acc) (σ : State) : Makes IsRead σ (testAcc r σ) := makes_of_eq rfl

theorem makes_load16 (r : Reg16) (src : Src16) (σ : State) : Makes IsRead σ (load16 r src σ) :=
  (makes_operand16 src σ).andThen (by cases r <;> simp [load16, writeReg16])

theorem makes_store16 (r : Reg16) (a : Addr) (σ : State) : Makes NoAck σ (store16 r a σ) :=
  (((makes_effAddr a σ).mono fun _ => IsRead.noAck).trans (makes_setCc _ _)).trans (makes_writeWord _ _ _)

theorem makes_compare16 (r : Reg16) (src : Src16) (σ : State) : Makes IsRead σ (compare16 r src σ) :=
  (makes_operand16 src σ).andThen (by simp [compare16])

theorem makes_branch (c : Cond) (off : Word) (σ : State) : Makes IsRead σ (branch c off σ) := by
  rw [branch]; split
  · exact makes_of_eq rfl
  · exact Makes.refl σ

theorem makes_call (target : Word) (σ : State) : Makes NoAck σ (call target σ) :=
  (makes_push16 _ _ _).andThen rfl

/-! ## Calls -/

/-- A call pushes the next instruction's address, low byte first at the higher address, and jumps (R272, R289, R295). -/
theorem call_spec (t : Word) (σ : State) (u : Undisturbed σ) (h : σ.mem.wf = true) :
    (call t σ).pc = t ∧ (call t σ).s = σ.s - 2 ∧ peekWord (σ.s - 2) (call t σ) = σ.pc ∧
    KeepsMemoryOutside [σ.s - 2, σ.s - 1] σ (call t σ) ∧
    (call t σ).bus = σ.bus ++ [{ write := true, ack := false, addr := σ.s - 1, data := lo σ.pc },
      { write := true, ack := false, addr := σ.s - 2, data := hi σ.pc }] ∧
    KeepsRegsAndFlags [.r16 .pc, .r16 .s] noDelta σ (call t σ) ∧ KeepsNmi σ (call t σ) ∧ KeepsControl σ (call t σ) := by
  have p₀ : Pushed .s [] σ σ := Pushed.refl u h
  have p := p₀.push16 σ.pc (by simp)
  have hs : (push16 .s σ.pc σ).s = σ.s - 2 := p.ptr_eq
  refine ⟨rfl, hs, ?_, ?_, ?_, ?_, ?_, ?_⟩
  · have := p.holds
    simp only [MemoryHolds, ptr_s, hs, List.length_cons, List.length_nil, span, List.map_cons, List.map_nil, List.cons.injEq] at this
    simp only [call, peekWord, peek_setPc, this]; simp
  · intro i hi
    have := p.outside i
    simp only [ptr_s, hs, List.length_cons, List.length_nil, span] at this
    simp only [call, peek_setPc]
    apply this
    have : σ.s - 2 + 1 = σ.s - 1 := by bv_omega
    rw [this]; exact hi
  · simp [call, push16, push8, u.2]; bv_omega
  · simp [call, KeepsRegsAndFlags, KeepsRegs, noDelta, push16, push8]
  · simp [call, KeepsNmi, push16, push8]
  · simp [call, KeepsControl, KeepsCounters, u.2]

end Sys2Proof.Machine
end

