-- ==== Sys2Proof/Tests/Slice0.lean ====
section
/-! SUPPORT. Tests. Every expected value comes from the spec: the opcode and postbyte tables of 30_encoding.md, the "Example" lines of files 41 to 46, and part 3 of 95_test_vectors.md. The witnesses at the end show that the hypotheses of the statements can be met. -/

namespace Sys2Proof.Tests

open Sys2Proof.Machine

/-! ## Helpers -/

def noFlags : CC := { e := false, f := false, h := false, i := false, n := false, z := false, v := false, c := false }

/-- "every register, flag and memory byte not listed starts at 0", PC at $1000. -/
def cleared : State := { State.reset with cc := noFlags, pc := 0x1000 }

/-- One step from `σ` with these bytes at PC gives a state of which `p` holds. -/
def check (bytes : List Byte) (σ : State) (p : State → Bool) : Bool :=
  match step { σ with mem := storeBytes σ.pc bytes σ.mem } with
  | .next τ => p τ
  | .fault _ => false
  | .refused _ => false

/-- One step from `σ` gives a state of which `p` holds. -/
def steps (σ : State) (p : State → Bool) : Bool :=
  match step σ with
  | .next τ => p τ
  | .fault _ => false
  | .refused _ => false

/-- Each list of bytes decodes, whole, to the instruction beside it. -/
def decodes (rows : List (List Byte × Instr)) : Bool :=
  rows.all fun row =>
    match decode row.1 with
    | .ok (i, rest) => decide (i = row.2) && rest.isEmpty
    | .error _ => false

/-! ## Well-formed instructions -/

theorem test_wf_refuses_tfr_of_unlike_size : (Instr.tfr (.r16 .d) (.r8 .a)).wf = false := by decide

theorem test_wf_refuses_tfr_to_a_word : (Instr.tfr (.r8 .b) (.r16 .x)).wf = false := by decide

theorem test_wf_refuses_exg_of_unlike_size : (Instr.exg (.r8 .cc) (.r16 .s)).wf = false := by decide

theorem test_wf_accepts_like_size : (Instr.tfr (.r8 .a) (.r8 .dp)).wf = true ∧ (Instr.exg (.r16 .x) (.r16 .pc)).wf = true := by
  decide

/-! ## Decoding -/

/-- The forms of R104's table, each with its postbyte written from its pattern `1RRIxxxx` or `0RRnnnnn`. -/
theorem test_decode_indexed_forms : decodes [
    ([0xA6, 0x5F], .lda (.mem (.indexed (.off5 .u 0x1F)))),
    ([0xA6, 0xA0], .lda (.mem (.indexed (.inc1 .y)))),
    ([0xA6, 0xC1], .lda (.mem (.indexed (.plain (.inc2 .u))))),
    ([0xA6, 0xE2], .lda (.mem (.indexed (.dec1 .s)))),
    ([0xA6, 0x83], .lda (.mem (.indexed (.plain (.dec2 .x))))),
    ([0xA6, 0xA4], .lda (.mem (.indexed (.plain (.zero .y))))),
    ([0xA6, 0xC5], .lda (.mem (.indexed (.plain (.accB .u))))),
    ([0xA6, 0xE6], .lda (.mem (.indexed (.plain (.accA .s))))),
    ([0xA6, 0x88, 0x80], .lda (.mem (.indexed (.plain (.off8 .x 0x80))))),
    ([0xA6, 0xA9, 0x12, 0x34], .lda (.mem (.indexed (.plain (.off16 .y 0x1234))))),
    ([0xA6, 0xCB], .lda (.mem (.indexed (.plain (.accD .u))))),
    ([0xA6, 0x8C, 0xFE], .lda (.mem (.indexed (.plain (.pcr8 0xFE))))),
    ([0xA6, 0x8D, 0x01, 0x00], .lda (.mem (.indexed (.plain (.pcr16 0x0100)))))] = true := by decide

theorem test_decode_indirect_forms : decodes [
    ([0xA6, 0x91], .lda (.mem (.indexed (.indirect (.inc2 .x))))),
    ([0xA6, 0xB3], .lda (.mem (.indexed (.indirect (.dec2 .y))))),
    ([0xA6, 0xD4], .lda (.mem (.indexed (.indirect (.zero .u))))),
    ([0xA6, 0xF5], .lda (.mem (.indexed (.indirect (.accB .s))))),
    ([0xA6, 0x96], .lda (.mem (.indexed (.indirect (.accA .x))))),
    ([0xA6, 0xB8, 0x7F], .lda (.mem (.indexed (.indirect (.off8 .y 0x7F))))),
    ([0xA6, 0xD9, 0x80, 0x00], .lda (.mem (.indexed (.indirect (.off16 .u 0x8000))))),
    ([0xA6, 0xFB], .lda (.mem (.indexed (.indirect (.accD .s))))),
    ([0xA6, 0x9C, 0x01], .lda (.mem (.indexed (.indirect (.pcr8 0x01))))),
    ([0xA6, 0x9D, 0xFF, 0x00], .lda (.mem (.indexed (.indirect (.pcr16 0xFF00))))),
    ([0xA6, 0x9F, 0x20, 0x00], .lda (.mem (.indexed (.extIndirect 0x2000))))] = true := by decide

theorem test_decode_refuses_unused_opcode : decode [0x01, 0x00] = .error (.unusedOpcode 1 0x01) := by rfl

/-- Words of the Example lines of 41_8bit_accumulator_memory.md. -/
theorem test_decode_acc8_1 : decodes [
    ([0xA9, 0x84], .adca (.mem (.indexed (.plain (.zero .x))))),
    ([0xE9, 0x84], .adcb (.mem (.indexed (.plain (.zero .x))))),
    ([0xAB, 0x84], .adda (.mem (.indexed (.plain (.zero .x))))),
    ([0xEB, 0x84], .addb (.mem (.indexed (.plain (.zero .x))))),
    ([0xA4, 0x84], .anda (.mem (.indexed (.plain (.zero .x))))),
    ([0xE4, 0x84], .andb (.mem (.indexed (.plain (.zero .x))))),
    ([0xA5, 0x84], .bita (.mem (.indexed (.plain (.zero .x))))),
    ([0xE5, 0x84], .bitb (.mem (.indexed (.plain (.zero .x))))),
    ([0xA1, 0x84], .cmpa (.mem (.indexed (.plain (.zero .x))))),
    ([0xE1, 0x84], .cmpb (.mem (.indexed (.plain (.zero .x))))),
    ([0xA8, 0x84], .eora (.mem (.indexed (.plain (.zero .x))))),
    ([0xE8, 0x84], .eorb (.mem (.indexed (.plain (.zero .x)))))] = true := by decide

/-- Words of the Example lines of 41_8bit_accumulator_memory.md. -/
theorem test_decode_acc8_2 : decodes [
    ([0xA6, 0x84], .lda (.mem (.indexed (.plain (.zero .x))))),
    ([0xE6, 0x84], .ldb (.mem (.indexed (.plain (.zero .x))))),
    ([0xAA, 0x84], .ora (.mem (.indexed (.plain (.zero .x))))),
    ([0xEA, 0x84], .orb (.mem (.indexed (.plain (.zero .x))))),
    ([0xA2, 0x84], .sbca (.mem (.indexed (.plain (.zero .x))))),
    ([0xE2, 0x84], .sbcb (.mem (.indexed (.plain (.zero .x))))),
    ([0xA7, 0x80], .sta (.indexed (.inc1 .x))),
    ([0xE7, 0x80], .stb (.indexed (.inc1 .x))),
    ([0xA0, 0x84], .suba (.mem (.indexed (.plain (.zero .x))))),
    ([0xE0, 0x84], .subb (.mem (.indexed (.plain (.zero .x)))))] = true := by decide

/-- Words of the Example lines of 42_8bit_read_modify_write.md. -/
theorem test_decode_rmw8_1 : decodes [
    ([0x08, 0x40], .asl (.direct 0x40)),
    ([0x48], .asla),
    ([0x58], .aslb),
    ([0x07, 0x40], .asr (.direct 0x40)),
    ([0x47], .asra),
    ([0x57], .asrb),
    ([0x0F, 0x40], .clr (.direct 0x40)),
    ([0x4F], .clra),
    ([0x5F], .clrb),
    ([0x03, 0x40], .com (.direct 0x40)),
    ([0x43], .coma),
    ([0x53], .comb)] = true := by decide

/-- Words of the Example lines of 42_8bit_read_modify_write.md. -/
theorem test_decode_rmw8_2 : decodes [
    ([0x19], .daa),
    ([0x0A, 0x40], .dec (.direct 0x40)),
    ([0x4A], .deca),
    ([0x5A], .decb),
    ([0x0C, 0x40], .inc (.direct 0x40)),
    ([0x4C], .inca),
    ([0x5C], .incb),
    ([0x04, 0x40], .lsr (.direct 0x40)),
    ([0x44], .lsra),
    ([0x54], .lsrb),
    ([0x3D], .mul),
    ([0x00, 0x40], .neg (.direct 0x40))] = true := by decide

/-- Words of the Example lines of 42_8bit_read_modify_write.md. -/
theorem test_decode_rmw8_3 : decodes [
    ([0x40], .nega),
    ([0x50], .negb),
    ([0x09, 0x40], .rol (.direct 0x40)),
    ([0x49], .rola),
    ([0x59], .rolb),
    ([0x06, 0x40], .ror (.direct 0x40)),
    ([0x46], .rora),
    ([0x56], .rorb),
    ([0x0D, 0x40], .tst (.direct 0x40)),
    ([0x4D], .tsta),
    ([0x5D], .tstb)] = true := by decide

/-- Words of the Example lines of 43_16bit_accumulator_memory.md. -/
theorem test_decode_acc16_1 : decodes [
    ([0xF3, 0x20, 0x01], .addd (.mem (.extended 0x2001))),
    ([0x10, 0x83, 0x80, 0x00], .cmpd (.imm 0x8000)),
    ([0xEC, 0x81], .ldd (.mem (.indexed (.plain (.inc2 .x))))),
    ([0x1D], .sex),
    ([0xED, 0x83], .std (.indexed (.plain (.dec2 .x)))),
    ([0x93, 0x10], .subd (.mem (.direct 0x10)))] = true := by decide

/-- Words of the Example lines of 44_index_stack.md. -/
theorem test_decode_indexStack_1 : decodes [
    ([0x11, 0x8C, 0x20, 0x00], .cmps (.imm 0x2000)),
    ([0x11, 0x83, 0x20, 0x00], .cmpu (.imm 0x2000)),
    ([0x8C, 0x20, 0x00], .cmpx (.imm 0x2000)),
    ([0x10, 0x8C, 0x20, 0x00], .cmpy (.imm 0x2000)),
    ([0x1E, 0x15], .exg (.r16 .x) (.r16 .pc)),
    ([0x32, 0xE2], .leas (.dec1 .s)),
    ([0x33, 0xC2], .leau (.dec1 .u)),
    ([0x30, 0x82], .leax (.dec1 .x)),
    ([0x31, 0xA2], .leay (.dec1 .y)),
    ([0x10, 0xEE, 0x9F, 0x20, 0x00], .lds (.mem (.indexed (.extIndirect 0x2000)))),
    ([0xEE, 0x9F, 0x20, 0x00], .ldu (.mem (.indexed (.extIndirect 0x2000)))),
    ([0xAE, 0x9F, 0x20, 0x00], .ldx (.mem (.indexed (.extIndirect 0x2000))))] = true := by decide

/-- Words of the Example lines of 44_index_stack.md. -/
theorem test_decode_indexStack_2 : decodes [
    ([0x10, 0xAE, 0x9F, 0x20, 0x00], .ldy (.mem (.indexed (.extIndirect 0x2000)))),
    ([0x34, 0x50], .pshs 0x50),
    ([0x36, 0x50], .pshu 0x50),
    ([0x35, 0x30], .puls 0x30),
    ([0x37, 0x30], .pulu 0x30),
    ([0x10, 0xEF, 0xE1], .sts (.indexed (.plain (.inc2 .s)))),
    ([0xEF, 0xC1], .stu (.indexed (.plain (.inc2 .u)))),
    ([0xAF, 0x81], .stx (.indexed (.plain (.inc2 .x)))),
    ([0x10, 0xAF, 0xA1], .sty (.indexed (.plain (.inc2 .y)))),
    ([0x1F, 0x8A], .tfr (.r8 .a) (.r8 .cc)),
    ([0x3A], .abx)] = true := by decide

/-- Words of the Example lines of 45_branches.md. -/
theorem test_decode_branches_1 : decodes [
    ([0x20, 0xFC], .bra 0xFC),
    ([0x21, 0x10], .brn 0x10),
    ([0x22, 0x10], .bhi 0x10),
    ([0x23, 0x10], .bls 0x10),
    ([0x24, 0x10], .bcc 0x10),
    ([0x25, 0x10], .bcs 0x10),
    ([0x26, 0x10], .bne 0x10),
    ([0x27, 0x10], .beq 0x10),
    ([0x28, 0x10], .bvc 0x10),
    ([0x29, 0x10], .bvs 0x10),
    ([0x2A, 0x10], .bpl 0x10),
    ([0x2B, 0x10], .bmi 0x10)] = true := by decide

/-- Words of the Example lines of 45_branches.md. -/
theorem test_decode_branches_2 : decodes [
    ([0x2C, 0x10], .bge 0x10),
    ([0x2D, 0x10], .blt 0x10),
    ([0x2E, 0x10], .bgt 0x10),
    ([0x2F, 0x10], .ble 0x10),
    ([0x8D, 0xFE], .bsr 0xFE),
    ([0x16, 0xFF, 0x00], .lbra 0xFF00),
    ([0x10, 0x21, 0x12, 0x34], .lbrn 0x1234),
    ([0x10, 0x22, 0x12, 0x34], .lbhi 0x1234),
    ([0x10, 0x23, 0x12, 0x34], .lbls 0x1234),
    ([0x10, 0x24, 0x12, 0x34], .lbcc 0x1234),
    ([0x10, 0x25, 0x12, 0x34], .lbcs 0x1234),
    ([0x10, 0x26, 0x12, 0x34], .lbne 0x1234)] = true := by decide

/-- Words of the Example lines of 45_branches.md. -/
theorem test_decode_branches_3 : decodes [
    ([0x10, 0x27, 0x12, 0x34], .lbeq 0x1234),
    ([0x10, 0x28, 0x12, 0x34], .lbvc 0x1234),
    ([0x10, 0x29, 0x12, 0x34], .lbvs 0x1234),
    ([0x10, 0x2A, 0x12, 0x34], .lbpl 0x1234),
    ([0x10, 0x2B, 0x12, 0x34], .lbmi 0x1234),
    ([0x10, 0x2C, 0x12, 0x34], .lbge 0x1234),
    ([0x10, 0x2D, 0x12, 0x34], .lblt 0x1234),
    ([0x10, 0x2E, 0x12, 0x34], .lbgt 0x1234),
    ([0x10, 0x2F, 0x12, 0x34], .lble 0x1234),
    ([0x17, 0xFF, 0xFD], .lbsr 0xFFFD)] = true := by decide

/-- Words of the Example lines of 46_miscellaneous.md. -/
theorem test_decode_miscellaneous_1 : decodes [
    ([0x1C, 0xFE], .andcc 0xFE),
    ([0x1A, 0x01], .orcc 0x01),
    ([0x3C, 0xEF], .cwai 0xEF),
    ([0x12], .nop),
    ([0x6E, 0x84], .jmp (.indexed (.plain (.zero .x)))),
    ([0x9D, 0x40], .jsr (.direct 0x40)),
    ([0x3B], .rti),
    ([0x39], .rts),
    ([0x3F], .swi),
    ([0x10, 0x3F], .swi2),
    ([0x11, 0x3F], .swi3),
    ([0x13], .sync)] = true := by decide

/-! ## One step of each instruction -/

/-- ADCA: `ADCA #$01` of 41_8bit_accumulator_memory.md. -/
theorem test_adca : check [0x89, 0x01] { cleared with a := 0xFF, cc := { noFlags with c := true } }
    (fun τ => τ.a == 0x1 && τ.pc == 0x1002 && τ.cc.h && !τ.cc.n && !τ.cc.z && !τ.cc.v && τ.cc.c) = true := by decide

/-- ADCB: `ADCB #$01` of 41_8bit_accumulator_memory.md. -/
theorem test_adcb : check [0xC9, 0x01] { cleared with b := 0xFF, cc := { noFlags with c := true } }
    (fun τ => τ.b == 0x1 && τ.pc == 0x1002 && τ.cc.h && !τ.cc.n && !τ.cc.z && !τ.cc.v && τ.cc.c) = true := by decide

/-- ADDA: `ADDA #$01` of 41_8bit_accumulator_memory.md. -/
theorem test_adda : check [0x8B, 0x01] { cleared with a := 0x7F }
    (fun τ => τ.a == 0x80 && τ.pc == 0x1002 && τ.cc.h && τ.cc.n && !τ.cc.z && τ.cc.v && !τ.cc.c) = true := by decide

/-- ADDB: `ADDB #$01` of 41_8bit_accumulator_memory.md. -/
theorem test_addb : check [0xCB, 0x01] { cleared with b := 0x7F }
    (fun τ => τ.b == 0x80 && τ.pc == 0x1002 && τ.cc.h && τ.cc.n && !τ.cc.z && τ.cc.v && !τ.cc.c) = true := by decide

/-- ANDA: `ANDA #$0F` of 41_8bit_accumulator_memory.md. -/
theorem test_anda : check [0x84, 0x0F] { cleared with a := 0xF0, cc := { noFlags with c := true, v := true } }
    (fun τ => τ.a == 0x0 && τ.pc == 0x1002 && !τ.cc.n && τ.cc.z && !τ.cc.v && τ.cc.c) = true := by decide

/-- ANDB: `ANDB #$0F` of 41_8bit_accumulator_memory.md. -/
theorem test_andb : check [0xC4, 0x0F] { cleared with b := 0xF0, cc := { noFlags with c := true, v := true } }
    (fun τ => τ.b == 0x0 && τ.pc == 0x1002 && !τ.cc.n && τ.cc.z && !τ.cc.v && τ.cc.c) = true := by decide

/-- BITA: `BITA #$80` of 41_8bit_accumulator_memory.md. -/
theorem test_bita : check [0x85, 0x80] { cleared with a := 0x81 }
    (fun τ => τ.a == 0x81 && τ.pc == 0x1002 && τ.cc.n && !τ.cc.z && !τ.cc.v && !τ.cc.c) = true := by decide

/-- BITB: `BITB #$80` of 41_8bit_accumulator_memory.md. -/
theorem test_bitb : check [0xC5, 0x80] { cleared with b := 0x81 }
    (fun τ => τ.b == 0x81 && τ.pc == 0x1002 && τ.cc.n && !τ.cc.z && !τ.cc.v && !τ.cc.c) = true := by decide

/-- CMPA: `CMPA #$20` of 41_8bit_accumulator_memory.md. -/
theorem test_cmpa : check [0x81, 0x20] { cleared with a := 0x10 }
    (fun τ => τ.a == 0x10 && τ.pc == 0x1002 && τ.cc.n && !τ.cc.z && !τ.cc.v && τ.cc.c) = true := by decide

/-- CMPB: `CMPB #$20` of 41_8bit_accumulator_memory.md. -/
theorem test_cmpb : check [0xC1, 0x20] { cleared with b := 0x10 }
    (fun τ => τ.b == 0x10 && τ.pc == 0x1002 && τ.cc.n && !τ.cc.z && !τ.cc.v && τ.cc.c) = true := by decide

/-- EORA: `EORA #$FF` of 41_8bit_accumulator_memory.md. -/
theorem test_eora : check [0x88, 0xFF] { cleared with a := 0xF }
    (fun τ => τ.a == 0xF0 && τ.pc == 0x1002 && τ.cc.n && !τ.cc.z && !τ.cc.v && !τ.cc.c) = true := by decide

/-- EORB: `EORB #$FF` of 41_8bit_accumulator_memory.md. -/
theorem test_eorb : check [0xC8, 0xFF] { cleared with b := 0xF }
    (fun τ => τ.b == 0xF0 && τ.pc == 0x1002 && τ.cc.n && !τ.cc.z && !τ.cc.v && !τ.cc.c) = true := by decide

/-- LDA: `LDA #$80` of 41_8bit_accumulator_memory.md. -/
theorem test_lda : check [0x86, 0x80] { cleared with cc := { noFlags with v := true, c := true } }
    (fun τ => τ.a == 0x80 && τ.pc == 0x1002 && τ.cc.n && !τ.cc.z && !τ.cc.v && τ.cc.c) = true := by decide

/-- LDB: `LDB #$80` of 41_8bit_accumulator_memory.md. -/
theorem test_ldb : check [0xC6, 0x80] { cleared with cc := { noFlags with v := true, c := true } }
    (fun τ => τ.b == 0x80 && τ.pc == 0x1002 && τ.cc.n && !τ.cc.z && !τ.cc.v && τ.cc.c) = true := by decide

/-- ORA: `ORA #$0F` of 41_8bit_accumulator_memory.md. -/
theorem test_ora : check [0x8A, 0x0F] { cleared with a := 0x80 }
    (fun τ => τ.a == 0x8F && τ.pc == 0x1002 && τ.cc.n && !τ.cc.z && !τ.cc.v && !τ.cc.c) = true := by decide

/-- ORB: `ORB #$0F` of 41_8bit_accumulator_memory.md. -/
theorem test_orb : check [0xCA, 0x0F] { cleared with b := 0x80 }
    (fun τ => τ.b == 0x8F && τ.pc == 0x1002 && τ.cc.n && !τ.cc.z && !τ.cc.v && !τ.cc.c) = true := by decide

/-- SBCA: `SBCA #$01` of 41_8bit_accumulator_memory.md. -/
theorem test_sbca : check [0x82, 0x01] { cleared with a := 0x10, cc := { noFlags with c := true } }
    (fun τ => τ.a == 0xE && τ.pc == 0x1002 && !τ.cc.n && !τ.cc.z && !τ.cc.v && !τ.cc.c) = true := by decide

/-- SBCB: `SBCB #$01` of 41_8bit_accumulator_memory.md. -/
theorem test_sbcb : check [0xC2, 0x01] { cleared with b := 0x10, cc := { noFlags with c := true } }
    (fun τ => τ.b == 0xE && τ.pc == 0x1002 && !τ.cc.n && !τ.cc.z && !τ.cc.v && !τ.cc.c) = true := by decide

/-- STA: `STA $2000` of 41_8bit_accumulator_memory.md. -/
theorem test_sta : check [0xB7, 0x20, 0x00] { cleared with a := 0x80, cc := { noFlags with v := true } }
    (fun τ => peek 0x2000 τ == 0x80 && τ.pc == 0x1003 && τ.cc.n && !τ.cc.z && !τ.cc.v && !τ.cc.c) = true := by decide

/-- STB: `STB $2000` of 41_8bit_accumulator_memory.md. -/
theorem test_stb : check [0xF7, 0x20, 0x00] { cleared with b := 0x80, cc := { noFlags with v := true } }
    (fun τ => peek 0x2000 τ == 0x80 && τ.pc == 0x1003 && τ.cc.n && !τ.cc.z && !τ.cc.v && !τ.cc.c) = true := by decide

/-- SUBA: `SUBA #$01` of 41_8bit_accumulator_memory.md. -/
theorem test_suba : check [0x80, 0x01] { cleared with a := 0x80 }
    (fun τ => τ.a == 0x7F && τ.pc == 0x1002 && !τ.cc.n && !τ.cc.z && τ.cc.v && !τ.cc.c) = true := by decide

/-- SUBB: `SUBB #$01` of 41_8bit_accumulator_memory.md. -/
theorem test_subb : check [0xC0, 0x01] { cleared with b := 0x80 }
    (fun τ => τ.b == 0x7F && τ.pc == 0x1002 && !τ.cc.n && !τ.cc.z && τ.cc.v && !τ.cc.c) = true := by decide

/-- ASL: `ASL $2000` of 42_8bit_read_modify_write.md. -/
theorem test_asl : check [0x78, 0x20, 0x00] { cleared with mem := [(0x2000, 0xC1)] }
    (fun τ => peek 0x2000 τ == 0x82 && τ.pc == 0x1003 && τ.cc.n && !τ.cc.z && !τ.cc.v && τ.cc.c) = true := by decide

/-- ASLA: `ASLA` of 42_8bit_read_modify_write.md. -/
theorem test_asla : check [0x48] { cleared with a := 0xC1 }
    (fun τ => τ.a == 0x82 && τ.pc == 0x1001 && τ.cc.n && !τ.cc.z && !τ.cc.v && τ.cc.c) = true := by decide

/-- ASLB: `ASLB` of 42_8bit_read_modify_write.md. -/
theorem test_aslb : check [0x58] { cleared with b := 0xC1 }
    (fun τ => τ.b == 0x82 && τ.pc == 0x1001 && τ.cc.n && !τ.cc.z && !τ.cc.v && τ.cc.c) = true := by decide

/-- ASR: `ASR $2000` of 42_8bit_read_modify_write.md. -/
theorem test_asr : check [0x77, 0x20, 0x00] { cleared with mem := [(0x2000, 0x81)] }
    (fun τ => peek 0x2000 τ == 0xC0 && τ.pc == 0x1003 && τ.cc.n && !τ.cc.z && τ.cc.c) = true := by decide

/-- ASRA: `ASRA` of 42_8bit_read_modify_write.md. -/
theorem test_asra : check [0x47] { cleared with a := 0x81 }
    (fun τ => τ.a == 0xC0 && τ.pc == 0x1001 && τ.cc.n && !τ.cc.z && τ.cc.c) = true := by decide

/-- ASRB: `ASRB` of 42_8bit_read_modify_write.md. -/
theorem test_asrb : check [0x57] { cleared with b := 0x81 }
    (fun τ => τ.b == 0xC0 && τ.pc == 0x1001 && τ.cc.n && !τ.cc.z && τ.cc.c) = true := by decide

/-- CLR: `CLR $2000` of 42_8bit_read_modify_write.md. -/
theorem test_clr : check [0x7F, 0x20, 0x00] { cleared with cc := { noFlags with c := true, n := true }, mem := [(0x2000, 0x5A)] }
    (fun τ => peek 0x2000 τ == 0x0 && τ.pc == 0x1003 && !τ.cc.n && τ.cc.z && !τ.cc.v && !τ.cc.c) = true := by decide

/-- CLRA: `CLRA` of 42_8bit_read_modify_write.md. -/
theorem test_clra : check [0x4F] { cleared with a := 0x5A, cc := { noFlags with c := true, n := true } }
    (fun τ => τ.a == 0x0 && τ.pc == 0x1001 && !τ.cc.n && τ.cc.z && !τ.cc.v && !τ.cc.c) = true := by decide

/-- CLRB: `CLRB` of 42_8bit_read_modify_write.md. -/
theorem test_clrb : check [0x5F] { cleared with b := 0x5A, cc := { noFlags with c := true, n := true } }
    (fun τ => τ.b == 0x0 && τ.pc == 0x1001 && !τ.cc.n && τ.cc.z && !τ.cc.v && !τ.cc.c) = true := by decide

/-- COM: `COM $2000` of 42_8bit_read_modify_write.md. -/
theorem test_com : check [0x73, 0x20, 0x00] { cleared with mem := [(0x2000, 0xF)] }
    (fun τ => peek 0x2000 τ == 0xF0 && τ.pc == 0x1003 && τ.cc.n && !τ.cc.z && !τ.cc.v && τ.cc.c) = true := by decide

/-- COMA: `COMA` of 42_8bit_read_modify_write.md. -/
theorem test_coma : check [0x43] { cleared with a := 0xF }
    (fun τ => τ.a == 0xF0 && τ.pc == 0x1001 && τ.cc.n && !τ.cc.z && !τ.cc.v && τ.cc.c) = true := by decide

/-- COMB: `COMB` of 42_8bit_read_modify_write.md. -/
theorem test_comb : check [0x53] { cleared with b := 0xF }
    (fun τ => τ.b == 0xF0 && τ.pc == 0x1001 && τ.cc.n && !τ.cc.z && !τ.cc.v && τ.cc.c) = true := by decide

/-- DAA: `DAA` of 42_8bit_read_modify_write.md. -/
theorem test_daa : check [0x19] { cleared with a := 0x9A }
    (fun τ => τ.a == 0x0 && τ.pc == 0x1001 && !τ.cc.n && τ.cc.z && τ.cc.c) = true := by decide

/-- DEC: `DEC $2000` of 42_8bit_read_modify_write.md. -/
theorem test_dec : check [0x7A, 0x20, 0x00] { cleared with cc := { noFlags with c := true }, mem := [(0x2000, 0x80)] }
    (fun τ => peek 0x2000 τ == 0x7F && τ.pc == 0x1003 && !τ.cc.n && !τ.cc.z && τ.cc.v) = true := by decide

/-- DECA: `DECA` of 42_8bit_read_modify_write.md. -/
theorem test_deca : check [0x4A] { cleared with a := 0x80, cc := { noFlags with c := true } }
    (fun τ => τ.a == 0x7F && τ.pc == 0x1001 && !τ.cc.n && !τ.cc.z && τ.cc.v) = true := by decide

/-- DECB: `DECB` of 42_8bit_read_modify_write.md. -/
theorem test_decb : check [0x5A] { cleared with b := 0x80, cc := { noFlags with c := true } }
    (fun τ => τ.b == 0x7F && τ.pc == 0x1001 && !τ.cc.n && !τ.cc.z && τ.cc.v) = true := by decide

/-- INC: `INC $2000` of 42_8bit_read_modify_write.md. -/
theorem test_inc : check [0x7C, 0x20, 0x00] { cleared with mem := [(0x2000, 0x7F)] }
    (fun τ => peek 0x2000 τ == 0x80 && τ.pc == 0x1003 && τ.cc.n && !τ.cc.z && τ.cc.v) = true := by decide

/-- INCA: `INCA` of 42_8bit_read_modify_write.md. -/
theorem test_inca : check [0x4C] { cleared with a := 0x7F }
    (fun τ => τ.a == 0x80 && τ.pc == 0x1001 && τ.cc.n && !τ.cc.z && τ.cc.v) = true := by decide

/-- INCB: `INCB` of 42_8bit_read_modify_write.md. -/
theorem test_incb : check [0x5C] { cleared with b := 0x7F }
    (fun τ => τ.b == 0x80 && τ.pc == 0x1001 && τ.cc.n && !τ.cc.z && τ.cc.v) = true := by decide

/-- LSR: `LSR $2000` of 42_8bit_read_modify_write.md. -/
theorem test_lsr : check [0x74, 0x20, 0x00] { cleared with cc := { noFlags with n := true }, mem := [(0x2000, 0x81)] }
    (fun τ => peek 0x2000 τ == 0x40 && τ.pc == 0x1003 && !τ.cc.n && !τ.cc.z && τ.cc.c) = true := by decide

/-- LSRA: `LSRA` of 42_8bit_read_modify_write.md. -/
theorem test_lsra : check [0x44] { cleared with a := 0x81, cc := { noFlags with n := true } }
    (fun τ => τ.a == 0x40 && τ.pc == 0x1001 && !τ.cc.n && !τ.cc.z && τ.cc.c) = true := by decide

/-- LSRB: `LSRB` of 42_8bit_read_modify_write.md. -/
theorem test_lsrb : check [0x54] { cleared with b := 0x81, cc := { noFlags with n := true } }
    (fun τ => τ.b == 0x40 && τ.pc == 0x1001 && !τ.cc.n && !τ.cc.z && τ.cc.c) = true := by decide

/-- MUL: `MUL` of 42_8bit_read_modify_write.md. -/
theorem test_mul : check [0x3D] { cleared with a := 0xC, b := 0x64 }
    (fun τ => τ.a == 0x4 && τ.b == 0xB0 && τ.pc == 0x1001 && !τ.cc.z && τ.cc.c) = true := by decide

/-- NEG: `NEG $2000` of 42_8bit_read_modify_write.md. -/
theorem test_neg : check [0x70, 0x20, 0x00] { cleared with mem := [(0x2000, 0x1)] }
    (fun τ => peek 0x2000 τ == 0xFF && τ.pc == 0x1003 && τ.cc.n && !τ.cc.z && !τ.cc.v && τ.cc.c) = true := by decide

/-- NEGA: `NEGA` of 42_8bit_read_modify_write.md. -/
theorem test_nega : check [0x40] { cleared with a := 0x1 }
    (fun τ => τ.a == 0xFF && τ.pc == 0x1001 && τ.cc.n && !τ.cc.z && !τ.cc.v && τ.cc.c) = true := by decide

/-- NEGB: `NEGB` of 42_8bit_read_modify_write.md. -/
theorem test_negb : check [0x50] { cleared with b := 0x1 }
    (fun τ => τ.b == 0xFF && τ.pc == 0x1001 && τ.cc.n && !τ.cc.z && !τ.cc.v && τ.cc.c) = true := by decide

/-- ROL: `ROL $2000` of 42_8bit_read_modify_write.md. -/
theorem test_rol : check [0x79, 0x20, 0x00] { cleared with cc := { noFlags with c := true }, mem := [(0x2000, 0x80)] }
    (fun τ => peek 0x2000 τ == 0x1 && τ.pc == 0x1003 && !τ.cc.n && !τ.cc.z && τ.cc.v && τ.cc.c) = true := by decide

/-- ROLA: `ROLA` of 42_8bit_read_modify_write.md. -/
theorem test_rola : check [0x49] { cleared with a := 0x80, cc := { noFlags with c := true } }
    (fun τ => τ.a == 0x1 && τ.pc == 0x1001 && !τ.cc.n && !τ.cc.z && τ.cc.v && τ.cc.c) = true := by decide

/-- ROLB: `ROLB` of 42_8bit_read_modify_write.md. -/
theorem test_rolb : check [0x59] { cleared with b := 0x80, cc := { noFlags with c := true } }
    (fun τ => τ.b == 0x1 && τ.pc == 0x1001 && !τ.cc.n && !τ.cc.z && τ.cc.v && τ.cc.c) = true := by decide

/-- ROR: `ROR $2000` of 42_8bit_read_modify_write.md. -/
theorem test_ror : check [0x76, 0x20, 0x00] { cleared with cc := { noFlags with c := true }, mem := [(0x2000, 0x1)] }
    (fun τ => peek 0x2000 τ == 0x80 && τ.pc == 0x1003 && τ.cc.n && !τ.cc.z && τ.cc.c) = true := by decide

/-- RORA: `RORA` of 42_8bit_read_modify_write.md. -/
theorem test_rora : check [0x46] { cleared with a := 0x1, cc := { noFlags with c := true } }
    (fun τ => τ.a == 0x80 && τ.pc == 0x1001 && τ.cc.n && !τ.cc.z && τ.cc.c) = true := by decide

/-- RORB: `RORB` of 42_8bit_read_modify_write.md. -/
theorem test_rorb : check [0x56] { cleared with b := 0x1, cc := { noFlags with c := true } }
    (fun τ => τ.b == 0x80 && τ.pc == 0x1001 && τ.cc.n && !τ.cc.z && τ.cc.c) = true := by decide

/-- TST: `TST $2000` of 42_8bit_read_modify_write.md. -/
theorem test_tst : check [0x7D, 0x20, 0x00] { cleared with cc := { noFlags with c := true, v := true }, mem := [(0x2000, 0x80)] }
    (fun τ => τ.pc == 0x1003 && τ.cc.n && !τ.cc.z && !τ.cc.v) = true := by decide

/-- TSTA: `TSTA` of 42_8bit_read_modify_write.md. -/
theorem test_tsta : check [0x4D] { cleared with a := 0x80, cc := { noFlags with c := true, v := true } }
    (fun τ => τ.a == 0x80 && τ.pc == 0x1001 && τ.cc.n && !τ.cc.z && !τ.cc.v) = true := by decide

/-- TSTB: `TSTB` of 42_8bit_read_modify_write.md. -/
theorem test_tstb : check [0x5D] { cleared with b := 0x80, cc := { noFlags with c := true, v := true } }
    (fun τ => τ.b == 0x80 && τ.pc == 0x1001 && τ.cc.n && !τ.cc.z && !τ.cc.v) = true := by decide

/-- ADDD: `ADDD #$0001` of 43_16bit_accumulator_memory.md. -/
theorem test_addd : check [0xC3, 0x00, 0x01] { cleared with a := 0x7F, b := 0xFF }
    (fun τ => τ.a == 0x80 && τ.b == 0x0 && τ.pc == 0x1003 && τ.cc.n && !τ.cc.z && τ.cc.v && !τ.cc.c) = true := by decide

/-- CMPD: `CMPD #$1234` of 43_16bit_accumulator_memory.md. -/
theorem test_cmpd : check [0x10, 0x83, 0x12, 0x34] { cleared with a := 0x12, b := 0x34 }
    (fun τ => τ.a == 0x12 && τ.b == 0x34 && τ.pc == 0x1004 && !τ.cc.n && τ.cc.z && !τ.cc.v && !τ.cc.c) = true := by decide

/-- LDD: `LDD #$8000` of 43_16bit_accumulator_memory.md. -/
theorem test_ldd : check [0xCC, 0x80, 0x00] { cleared with cc := { noFlags with v := true } }
    (fun τ => τ.a == 0x80 && τ.pc == 0x1003 && τ.cc.n && !τ.cc.z && !τ.cc.v) = true := by decide

/-- SEX: `SEX` of 43_16bit_accumulator_memory.md. -/
theorem test_sex : check [0x1D] { cleared with a := 0x12, b := 0x80, cc := { noFlags with v := true } }
    (fun τ => τ.a == 0xFF && τ.b == 0x80 && τ.pc == 0x1001 && τ.cc.n && !τ.cc.z && τ.cc.v) = true := by decide

/-- STD: `STD $2000` of 43_16bit_accumulator_memory.md. -/
theorem test_std : check [0xFD, 0x20, 0x00] { cleared with a := 0x80, b := 0x1, cc := { noFlags with v := true } }
    (fun τ => peek 0x2000 τ == 0x80 && peek 0x2001 τ == 0x1 && τ.pc == 0x1003 && τ.cc.n && !τ.cc.z && !τ.cc.v) = true := by decide

/-- SUBD: `SUBD #$0001` of 43_16bit_accumulator_memory.md. -/
theorem test_subd : check [0x83, 0x00, 0x01] { cleared with a := 0x80, b := 0x0 }
    (fun τ => τ.a == 0x7F && τ.b == 0xFF && τ.pc == 0x1003 && !τ.cc.n && !τ.cc.z && τ.cc.v && !τ.cc.c) = true := by decide

/-- CMPS: `CMPS #$2000` of 44_index_stack.md. -/
theorem test_cmps : check [0x11, 0x8C, 0x20, 0x00] { cleared with s := 0x1FFF }
    (fun τ => τ.s == 0x1FFF && τ.pc == 0x1004 && τ.cc.n && !τ.cc.z && !τ.cc.v && τ.cc.c) = true := by decide

/-- CMPU: `CMPU #$2000` of 44_index_stack.md. -/
theorem test_cmpu : check [0x11, 0x83, 0x20, 0x00] { cleared with u := 0x1FFF }
    (fun τ => τ.u == 0x1FFF && τ.pc == 0x1004 && τ.cc.n && !τ.cc.z && !τ.cc.v && τ.cc.c) = true := by decide

/-- CMPX: `CMPX #$2000` of 44_index_stack.md. -/
theorem test_cmpx : check [0x8C, 0x20, 0x00] { cleared with x := 0x1FFF }
    (fun τ => τ.x == 0x1FFF && τ.pc == 0x1003 && τ.cc.n && !τ.cc.z && !τ.cc.v && τ.cc.c) = true := by decide

/-- CMPY: `CMPY #$2000` of 44_index_stack.md. -/
theorem test_cmpy : check [0x10, 0x8C, 0x20, 0x00] { cleared with y := 0x1FFF }
    (fun τ => τ.y == 0x1FFF && τ.pc == 0x1004 && τ.cc.n && !τ.cc.z && !τ.cc.v && τ.cc.c) = true := by decide

/-- EXG: `EXG A,B` of 44_index_stack.md. -/
theorem test_exg : check [0x1E, 0x89] { cleared with a := 0x12, b := 0x34 }
    (fun τ => τ.a == 0x34 && τ.b == 0x12 && τ.pc == 0x1002) = true := by decide

/-- LEAS: `LEAS 10,X` of 44_index_stack.md. -/
theorem test_leas : check [0x32, 0x0A] { cleared with x := 0x1000 }
    (fun τ => τ.s == 0x100A && τ.pc == 0x1002) = true := by decide

/-- LEAU: `LEAU 10,X` of 44_index_stack.md. -/
theorem test_leau : check [0x33, 0x0A] { cleared with x := 0x1000 }
    (fun τ => τ.u == 0x100A && τ.pc == 0x1002) = true := by decide

/-- LEAX: `LEAX 10,X` of 44_index_stack.md. -/
theorem test_leax : check [0x30, 0x0A] { cleared with x := 0x1000 }
    (fun τ => τ.x == 0x100A && τ.pc == 0x1002 && !τ.cc.z) = true := by decide

/-- LEAY: `LEAY 10,X` of 44_index_stack.md. -/
theorem test_leay : check [0x31, 0x0A] { cleared with x := 0x1000 }
    (fun τ => τ.y == 0x100A && τ.pc == 0x1002 && !τ.cc.z) = true := by decide

/-- LDS: `LDS #$8000` of 44_index_stack.md. -/
theorem test_lds : check [0x10, 0xCE, 0x80, 0x00] { cleared with cc := { noFlags with v := true } }
    (fun τ => τ.s == 0x8000 && τ.pc == 0x1004 && τ.cc.n && !τ.cc.z && !τ.cc.v) = true := by decide

/-- LDU: `LDU #$8000` of 44_index_stack.md. -/
theorem test_ldu : check [0xCE, 0x80, 0x00] { cleared with cc := { noFlags with v := true } }
    (fun τ => τ.u == 0x8000 && τ.pc == 0x1003 && τ.cc.n && !τ.cc.z && !τ.cc.v) = true := by decide

/-- LDX: `LDX #$8000` of 44_index_stack.md. -/
theorem test_ldx : check [0x8E, 0x80, 0x00] { cleared with cc := { noFlags with v := true } }
    (fun τ => τ.x == 0x8000 && τ.pc == 0x1003 && τ.cc.n && !τ.cc.z && !τ.cc.v) = true := by decide

/-- LDY: `LDY #$8000` of 44_index_stack.md. -/
theorem test_ldy : check [0x10, 0x8E, 0x80, 0x00] { cleared with cc := { noFlags with v := true } }
    (fun τ => τ.y == 0x8000 && τ.pc == 0x1004 && τ.cc.n && !τ.cc.z && !τ.cc.v) = true := by decide

/-- PSHS: `PSHS A,B` of 44_index_stack.md. -/
theorem test_pshs : check [0x34, 0x06] { cleared with a := 0x12, b := 0x34, s := 0x8000 }
    (fun τ => peek 0x7FFF τ == 0x34 && peek 0x7FFE τ == 0x12 && τ.s == 0x7FFE && τ.pc == 0x1002) = true := by decide

/-- PSHU: `PSHU A,B` of 44_index_stack.md. -/
theorem test_pshu : check [0x36, 0x06] { cleared with a := 0x12, b := 0x34, u := 0x8000 }
    (fun τ => peek 0x7FFF τ == 0x34 && peek 0x7FFE τ == 0x12 && τ.u == 0x7FFE && τ.pc == 0x1002) = true := by decide

/-- PULS: `PULS A,B` of 44_index_stack.md. -/
theorem test_puls : check [0x35, 0x06] { cleared with s := 0x7FFE, mem := [(0x7FFE, 0x12), (0x7FFF, 0x34)] }
    (fun τ => τ.a == 0x12 && τ.b == 0x34 && τ.s == 0x8000 && τ.pc == 0x1002) = true := by decide

/-- PULU: `PULU A,B` of 44_index_stack.md. -/
theorem test_pulu : check [0x37, 0x06] { cleared with u := 0x7FFE, mem := [(0x7FFE, 0x12), (0x7FFF, 0x34)] }
    (fun τ => τ.a == 0x12 && τ.b == 0x34 && τ.u == 0x8000 && τ.pc == 0x1002) = true := by decide

/-- STS: `STS $2000` of 44_index_stack.md. -/
theorem test_sts : check [0x10, 0xFF, 0x20, 0x00] { cleared with s := 0x8000, cc := { noFlags with v := true } }
    (fun τ => peek 0x2000 τ == 0x80 && peek 0x2001 τ == 0x0 && τ.pc == 0x1004 && τ.cc.n && !τ.cc.z && !τ.cc.v) = true := by decide

/-- STU: `STU $2000` of 44_index_stack.md. -/
theorem test_stu : check [0xFF, 0x20, 0x00] { cleared with u := 0x8000, cc := { noFlags with v := true } }
    (fun τ => peek 0x2000 τ == 0x80 && peek 0x2001 τ == 0x0 && τ.pc == 0x1003 && τ.cc.n && !τ.cc.z && !τ.cc.v) = true := by decide

/-- STX: `STX $2000` of 44_index_stack.md. -/
theorem test_stx : check [0xBF, 0x20, 0x00] { cleared with x := 0x8000, cc := { noFlags with v := true } }
    (fun τ => peek 0x2000 τ == 0x80 && peek 0x2001 τ == 0x0 && τ.pc == 0x1003 && τ.cc.n && !τ.cc.z && !τ.cc.v) = true := by decide

/-- STY: `STY $2000` of 44_index_stack.md. -/
theorem test_sty : check [0x10, 0xBF, 0x20, 0x00] { cleared with y := 0x8000, cc := { noFlags with v := true } }
    (fun τ => peek 0x2000 τ == 0x80 && peek 0x2001 τ == 0x0 && τ.pc == 0x1004 && τ.cc.n && !τ.cc.z && !τ.cc.v) = true := by decide

/-- TFR: `TFR A,DP` of 44_index_stack.md. -/
theorem test_tfr : check [0x1F, 0x8B] { cleared with a := 0x20 }
    (fun τ => τ.dp == 0x20 && τ.pc == 0x1002) = true := by decide

/-- ABX: `ABX` of 44_index_stack.md. -/
theorem test_abx : check [0x3A] { cleared with b := 0xFF, x := 0x1000 }
    (fun τ => τ.x == 0x10FF && τ.pc == 0x1001) = true := by decide

/-- BRA: `BRA $1012` of 45_branches.md. -/
theorem test_bra : check [0x20, 0x10] cleared
    (fun τ => τ.pc == 0x1012) = true := by decide

/-- BRN: `BRN $1012` of 45_branches.md. -/
theorem test_brn : check [0x21, 0x10] cleared
    (fun τ => τ.pc == 0x1002) = true := by decide

/-- BHI: `BHI $1012` of 45_branches.md. -/
theorem test_bhi : check [0x22, 0x10] cleared
    (fun τ => τ.pc == 0x1012) = true := by decide

/-- BLS: `BLS $1012` of 45_branches.md. -/
theorem test_bls : check [0x23, 0x10] { cleared with cc := { noFlags with c := true } }
    (fun τ => τ.pc == 0x1012) = true := by decide

/-- BCC: `BCC $1012` of 45_branches.md. -/
theorem test_bcc : check [0x24, 0x10] cleared
    (fun τ => τ.pc == 0x1012) = true := by decide

/-- BCS: `BCS $1012` of 45_branches.md. -/
theorem test_bcs : check [0x25, 0x10] { cleared with cc := { noFlags with c := true } }
    (fun τ => τ.pc == 0x1012) = true := by decide

/-- BNE: `BNE $1012` of 45_branches.md. -/
theorem test_bne : check [0x26, 0x10] cleared
    (fun τ => τ.pc == 0x1012) = true := by decide

/-- BEQ: `BEQ $1012` of 45_branches.md. -/
theorem test_beq : check [0x27, 0x10] { cleared with cc := { noFlags with z := true } }
    (fun τ => τ.pc == 0x1012) = true := by decide

/-- BVC: `BVC $1012` of 45_branches.md. -/
theorem test_bvc : check [0x28, 0x10] cleared
    (fun τ => τ.pc == 0x1012) = true := by decide

/-- BVS: `BVS $1012` of 45_branches.md. -/
theorem test_bvs : check [0x29, 0x10] { cleared with cc := { noFlags with v := true } }
    (fun τ => τ.pc == 0x1012) = true := by decide

/-- BPL: `BPL $1012` of 45_branches.md. -/
theorem test_bpl : check [0x2A, 0x10] cleared
    (fun τ => τ.pc == 0x1012) = true := by decide

/-- BMI: `BMI $1012` of 45_branches.md. -/
theorem test_bmi : check [0x2B, 0x10] { cleared with cc := { noFlags with n := true } }
    (fun τ => τ.pc == 0x1012) = true := by decide

/-- BGE: `BGE $1012` of 45_branches.md. -/
theorem test_bge : check [0x2C, 0x10] { cleared with cc := { noFlags with n := true, v := true } }
    (fun τ => τ.pc == 0x1012) = true := by decide

/-- BLT: `BLT $1012` of 45_branches.md. -/
theorem test_blt : check [0x2D, 0x10] { cleared with cc := { noFlags with v := true } }
    (fun τ => τ.pc == 0x1012) = true := by decide

/-- BGT: `BGT $1012` of 45_branches.md. -/
theorem test_bgt : check [0x2E, 0x10] cleared
    (fun τ => τ.pc == 0x1012) = true := by decide

/-- BLE: `BLE $1012` of 45_branches.md. -/
theorem test_ble : check [0x2F, 0x10] { cleared with cc := { noFlags with n := true } }
    (fun τ => τ.pc == 0x1012) = true := by decide

/-- BSR: `BSR $1022` of 45_branches.md. -/
theorem test_bsr : check [0x8D, 0x20] { cleared with s := 0x8000 }
    (fun τ => peek 0x7FFF τ == 0x2 && peek 0x7FFE τ == 0x10 && τ.s == 0x7FFE && τ.pc == 0x1022) = true := by decide

/-- LBRA: `LBRA $2237` of 45_branches.md. -/
theorem test_lbra : check [0x16, 0x12, 0x34] cleared
    (fun τ => τ.pc == 0x2237) = true := by decide

/-- LBRN: `LBRN $2238` of 45_branches.md. -/
theorem test_lbrn : check [0x10, 0x21, 0x12, 0x34] cleared
    (fun τ => τ.pc == 0x1004) = true := by decide

/-- LBHI: `LBHI $2238` of 45_branches.md. -/
theorem test_lbhi : check [0x10, 0x22, 0x12, 0x34] cleared
    (fun τ => τ.pc == 0x2238) = true := by decide

/-- LBLS: `LBLS $2238` of 45_branches.md. -/
theorem test_lbls : check [0x10, 0x23, 0x12, 0x34] { cleared with cc := { noFlags with c := true } }
    (fun τ => τ.pc == 0x2238) = true := by decide

/-- LBCC: `LBCC $2238` of 45_branches.md. -/
theorem test_lbcc : check [0x10, 0x24, 0x12, 0x34] cleared
    (fun τ => τ.pc == 0x2238) = true := by decide

/-- LBCS: `LBCS $2238` of 45_branches.md. -/
theorem test_lbcs : check [0x10, 0x25, 0x12, 0x34] { cleared with cc := { noFlags with c := true } }
    (fun τ => τ.pc == 0x2238) = true := by decide

/-- LBNE: `LBNE $2238` of 45_branches.md. -/
theorem test_lbne : check [0x10, 0x26, 0x12, 0x34] cleared
    (fun τ => τ.pc == 0x2238) = true := by decide

/-- LBEQ: `LBEQ $2238` of 45_branches.md. -/
theorem test_lbeq : check [0x10, 0x27, 0x12, 0x34] { cleared with cc := { noFlags with z := true } }
    (fun τ => τ.pc == 0x2238) = true := by decide

/-- LBVC: `LBVC $2238` of 45_branches.md. -/
theorem test_lbvc : check [0x10, 0x28, 0x12, 0x34] cleared
    (fun τ => τ.pc == 0x2238) = true := by decide

/-- LBVS: `LBVS $2238` of 45_branches.md. -/
theorem test_lbvs : check [0x10, 0x29, 0x12, 0x34] { cleared with cc := { noFlags with v := true } }
    (fun τ => τ.pc == 0x2238) = true := by decide

/-- LBPL: `LBPL $2238` of 45_branches.md. -/
theorem test_lbpl : check [0x10, 0x2A, 0x12, 0x34] cleared
    (fun τ => τ.pc == 0x2238) = true := by decide

/-- LBMI: `LBMI $2238` of 45_branches.md. -/
theorem test_lbmi : check [0x10, 0x2B, 0x12, 0x34] { cleared with cc := { noFlags with n := true } }
    (fun τ => τ.pc == 0x2238) = true := by decide

/-- LBGE: `LBGE $2238` of 45_branches.md. -/
theorem test_lbge : check [0x10, 0x2C, 0x12, 0x34] { cleared with cc := { noFlags with n := true, v := true } }
    (fun τ => τ.pc == 0x2238) = true := by decide

/-- LBLT: `LBLT $2238` of 45_branches.md. -/
theorem test_lblt : check [0x10, 0x2D, 0x12, 0x34] { cleared with cc := { noFlags with v := true } }
    (fun τ => τ.pc == 0x2238) = true := by decide

/-- LBGT: `LBGT $2238` of 45_branches.md. -/
theorem test_lbgt : check [0x10, 0x2E, 0x12, 0x34] cleared
    (fun τ => τ.pc == 0x2238) = true := by decide

/-- LBLE: `LBLE $2238` of 45_branches.md. -/
theorem test_lble : check [0x10, 0x2F, 0x12, 0x34] { cleared with cc := { noFlags with n := true } }
    (fun τ => τ.pc == 0x2238) = true := by decide

/-- LBSR: `LBSR $A000` of 45_branches.md. -/
theorem test_lbsr : check [0x17, 0x1F, 0xFD] { cleared with s := 0xF000, pc := 0x8000 }
    (fun τ => peek 0xEFFF τ == 0x3 && peek 0xEFFE τ == 0x80 && τ.s == 0xEFFE && τ.pc == 0xA000) = true := by decide

/-- ANDCC: `ANDCC #$AF` of 46_miscellaneous.md. -/
theorem test_andcc : check [0x1C, 0xAF] { cleared with cc := { noFlags with i := true, f := true, c := true, e := true } }
    (fun τ => τ.pc == 0x1002 && τ.cc.e && !τ.cc.f && !τ.cc.h && !τ.cc.i && !τ.cc.n && !τ.cc.z && !τ.cc.v && τ.cc.c) = true := by decide

/-- ORCC: `ORCC #$50` of 46_miscellaneous.md. -/
theorem test_orcc : check [0x1A, 0x50] cleared
    (fun τ => τ.pc == 0x1002 && !τ.cc.e && τ.cc.f && !τ.cc.h && τ.cc.i && !τ.cc.n && !τ.cc.z && !τ.cc.v && !τ.cc.c) = true := by decide

/-- CWAI: `CWAI #$EF` of 46_miscellaneous.md. -/
theorem test_cwai : check [0x3C, 0xEF] { cleared with a := 0x11, b := 0x22, dp := 0x33, x := 0x4455, y := 0x6677, u := 0x8899, s := 0x8000, cc := { noFlags with i := true, f := true, c := true } }
    (fun τ => peek 0x7FFF τ == 0x2 && peek 0x7FFE τ == 0x10 && peek 0x7FFD τ == 0x99 && peek 0x7FFC τ == 0x88 && peek 0x7FFB τ == 0x77 && peek 0x7FFA τ == 0x66 && peek 0x7FF9 τ == 0x55 && peek 0x7FF8 τ == 0x44 && peek 0x7FF7 τ == 0x33 && peek 0x7FF6 τ == 0x22 && peek 0x7FF5 τ == 0x11 && peek 0x7FF4 τ == 0xC1 && τ.s == 0x7FF4 && τ.pc == 0x1002 && τ.cc.e && τ.cc.f && !τ.cc.i && τ.cc.c && τ.run == .cwaiWaiting) = true := by decide

/-- NOP: `NOP` of 46_miscellaneous.md. -/
theorem test_nop : check [0x12] { cleared with cc := { noFlags with c := true, z := true } }
    (fun τ => τ.pc == 0x1001) = true := by decide

/-- JMP: `JMP $2000` of 46_miscellaneous.md. -/
theorem test_jmp : check [0x7E, 0x20, 0x00] cleared
    (fun τ => τ.pc == 0x2000) = true := by decide

/-- JSR: `JSR $2000` of 46_miscellaneous.md. -/
theorem test_jsr : check [0xBD, 0x20, 0x00] { cleared with s := 0x8000 }
    (fun τ => peek 0x7FFF τ == 0x3 && peek 0x7FFE τ == 0x10 && τ.s == 0x7FFE && τ.pc == 0x2000) = true := by decide

/-- RTI: `RTI` of 46_miscellaneous.md. -/
theorem test_rti : check [0x3B] { cleared with s := 0x7FF4, mem := [(0x7FF4, 0x85), (0x7FF5, 0x11), (0x7FF6, 0x22), (0x7FF7, 0x33), (0x7FF8, 0x44), (0x7FF9, 0x55), (0x7FFA, 0x66), (0x7FFB, 0x77), (0x7FFC, 0x88), (0x7FFD, 0x99), (0x7FFE, 0x20)] }
    (fun τ => τ.a == 0x11 && τ.b == 0x22 && τ.dp == 0x33 && τ.x == 0x4455 && τ.y == 0x6677 && τ.u == 0x8899 && τ.s == 0x8000 && τ.pc == 0x2000 && τ.cc.e && !τ.cc.f && !τ.cc.h && !τ.cc.i && !τ.cc.n && τ.cc.z && !τ.cc.v && τ.cc.c) = true := by decide

/-- RTS: `RTS` of 46_miscellaneous.md. -/
theorem test_rts : check [0x39] { cleared with s := 0x7FFE, mem := [(0x7FFE, 0x10), (0x7FFF, 0x3)] }
    (fun τ => τ.s == 0x8000 && τ.pc == 0x1003) = true := by decide

/-- SWI: `SWI` of 46_miscellaneous.md. -/
theorem test_swi : check [0x3F] { cleared with a := 0x11, b := 0x22, dp := 0x33, x := 0x4455, y := 0x6677, u := 0x8899, s := 0x8000, cc := { noFlags with c := true }, mem := [(0xFFFA, 0xE0)] }
    (fun τ => peek 0x7FFF τ == 0x1 && peek 0x7FFE τ == 0x10 && peek 0x7FFD τ == 0x99 && peek 0x7FFC τ == 0x88 && peek 0x7FFB τ == 0x77 && peek 0x7FFA τ == 0x66 && peek 0x7FF9 τ == 0x55 && peek 0x7FF8 τ == 0x44 && peek 0x7FF7 τ == 0x33 && peek 0x7FF6 τ == 0x22 && peek 0x7FF5 τ == 0x11 && peek 0x7FF4 τ == 0x81 && τ.s == 0x7FF4 && τ.pc == 0xE000 && τ.cc.e && τ.cc.f && τ.cc.i) = true := by decide

/-- SWI2: `SWI2` of 46_miscellaneous.md. -/
theorem test_swi2 : check [0x10, 0x3F] { cleared with a := 0x11, b := 0x22, dp := 0x33, x := 0x4455, y := 0x6677, u := 0x8899, s := 0x8000, cc := { noFlags with c := true }, mem := [(0xFFF4, 0xE1)] }
    (fun τ => peek 0x7FFF τ == 0x2 && peek 0x7FFE τ == 0x10 && peek 0x7FFD τ == 0x99 && peek 0x7FFC τ == 0x88 && peek 0x7FFB τ == 0x77 && peek 0x7FFA τ == 0x66 && peek 0x7FF9 τ == 0x55 && peek 0x7FF8 τ == 0x44 && peek 0x7FF7 τ == 0x33 && peek 0x7FF6 τ == 0x22 && peek 0x7FF5 τ == 0x11 && peek 0x7FF4 τ == 0x81 && τ.s == 0x7FF4 && τ.pc == 0xE100 && τ.cc.e && !τ.cc.f && !τ.cc.i) = true := by decide

/-- SWI3: `SWI3` of 46_miscellaneous.md. -/
theorem test_swi3 : check [0x11, 0x3F] { cleared with a := 0x11, b := 0x22, dp := 0x33, x := 0x4455, y := 0x6677, u := 0x8899, s := 0x8000, cc := { noFlags with c := true, i := true }, mem := [(0xFFF2, 0xE2)] }
    (fun τ => peek 0x7FFF τ == 0x2 && peek 0x7FFE τ == 0x10 && peek 0x7FFD τ == 0x99 && peek 0x7FFC τ == 0x88 && peek 0x7FFB τ == 0x77 && peek 0x7FFA τ == 0x66 && peek 0x7FF9 τ == 0x55 && peek 0x7FF8 τ == 0x44 && peek 0x7FF7 τ == 0x33 && peek 0x7FF6 τ == 0x22 && peek 0x7FF5 τ == 0x11 && peek 0x7FF4 τ == 0x91 && τ.s == 0x7FF4 && τ.pc == 0xE200 && τ.cc.e && !τ.cc.f && τ.cc.i) = true := by decide

/-- SYNC: `SYNC` of 46_miscellaneous.md. -/
theorem test_sync : check [0x13] { cleared with cc := { noFlags with i := true, f := true } }
    (fun τ => τ.pc == 0x1001 && τ.run == .syncing) = true := by decide

/-! ## Interrupts, waits and reset (95_test_vectors.md part 3.8 and 3.9) -/

def pins : PinSample := idlePins

def vectors : Memory := [(0xFFF6, 0x60), (0xFFF8, 0x50), (0xFFFC, 0x70)]

/-- INT1's start: IRQ low at the boundary. -/
def irqState : State :=
  { cleared with
    a := 0xAA, b := 0xBB, dp := 0xDD, x := 0x1122, y := 0x3344, u := 0x5566, s := 0x8000
    cc := { noFlags with c := true }, mem := vectors, env := [{ pins with irq := true }] }

theorem test_irq_entry : steps irqState (fun τ => τ.s == 0x7FF4 && τ.pc == 0x5000 && τ.cc.toByte == 0x91) = true := by
  decide

theorem test_irq_frame : steps irqState (fun τ =>
    (span 0x7FF4 12).map (fun i => peek i τ) ==
      [0x81, 0xAA, 0xBB, 0xDD, 0x11, 0x22, 0x33, 0x44, 0x55, 0x66, 0x10, 0x00]) = true := by decide

/-- INT2's start: FIRQ low. -/
def firqState : State :=
  { cleared with
    a := 0xAA, s := 0x8000, cc := { noFlags with e := true, z := true }, mem := vectors
    env := [{ pins with firq := true }] }

theorem test_firq_entry : steps firqState (fun τ => τ.s == 0x7FFD && τ.pc == 0x6000 && τ.cc.toByte == 0x54 &&
    peek 0x7FFD τ == 0x04 && peek 0x7FFE τ == 0x10 && peek 0x7FFF τ == 0x00) = true := by decide

/-- INT4's start: an NMI edge, FIRQ and IRQ at once, NMI armed. -/
def nmiState : State :=
  { cleared with
    s := 0x8000, mem := vectors, nmiArmed := true
    env := [{ pins with nmiFell := true, firq := true, irq := true }] }

theorem test_nmi_wins : steps nmiState (fun τ => τ.pc == 0x7000 && τ.s == 0x7FF4 && τ.cc.toByte == 0xD0 && !τ.nmiPending) = true := by
  decide

/-- INT6: IRQ low with I = 1 ends the Sync state and stacks nothing. -/
def syncState : State :=
  { cleared with
    s := 0x8000, pc := 0x1001, cc := { noFlags with f := true, i := true }, run := .syncing
    env := [{ pins with irq := true }] }

theorem test_sync_ends_masked : steps syncState (fun τ => τ.run == .running && τ.pc == 0x1001 && τ.s == 0x8000) = true := by
  decide

/-- INT8 after the CWAI: FIRQ low with F = 0. -/
def cwaiState : State :=
  { cleared with
    a := 0x11, s := 0x7FF4, pc := 0x1002, cc := { noFlags with e := true, i := true, c := true }, mem := vectors
    run := .cwaiWaiting, env := [{ pins with firq := true }] }

theorem test_cwai_ended_by_firq : steps cwaiState (fun τ => τ.pc == 0x6000 && τ.s == 0x7FF4 && τ.cc.toByte == 0xD1) = true := by
  decide

/-- R76, C25: the last two of CWAI's 20 cycles are the vector fetch. -/
theorem test_cwai_cycles : check [0x3C, 0xEF] cleared (fun τ => τ.elapsed == 18) = true ∧
    steps { cwaiState with elapsed := 18 } (fun τ => τ.run == .running && τ.elapsed == 20 && τ.lines == [.access, .access]) = true := by
  decide

theorem test_cwai_waits_while_masked : steps { cwaiState with env := [{ pins with irq := true }] }
    (fun τ => τ.run == .cwaiWaiting && τ.pc == 0x1002 && τ.cc.toByte == 0x91) = true := by decide

/-- RST1: RES has been low and is high again. -/
def resetState : State :=
  { cleared with
    a := 0x12, b := 0x34, dp := 0x56, x := 0x789A, s := 0x4000, pc := 0x2222, cc := CC.ofByte 0x8F
    nmiArmed := true, nmiPending := true, run := .syncing, mem := [(0xFFFE, 0xC0)], inReset := true }

theorem test_reset : steps resetState (fun τ => τ.dp == 0 && τ.cc.i && τ.cc.f && τ.pc == 0xC000 && !τ.nmiArmed &&
    !τ.nmiPending && τ.run == .running && τ.bus.map (fun c => c.addr) == [0xFFFE, 0xFFFF]) = true := by decide

/-- R422, R456: HALT has kept the bus released under RES; a dead cycle comes before the vector fetch. -/
theorem test_dead_cycle_after_reset : steps { resetState with halted := true }
    (fun τ => τ.lines.head? == some (.pass (some (false, false)) false) && τ.pc == 0xC000) = true := by decide

def haltState : State := { cleared with env := [{ pins with halt := true, write := some (0x2000, 0x5A) }] }

theorem test_halt : steps haltState (fun τ => runStateName τ == .halted && baBs τ == some (true, true) && τ.pc == 0x1000 &&
    peek 0x2000 τ == 0x5A) = true := by decide

def dmaState : State := { cleared with env := [{ pins with dmaBreq := true }] }

theorem test_dma : steps dmaState (fun τ => runStateName τ == .busGranted && τ.refreshCount == 1 && τ.pc == 0x1000) = true := by
  decide

/-- "until the DMA request, up to 15": the first granted cycle is dead, the second is another master's. -/
theorem test_dma_second_cycle : steps { dmaState with
    busGranted := true
    refreshCount := 1
    env := [{ pins with dmaBreq := true, write := some (0x3000, 0x77) }] }
    (fun τ => τ.refreshCount == 2 && peek 0x3000 τ == 0x77 && ownAccesses τ == 0) = true := by decide

/-- R48, R57: INC $2000 with its seven cycles as in W2 (read in cycle 5, VMA in 6, write in 7), and another master writes $2000 before cycle 6 and before cycle 7; both bytes are lost. -/
def splitState : State :=
  { cleared with
    mem := [(0x2000, 0x41)]
    env := [{ pins with cycles := [⟨false, none⟩, ⟨false, none⟩, ⟨false, none⟩, ⟨false, none⟩,
      ⟨true, none⟩, ⟨true, some (0x2000, 0x99)⟩, ⟨false, none⟩,
      ⟨true, none⟩, ⟨true, some (0x2000, 0x98)⟩, ⟨false, none⟩] }] }

theorem test_grants_inside_rmw : check [0x7C, 0x20, 0x00] splitState (fun τ => peek 0x2000 τ == 0x42 && τ.pc == 0x1003 &&
    τ.elapsed == 13 && τ.lines.length == 13 &&
    (τ.bus.filter (fun c => c.other)).map (fun c => c.data) == [0x99, 0x98]) = true := by decide

/-- R31, R422: what BA and BS show in those thirteen cycles. -/
theorem test_shown_cycles : check [0x7C, 0x20, 0x00] splitState (fun τ =>
    (shownCycles τ).map (fun c => (c.1.map (fun a => a.addr), c.2)) ==
      [(some 0x1000, some (false, false)), (some 0x1001, some (false, false)), (some 0x1002, some (false, false)),
       (none, some (false, false)), (some 0x2000, some (false, false)),
       (none, some (true, true)), (some 0x2000, some (true, true)), (none, some (false, false)), (none, some (false, false)),
       (none, some (true, true)), (some 0x2000, some (true, true)), (none, some (false, false)),
       (some 0x2000, some (false, false))]) = true := by decide

/-- R422: a vector fetch shows BA = 0 and BS = 1. -/
theorem test_shown_vector_fetch : steps cwaiState (fun τ => (shownCycles τ).map (fun c => c.2) ==
    [some (false, true), some (false, true)]) = true := by decide

/-- R421: after the fifteenth granted cycle the MPU has one cycle between two dead ones, here NOP's second, and the count begins anew. -/
theorem test_self_refresh_inside_step : check [0x12] { cleared with
    refreshCount := 14
    env := [{ pins with cycles := [⟨true, none⟩, ⟨true, none⟩] }] }
    (fun τ => τ.refreshCount == 0 && !τ.busGranted && τ.pc == 0x1001 &&
      τ.lines == [.access, .pass (some (true, true)) false, .pass (some (false, false)) false, .vma]) = true := by decide

/-- R9, R421, R463: the dead cycle that ends a grant is one of inactive DMA/BREQ, so with NOP's two cycles it makes three. -/
theorem test_dead_cycle_counts : check [0x12] { cleared with busGranted := true, refreshCount := 9 }
    (fun τ => τ.dmaIdle == 3 && τ.refreshCount == 0 && τ.elapsed == 3) = true := by decide

/-- R76: RTI takes 6 cycles by the E it pulls, here a 0 that another master writes over the 1 before the pull. -/
theorem test_rti_cycles_by_pulled_e : check [0x3B] { cleared with
    s := 0x8000
    mem := [(0x8000, 0x80)]
    env := [{ pins with cycles := [⟨true, none⟩, ⟨true, some (0x8000, 0)⟩, ⟨false, none⟩] }] }
    (fun τ => !τ.cc.e && τ.s == 0x8003 && τ.elapsed == 9 && τ.lines.length == 9) = true := by decide

/-- R463: low for 5 cycles, high for 1 and low for 5 again is no low period of 6 to 13. -/
theorem test_low_periods_stay_apart : ((List.replicate 5 true ++ [false] ++ List.replicate 5 true).foldl
    (fun b low => countPin low b) (busSide cleared)).dmaLow = 5 := by decide

/-- R450: STD $2000 cut short by RES after its first byte. -/
def cutState : State :=
  { cleared with
    a := 0x12, b := 0x34, mem := [(0x2000, 0xAA), (0x2001, 0xBB)]
    env := [{ pins with resCut := some [true, true, true, true, false] }] }

theorem test_reset_inside_store : check [0xFD, 0x20, 0x00] cutState (fun τ => τ.inReset && peek 0x2000 τ == 0x12 &&
    peek 0x2001 τ == 0xBB && τ.pc == 0x1000) = true := by decide

/-- R61: read-only memory ignores a write. -/
theorem test_rom_ignores_write : check [0xB7, 0x20, 0x00]
    { cleared with a := 0x12, mem := [(0x2000, 0xAA)], platform := [{ base := 0x2000, size := 0x100, kind := .rom }] }
    (fun τ => peek 0x2000 τ == 0xAA && τ.cc.n == false && τ.pc == 0x1003) = true := by decide

/-- R61: a device sees the accesses made to it; memory does not change. -/
theorem test_device_sees_write : check [0xB7, 0x20, 0x00]
    { cleared with a := 0x12, platform := [{ base := 0x2000, size := 0x100, kind := .device }] }
    (fun τ => τ.devices.map (fun c => (c.write, c.addr, c.data)) == [(true, 0x2000, 0x12)] && peek 0x2000 τ == 0) = true := by
  decide

/-- R456: HALT low when RES returns high keeps the vector fetch waiting. -/
theorem test_reset_vector_waits : steps { resetState with env := [{ pins with halt := true }] }
    (fun τ => τ.run == .resetVector && runStateName τ == .halted && τ.dp == 0 && τ.bus == []) = true := by decide

/-- R452, R450: a reset whose vector fetch RES cuts has drawn its values; the next reset draws others. -/
theorem test_cut_reset_draws_apart : steps { resetState with env := [{ pins with resCut := some [] }] }
    (fun τ => τ.inReset && τ.bus == [] && τ.draws == resetState.draws + 1) = true := by decide

/-! ## The host's two functions -/

theorem test_table_word : decodeTableWord 8 0x86 = some (.lda (.imm 0)) ∧ decodeTableWord 16 0x1027 = some (.lbeq 0) ∧
    decodeTableWord 16 0x113F = some .swi3 ∧ decodeTableWord 8 0x01 = none := by decide

theorem test_fetch_word : steps (State.reset.withFetchWord 8 0x4C) (fun τ => τ.a == 1 && τ.pc == 1) = true := by decide

/-! ## Memory -/

theorem test_reset_memory_canonical : State.reset.mem.wf = true := by decide

theorem test_write_of_unlisted_value_removes : Memory.write [(5, 1), (7, 2)] 5 0 = [(7, 2)] := by decide

/-! ## Witnesses: the hypotheses of the statements can be met -/

/-- A state whose memory lists something, at the edges of the address space too. -/
def stocked : State :=
  { cleared with
    s := 0x8000, u := 0x7000, x := 0xFFFF, cc := { noFlags with c := true }
    mem := [(0, 0x12), (0x1000, 0x4C), (0x8000, 0x80), (0xFFFF, 0x34)] }

/-- The state once a boundary with every pin high has led to the instruction: its first cycle is one of inactive DMA/BREQ. -/
def begun (σ : State) : State := { σ with dmaIdle := σ.dmaIdle + 1 }

theorem witness_DecodeInvertsEncode : (Instr.tfr (.r16 .x) (.r16 .pc)).wf = true ∧ (Instr.lda (.imm 0xFF)).wf = true := by
  decide

theorem witness_DecodeReadsWholeInstruction : decode [0x10, 0xEE, 0x9F, 0x20, 0x00, 0x77] =
    .ok (.lds (.mem (.indexed (.extIndirect 0x2000))), [0x77]) := by rfl

/-- The boundary of `stocked` leads to an instruction; so it does with unused bytes at PC, on each page. -/
theorem witness_UnusedOpcodesRefused :
    (boundary { stocked with mem := [(0x1000, 0x01)] } = .instruction (begun { stocked with mem := [(0x1000, 0x01)] }) ∧
      step { stocked with mem := [(0x1000, 0x01)] } = .refused .unusedOpcode) ∧
    step { stocked with mem := [(0x1000, 0x10), (0x1001, 0x20)] } = .refused .unusedOpcode ∧
    step { stocked with mem := [(0x1000, 0x11), (0x1001, 0x3E)] } = .refused .unusedOpcode := by
  refine ⟨⟨?_, ?_⟩, ?_, ?_⟩ <;> rfl

/-- An unused postbyte behind an indexed opcode of each page, and behind TFR. -/
theorem witness_UnusedPostbytesRefused :
    (boundary { stocked with mem := [(0x1000, 0xA6), (0x1001, 0x87)] } =
        .instruction (begun { stocked with mem := [(0x1000, 0xA6), (0x1001, 0x87)] }) ∧
      step { stocked with mem := [(0x1000, 0xA6), (0x1001, 0x87)] } = .refused .unusedIndexedPostbyte ∧
      step { stocked with mem := [(0x1000, 0x10), (0x1001, 0xAE), (0x1002, 0xFF)] } = .refused .unusedIndexedPostbyte ∧
      step { stocked with mem := [(0x1000, 0x11), (0x1001, 0xA3), (0x1002, 0x90)] } = .refused .unusedIndexedPostbyte ∧
      step { stocked with mem := [(0x1000, 0x1F), (0x1001, 0x08)] } = .refused .unusedRegisterPostbyte) ∧
    (Reg.r16 .d).likeSize (.r8 .a) = false ∧ (0x87 : Byte) ∈ unusedPostbytes ∧
    (0x84 : Byte) ∉ unusedPostbytes ∧ ¬ LikePair 0x6B ∧ LikePair 0x8B ∧ LikePair 0x55 := by
  refine ⟨⟨rfl, rfl, rfl, rfl, rfl⟩, rfl, by decide, by decide, ?_, ?_, ?_⟩ <;> simp [LikePair]

theorem witness_StepRunsDecodedInstruction :
    (boundary stocked = .instruction (begun stocked) ∧ decode (fetchWindow (begun stocked)) = .ok (.inca, [0, 0, 0, 0]) ∧
      (nextSample stocked).resCut = none ∧ Undisturbed (begun stocked) ∧
      ∃ ω, exec .inca (afterFetch .inca 1 (begun stocked)) = .next ω) ∧
    AtInstruction stocked :=
  ⟨⟨rfl, rfl, rfl, ⟨rfl, rfl⟩, _, rfl⟩, rfl, rfl, rfl, rfl, rfl⟩

theorem witness_EveryInstructionCompletes : (Instr.exg (.r8 .cc) (.r8 .dp)).wf = true ∧ Instr.sync.wf = true := by decide

/-- A release with every pin high, one with an NMI edge and HALT low, one with DMA/BREQ low; and the vector fetch that waits. -/
theorem witness_LeavingResetRunsFromVector :
    (resetState.inReset = true ∧ (nextSample resetState).res = false ∧ PinsLetRun (nextSample resetState) ∧
      resetState.platform = []) ∧
    (({ resetState with halted := true } : State).halted = true ∧ PinsLetRun (nextSample { resetState with halted := true })) ∧
    (nextSample { resetState with env := [{ pins with nmiFell := true, halt := true }] }).halt = true ∧
    (nextSample { resetState with env := [{ pins with nmiFell := true, halt := true }] }).dmaBreq = false ∧
    ((nextSample { resetState with env := [{ pins with dmaBreq := true }] }).dmaBreq = true ∧
      (nextSample { resetState with env := [{ pins with dmaBreq := true }] }).resCut = none) ∧
    (({ stocked with run := .resetVector } : State).run = .resetVector ∧ Unstopped { stocked with run := .resetVector } ∧
      PinsLetRun (nextSample { stocked with run := .resetVector })) := by
  exact ⟨⟨rfl, rfl, ⟨rfl, rfl, rfl, rfl, rfl⟩, rfl⟩, ⟨rfl, rfl, rfl, rfl, rfl, rfl⟩, rfl, rfl, ⟨rfl, rfl⟩, rfl, ⟨rfl, rfl⟩, rfl, rfl, rfl, rfl, rfl⟩

theorem witness_ResetHeldFromAnyState :
    (nextSample { stocked with env := [{ pins with res := true }] }).res = true ∧
    (nextSample { stocked with env := [{ pins with res := true }] }).halt = false ∧
    (nextSample { stocked with env := [{ pins with res := true }] }).dmaBreq = false ∧
    (nextSample { stocked with env := [{ pins with res := true, halt := true }] }).res = true := by decide

/-- One instruction for each clause: one that loads neither DP nor CC and is no SWI, SWI2 for the clause of F and I. -/
theorem witness_SystemRegisterWriters :
    exec .inca stocked = .next (rmwAcc inc8 .a stocked) ∧ loadsDp .inca = false ∧ loadsCc .inca = false ∧ isSwi .inca = false ∧
    exec .swi2 stocked = .next (takeException .swi2 stocked) ∧ loadsCc .swi2 = false ∧ Instr.swi2 ≠ .swi :=
  ⟨rfl, rfl, rfl, rfl, rfl, rfl, by decide⟩

theorem witness_NmiArmingInstructions :
    exec (.lds (.imm 0x8000)) { stocked with nmiArmed := true } =
      .next (armNmiIf true (load16 .s (.imm 0x8000) { stocked with nmiArmed := true })) ∧
    exec (.pulu 0x3F) stocked = .next (armNmiIf (Config.puluArmsNmi && false) (pullRegs .u 0x3F stocked)) ∧
    mayArmNmi (.pulu 0x3F) = false := ⟨rfl, rfl, rfl⟩

theorem witness_OnlyWaitsChangeRunState : exec .sync stocked = .next (setRun .syncing stocked) ∧
    exec .nop stocked = .next stocked ∧ stocked.cycles = none := ⟨rfl, rfl, rfl⟩

theorem witness_NonStoringInstructionsKeepMemory :
    storesMemory (.pshs 0) = false ∧ exec (.pshs 0) stocked = .next stocked ∧
    storesMemory (.tst (.extended 0x8000)) = false ∧
    exec (.tst (.extended 0x8000)) stocked = .next (testMem (.extended 0x8000) stocked) := ⟨rfl, rfl, rfl, rfl⟩

/-- An instruction that changes a byte. -/
theorem witness_BusLogAccountsForMemory :
    exec (.sta (.extended 0xFFFF)) stocked = .next (storeAcc .a (.extended 0xFFFF) stocked) ∧ stocked.cycles = none ∧
    peek 0xFFFF (storeAcc .a (.extended 0xFFFF) stocked) ≠ peek 0xFFFF stocked := ⟨rfl, rfl, by decide⟩

theorem witness_AcknowledgeCyclesAreVectorFetches : exec .swi stocked = .next (takeException .swi stocked) ∧
    Undisturbed stocked := ⟨rfl, rfl, rfl⟩

theorem witness_OperandValues : Undisturbed stocked := ⟨rfl, rfl⟩

/-- An index register at the top of the address space, so that the sum wraps. -/
theorem witness_DirectRelativeAndIndirectAddresses : Undisturbed stocked ∧
    (((0xFFFF : Word).toNat : Nat) : Int) = baseInt (.off8 .x 0x00) stocked % 65536 ∧
    (((0x0000 : Word).toNat : Nat) : Int) = baseInt (.off8 .x 0x01) stocked % 65536 := ⟨⟨rfl, rfl⟩, by decide, by decide⟩

theorem witness_AutoUpdateAddresses : ((Idx.inc1 .x = .inc1 .x ∧ (1 : Nat) = 1) ∧ (Idx.plain (.dec2 .s) = .plain (.dec2 .s) ∧ (2 : Nat) = 2)) ∧
    Ptr.y ≠ .x := by decide

/-- X at the top of the address space: the two bytes stored lie at $FFFF and $0000. -/
theorem witness_PointerStoredAfterUpdate : Undisturbed stocked ∧ stocked.mem.wf = true ∧ ptr .x stocked = 0xFFFF :=
  ⟨⟨rfl, rfl⟩, by decide, by decide⟩

theorem witness_StoreByteResults : Undisturbed stocked ∧ stocked.mem.wf = true ∧
    (effAddr (.indexed (.inc1 .x)) stocked).1 = 0xFFFF := ⟨⟨rfl, rfl⟩, by decide, by decide⟩

theorem witness_RmwMemoryResults : Undisturbed stocked ∧ stocked.mem.wf = true ∧
    peek (effAddr (.direct 0) stocked).1 stocked = 0x12 := ⟨⟨rfl, rfl⟩, by decide, by decide⟩

theorem witness_TestResults : stocked.cycles = none := rfl

theorem witness_StoreWordResults : Undisturbed stocked ∧ stocked.mem.wf = true ∧
    (effAddr (.extended 0xFFFF) stocked).1 + 1 = 0 := ⟨⟨rfl, rfl⟩, by decide, by decide⟩

/-- Of one register and of two, up and down. -/
theorem witness_LeaWithAutoUpdateOfSameRegister :
    ((Idx.inc1 .x = .inc1 .x ∧ (1 : Word) = 1) ∨ (Idx.inc1 .x = .plain (.inc2 .x) ∧ (1 : Word) = 2)) ∧
    ((Idx.plain (.dec2 .y) = .dec1 .y ∧ (2 : Word) = 1) ∨
      (Idx.plain (.dec2 .y) = .plain (.dec2 .y) ∧ (2 : Word) = 2)) ∧ Ptr.y ≠ .x := by decide

theorem witness_LeaResults : (Ptr.x = .x ∨ Ptr.x = .y) ∧ (Ptr.u = .u ∨ Ptr.u = .s) ∧ Ptr.u ≠ .s := by decide

/-- The frame wraps over address 0 with S = 3; masks for the conditional clauses of the pulls: neither CC nor S, and S alone. -/
theorem witness_PushAndPullResults : (Undisturbed { stocked with s := 3 } ∧ ({ stocked with s := 3 } : State).mem.wf = true) ∧
    (0x3E : Byte).getLsbD 0 = false ∧ (0x3E : Byte).getLsbD 6 = false ∧ (0x40 : Byte).getLsbD 6 = true :=
  ⟨⟨⟨rfl, rfl⟩, by decide⟩, by decide⟩

theorem witness_JumpCallReturnResults : Undisturbed { stocked with s := 1 } ∧
    ({ stocked with s := 1 } : State).mem.wf = true := ⟨⟨rfl, rfl⟩, by decide⟩

theorem witness_SoftwareInterruptResults : Undisturbed { stocked with s := 0 } ∧
    ({ stocked with s := 0 } : State).mem.wf = true := ⟨⟨rfl, rfl⟩, by decide⟩

theorem witness_CwaiResults : Undisturbed { stocked with s := 12 } ∧
    ({ stocked with s := 12 } : State).mem.wf = true := ⟨⟨rfl, rfl⟩, by decide⟩

theorem witness_EntryMaskTable : Undisturbed stocked ∧ stocked.mem.wf = true ∧ Exc.nmi ≠ .res ∧ Exc.res = .res :=
  ⟨⟨rfl, rfl⟩, by decide, by decide, rfl⟩

theorem witness_DecimalAdditionIsDecimal : IsBcd 0x99 99 ∧ IsBcd 0x00 0 ∧ IsBcd 0x47 47 := by
  refine ⟨?_, ?_, ?_⟩ <;> exact ⟨by decide, by decide, by decide⟩

theorem witness_TransferAndExchangeResults :
    ((Reg.r8 .cc).likeSize (.r8 .dp) = true ∧ (Reg.r16 .pc).likeSize (.r16 .s) = true) ∧
    (Reg.r16 .d).likeSize (.r16 .x) = true ∧ (Reg.r8 .a).likeSize (.r8 .a) = true := by decide

theorem witness_BranchResults : CondHolds .cs stocked.cc ∧ ¬ CondHolds .cc stocked.cc ∧ CondHolds .always stocked.cc ∧
    ¬ CondHolds .never stocked.cc := by simp [CondHolds, stocked, noFlags]

theorem witness_BranchesAfterCompare :
    exec (.cmpa (.imm 0x80)) stocked = .next (accCompare .a (.imm 0x80) stocked) ∧
    exec (.cmps (.imm 0x8000)) stocked = .next (compare16 .s (.imm 0x8000) stocked) := ⟨rfl, rfl⟩

/-- Both values of the stacked E. -/
theorem witness_ReturnFromInterruptResults : Undisturbed stocked ∧ (peek stocked.s stocked).getLsbD 7 = true ∧
    (peek ({ stocked with s := 0 } : State).s { stocked with s := 0 }).getLsbD 7 = false :=
  ⟨⟨rfl, rfl⟩, by decide, by decide⟩

theorem witness_EntryThenReturnRestores : Undisturbed stocked ∧ stocked.mem.wf = true ∧ Exc.firq ≠ .res ∧ Exc.swi ≠ .res :=
  ⟨⟨rfl, rfl⟩, by decide, by decide, by decide⟩

theorem witness_InterruptPriority : stocked.run = .running ∧ takeable pins stocked = none ∧
    takeable { pins with firq := true, irq := true } { stocked with nmiPending := true, nmiArmed := true } = some .nmi ∧
    takeable { pins with firq := true, irq := true } stocked = some .firq ∧
    takeable { pins with irq := true } stocked = some .irq := by decide

/-- Each of the three entries. -/
theorem witness_HardwareInterruptEntry :
    (irqState.platform = [] ∧ irqState.mem.wf = true ∧ irqState.run = .running ∧ Unstopped irqState ∧
      PinsLetRun (nextSample irqState) ∧
      takeable (nextSample irqState) (noteNmi (nextSample irqState) irqState) = some .irq) ∧
    (firqState.platform = [] ∧ firqState.mem.wf = true ∧ firqState.run = .running ∧ Unstopped firqState ∧
      PinsLetRun (nextSample firqState) ∧
      takeable (nextSample firqState) (noteNmi (nextSample firqState) firqState) = some .firq) ∧
    (nmiState.platform = [] ∧ nmiState.mem.wf = true ∧ nmiState.run = .running ∧ Unstopped nmiState ∧
      PinsLetRun (nextSample nmiState) ∧
      takeable (nextSample nmiState) (noteNmi (nextSample nmiState) nmiState) = some .nmi) :=
  ⟨⟨rfl, rfl, rfl, ⟨rfl, rfl⟩, ⟨rfl, rfl, rfl, rfl, rfl⟩, rfl⟩,
    ⟨rfl, rfl, rfl, ⟨rfl, rfl⟩, ⟨rfl, rfl, rfl, rfl, rfl⟩, rfl⟩,
    rfl, rfl, rfl, ⟨rfl, rfl⟩, ⟨rfl, rfl, rfl, rfl, rfl⟩, rfl⟩

/-- The Sync state with a masked request and with none; CWAI's wait with a takeable request, an NMI among them, and with a masked one. -/
theorem witness_WaitsEndOnRequests :
    (Unstopped syncState ∧ PinsLetRun (nextSample syncState) ∧ syncState.run = .syncing ∧ (nextSample syncState).irq = true) ∧
    (Unstopped { syncState with env := [] } ∧ PinsLetRun (nextSample { syncState with env := [] })) ∧
    (Unstopped cwaiState ∧ PinsLetRun (nextSample cwaiState) ∧ cwaiState.run = .cwaiWaiting ∧ cwaiState.platform = [] ∧
      takeable (nextSample cwaiState) (noteNmi (nextSample cwaiState) cwaiState) = some .firq) ∧
    takeable (nextSample nmiState) (noteNmi (nextSample nmiState) { nmiState with run := .cwaiWaiting }) = some .nmi ∧
    takeable { pins with irq := true } cwaiState = none :=
  ⟨⟨⟨rfl, rfl⟩, ⟨rfl, rfl, rfl, rfl, rfl⟩, rfl, rfl⟩, ⟨⟨rfl, rfl⟩, rfl, rfl, rfl, rfl, rfl⟩,
    ⟨⟨rfl, rfl⟩, ⟨rfl, rfl, rfl, rfl, rfl⟩, rfl, rfl, rfl⟩, rfl, rfl⟩

theorem witness_HaltStopsAndResumes :
    (haltState.inReset = false ∧ (nextSample haltState).res = false ∧ (nextSample haltState).dmaBreq = false ∧
      (nextSample haltState).halt = true) ∧
    (({ cleared with halted := true } : State).inReset = false ∧ (nextSample { cleared with halted := true }).res = false ∧
      (nextSample { cleared with halted := true }).dmaBreq = false ∧
      (nextSample { cleared with halted := true }).halt = false ∧ ({ cleared with halted := true } : State).halted = true) := by
  decide

/-- The last granted cycle, the first one refused, the delayed one, DMA/BREQ high, and an instruction after an idle cycle. -/
theorem witness_DmaRequestGrantsBus : (dmaState.inReset = false ∧ (nextSample dmaState).res = false ∧
    (nextSample dmaState).dmaBreq = true ∧ ({ dmaState with refreshCount := 14 } : State).refreshCount < 15 ∧
    assertionDelayed (busSide { dmaState with refreshCount := 14 }) = false ∧
    15 ≤ ({ dmaState with refreshCount := 15 } : State).refreshCount ∧
    assertionDelayed (busSide { dmaState with dmaIdle := 3, dmaLow := 6 }) = true) ∧
    (stocked.inReset = false ∧ (nextSample stocked).res = false ∧ (nextSample stocked).dmaBreq = false) ∧
    (boundary { stocked with refreshCount := 9, dmaIdle := 1 } = .instruction { stocked with refreshCount := 9, dmaIdle := 2 } ∧
      decode (fetchWindow { stocked with refreshCount := 9, dmaIdle := 2 }) = .ok (.inca, [0, 0, 0, 0]) ∧
      ∃ υ, step { stocked with refreshCount := 9, dmaIdle := 1 } = .next υ) :=
  ⟨by decide, by decide, rfl, rfl, _, rfl⟩

/-- A step under way with these cycles to come, the counters at the last values allowed. -/
def midStep (cs : List CycleSample) : State :=
  { stocked with lines := [.access], refreshCount := 11, dmaLow := 5, dmaIdle := 2, cycles := some cs }

/-- The address at the top of memory. -/
theorem witness_GrantsFallBetweenBusCycles :
    (midStep []).platform = [] ∧ (midStep []).mem.wf = true ∧ (midStep []).busGranted = false ∧
    (midStep []).refreshCount ≤ 11 ∧ (midStep []).dmaLow < 6 ∧ mpuCycles (midStep []).lines ≠ 0 ∧
    (midStep [⟨false, none⟩, ⟨true, none⟩, ⟨true, some (0xFFFF, 7)⟩, ⟨false, none⟩,
      ⟨true, none⟩, ⟨true, some (0xFFFF, 8)⟩, ⟨false, none⟩]).cycles =
      some [⟨false, none⟩, ⟨true, none⟩, ⟨true, some (0xFFFF, 7)⟩, ⟨false, none⟩,
        ⟨true, none⟩, ⟨true, some (0xFFFF, 8)⟩, ⟨false, none⟩] ∧
    (midStep [⟨false, none⟩, ⟨true, none⟩, ⟨true, some (0, 7)⟩, ⟨false, none⟩]).cycles =
      some [⟨false, none⟩, ⟨true, none⟩, ⟨true, some (0, 7)⟩, ⟨false, none⟩] := by decide

theorem witness_GrantsWithoutWritesChangeNoOutcome :
    (∀ c ∈ [(⟨true, none⟩ : CycleSample), ⟨false, none⟩], c.write = none) ∧
    exec .rts { stocked with cycles := none } = .next (pullInto16 .s setPc { stocked with cycles := none }) := ⟨by decide, rfl⟩

/-- An entry cut short, and a step without an access that is not. -/
theorem witness_ResetCutsStepShort :
    ((nextSample { irqState with env := [{ pins with irq := true, resCut := some [true] }] }).resCut = some [true] ∧
      ∃ τ, step irqState = .next τ ∧ ownAccesses τ ≠ 0) ∧
    (nextSample { haltState with env := [{ pins with halt := true, resCut := some [] }] }).resCut = some [] ∧
    (∃ τ, step { cleared with env := [{ pins with halt := true }] } = .next τ ∧ ownAccesses τ = 0) := by
  refine ⟨⟨rfl, _, rfl, by decide⟩, rfl, _, rfl, by decide⟩

theorem witness_StepKeepsInvariant : StateInv stocked ∧ ∃ τ, step stocked = .next τ := by
  refine ⟨⟨by decide, by decide, by decide, by decide⟩, ?_⟩
  exact ⟨_, rfl⟩

end Sys2Proof.Tests
end

section
/-! PROOFS. The statements about the registers as 10_state.md gives them. -/

namespace Sys2Proof.Proofs

open Sys2Proof.Machine

/-- D as a number: the accumulator A counts the multiples of 256 (R12). -/
theorem toNat_readReg16_d (σ : State) : (readReg16 .d σ).toNat = 256 * σ.a.toNat + σ.b.toNat :=
  toNat_join σ.a σ.b

theorem readReg16_d_writeReg16_d (w : Word) (σ : State) : readReg16 .d (writeReg16 .d w σ) = w :=
  dReg_setD σ w

/-- Settles O23: reads of D, after writes of A or B too, by the value of `join`; writes of D by the values of `hi` and `lo`. -/
theorem accumulatorDIsAB : Obligations.AccumulatorDIsAB := by
  intro σ w v
  have readAfterA : (readReg16 .d (setAcc .a v σ)).toNat = 256 * v.toNat + σ.b.toNat := by
    rw [toNat_readReg16_d, setAcc_a_a, setAcc_a_b]
  have readAfterB : (readReg16 .d (setAcc .b v σ)).toNat = 256 * σ.a.toNat + v.toNat := by
    rw [toNat_readReg16_d, setAcc_b_a, setAcc_b_b]
  exact ⟨toNat_readReg16_d σ, toNat_hi w, toNat_lo w, readReg16_d_writeReg16_d w σ, readAfterA, readAfterB⟩

end Sys2Proof.Proofs
end

section
/-! PROOFS. The statements about the common operations of 40_common_operations.md. -/

namespace Sys2Proof.Proofs

open Sys2Proof.Machine

/-! ### An 8-bit operand is read and CC alone is written -/

section OperandThenFlags

variable (src : Src8) (cc : CC) (σ : State)

theorem keepsRegs_setCc_operand8 : KeepsRegs [] (src8Delta src) σ (setCc cc (operand8 src σ).2) := by
  simp [KeepsRegs]

theorem leavesMemory_setCc_operand8 : LeavesMemory σ (setCc cc (operand8 src σ).2) := by
  intro ungranted i
  simp [ungranted]

theorem keepsNmi_setCc_operand8 : KeepsNmi σ (setCc cc (operand8 src σ).2) := by
  simp [KeepsNmi]

theorem keepsControl_setCc_operand8 : KeepsControl σ (setCc cc (operand8 src σ).2) := by
  refine ⟨by simp, by simp, by simp, by simp, by simp, fun ungranted => ?_⟩
  simp [KeepsCounters, ungranted]

/-- The last access of an operand in memory is the read of its byte (R140). -/
theorem bus_operand8_mem (a : Addr) (ungranted : σ.cycles = none) :
    (operand8 (.mem a) σ).2.bus = (effAddr a σ).2.bus ++
      [{ write := false, ack := false, addr := (effAddr a σ).1, data := (operand8 (.mem a) σ).1 }] :=
  bus_readByte _ _ ((cycles_effAddr σ a).mpr ungranted)

end OperandThenFlags

/-! ### TST, TSTA, TSTB (R157, R224 to R226) -/

theorem exec_tst (a : Addr) (σ : State) : exec (.tst a) σ = .next (testMem a σ) := rfl

theorem exec_tstAccI (r : Acc) (σ : State) : exec (tstAccI r) σ = .next (testAcc r σ) := by
  cases r <;> rfl

/-- TST is the read of its operand, then a write of CC and of nothing else (R159). -/
theorem testMem_eq_setCc_operand8 (a : Addr) (σ : State) :
    testMem a σ = setCc (tst8 (operand8 (.mem a) σ).1 (operand8 (.mem a) σ).2.cc) (operand8 (.mem a) σ).2 := rfl

theorem logicFlags_testMem (a : Addr) (σ : State) :
    LogicFlags (operand8 (.mem a) σ).1 σ.cc (testMem a σ).cc := by
  rw [testMem_eq_setCc_operand8, setCc_cc, cc_operand8]
  exact logicFlags_tst8 _ _

theorem bus_testMem (a : Addr) (σ : State) (ungranted : σ.cycles = none) :
    (testMem a σ).bus = (effAddr a σ).2.bus ++
      [{ write := false, ack := false, addr := (effAddr a σ).1, data := (operand8 (.mem a) σ).1 }] := by
  rw [testMem_eq_setCc_operand8, setCc_bus, bus_operand8_mem σ a ungranted]

/-- TST changes CC and, by its addressing mode, a pointer register (R120). -/
theorem testMem_frame (a : Addr) (σ : State) :
    KeepsRegs [] (addrDelta a) σ (testMem a σ) ∧ LeavesMemory σ (testMem a σ) ∧ KeepsNmi σ (testMem a σ) ∧
      KeepsControl σ (testMem a σ) := by
  rw [testMem_eq_setCc_operand8]
  exact ⟨keepsRegs_setCc_operand8 (.mem a) _ σ, leavesMemory_setCc_operand8 _ _ σ, keepsNmi_setCc_operand8 _ _ σ,
    keepsControl_setCc_operand8 _ _ σ⟩

theorem logicFlags_testAcc (r : Acc) (σ : State) : LogicFlags (acc r σ) σ.cc (testAcc r σ).cc :=
  logicFlags_tst8 _ _

/-- TSTA and TSTB write CC and nothing else. -/
theorem testAcc_frame (r : Acc) (σ : State) :
    KeepsRegs [] noDelta σ (testAcc r σ) ∧ LeavesMemory σ (testAcc r σ) ∧ KeepsNmi σ (testAcc r σ) ∧
      KeepsControl σ (testAcc r σ) := by
  refine ⟨?_, fun _ i => peek_setCc σ i _, ⟨rfl, rfl⟩, ?_⟩
  · simp [KeepsRegs, noDelta, testAcc]
  · exact ⟨rfl, rfl, rfl, rfl, rfl, fun ungranted => ⟨ungranted, rfl, rfl, rfl, rfl, rfl⟩⟩

/-- Settles O31: TST by its reduction to the operand's read and a write of CC, TSTA and TSTB by the write of CC alone. -/
theorem testResults : Obligations.TestResults := by
  refine fun σ => ⟨fun a => ?_, fun r => ?_⟩
  · exact ⟨testMem a σ, exec_tst a σ, logicFlags_testMem a σ, bus_testMem a σ, testMem_frame a σ⟩
  · exact ⟨testAcc r σ, exec_tstAccI r σ, logicFlags_testAcc r σ, rfl, testAcc_frame r σ⟩

end Sys2Proof.Proofs
end

section
/-! PROOFS. The hazards of 70_reset_and_hazards.md: LEA whose address updates a pointer register (R459). -/

namespace Sys2Proof.Proofs

open Sys2Proof.Machine

/-- LEA takes the address after the addressing mode has moved the pointers, so the destination alone loses its update. -/
theorem exec_leaI_ptr (r : Ptr) (i : Idx) (σ : State) :
    ∃ τ : State, exec (leaI r i) σ = .next τ ∧
      ∀ q : Ptr, ptr q τ = if q = r then (idxAddr i σ).1 else ptr q σ + idxDelta i q := by
  cases r <;> exact ⟨_, rfl, fun q => by simp [ptr_idxAddr]⟩

theorem exec_leaI_moves (r q : Ptr) (i : Idx) (σ : State) :
    ∃ τ : State, exec (leaI r i) σ = .next τ ∧ ptr r τ = (idxAddr i σ).1 ∧
      (q ≠ r → ptr q τ = ptr q σ + idxDelta i q) := by
  obtain ⟨τ, runs, pointers⟩ := exec_leaI_ptr r i σ
  exact ⟨τ, runs, (pointers r).trans (if_pos rfl), fun other => (pointers q).trans (if_neg other)⟩

/-- An auto increment gives the old pointer as the address and moves the pointer by its size (R112, R113). -/
theorem idxAddr_increment {q : Ptr} {i : Idx} {n : Word}
    (up : (i = .inc1 q ∧ n = 1) ∨ (i = .plain (.inc2 q) ∧ n = 2)) (σ : State) :
    (idxAddr i σ).1 = ptr q σ ∧ idxDelta i q = n := by
  obtain ⟨rfl, rfl⟩ | ⟨rfl, rfl⟩ := up
  · exact ⟨rfl, if_pos rfl⟩
  · exact ⟨rfl, if_pos rfl⟩

/-- An auto decrement gives the lowered pointer as the address and moves the pointer there (R114, R115). -/
theorem idxAddr_decrement {q : Ptr} {i : Idx} {n : Word}
    (down : (i = .dec1 q ∧ n = 1) ∨ (i = .plain (.dec2 q) ∧ n = 2)) (σ : State) :
    (idxAddr i σ).1 = ptr q σ - n ∧ idxDelta i q = -n := by
  obtain ⟨rfl, rfl⟩ | ⟨rfl, rfl⟩ := down
  · exact ⟨rfl, if_pos rfl⟩
  · exact ⟨rfl, if_pos rfl⟩

/-- Settles O22: LEA by what it does to every pointer register, with the address and the update of the increment, the decrement and the offset 1. -/
theorem leaWithAutoUpdateOfSameRegister : Obligations.LeaWithAutoUpdateOfSameRegister := by
  refine fun r q σ => ⟨fun i n up => ?_, fun i n down => ?_, ?_⟩
  · obtain ⟨address, update⟩ := idxAddr_increment up σ
    obtain ⟨τ, runs, taken, moved⟩ := exec_leaI_moves r q i σ
    exact ⟨τ, runs, taken.trans address, fun other => by rw [moved other, update]⟩
  · obtain ⟨address, update⟩ := idxAddr_decrement down σ
    obtain ⟨τ, runs, taken, moved⟩ := exec_leaI_moves r q i σ
    exact ⟨τ, runs, taken.trans address, fun other => by rw [moved other, update, BitVec.sub_eq_add_neg]⟩
  · obtain ⟨τ, runs, taken, -⟩ := exec_leaI_moves r r (.off5 r 1) σ
    have offset : (idxAddr (.off5 r 1) σ).1 = ptr r σ + 1 := congrArg (ptr r σ + ·) (by decide : sext5 1 = 1)
    exact ⟨τ, runs, taken.trans offset⟩

end Sys2Proof.Proofs
end

section
/-! PROOFS. The statements about the encoding of 30_encoding.md and 31_addressing_modes.md: decoding inverts encoding. -/

namespace Sys2Proof.Proofs

open Sys2Proof.Machine

/-! ### Operand fields -/

theorem takeWord_encodeWord (w : Word) (rest : List Byte) : takeWord (encodeWord w ++ rest) = .ok (w, rest) :=
  congrArg (fun v => Except.ok (v, rest)) (join_hi_lo w)

/-- A form that may be indirect is read back with and without its bit 4 (R104, R118). -/
theorem decodeIdx_encodeBase (m : IdxBase) (rest : List Byte) :
    decodeIdx (encodeBase 0x00 m ++ rest) = .ok (.plain m, rest) ∧
    decodeIdx (encodeBase 0x10 m ++ rest) = .ok (.indirect m, rest) := by
  cases m with
  | zero r | off8 r n | accA r | accB r | accD r | inc2 r | dec2 r => cases r <;> exact ⟨rfl, rfl⟩
  | pcr8 n => exact ⟨rfl, rfl⟩
  | off16 r n =>
    cases r <;> exact ⟨congrArg (fun w => Except.ok (Idx.plain (.off16 _ w), rest)) (join_hi_lo n),
      congrArg (fun w => Except.ok (Idx.indirect (.off16 _ w), rest)) (join_hi_lo n)⟩
  | pcr16 n =>
    exact ⟨congrArg (fun w => Except.ok (Idx.plain (.pcr16 w), rest)) (join_hi_lo n),
      congrArg (fun w => Except.ok (Idx.indirect (.pcr16 w), rest)) (join_hi_lo n)⟩

/-- The postbyte of a 5-bit offset holds the pointer's code over the offset (R106). -/
theorem postbyte_off5 (r : Ptr) (n : BitVec 5) :
    (encodePtr r ||| n.setWidth 8).getLsbD 7 = false ∧ postbytePtr (encodePtr r ||| n.setWidth 8) = r ∧
      (encodePtr r ||| n.setWidth 8).extractLsb' 0 5 = n := by
  cases r <;> revert n <;> decide

theorem decodeIdx_encodeIdx (i : Idx) (rest : List Byte) : decodeIdx (encodeIdx i ++ rest) = .ok (i, rest) := by
  cases i with
  | off5 r n =>
    obtain ⟨bit7, pointer, offset⟩ := postbyte_off5 r n
    rw [encodeIdx, List.singleton_append, decodeIdx, if_neg (by simp only [bit7, Bool.false_eq_true, not_false_iff]), pointer,
      offset]
  | inc1 r | dec1 r => cases r <;> rfl
  | plain m => exact (decodeIdx_encodeBase m rest).1
  | indirect m => exact (decodeIdx_encodeBase m rest).2
  | extIndirect n => exact congrArg (fun w => Except.ok (Idx.extIndirect w, rest)) (join_hi_lo n)

/-- The two nibbles of a TFR or EXG postbyte name its registers (R81). -/
theorem decodeReg_encodePair (src dst : Reg) :
    decodeReg (hiNibble (encodePair src dst)) = some src ∧ decodeReg (loNibble (encodePair src dst)) = some dst := by
  rcases src with ⟨_ | _⟩ | ⟨_ | _⟩ <;> rcases dst with ⟨_ | _⟩ | ⟨_ | _⟩ <;> exact ⟨rfl, rfl⟩

theorem decodeRegPair_encodePair (f : Reg → Reg → Instr) {src dst : Reg} (like : src.likeSize dst = true) (rest : List Byte) :
    decodeRegPair f (encodePair src dst :: rest) = .ok (f src dst, rest) := by
  obtain ⟨source, destination⟩ := decodeReg_encodePair src dst
  simp [decodeRegPair, source, destination, like]

/-! ### Opcodes with their operands -/

/-- What the memory forms of an instruction decode to, where each opcode leads to its mode. -/
theorem decode_encodeAddr {f : Addr → Instr} {direct indexed extended : List Byte}
    (hd : ∀ rest, decode (direct ++ rest) = mapDecoded f (decodeAddr .direct rest))
    (hx : ∀ rest, decode (indexed ++ rest) = mapDecoded f (decodeAddr .indexed rest))
    (he : ∀ rest, decode (extended ++ rest) = mapDecoded f (decodeAddr .extended rest)) (a : Addr) (rest : List Byte) :
    decode (encodeAddr direct indexed extended a ++ rest) = .ok (f a, rest) := by
  cases a with
  | direct n => rw [encodeAddr, List.append_assoc, hd]; rfl
  | indexed i => rw [encodeAddr, List.append_assoc, hx, decodeAddr, decodeIdx_encodeIdx]; rfl
  | extended n => rw [encodeAddr, List.append_assoc, he, decodeAddr, takeWord_encodeWord]; rfl

/-- The opcode of a mode in a row of four, `op` that of the immediate form (R74). -/
def modeOpcode (op : Byte) : Mode → Byte
  | .immediate => op
  | .memory .direct => op + 0x10
  | .memory .indexed => op + 0x10 + 0x10
  | .memory .extended => op + 0x10 + 0x20

theorem mapDecoded_mapDecoded {α β γ : Type} (f : β → γ) (g : α → β) (d : Decoded α) :
    mapDecoded f (mapDecoded g d) = mapDecoded (fun v => f (g v)) d := by
  cases d <;> rfl

theorem decode_encodeSrc8 {f : Src8 → Instr} {op : Byte}
    (cells : ∀ m rest, decode (modeOpcode op m :: rest) = mapDecoded f (decodeSrc8 m rest)) (src : Src8) (rest : List Byte) :
    decode (encodeSrc8 op src ++ rest) = .ok (f src, rest) := by
  cases src with
  | imm n => exact cells .immediate (n :: rest)
  | mem a =>
    have inMemory (m : MemMode) (tail : List Byte) : decode ([modeOpcode op (.memory m)] ++ tail) =
        mapDecoded (fun a => f (.mem a)) (decodeAddr m tail) := by
      rw [List.singleton_append, cells, decodeSrc8, mapDecoded_mapDecoded]
    exact decode_encodeAddr (inMemory .direct) (inMemory .indexed) (inMemory .extended) a rest

theorem decode_encodeSrc16 {f : Src16 → Instr} {p : List Byte} {op : Byte}
    (cells : ∀ m rest, decode (p ++ modeOpcode op m :: rest) = mapDecoded f (decodeSrc16 m rest)) (src : Src16)
    (rest : List Byte) : decode (encodeSrc16 p op src ++ rest) = .ok (f src, rest) := by
  cases src with
  | imm n =>
    have immediate := cells .immediate (encodeWord n ++ rest)
    rw [decodeSrc16, takeWord_encodeWord] at immediate
    rw [encodeSrc16, List.append_assoc]; exact immediate
  | mem a =>
    have inMemory (m : MemMode) (tail : List Byte) : decode (p ++ [modeOpcode op (.memory m)] ++ tail) =
        mapDecoded (fun a => f (.mem a)) (decodeAddr m tail) := by
      rw [List.append_assoc, List.singleton_append, cells, decodeSrc16, mapDecoded_mapDecoded]
    exact decode_encodeAddr (inMemory .direct) (inMemory .indexed) (inMemory .extended) a rest

/-- A word after an opcode that leads to it. -/
theorem decode_append_word {f : Word → Instr} {p : List Byte} (h : ∀ rest, decode (p ++ rest) = mapDecoded f (takeWord rest))
    (w : Word) (rest : List Byte) : decode (p ++ encodeWord w ++ rest) = .ok (f w, rest) := by
  rw [List.append_assoc, h, takeWord_encodeWord]; rfl

/-- An indexed form after an opcode that leads to it. -/
theorem decode_append_idx {f : Idx → Instr} {p : List Byte} (h : ∀ rest, decode (p ++ rest) = mapDecoded f (decodeIdx rest))
    (i : Idx) (rest : List Byte) : decode (p ++ encodeIdx i ++ rest) = .ok (f i, rest) := by
  rw [List.append_assoc, h, decodeIdx_encodeIdx]; rfl

/-- Settles O1, by the operands an instruction takes: each opcode leads to the operand it is followed by, and that operand is read back. -/
theorem decodeInvertsEncode : Obligations.DecodeInvertsEncode := by
  intro i rest wellFormed
  cases i with
  | adca src | adcb src | adda src | addb src | anda src | andb src | bita src | bitb src | cmpa src | cmpb src | eora src
  | eorb src | lda src | ldb src | ora src | orb src | sbca src | sbcb src | suba src | subb src =>
    exact decode_encodeSrc8 (by rintro (_ | _ | _ | _) _ <;> rfl) src rest
  | addd src | ldd src | subd src | cmpx src | ldu src | ldx src =>
    exact decode_encodeSrc16 (p := []) (by rintro (_ | _ | _ | _) _ <;> rfl) src rest
  | cmpd src | cmpy src | lds src | ldy src =>
    exact decode_encodeSrc16 (p := [0x10]) (by rintro (_ | _ | _ | _) _ <;> rfl) src rest
  | cmps src | cmpu src => exact decode_encodeSrc16 (p := [0x11]) (by rintro (_ | _ | _ | _) _ <;> rfl) src rest
  | sta a | stb a | asl a | asr a | clr a | com a | dec a | inc a | lsr a | neg a | rol a | ror a | tst a | std a | sts a
  | stu a | stx a | sty a | jmp a | jsr a =>
    exact decode_encodeAddr (fun _ => rfl) (fun _ => rfl) (fun _ => rfl) a rest
  | leas i | leau i | leax i | leay i => exact decode_append_idx (p := [_]) (fun _ => rfl) i rest
  | exg src dst => exact decodeRegPair_encodePair .exg wellFormed rest
  | tfr src dst => exact decodeRegPair_encodePair .tfr wellFormed rest
  | lbra off | lbsr off => exact decode_append_word (p := [_]) (fun _ => rfl) off rest
  | lbrn off | lbhi off | lbls off | lbcc off | lbcs off | lbne off | lbeq off | lbvc off | lbvs off | lbpl off | lbmi off
  | lbge off | lblt off | lbgt off | lble off => exact decode_append_word (p := [0x10, _]) (fun _ => rfl) off rest
  | pshs n | pshu n | puls n | pulu n | andcc n | cwai n | orcc n | bra n | brn n | bhi n | bls n | bcc n | bcs n | bne n
  | beq n | bvc n | bvs n | bpl n | bmi n | bge n | blt n | bgt n | ble n | bsr n => rfl
  | asla | aslb | asra | asrb | clra | clrb | coma | comb | daa | deca | decb | inca | incb | lsra | lsrb | mul | nega | negb
  | rola | rolb | rora | rorb | tsta | tstb | sex | abx | nop | rti | rts | swi | swi2 | swi3 | sync => rfl

/-- Settles O3: each word is decoded as it stands. -/
theorem specWordsDecode : Obligations.SpecWordsDecode :=
  ⟨rfl, rfl, rfl, rfl, rfl, rfl, rfl, rfl, rfl, rfl⟩

end Sys2Proof.Proofs
end

section
/-! PROOFS. The statements about the encoding: what the decoder reads, and what it refuses. Each opcode is given the form of what follows it; the decoder is then one function of that form. -/

namespace Sys2Proof.Proofs

open Sys2Proof.Machine

/-! ### The form of an opcode -/

/-- What an opcode is followed by, and the instruction it makes of that (R74 to R79). -/
inductive Form where
  | inherent (i : Instr)
  | byte (f : Byte → Instr)
  | word (f : Word → Instr)
  | pair (f : Reg → Reg → Instr)
  | indexed (f : Idx → Instr)
  | src8 (f : Src8 → Instr) (m : Mode)
  | src16 (f : Src16 → Instr) (m : Mode)
  | addr (f : Addr → Instr) (m : MemMode)
  | unused

/-- The decoder of a form. -/
def decodeForm (page : Nat) (op : Byte) : Form → List Byte → Decoded Instr
  | .inherent i, rest => .ok (i, rest)
  | .byte f, rest => mapDecoded f (takeByte rest)
  | .word f, rest => mapDecoded f (takeWord rest)
  | .pair f, rest => decodeRegPair f rest
  | .indexed f, rest => mapDecoded f (decodeIdx rest)
  | .src8 f m, rest => mapDecoded f (decodeSrc8 m rest)
  | .src16 f m, rest => mapDecoded f (decodeSrc16 m rest)
  | .addr f m, rest => mapDecoded f (decodeAddr m rest)
  | .unused, _ => .error (.unusedOpcode page op)

/-- The form of a cell that may be empty. -/
def cellForm : Option Instr → Form
  | some i => .inherent i
  | none => .unused

/-- The form of a cell of the memory read-modify-write columns. -/
def rmwForm (m : MemMode) : Option (Addr → Instr) → Form
  | some f => .addr f m
  | none => .unused

/-- The form of a cell of the columns $8x to $Fx; a store has no immediate form. -/
def slotForm : Slot → Mode → Form
  | .src8 f, m => .src8 f m
  | .src16 f, m => .src16 f m
  | .addr f, .memory m => .addr f m
  | .addr _, .immediate => .unused

/-- Column $1x of page 1. -/
def column1Form : Nat → Form
  | 0x2 => .inherent .nop
  | 0x3 => .inherent .sync
  | 0x6 => .word .lbra
  | 0x7 => .word .lbsr
  | 0x9 => .inherent .daa
  | 0xA => .byte .orcc
  | 0xC => .byte .andcc
  | 0xD => .inherent .sex
  | 0xE => .pair .exg
  | 0xF => .pair .tfr
  | _ => .unused

/-- Column $3x of page 1. -/
def column3Form : Nat → Form
  | 0x0 => .indexed .leax
  | 0x1 => .indexed .leay
  | 0x2 => .indexed .leas
  | 0x3 => .indexed .leau
  | 0x4 => .byte .pshs
  | 0x5 => .byte .puls
  | 0x6 => .byte .pshu
  | 0x7 => .byte .pulu
  | 0x9 => .inherent .rts
  | 0xA => .inherent .abx
  | 0xB => .inherent .rti
  | 0xC => .byte .cwai
  | 0xD => .inherent .mul
  | 0xF => .inherent .swi
  | _ => .unused

/-- Page 1 (R75, R77). -/
def page1Form (op : Byte) : Form :=
  match hiNibble op with
  | 0x0 => rmwForm .direct (rmwRow (loNibble op))
  | 0x1 => column1Form (loNibble op)
  | 0x2 => .byte (shortRow (loNibble op))
  | 0x3 => column3Form (loNibble op)
  | 0x4 => cellForm (accARow (loNibble op))
  | 0x5 => cellForm (accBRow (loNibble op))
  | 0x6 => rmwForm .indexed (rmwRow (loNibble op))
  | 0x7 => rmwForm .extended (rmwRow (loNibble op))
  | h =>
    if op = 0x8D#8 then .byte .bsr
    else slotForm (if h < 0xC then slotA (loNibble op) else slotB (loNibble op)) (columnMode op)

/-- The form of a long branch's cell. -/
def longForm : Option (Word → Instr) → Form
  | some f => .word f
  | none => .unused

/-- Page 2, by the two nibbles (R78). -/
def page2Form (op : Byte) : Form :=
  match hiNibble op, loNibble op with
  | 0x2, c => longForm (longRow c)
  | 0x3, 0xF => .inherent .swi2
  | h, 0x3 => if 0x8 ≤ h ∧ h < 0xC then .src16 .cmpd (columnMode op) else .unused
  | h, 0xC => if 0x8 ≤ h ∧ h < 0xC then .src16 .cmpy (columnMode op) else .unused
  | h, 0xE => if 0xC ≤ h then .src16 .lds (columnMode op) else if 0x8 ≤ h then .src16 .ldy (columnMode op) else .unused
  | h, 0xF =>
    if 0xC ≤ h then slotForm (.addr .sts) (columnMode op)
    else if 0x8 ≤ h then slotForm (.addr .sty) (columnMode op) else .unused
  | _, _ => .unused

/-- Page 3, by the two nibbles (R79). -/
def page3Form (op : Byte) : Form :=
  match hiNibble op, loNibble op with
  | 0x3, 0xF => .inherent .swi3
  | h, 0x3 => if 0x8 ≤ h ∧ h < 0xC then .src16 .cmpu (columnMode op) else .unused
  | h, 0xC => if 0x8 ≤ h ∧ h < 0xC then .src16 .cmps (columnMode op) else .unused
  | _, _ => .unused

theorem decodeSlot_eq (page : Nat) (op : Byte) (s : Slot) (m : Mode) (rest : List Byte) :
    decodeSlot page op s m rest = decodeForm page op (slotForm s m) rest := by
  cases s <;> cases m <;> rfl

theorem decodeRmw_eq (op : Byte) (m : MemMode) (rest : List Byte) :
    decodeRmw op m rest = decodeForm 1 op (rmwForm m (rmwRow (loNibble op))) rest := by
  rw [decodeRmw]; cases rmwRow (loNibble op) <;> rfl

theorem decodeInherent_eq (op : Byte) (i : Option Instr) (rest : List Byte) :
    decodeInherent op i rest = decodeForm 1 op (cellForm i) rest := by
  cases i <;> rfl

theorem decodeColumn1_eq (op : Byte) (rest : List Byte) :
    decodeColumn1 op rest = decodeForm 1 op (column1Form (loNibble op)) rest := by
  rw [decodeColumn1]
  match loNibble op with
  | 0 | 1 | 2 | 3 | 4 | 5 | 6 | 7 | 8 | 9 | 10 | 11 | 12 | 13 | 14 | 15 | _ + 16 => rfl

theorem decodeColumn3_eq (op : Byte) (rest : List Byte) :
    decodeColumn3 op rest = decodeForm 1 op (column3Form (loNibble op)) rest := by
  rw [decodeColumn3]
  match loNibble op with
  | 0 | 1 | 2 | 3 | 4 | 5 | 6 | 7 | 8 | 9 | 10 | 11 | 12 | 13 | 14 | 15 | _ + 16 => rfl

theorem decodePage1_eq (op : Byte) (rest : List Byte) : decodePage1 op rest = decodeForm 1 op (page1Form op) rest := by
  rw [decodePage1, page1Form]
  match hiNibble op with
  | 0 | 6 | 7 => exact decodeRmw_eq op _ rest
  | 1 => exact decodeColumn1_eq op rest
  | 2 => rfl
  | 3 => exact decodeColumn3_eq op rest
  | 4 | 5 => exact decodeInherent_eq op _ rest
  | h + 8 =>
    show (if op = 0x8D#8 then _ else _) = decodeForm 1 op (if op = 0x8D#8 then _ else _) rest
    split
    · rfl
    · split <;> exact decodeSlot_eq 1 op _ _ rest

theorem decodePage2_eq (op : Byte) (rest : List Byte) : decodePage2 op rest = decodeForm 2 op (page2Form op) rest := by
  rw [decodePage2, page2Form]
  match hiNibble op with
  | 0 | 1 | 3 =>
    match loNibble op with
    | 0 | 1 | 2 | 3 | 4 | 5 | 6 | 7 | 8 | 9 | 10 | 11 | 12 | 13 | 14 | 15 | _ + 16 => rfl
  | 2 =>
    show (match longRow (loNibble op) with | some f => _ | none => _) = decodeForm 2 op (longForm (longRow (loNibble op))) rest
    cases longRow (loNibble op) <;> rfl
  | h + 4 =>
    match loNibble op with
    | 0 | 1 | 2 | 4 | 5 | 6 | 7 | 8 | 9 | 10 | 11 | 13 | _ + 16 => rfl
    | 3 | 12 =>
      show (if 8 ≤ h + 4 ∧ h + 4 < 12 then _ else _) = decodeForm 2 op (if 8 ≤ h + 4 ∧ h + 4 < 12 then _ else _) rest
      split <;> rfl
    | 14 | 15 =>
      show (if 12 ≤ h + 4 then _ else if 8 ≤ h + 4 then _ else _) =
        decodeForm 2 op (if 12 ≤ h + 4 then _ else if 8 ≤ h + 4 then _ else _) rest
      split
      · exact decodeSlot_eq 2 op _ _ rest
      · split
        · exact decodeSlot_eq 2 op _ _ rest
        · rfl

theorem decodePage3_eq (op : Byte) (rest : List Byte) : decodePage3 op rest = decodeForm 3 op (page3Form op) rest := by
  rw [decodePage3, page3Form]
  match hiNibble op with
  | 0 | 1 | 2 | 3 =>
    match loNibble op with
    | 0 | 1 | 2 | 3 | 4 | 5 | 6 | 7 | 8 | 9 | 10 | 11 | 12 | 13 | 14 | 15 | _ + 16 => rfl
  | h + 4 =>
    match loNibble op with
    | 0 | 1 | 2 | 4 | 5 | 6 | 7 | 8 | 9 | 10 | 11 | 13 | 14 | 15 | _ + 16 => rfl
    | 3 | 12 =>
      show (if 8 ≤ h + 4 ∧ h + 4 < 12 then _ else _) = decodeForm 3 op (if 8 ≤ h + 4 ∧ h + 4 < 12 then _ else _) rest
      split <;> rfl

/-! ### What each decoder reads -/

/-- What the decoder `d` answers after `k` bytes it reads from the front, as many bytes as `len` says with those `k`, whatever follows them. -/
def Reads {α : Type} (d : List Byte → Decoded α) (k : Nat) (len : α → Nat) : Prop :=
  ∀ (bytes : List Byte) (v : α) (rest : List Byte), d bytes = .ok (v, rest) →
    ∃ used : List Byte, bytes = used ++ rest ∧ k + used.length = len v ∧ ∀ other : List Byte, d (used ++ other) = .ok (v, other)

theorem reads_ok {α : Type} {v : α} {k : Nat} {len : α → Nat} (h : len v = k) : Reads (fun rest => .ok (v, rest)) k len := by
  rintro bytes w rest ⟨⟩
  exact ⟨[], rfl, h.symm, fun _ => rfl⟩

theorem reads_error {α : Type} {k : Nat} {len : α → Nat} (e : DecodeError) : Reads (fun _ => .error e) k len := by
  rintro bytes v rest ⟨⟩

theorem reads_takeByte (k : Nat) : Reads takeByte k (fun _ => k + 1) := by
  rintro (_ | ⟨n, bytes⟩) v rest ⟨⟩
  exact ⟨[n], rfl, rfl, fun _ => rfl⟩

theorem reads_takeWord (k : Nat) : Reads takeWord k (fun _ => k + 2) := by
  rintro (_ | ⟨x, _ | ⟨y, bytes⟩⟩) v rest ⟨⟩
  exact ⟨[x, y], rfl, rfl, fun _ => rfl⟩

/-- A function of what is read takes the same bytes. -/
theorem Reads.map {α β : Type} {d : List Byte → Decoded α} {k : Nat} {len : α → Nat} (h : Reads d k len) {f : α → β}
    {len' : β → Nat} (hf : ∀ v, len' (f v) = len v) : Reads (fun bytes => mapDecoded f (d bytes)) k len' := by
  intro bytes w rest answer
  cases hd : d bytes with
  | error e => simp only [hd, mapDecoded, reduceCtorEq] at answer
  | ok p =>
    obtain ⟨v, rest'⟩ := p
    simp only [hd, mapDecoded, Except.ok.injEq, Prod.mk.injEq] at answer
    obtain ⟨rfl, rfl⟩ := answer
    obtain ⟨used, split, length, again⟩ := h bytes v rest' hd
    exact ⟨used, split, length.trans (hf v).symm, fun other => by simp only [again other, mapDecoded]⟩

/-- A decoder that reads one byte and goes on by it. -/
theorem Reads.cons {α : Type} {d : List Byte → Decoded α} {k : Nat} {len : α → Nat} {e : DecodeError} (empty : d [] = .error e)
    (h : ∀ b, Reads (fun bytes => d (b :: bytes)) (k + 1) len) : Reads d k len := by
  rintro (_ | ⟨b, bytes⟩) v rest answer
  · rw [empty] at answer; cases answer
  · obtain ⟨used, split, length, again⟩ := h b bytes v rest answer
    exact ⟨b :: used, by rw [split, List.cons_append], by rw [← length, List.length_cons]; omega, again⟩

/-- The bytes after the postbyte of a form that may be indirect do not depend on bit 4 (R104). -/
theorem length_encodeBase (i j : Byte) (m : IdxBase) : (encodeBase i m).length = (encodeBase j m).length := by
  cases m <;> rfl

theorem reads_decodeBase (pb : Byte) (k : Nat) :
    Reads (decodeBase pb) (k + 1) (fun m => k + (encodeBase 0x00 m).length) := by
  unfold decodeBase
  split
  case h_6 | h_9 => exact (reads_takeByte _).map fun _ => rfl
  case h_7 | h_10 => exact (reads_takeWord _).map fun _ => rfl
  case h_11 => exact reads_error _
  all_goals exact reads_ok rfl

theorem reads_decodeIdx (k : Nat) : Reads decodeIdx k (fun i => k + (encodeIdx i).length) := by
  refine Reads.cons rfl fun pb => ?_
  simp only [decodeIdx]
  split
  · split
    · split
      · exact (reads_takeWord _).map fun _ => rfl
      · exact (reads_decodeBase pb k).map fun m => congrArg (k + ·) (length_encodeBase 0x10 0x00 m)
    · split
      · exact reads_ok rfl
      · exact reads_ok rfl
      · exact (reads_decodeBase pb k).map fun _ => rfl
  · exact reads_ok rfl

/-- The bytes of an address behind its opcode. -/
def addrBytes : Addr → Nat
  | .direct _ => 1
  | .indexed i => (encodeIdx i).length
  | .extended _ => 2

/-- The bytes of an 8-bit operand behind its opcode. -/
def src8Bytes : Src8 → Nat
  | .imm _ => 1
  | .mem a => addrBytes a

/-- The bytes of a 16-bit operand behind its opcode. -/
def src16Bytes : Src16 → Nat
  | .imm _ => 2
  | .mem a => addrBytes a

theorem reads_decodeAddr (m : MemMode) (k : Nat) : Reads (decodeAddr m) k (fun a => k + addrBytes a) := by
  cases m with
  | direct => exact (reads_takeByte k).map fun _ => rfl
  | indexed => exact (reads_decodeIdx k).map fun _ => rfl
  | extended => exact (reads_takeWord k).map fun _ => rfl

theorem reads_decodeSrc8 (m : Mode) (k : Nat) : Reads (decodeSrc8 m) k (fun src => k + src8Bytes src) := by
  cases m with
  | immediate => exact (reads_takeByte k).map fun _ => rfl
  | memory m => exact (reads_decodeAddr m k).map fun _ => rfl

theorem reads_decodeSrc16 (m : Mode) (k : Nat) : Reads (decodeSrc16 m) k (fun src => k + src16Bytes src) := by
  cases m with
  | immediate => exact (reads_takeWord k).map fun _ => rfl
  | memory m => exact (reads_decodeAddr m k).map fun _ => rfl

theorem reads_decodeRegPair {f : Reg → Reg → Instr} {k : Nat} {len : Instr → Nat} (h : ∀ src dst, len (f src dst) = k + 1) :
    Reads (decodeRegPair f) k len := by
  refine Reads.cons rfl fun pb => ?_
  simp only [decodeRegPair]
  split
  · split
    · exact reads_ok (h _ _)
    · exact reads_error _
  · exact reads_error _

/-! ### The lengths of what a form makes -/

/-- A well-formed instruction whose encoding has `n` bytes. -/
def Takes (n : Nat) (i : Instr) : Prop := (encode i).length = n ∧ i.wf = true

/-- With `k` bytes of opcode every instruction of the form has the bytes of its operand besides, and is well formed. -/
def Form.Sized (k : Nat) : Form → Prop
  | .inherent i => Takes k i
  | .byte f => ∀ n, Takes (k + 1) (f n)
  | .word f => ∀ w, Takes (k + 2) (f w)
  | .pair f => ∀ src dst, (encode (f src dst)).length = k + 1 ∧ (f src dst).wf = src.likeSize dst
  | .indexed f => ∀ i, Takes (k + (encodeIdx i).length) (f i)
  | .src8 f _ => ∀ src, Takes (k + src8Bytes src) (f src)
  | .src16 f _ => ∀ src, Takes (k + src16Bytes src) (f src)
  | .addr f _ => ∀ a, Takes (k + addrBytes a) (f a)
  | .unused => True

theorem reads_decodeForm (page : Nat) (op : Byte) {k : Nat} {F : Form} (h : F.Sized k) :
    Reads (decodeForm page op F) k (fun i => (encode i).length) := by
  cases F with
  | inherent i => exact reads_ok h.1
  | byte f => exact (reads_takeByte k).map fun n => (h n).1
  | word f => exact (reads_takeWord k).map fun w => (h w).1
  | pair f => exact reads_decodeRegPair fun src dst => (h src dst).1
  | indexed f => exact (reads_decodeIdx k).map fun i => (h i).1
  | src8 f m => exact (reads_decodeSrc8 m k).map fun src => (h src).1
  | src16 f m => exact (reads_decodeSrc16 m k).map fun src => (h src).1
  | addr f m => exact (reads_decodeAddr m k).map fun a => (h a).1
  | unused => exact reads_error _

theorem mapDecoded_ok {α β : Type} {f : α → β} {d : Decoded α} {w : β} {rest : List Byte}
    (h : mapDecoded f d = .ok (w, rest)) : ∃ v, w = f v := by
  cases d with
  | error e => simp only [mapDecoded, reduceCtorEq] at h
  | ok p =>
    simp only [mapDecoded, Except.ok.injEq, Prod.mk.injEq] at h
    exact ⟨p.1, h.1.symm⟩

/-- TFR and EXG are decoded with registers of like size alone (R81). -/
theorem decodeRegPair_ok {f : Reg → Reg → Instr} {bytes : List Byte} {i : Instr} {rest : List Byte}
    (h : decodeRegPair f bytes = .ok (i, rest)) : ∃ src dst, i = f src dst ∧ src.likeSize dst = true := by
  cases bytes with
  | nil => cases h
  | cons pb bytes =>
    simp only [decodeRegPair] at h
    split at h
    · split at h
      · rename_i src dst _ _ like
        cases h
        exact ⟨src, dst, rfl, like⟩
      · cases h
    · cases h

theorem wf_of_decodeForm {page : Nat} {op : Byte} {k : Nat} {F : Form} (h : F.Sized k) {bytes : List Byte} {i : Instr}
    {rest : List Byte} (ok : decodeForm page op F bytes = .ok (i, rest)) : i.wf = true := by
  cases F with
  | inherent j => cases ok; exact h.2
  | byte f | word f | indexed f | src8 f m | src16 f m | addr f m =>
    obtain ⟨v, rfl⟩ := mapDecoded_ok ok
    exact (h v).2
  | pair f =>
    obtain ⟨src, dst, rfl, like⟩ := decodeRegPair_ok ok
    exact (h src dst).2.trans like
  | unused => cases ok

theorem length_encodeRmw (r : Byte) (a : Addr) : (encodeRmw r a).length = 1 + addrBytes a := by
  cases a <;> simp [encodeRmw, encodeAddr, encodeWord, addrBytes]; omega

theorem length_encodeStore (p : List Byte) (op : Byte) (a : Addr) :
    (encodeStore p op a).length = p.length + 1 + addrBytes a := by
  cases a <;> simp [encodeStore, encodeAddr, encodeWord, addrBytes]; omega

theorem length_encodeSrc8 (op : Byte) (src : Src8) : (encodeSrc8 op src).length = 1 + src8Bytes src := by
  cases src with
  | imm n => rfl
  | mem a => exact length_encodeStore [] _ a

theorem length_encodeSrc16 (p : List Byte) (op : Byte) (src : Src16) :
    (encodeSrc16 p op src).length = p.length + 1 + src16Bytes src := by
  cases src with
  | imm n => simp [encodeSrc16, encodeWord, src16Bytes]
  | mem a => exact length_encodeStore p _ a

theorem length_cons_encodeIdx (op : Byte) (i : Idx) : (op :: encodeIdx i).length = 1 + (encodeIdx i).length :=
  Nat.add_comm _ 1

theorem sized_rmwForm (m : MemMode) (n : Nat) : (rmwForm m (rmwRow n)).Sized 1 :=
  match n with
  | 0 | 3 | 4 | 6 | 7 | 8 | 9 | 10 | 12 | 13 | 14 | 15 => fun a => ⟨length_encodeRmw _ a, rfl⟩
  | 1 | 2 | 5 | 11 | _ + 16 => trivial

theorem sized_cellForm_accARow (n : Nat) : (cellForm (accARow n)).Sized 1 :=
  match n with
  | 0 | 3 | 4 | 6 | 7 | 8 | 9 | 10 | 12 | 13 | 15 => ⟨rfl, rfl⟩
  | 1 | 2 | 5 | 11 | 14 | _ + 16 => trivial

theorem sized_cellForm_accBRow (n : Nat) : (cellForm (accBRow n)).Sized 1 :=
  match n with
  | 0 | 3 | 4 | 6 | 7 | 8 | 9 | 10 | 12 | 13 | 15 => ⟨rfl, rfl⟩
  | 1 | 2 | 5 | 11 | 14 | _ + 16 => trivial

theorem sized_column1Form (n : Nat) : (column1Form n).Sized 1 :=
  match n with
  | 2 | 3 | 9 | 13 => ⟨rfl, rfl⟩
  | 6 | 7 | 10 | 12 => fun _ => ⟨rfl, rfl⟩
  | 14 | 15 => fun _ _ => ⟨rfl, rfl⟩
  | 0 | 1 | 4 | 5 | 8 | 11 | _ + 16 => trivial

theorem sized_column3Form (n : Nat) : (column3Form n).Sized 1 :=
  match n with
  | 0 | 1 | 2 | 3 => fun i => ⟨length_cons_encodeIdx _ i, rfl⟩
  | 4 | 5 | 6 | 7 | 12 => fun _ => ⟨rfl, rfl⟩
  | 9 | 10 | 11 | 13 | 15 => ⟨rfl, rfl⟩
  | 8 | 14 | _ + 16 => trivial

theorem sized_shortRow (n : Nat) : (Form.byte (shortRow n)).Sized 1 :=
  match n with
  | 0 | 1 | 2 | 3 | 4 | 5 | 6 | 7 | 8 | 9 | 10 | 11 | 12 | 13 | 14 | 15 | _ + 16 => fun _ => ⟨rfl, rfl⟩

theorem sized_longForm (n : Nat) : (longForm (longRow n)).Sized 2 :=
  match n with
  | 1 | 2 | 3 | 4 | 5 | 6 | 7 | 8 | 9 | 10 | 11 | 12 | 13 | 14 | 15 => fun _ => ⟨rfl, rfl⟩
  | 0 | _ + 16 => trivial

theorem sized_slotForm_addr {f : Addr → Instr} {k : Nat} (h : ∀ a, Takes (k + addrBytes a) (f a)) (m : Mode) :
    (slotForm (.addr f) m).Sized k := by
  cases m with
  | immediate => trivial
  | memory m => exact h

theorem sized_slotA (n : Nat) (m : Mode) : (slotForm (slotA n) m).Sized 1 :=
  match n with
  | 0 | 1 | 2 | 4 | 5 | 6 | 8 | 9 | 10 | 11 => fun src => ⟨length_encodeSrc8 _ src, rfl⟩
  | 3 | 12 | 14 => fun src => ⟨length_encodeSrc16 [] _ src, rfl⟩
  | 7 | 13 | 15 | _ + 16 => by refine sized_slotForm_addr ?_ m; exact fun a => ⟨length_encodeStore [] _ a, rfl⟩

theorem sized_slotB (n : Nat) (m : Mode) : (slotForm (slotB n) m).Sized 1 :=
  match n with
  | 0 | 1 | 2 | 4 | 5 | 6 | 8 | 9 | 10 | 11 => fun src => ⟨length_encodeSrc8 _ src, rfl⟩
  | 3 | 12 | 14 => fun src => ⟨length_encodeSrc16 [] _ src, rfl⟩
  | 7 | 13 | 15 | _ + 16 => by refine sized_slotForm_addr ?_ m; exact fun a => ⟨length_encodeStore [] _ a, rfl⟩

theorem sized_page1Form (op : Byte) : (page1Form op).Sized 1 := by
  unfold page1Form
  split
  · exact sized_rmwForm _ _
  · exact sized_column1Form _
  · exact sized_shortRow _
  · exact sized_column3Form _
  · exact sized_cellForm_accARow _
  · exact sized_cellForm_accBRow _
  · exact sized_rmwForm _ _
  · exact sized_rmwForm _ _
  · split
    · exact fun _ => ⟨rfl, rfl⟩
    · split
      · exact sized_slotA _ _
      · exact sized_slotB _ _

theorem sized_page2Form (op : Byte) : (page2Form op).Sized 2 := by
  have word (f : Src16 → Instr) (m : Mode) (h : ∀ src, Takes (2 + src16Bytes src) (f src)) : (Form.src16 f m).Sized 2 := h
  unfold page2Form
  split
  · exact sized_longForm _
  · exact ⟨rfl, rfl⟩
  · split
    · exact word .cmpd _ fun src => ⟨length_encodeSrc16 [0x10] _ src, rfl⟩
    · trivial
  · split
    · exact word .cmpy _ fun src => ⟨length_encodeSrc16 [0x10] _ src, rfl⟩
    · trivial
  · split
    · exact word .lds _ fun src => ⟨length_encodeSrc16 [0x10] _ src, rfl⟩
    · split
      · exact word .ldy _ fun src => ⟨length_encodeSrc16 [0x10] _ src, rfl⟩
      · trivial
  · split
    · refine sized_slotForm_addr ?_ _; exact fun a => ⟨length_encodeStore [0x10] _ a, rfl⟩
    · split
      · refine sized_slotForm_addr ?_ _; exact fun a => ⟨length_encodeStore [0x10] _ a, rfl⟩
      · trivial
  · trivial

theorem sized_page3Form (op : Byte) : (page3Form op).Sized 2 := by
  unfold page3Form
  split
  · exact ⟨rfl, rfl⟩
  · split
    · exact fun src => ⟨length_encodeSrc16 [0x11] _ src, rfl⟩
    · trivial
  · split
    · exact fun src => ⟨length_encodeSrc16 [0x11] _ src, rfl⟩
    · trivial
  · trivial

/-! ### The decoder as a whole -/

theorem decode_page2 (op : Byte) (rest : List Byte) : decode (0x10 :: op :: rest) = decodeForm 2 op (page2Form op) rest :=
  decodePage2_eq op rest

theorem decode_page3 (op : Byte) (rest : List Byte) : decode (0x11 :: op :: rest) = decodeForm 3 op (page3Form op) rest :=
  decodePage3_eq op rest

theorem decode_page1 {op : Byte} (h₂ : op ≠ 0x10) (h₃ : op ≠ 0x11) (rest : List Byte) :
    decode (op :: rest) = decodeForm 1 op (page1Form op) rest :=
  ((if_neg h₂).trans (if_neg h₃)).trans (decodePage1_eq op rest)

/-- The families of the encoder together: every encoding has one to five bytes (R71). -/
theorem encode_length_bounds (i : Instr) : 1 ≤ (encode i).length ∧ (encode i).length ≤ 5 := by
  cases i with
  | adca src | adcb src | adda src | addb src | anda src | andb src | bita src | bitb src | cmpa src | cmpb src | eora src
  | eorb src | lda src | ldb src | ora src | orb src | sbca src | sbcb src | suba src | subb src =>
    exact Laws.between_src8_five _ src
  | addd src | ldd src | subd src | cmpx src | ldu src | ldx src => exact Laws.between_src16_page1 _ src
  | cmpd src | cmpy src | lds src | ldy src | cmps src | cmpu src => exact Laws.between_src16_prefixed _ _ src
  | sta a | stb a | std a | stu a | stx a | jsr a => exact Laws.between_store_page1 _ a
  | sts a | sty a => exact Laws.between_store_prefixed _ _ a
  | asl a | asr a | clr a | com a | dec a | inc a | lsr a | neg a | rol a | ror a | tst a | jmp a =>
    exact Laws.between_rmw_five _ a
  | leas i | leau i | leax i | leay i => exact Laws.between_cons_idx _ i
  | _ => exact Laws.between_of_ble rfl rfl

theorem reads_decode : Reads decode 0 (fun i => (encode i).length) := by
  refine Reads.cons rfl fun op => ?_
  by_cases h₂ : op = 0x10
  · subst h₂
    refine Reads.cons rfl fun op => ?_
    simp only [decode_page2]
    exact reads_decodeForm 2 op (sized_page2Form op)
  · by_cases h₃ : op = 0x11
    · subst h₃
      refine Reads.cons rfl fun op => ?_
      simp only [decode_page3]
      exact reads_decodeForm 3 op (sized_page3Form op)
    · simp only [decode_page1 h₂ h₃]
      exact reads_decodeForm 1 op (sized_page1Form op)

theorem wf_of_decode {bytes : List Byte} {i : Instr} {rest : List Byte} (ok : decode bytes = .ok (i, rest)) : i.wf = true := by
  cases bytes with
  | nil => cases ok
  | cons op bytes =>
    by_cases h₂ : op = 0x10
    · subst h₂
      cases bytes with
      | nil => cases ok
      | cons op bytes => exact wf_of_decodeForm (sized_page2Form op) ((decode_page2 op bytes).symm.trans ok)
    · by_cases h₃ : op = 0x11
      · subst h₃
        cases bytes with
        | nil => cases ok
        | cons op bytes => exact wf_of_decodeForm (sized_page3Form op) ((decode_page3 op bytes).symm.trans ok)
      · exact wf_of_decodeForm (sized_page1Form op) ((decode_page1 h₂ h₃ bytes).symm.trans ok)

/-- Settles O2: the decoder reads the bytes of the encoding, and these are one to five because the instruction read, encoded, is at most the longest form of its page. -/
theorem decodeReadsWholeInstruction : Obligations.DecodeReadsWholeInstruction := by
  intro bytes i rest ok
  obtain ⟨used, split, length, again⟩ := reads_decode bytes i rest ok
  have size := encode_length_bounds i
  have length : used.length = (encode i).length := (Nat.zero_add _).symm.trans length
  exact ⟨wf_of_decode ok, used, split, length ▸ size.1, length ▸ size.2, length, again⟩

end Sys2Proof.Proofs
end

section
/-! PROOFS. The statements about the encodings that no instruction has (30_encoding.md R84, R85, R122), and that every instruction completes (R400). -/

namespace Sys2Proof.Proofs

open Sys2Proof.Machine

/-! ### Every instruction completes -/

theorem exec_tfr_of_likeSize {src dst : Reg} (like : src.likeSize dst = true) (σ : State) :
    ∃ τ, transfer src dst σ = some τ ∧ exec (.tfr src dst) σ = .next (armNmiIf (Config.tfrArmsNmi && dst == .r16 .s) τ) := by
  rcases src with r | r <;> rcases dst with t | t
  · exact ⟨_, rfl, rfl⟩
  · cases like
  · cases like
  · exact ⟨_, rfl, rfl⟩

theorem exec_exg_of_likeSize {src dst : Reg} (like : src.likeSize dst = true) (σ : State) :
    ∃ τ, exchange src dst σ = some τ ∧
      exec (.exg src dst) σ = .next (armNmiIf (Config.exgArmsNmi && (src == .r16 .s || dst == .r16 .s)) τ) := by
  rcases src with r | r <;> rcases dst with t | t
  · exact ⟨_, rfl, rfl⟩
  · cases like
  · cases like
  · exact ⟨_, rfl, rfl⟩

/-- Settles O7: TFR and EXG complete on a like-size pair, every other arm answers a next state outright. -/
theorem everyInstructionCompletes : Obligations.EveryInstructionCompletes := by
  intro i σ wellFormed
  cases i with
  | tfr src dst =>
    obtain ⟨_, -, runs⟩ := exec_tfr_of_likeSize wellFormed σ
    exact ⟨_, runs⟩
  | exg src dst =>
    obtain ⟨_, -, runs⟩ := exec_exg_of_likeSize wellFormed σ
    exact ⟨_, runs⟩
  | _ => exact ⟨_, rfl⟩

/-! ### What the decoder refuses -/

/-- The refusal a decoder's answer turns into. -/
def refusalIn {α : Type} : Decoded α → Option Refusal
  | .ok _ => none
  | .error e => some (refusalOf e)

theorem refusalIn_mapDecoded {α β : Type} (f : α → β) (d : Decoded α) : refusalIn (mapDecoded f d) = refusalIn d := by
  cases d <;> rfl

/-- The low nibbles of a postbyte, bit 7 set, that name a form which may be indirect (R104). -/
def isBaseNibble : Nat → Bool
  | 0x1 | 0x3 | 0x4 | 0x5 | 0x6 | 0x8 | 0x9 | 0xB | 0xC | 0xD => true
  | _ => false

/-- The postbytes that are used, by the fields of R104. -/
def usesPostbyte (pb : Byte) : Bool :=
  !pb.getLsbD 7 || pb == 0x9F || isBaseNibble (loNibble pb) || (!pb.getLsbD 4 && (loNibble pb == 0 || loNibble pb == 2))

theorem usesPostbyte_iff (pb : Byte) : usesPostbyte pb = true ↔ pb ∉ unusedPostbytes := by
  revert pb; decide

theorem decodeBase_window (pb x y : Byte) (rest : List Byte) :
    (isBaseNibble (loNibble pb) = true → ∃ m rest', decodeBase pb (x :: y :: rest) = .ok (m, rest')) ∧
    (isBaseNibble (loNibble pb) = false → decodeBase pb (x :: y :: rest) = .error (.unusedPostbyte pb)) := by
  unfold decodeBase
  match loNibble pb with
  | 0 | 2 | 7 | 10 | 14 | 15 | _ + 16 => exact ⟨nofun, fun _ => rfl⟩
  | 1 | 3 | 4 | 5 | 6 | 8 | 9 | 11 | 12 | 13 => exact ⟨fun _ => ⟨_, _, rfl⟩, nofun⟩

/-- A form of `IdxBase` made direct or indirect: decoded where its nibble is, refused for the same postbyte where it is not. -/
theorem mapDecoded_decodeBase_window (f : IdxBase → Idx) (pb x y : Byte) (rest : List Byte) :
    (isBaseNibble (loNibble pb) = true → ∃ i rest', mapDecoded f (decodeBase pb (x :: y :: rest)) = .ok (i, rest')) ∧
    (isBaseNibble (loNibble pb) = false → mapDecoded f (decodeBase pb (x :: y :: rest)) = .error (.unusedPostbyte pb)) := by
  obtain ⟨used, unused⟩ := decodeBase_window pb x y rest
  refine ⟨fun h => ?_, fun h => by rw [unused h]; rfl⟩
  obtain ⟨m, rest', ok⟩ := used h
  exact ⟨f m, rest', by rw [ok]; rfl⟩

theorem decodeIdx_window (pb x y : Byte) (rest : List Byte) :
    (pb ∉ unusedPostbytes → ∃ i rest', decodeIdx (pb :: x :: y :: rest) = .ok (i, rest')) ∧
    (pb ∈ unusedPostbytes → decodeIdx (pb :: x :: y :: rest) = .error (.unusedPostbyte pb)) := by
  have unused : pb ∈ unusedPostbytes ↔ usesPostbyte pb = false := by
    rw [← Bool.not_eq_true, usesPostbyte_iff, not_not]
  rw [← usesPostbyte_iff, unused, usesPostbyte, decodeIdx]
  cases bit7 : pb.getLsbD 7
  · exact ⟨fun _ => ⟨_, _, rfl⟩, nofun⟩
  · cases bit4 : pb.getLsbD 4
    · have base := mapDecoded_decodeBase_window .plain pb x y rest
      have ne : (pb == 0x9F) = false := by
        refine beq_false_of_ne fun e => ?_
        rw [e] at bit4; cases bit4
      rw [ne]
      revert base
      match loNibble pb with
      | 0 | 2 => exact fun _ => ⟨fun _ => ⟨_, _, rfl⟩, nofun⟩
      | 1 | 3 | 4 | 5 | 6 | 7 | 8 | 9 | 10 | 11 | 12 | 13 | 14 | 15 | _ + 16 => exact id
    · have base := mapDecoded_decodeBase_window .indirect pb x y rest
      by_cases e : pb = 0x9F#8
      · subst e; exact ⟨fun _ => ⟨_, _, rfl⟩, nofun⟩
      · simpa [e] using base

/-- The TFR and EXG postbytes whose nibbles name two registers of one size (R81). -/
def pairsRegisters (pb : Byte) : Bool :=
  match decodeReg (hiNibble pb), decodeReg (loNibble pb) with
  | some src, some dst => src.likeSize dst
  | _, _ => false

theorem pairsRegisters_iff (pb : Byte) : pairsRegisters pb = true ↔ LikePair pb := by
  unfold LikePair; revert pb; decide

theorem decodeRegPair_window (f : Reg → Reg → Instr) (pb : Byte) (rest : List Byte) :
    (pairsRegisters pb = true → ∃ i, decodeRegPair f (pb :: rest) = .ok (i, rest)) ∧
    (pairsRegisters pb = false → decodeRegPair f (pb :: rest) = .error (.unusedRegisterPair pb)) := by
  rw [pairsRegisters, decodeRegPair]
  cases decodeReg (hiNibble pb) with
  | none => exact ⟨nofun, fun _ => rfl⟩
  | some src =>
    cases decodeReg (loNibble pb) with
    | none => exact ⟨nofun, fun _ => rfl⟩
    | some dst => exact ⟨fun like => ⟨f src dst, if_pos like⟩, fun unlike => if_neg (Bool.not_eq_true _ ▸ unlike)⟩

/-! ### What a form refuses -/

/-- The refusal of a form when `pb` is the byte after the opcode. -/
def Form.refusal (pb : Byte) : Form → Option Refusal
  | .unused => some .unusedOpcode
  | .pair _ => if pairsRegisters pb then none else some .unusedRegisterPostbyte
  | .indexed _ | .addr _ .indexed | .src8 _ (.memory .indexed) | .src16 _ (.memory .indexed) =>
    if pb ∈ unusedPostbytes then some .unusedIndexedPostbyte else none
  | _ => none

theorem refusalIn_decodeIdx (pb x y : Byte) (rest : List Byte) :
    refusalIn (decodeIdx (pb :: x :: y :: rest)) = if pb ∈ unusedPostbytes then some .unusedIndexedPostbyte else none := by
  obtain ⟨used, unused⟩ := decodeIdx_window pb x y rest
  split
  · rename_i h
    rw [unused h]; rfl
  · rename_i h
    obtain ⟨i, rest', ok⟩ := used h
    rw [ok]; rfl

theorem refusalIn_decodeForm (page : Nat) (op : Byte) (F : Form) (pb x y : Byte) (rest : List Byte) :
    refusalIn (decodeForm page op F (pb :: x :: y :: rest)) = F.refusal pb := by
  cases F with
  | inherent i | byte f | word f | unused => rfl
  | pair f =>
    obtain ⟨like, unlike⟩ := decodeRegPair_window f pb (x :: y :: rest)
    rw [decodeForm, Form.refusal]
    split
    · rename_i h
      obtain ⟨i, ok⟩ := like h
      rw [ok]; rfl
    · rename_i h
      rw [unlike (Bool.not_eq_true _ ▸ h)]; rfl
  | indexed f => exact (refusalIn_mapDecoded _ _).trans (refusalIn_decodeIdx pb x y rest)
  | addr f m =>
    cases m with
    | direct | extended => rfl
    | indexed =>
      exact ((refusalIn_mapDecoded _ _).trans (refusalIn_mapDecoded _ _)).trans (refusalIn_decodeIdx pb x y rest)
  | src8 f m | src16 f m =>
    rcases m with _ | _ | _ | _
    case memory.indexed =>
      exact (((refusalIn_mapDecoded _ _).trans (refusalIn_mapDecoded _ _)).trans (refusalIn_mapDecoded _ _)).trans
        (refusalIn_decodeIdx pb x y rest)
    all_goals rfl

/-! ### What a step refuses -/

/-- The refusal of the instruction whose first three bytes are given (R73, R84, R85). -/
def windowRefusal (b₀ b₁ b₂ : Byte) : Option Refusal :=
  if b₀ = 0x10 then (page2Form b₁).refusal b₂
  else if b₀ = 0x11 then (page3Form b₁).refusal b₂
  else (page1Form b₀).refusal b₁

theorem refusalIn_decode (b₀ b₁ b₂ b₃ b₄ : Byte) (rest : List Byte) :
    refusalIn (decode (b₀ :: b₁ :: b₂ :: b₃ :: b₄ :: rest)) = windowRefusal b₀ b₁ b₂ := by
  rw [windowRefusal]
  split
  · rename_i e
    rw [e, decode_page2]; exact refusalIn_decodeForm 2 b₁ _ b₂ b₃ b₄ rest
  · rename_i h₂
    split
    · rename_i e
      rw [e, decode_page3]; exact refusalIn_decodeForm 3 b₁ _ b₂ b₃ b₄ rest
    · rename_i h₃
      rw [decode_page1 h₂ h₃]; exact refusalIn_decodeForm 1 b₀ _ b₁ b₂ b₃ (b₄ :: rest)

/-- A step that reaches an instruction is refused for what its bytes decode to, and for nothing else. -/
theorem step_refused_iff {σ τ : State} (h : boundary σ = .instruction τ) (r : Refusal) :
    step σ = .refused r ↔ windowRefusal (fetched 0 τ) (fetched 1 τ) (fetched 2 τ) = some r := by
  rw [← refusalIn_decode _ _ _ (fetched 3 τ) (fetched 4 τ) []]
  change _ ↔ refusalIn (decode (fetchWindow τ)) = some r
  rw [step, h]
  simp only [stepInstruction]
  cases ok : decode (fetchWindow τ) with
  | error e => exact ⟨fun k => by cases k; rfl, fun k => by cases k; rfl⟩
  | ok p =>
    obtain ⟨i, rest⟩ := p
    obtain ⟨υ, runs⟩ := everyInstructionCompletes i (afterFetch i (5 - rest.length) τ) (wf_of_decode ok)
    simp only [runs, settleOutcome]
    exact ⟨nofun, nofun⟩

/-- The three reasons a form has. -/
def Form.isUnused : Form → Bool
  | .unused => true
  | _ => false

/-- Does an indexed postbyte follow? -/
def Form.isIndexed : Form → Bool
  | .indexed _ | .addr _ .indexed | .src8 _ (.memory .indexed) | .src16 _ (.memory .indexed) => true
  | _ => false

/-- Does a register postbyte follow? -/
def Form.isPair : Form → Bool
  | .pair _ => true
  | _ => false

theorem Form.refusal_iff (F : Form) (pb : Byte) :
    (F.refusal pb = some .unusedOpcode ↔ F.isUnused = true) ∧
    (F.refusal pb = some .unusedIndexedPostbyte ↔ F.isIndexed = true ∧ pb ∈ unusedPostbytes) ∧
    (F.refusal pb = some .unusedRegisterPostbyte ↔ F.isPair = true ∧ ¬ LikePair pb) := by
  rw [← pairsRegisters_iff]
  cases F with
  | addr f m => cases m <;> simp [Form.refusal, isUnused, isIndexed, isPair]
  | src8 f m | src16 f m => rcases m with _ | _ | _ | _ <;> simp [Form.refusal, isUnused, isIndexed, isPair]
  | _ => simp [Form.refusal, isUnused, isIndexed, isPair]

theorem isUnused_pages (op : Byte) :
    ((page1Form op).isUnused = true ↔ op ∈ unusedPage1 ∨ op = 0x10 ∨ op = 0x11) ∧
    ((page2Form op).isUnused = true ↔ op ∉ usedPage2) ∧ ((page3Form op).isUnused = true ↔ op ∉ usedPage3) := by
  revert op; decide

theorem isIndexed_pages (op : Byte) :
    ((page1Form op).isIndexed = true ↔ op ∈ indexedPage1) ∧
    ((page2Form op).isIndexed = true ↔ op ∈ indexedPage2) ∧ ((page3Form op).isIndexed = true ↔ op ∈ indexedPage3) := by
  revert op; decide

theorem isPair_pages (op : Byte) :
    ((page1Form op).isPair = true ↔ op = 0x1E ∨ op = 0x1F) ∧
    (page2Form op).isPair = false ∧ (page3Form op).isPair = false := by
  revert op; decide

theorem windowRefusal_unusedOpcode (b₀ b₁ b₂ : Byte) :
    windowRefusal b₀ b₁ b₂ = some .unusedOpcode ↔
      b₀ ∈ unusedPage1 ∨ (b₀ = 0x10 ∧ b₁ ∉ usedPage2) ∨ (b₀ = 0x11 ∧ b₁ ∉ usedPage3) := by
  have absent : (0x10#8 : Byte) ∉ unusedPage1 ∧ (0x11#8 : Byte) ∉ unusedPage1 := by decide
  obtain ⟨page1, -, -⟩ := isUnused_pages b₀
  obtain ⟨-, page2, page3⟩ := isUnused_pages b₁
  rw [windowRefusal]
  split
  · rename_i e
    rw [(Form.refusal_iff _ _).1, page2]; subst e; simp [absent.1]
  · rename_i h₂
    split
    · rename_i e
      rw [(Form.refusal_iff _ _).1, page3]; subst e; simp [absent.2]
    · rename_i h₃
      rw [(Form.refusal_iff _ _).1, page1]; simp only [h₂, h₃, false_and, or_false]

theorem windowRefusal_unusedIndexedPostbyte (b₀ b₁ b₂ : Byte) :
    windowRefusal b₀ b₁ b₂ = some .unusedIndexedPostbyte ↔
      (b₀ ∈ indexedPage1 ∧ b₁ ∈ unusedPostbytes) ∨ (b₀ = 0x10 ∧ b₁ ∈ indexedPage2 ∧ b₂ ∈ unusedPostbytes) ∨
      (b₀ = 0x11 ∧ b₁ ∈ indexedPage3 ∧ b₂ ∈ unusedPostbytes) := by
  have absent : (0x10#8 : Byte) ∉ indexedPage1 ∧ (0x11#8 : Byte) ∉ indexedPage1 := by decide
  obtain ⟨page1, -, -⟩ := isIndexed_pages b₀
  obtain ⟨-, page2, page3⟩ := isIndexed_pages b₁
  rw [windowRefusal]
  split
  · rename_i e
    rw [(Form.refusal_iff _ _).2.1, page2]; subst e; simp [absent.1]
  · rename_i h₂
    split
    · rename_i e
      rw [(Form.refusal_iff _ _).2.1, page3]; subst e; simp [absent.2]
    · rename_i h₃
      rw [(Form.refusal_iff _ _).2.1, page1]; simp only [h₂, h₃, false_and, or_false]

theorem windowRefusal_unusedRegisterPostbyte (b₀ b₁ b₂ : Byte) :
    windowRefusal b₀ b₁ b₂ = some .unusedRegisterPostbyte ↔ (b₀ = 0x1E ∨ b₀ = 0x1F) ∧ ¬ LikePair b₁ := by
  obtain ⟨page1, -, -⟩ := isPair_pages b₀
  obtain ⟨-, page2, page3⟩ := isPair_pages b₁
  rw [windowRefusal]
  split
  · rename_i e
    rw [(Form.refusal_iff _ _).2.2, page2]; subst e; simp
  · split
    · rename_i e
      rw [(Form.refusal_iff _ _).2.2, page3]; subst e; simp
    · rw [(Form.refusal_iff _ _).2.2, page1]

/-- Settles O4: the step is refused as its bytes are, and the opcodes whose form is unused are those the tables leave out. -/
theorem unusedOpcodesRefused : Obligations.UnusedOpcodesRefused := by
  intro σ τ reaches
  rw [step_refused_iff reaches, windowRefusal_unusedOpcode]

/-- TFR and EXG refuse a register postbyte, and their meanings an unlike pair, alike (R85, R237, R254). -/
theorem decodeRegPair_error_iff (f : Reg → Reg → Instr) (pb : Byte) (rest : List Byte) :
    decodeRegPair f (pb :: rest) = .error (.unusedRegisterPair pb) ↔ ¬ LikePair pb := by
  obtain ⟨like, unlike⟩ := decodeRegPair_window f pb rest
  rw [← pairsRegisters_iff]
  refine ⟨fun refused h => ?_, fun h => unlike (Bool.not_eq_true _ ▸ h)⟩
  obtain ⟨i, ok⟩ := like h
  rw [ok] at refused; cases refused

theorem exec_unlike_pair {src dst : Reg} (unlike : src.likeSize dst = false) (σ : State) :
    exec (.tfr src dst) σ = .refused .unusedRegisterPostbyte ∧ exec (.exg src dst) σ = .refused .unusedRegisterPostbyte := by
  rcases src with r | r <;> rcases dst with t | t
  · cases unlike
  · exact ⟨rfl, rfl⟩
  · exact ⟨rfl, rfl⟩
  · cases unlike

/-- Settles O5: the step by the forms that a postbyte follows, the decoder by its window on the postbyte, the meanings by the sizes. -/
theorem unusedPostbytesRefused : Obligations.UnusedPostbytesRefused := by
  refine ⟨fun σ τ reaches => ⟨?_, ?_⟩, fun pb x y rest => ⟨?_, ?_, ?_, ?_⟩, fun src dst σ unlike => exec_unlike_pair unlike σ⟩
  · rw [step_refused_iff reaches, windowRefusal_unusedIndexedPostbyte]
  · rw [step_refused_iff reaches, windowRefusal_unusedRegisterPostbyte]
  · obtain ⟨used, unused⟩ := decodeIdx_window pb x y rest
    refine ⟨fun refused => ?_, unused⟩
    by_contra h
    obtain ⟨i, rest', ok⟩ := used h
    rw [ok] at refused; cases refused
  · exact decodeRegPair_error_iff .tfr pb rest
  · exact decodeRegPair_error_iff .exg pb rest
  · exact (decodeIdx_window pb x y rest).1

end Sys2Proof.Proofs
end

section
/-! PROOFS. What every operation leaves alone: the NMI bits, the place in the main loop, the pins to come, the platform, and the counters where no cycle is granted. The relation is transitive, so each shape of instruction keeps what its parts keep. -/

namespace Sys2Proof.Proofs

open Sys2Proof.Machine

/-- The NMI bits and the main loop's own state are unchanged (R27 to R29). -/
def Keeps (σ τ : State) : Prop := KeepsNmi σ τ ∧ KeepsControl σ τ

theorem KeepsControl.refl (σ : State) : KeepsControl σ σ :=
  ⟨rfl, rfl, rfl, rfl, rfl, fun ungranted => ⟨ungranted, rfl, rfl, rfl, rfl, rfl⟩⟩

theorem KeepsControl.trans {σ τ υ : State} (h : KeepsControl σ τ) (k : KeepsControl τ υ) : KeepsControl σ υ := by
  obtain ⟨run, halted, inReset, env, platform, counters⟩ := h
  obtain ⟨run', halted', inReset', env', platform', counters'⟩ := k
  refine ⟨run'.trans run, halted'.trans halted, inReset'.trans inReset, env'.trans env, platform'.trans platform, fun ungranted => ?_⟩
  obtain ⟨still, granted, refresh, idle, low, elapsed⟩ := counters ungranted
  obtain ⟨still', granted', refresh', idle', low', elapsed'⟩ := counters' still
  exact ⟨still', granted'.trans granted, refresh'.trans refresh, idle'.trans idle, low'.trans low, elapsed'.trans elapsed⟩

theorem Keeps.refl (σ : State) : Keeps σ σ := ⟨⟨rfl, rfl⟩, KeepsControl.refl σ⟩

theorem Keeps.trans {σ τ υ : State} (h : Keeps σ τ) (k : Keeps τ υ) : Keeps σ υ :=
  ⟨⟨k.1.1.trans h.1.1, k.1.2.trans h.1.2⟩, KeepsControl.trans h.2 k.2⟩

/-! ### Updates of registers -/

section Updates

variable (σ : State)

theorem keeps_setAcc (r : Acc) (v : Byte) : Keeps σ (setAcc r v σ) := by cases r <;> exact Keeps.refl σ

theorem keeps_setPtr (r : Ptr) (w : Word) : Keeps σ (setPtr r w σ) := by cases r <;> exact Keeps.refl σ

theorem keeps_setD (w : Word) : Keeps σ (setD w σ) := Keeps.refl σ

theorem keeps_setCc (cc : CC) : Keeps σ (setCc cc σ) := Keeps.refl σ

theorem keeps_setDp (v : Byte) : Keeps σ (setDp v σ) := Keeps.refl σ

theorem keeps_setPc (w : Word) : Keeps σ (setPc w σ) := Keeps.refl σ

theorem keeps_countDraw : Keeps σ (countDraw σ) := Keeps.refl σ

theorem keepsControl_armNmiIf (c : Bool) : KeepsControl σ (armNmiIf c σ) := KeepsControl.refl σ

theorem keeps_writeReg16 (r : Reg16) (w : Word) : Keeps σ (writeReg16 r w σ) := by cases r <;> exact Keeps.refl σ

theorem keeps_writeReg8 (r : Reg8) (v : Byte) : Keeps σ (writeReg8 r v σ) := by cases r <;> exact Keeps.refl σ

/-! ### Bus cycles -/

theorem keeps_nextCycle : Keeps σ (nextCycle σ) := by
  refine ⟨⟨rfl, rfl⟩, rfl, rfl, rfl, rfl, nextCycle_platform σ, fun ungranted => ?_⟩
  rw [nextCycle_of_none σ ungranted]
  exact ⟨ungranted, rfl, rfl, rfl, rfl, rfl⟩

theorem keeps_busCycle (c : BusCycle) : Keeps σ (busCycle c σ) :=
  ⟨⟨rfl, rfl⟩, rfl, rfl, rfl, rfl, busCycle_platform σ c,
    fun ungranted => ⟨(busCycle_cycles σ c).trans ungranted, rfl, rfl, rfl, rfl, rfl⟩⟩

theorem keeps_vmaCycles (n : Nat) : Keeps σ (vmaCycles n σ) := by
  refine ⟨⟨rfl, rfl⟩, rfl, rfl, rfl, rfl, vmaCycles_platform σ n, fun ungranted => ?_⟩
  simp [KeepsCounters, ungranted]

theorem keeps_readByte (a : Word) : Keeps σ (readByte a σ).2 := (keeps_nextCycle σ).trans (keeps_busCycle _ _)

theorem keeps_readWord (a : Word) : Keeps σ (readWord a σ).2 := (keeps_readByte σ a).trans (keeps_readByte _ _)

theorem keeps_readAck (a : Word) : Keeps σ (readAck a σ).2 := (keeps_nextCycle σ).trans (keeps_busCycle _ _)

theorem keeps_readVector (a : Word) : Keeps σ (readVector a σ).2 := (keeps_readAck σ a).trans (keeps_readAck _ _)

theorem keeps_writeByte (a : Word) (v : Byte) : Keeps σ (writeByte a v σ) := (keeps_nextCycle σ).trans (keeps_busCycle _ _)

theorem keeps_writeWord (a : Word) (v : Word) : Keeps σ (writeWord a v σ) := (keeps_writeByte σ a _).trans (keeps_writeByte _ _ _)

/-! ### Stacks -/

theorem keeps_push8 (r : Ptr) (v : Byte) : Keeps σ (push8 r v σ) := (keeps_setPtr σ r _).trans (keeps_writeByte _ _ _)

theorem keeps_push16 (r : Ptr) (w : Word) : Keeps σ (push16 r w σ) := (keeps_push8 σ r _).trans (keeps_push8 _ _ _)

theorem keeps_pull8 (r : Ptr) : Keeps σ (pull8 r σ).2 := (keeps_readByte σ _).trans (keeps_setPtr _ _ _)

theorem keeps_pull16 (r : Ptr) : Keeps σ (pull16 r σ).2 := (keeps_pull8 σ r).trans (keeps_pull8 _ _)

theorem keeps_pullInto8 (r : Ptr) {f : Byte → State → State} (hf : ∀ v υ, Keeps υ (f v υ)) : Keeps σ (pullInto8 r f σ) :=
  (keeps_pull8 σ r).trans (hf _ _)

theorem keeps_pullInto16 (r : Ptr) {f : Word → State → State} (hf : ∀ v υ, Keeps υ (f v υ)) : Keeps σ (pullInto16 r f σ) :=
  (keeps_pull16 σ r).trans (hf _ _)

theorem keeps_doIf (c : Bool) {f : State → State} (h : ∀ υ, Keeps υ (f υ)) : Keeps σ (doIf c f σ) := by
  cases c
  · exact Keeps.refl σ
  · exact h σ

theorem keeps_pushRegs (k : Stk) (mask : Byte) : Keeps σ (pushRegs k mask σ) := by
  simp only [pushRegs]
  refine Keeps.trans ?_ (keeps_doIf _ _ fun υ => keeps_push8 υ _ _)
  refine Keeps.trans ?_ (keeps_doIf _ _ fun υ => keeps_push8 υ _ _)
  refine Keeps.trans ?_ (keeps_doIf _ _ fun υ => keeps_push8 υ _ _)
  refine Keeps.trans ?_ (keeps_doIf _ _ fun υ => keeps_push8 υ _ _)
  refine Keeps.trans ?_ (keeps_doIf _ _ fun υ => keeps_push16 υ _ _)
  refine Keeps.trans ?_ (keeps_doIf _ _ fun υ => keeps_push16 υ _ _)
  refine Keeps.trans ?_ (keeps_doIf _ _ fun υ => keeps_push16 υ _ _)
  exact keeps_doIf _ _ fun υ => keeps_push16 υ _ _

theorem keeps_pushEntireState : Keeps σ (pushEntireState σ) := keeps_pushRegs σ .s 0xFF

theorem keeps_pullRegs (k : Stk) (mask : Byte) : Keeps σ (pullRegs k mask σ) := by
  simp only [pullRegs]
  refine Keeps.trans ?_ (keeps_doIf _ _ fun υ => keeps_pullInto16 υ _ fun v ω => keeps_setPc ω v)
  refine Keeps.trans ?_ (keeps_doIf _ _ fun υ => keeps_pullInto16 υ _ fun v ω => keeps_setPtr ω _ v)
  refine Keeps.trans ?_ (keeps_doIf _ _ fun υ => keeps_pullInto16 υ _ fun v ω => keeps_setPtr ω _ v)
  refine Keeps.trans ?_ (keeps_doIf _ _ fun υ => keeps_pullInto16 υ _ fun v ω => keeps_setPtr ω _ v)
  refine Keeps.trans ?_ (keeps_doIf _ _ fun υ => keeps_pullInto8 υ _ fun v ω => keeps_setDp ω v)
  refine Keeps.trans ?_ (keeps_doIf _ _ fun υ => keeps_pullInto8 υ _ fun v ω => keeps_setAcc ω _ v)
  refine Keeps.trans ?_ (keeps_doIf _ _ fun υ => keeps_pullInto8 υ _ fun v ω => keeps_setAcc ω _ v)
  exact keeps_doIf _ _ fun υ => keeps_pullInto8 υ _ fun v ω => keeps_setCc ω _

theorem keeps_returnFromInterrupt : Keeps σ (returnFromInterrupt σ) := by
  simp only [returnFromInterrupt]
  refine Keeps.trans ?_ (keeps_pullInto16 _ _ fun v ω => keeps_setPc ω v)
  refine Keeps.trans (keeps_pullInto8 _ _ fun v ω => keeps_setCc ω _) (keeps_doIf _ _ fun υ => ?_)
  refine Keeps.trans ?_ (keeps_pullInto16 _ _ fun v ω => keeps_setPtr ω _ v)
  refine Keeps.trans ?_ (keeps_pullInto16 _ _ fun v ω => keeps_setPtr ω _ v)
  refine Keeps.trans ?_ (keeps_pullInto16 _ _ fun v ω => keeps_setPtr ω _ v)
  refine Keeps.trans ?_ (keeps_pullInto8 _ _ fun v ω => keeps_setDp ω v)
  refine Keeps.trans ?_ (keeps_pullInto8 _ _ fun v ω => keeps_setAcc ω _ v)
  exact keeps_pullInto8 _ _ fun v ω => keeps_setAcc ω _ v

/-! ### Exceptions -/

theorem keeps_stackState (e : Exc) : Keeps σ (stackState e σ) := by
  cases e with
  | res => exact Keeps.refl σ
  | firq => exact ((keeps_setCc σ _).trans (keeps_push16 _ _ _)).trans (keeps_push8 _ _ _)
  | nmi | swi | irq | swi2 | swi3 => exact (keeps_setCc σ _).trans (keeps_pushEntireState _)

/-- The masks of an entry set, and a taken NMI no longer pending: what stands before the vector fetch (R411, R417). -/
def masked (e : Exc) (υ : State) : State :=
  if e = .nmi then { setCc (maskFor e υ.cc) υ with nmiPending := false } else setCc (maskFor e υ.cc) υ

theorem takeVector_eq_fetch (e : Exc) :
    takeVector e σ = setPc (readVector (vectorOf e) (masked e σ)).1 (readVector (vectorOf e) (masked e σ)).2 := rfl

theorem busSide_masked (e : Exc) : busSide (masked e σ) = busSide σ := by
  rw [masked]; split <;> rfl

theorem keepsControl_masked (e : Exc) : KeepsControl σ (masked e σ) := by
  rw [masked]; split <;> exact KeepsControl.refl σ

/-- The end of an entry but for the latch of NMI, which the entry of NMI clears (R408). -/
theorem keepsControl_takeVector (e : Exc) : KeepsControl σ (takeVector e σ) :=
  KeepsControl.trans (keepsControl_masked σ e) ((keeps_readVector _ (vectorOf e)).trans (keeps_setPc _ _)).2

theorem nmi_takeVector (e : Exc) : (takeVector e σ).nmiArmed = σ.nmiArmed ∧
    (takeVector e σ).nmiPending = if e = .nmi then false else σ.nmiPending := by
  by_cases h : e = .nmi
  · subst h; exact ⟨rfl, rfl⟩
  · simp [takeVector, h]

theorem keeps_takeVector {e : Exc} (h : e ≠ .nmi) : Keeps σ (takeVector e σ) := by
  obtain ⟨armed, pending⟩ := nmi_takeVector σ e
  exact ⟨⟨armed, pending.trans (if_neg h)⟩, keepsControl_takeVector σ e⟩

theorem keeps_takeException {e : Exc} (h : e ≠ .nmi) : Keeps σ (takeException e σ) :=
  (keeps_stackState σ e).trans (keeps_takeVector _ h)

/-! ### Addresses and operands -/

theorem keeps_baseAddr (m : IdxBase) : Keeps σ (baseAddr m σ).2 := by
  cases m with
  | inc2 r | dec2 r => exact keeps_setPtr σ _ _
  | _ => exact Keeps.refl σ

theorem keeps_idxAddr (i : Idx) : Keeps σ (idxAddr i σ).2 := by
  cases i with
  | off5 r n => exact Keeps.refl σ
  | inc1 r | dec1 r => exact keeps_setPtr σ _ _
  | plain m => exact keeps_baseAddr σ m
  | indirect m => exact (keeps_baseAddr σ m).trans (keeps_readWord _ _)
  | extIndirect n => exact keeps_readWord σ n

theorem keeps_effAddr (a : Addr) : Keeps σ (effAddr a σ).2 := by
  cases a with
  | direct n | extended n => exact Keeps.refl σ
  | indexed i => exact keeps_idxAddr σ i

theorem keeps_operand8 (src : Src8) : Keeps σ (operand8 src σ).2 := by
  cases src with
  | imm n => exact Keeps.refl σ
  | mem a => exact (keeps_effAddr σ a).trans (keeps_readByte _ _)

theorem keeps_operand16 (src : Src16) : Keeps σ (operand16 src σ).2 := by
  cases src with
  | imm n => exact Keeps.refl σ
  | mem a => exact (keeps_effAddr σ a).trans (keeps_readWord _ _)

/-! ### The shapes of the instructions -/

theorem keeps_accBinary (f : Byte → Byte → CC → Byte × CC) (r : Acc) (src : Src8) : Keeps σ (accBinary f r src σ) :=
  ((keeps_operand8 σ src).trans (keeps_setCc _ _)).trans (keeps_setAcc _ _ _)

theorem keeps_accBinaryUndef (f : Bool → Byte → Byte → CC → Byte × CC) (r : Acc) (src : Src8) :
    Keeps σ (accBinaryUndef f r src σ) :=
  (((keeps_operand8 σ src).trans (keeps_countDraw _)).trans (keeps_setCc _ _)).trans (keeps_setAcc _ _ _)

theorem keeps_accTest (f : Byte → Byte → CC → Byte × CC) (r : Acc) (src : Src8) : Keeps σ (accTest f r src σ) :=
  (keeps_operand8 σ src).trans (keeps_setCc _ _)

theorem keeps_accCompare (r : Acc) (src : Src8) : Keeps σ (accCompare r src σ) :=
  ((keeps_operand8 σ src).trans (keeps_countDraw _)).trans (keeps_setCc _ _)

theorem keeps_storeAcc (r : Acc) (a : Addr) : Keeps σ (storeAcc r a σ) :=
  ((keeps_effAddr σ a).trans (keeps_setCc _ _)).trans (keeps_writeByte _ _ _)

theorem keeps_rmwMem (f : Byte → CC → Byte × CC) (a : Addr) : Keeps σ (rmwMem f a σ) :=
  ((((keeps_effAddr σ a).trans (keeps_readByte _ _)).trans (keeps_setCc _ _)).trans (keeps_vmaCycles _ 1)).trans
    (keeps_writeByte _ _ _)

theorem keeps_rmwMemUndef (f : Bool → Byte → CC → Byte × CC) (a : Addr) : Keeps σ (rmwMemUndef f a σ) :=
  (((((keeps_effAddr σ a).trans (keeps_readByte _ _)).trans (keeps_countDraw _)).trans (keeps_setCc _ _)).trans
    (keeps_vmaCycles _ 1)).trans (keeps_writeByte _ _ _)

theorem keeps_rmwAcc (f : Byte → CC → Byte × CC) (r : Acc) : Keeps σ (rmwAcc f r σ) :=
  (keeps_setCc σ _).trans (keeps_setAcc _ _ _)

theorem keeps_rmwAccUndef (f : Bool → Byte → CC → Byte × CC) (r : Acc) : Keeps σ (rmwAccUndef f r σ) :=
  ((keeps_countDraw σ).trans (keeps_setCc _ _)).trans (keeps_setAcc _ _ _)

theorem keeps_testMem (a : Addr) : Keeps σ (testMem a σ) :=
  ((keeps_effAddr σ a).trans (keeps_readByte _ _)).trans (keeps_setCc _ _)

theorem keeps_testAcc (r : Acc) : Keeps σ (testAcc r σ) := keeps_setCc σ _

theorem keeps_load16 (r : Reg16) (src : Src16) : Keeps σ (load16 r src σ) :=
  ((keeps_operand16 σ src).trans (keeps_setCc _ _)).trans (keeps_writeReg16 _ _ _)

theorem keeps_store16 (r : Reg16) (a : Addr) : Keeps σ (store16 r a σ) :=
  ((keeps_effAddr σ a).trans (keeps_setCc _ _)).trans (keeps_writeWord _ _ _)

theorem keeps_compare16 (r : Reg16) (src : Src16) : Keeps σ (compare16 r src σ) :=
  ((keeps_operand16 σ src).trans (keeps_countDraw _)).trans (keeps_setCc _ _)

theorem keeps_branch (c : Cond) (off : Word) : Keeps σ (branch c off σ) := by
  rw [branch]; split
  · exact keeps_setPc σ _
  · exact Keeps.refl σ

theorem keeps_call (target : Word) : Keeps σ (call target σ) := (keeps_push16 σ _ _).trans (keeps_setPc _ _)

theorem keeps_transfer {src dst : Reg} {τ : State} (h : transfer src dst σ = some τ) : Keeps σ τ := by
  rcases src with r | r <;> rcases dst with t | t <;> cases h
  · exact keeps_writeReg16 σ _ _
  · exact keeps_writeReg8 σ _ _

theorem keeps_exchange {src dst : Reg} {τ : State} (h : exchange src dst σ = some τ) : Keeps σ τ := by
  rcases src with r | r <;> rcases dst with t | t <;> cases h
  · exact (keeps_writeReg16 σ _ _).trans (keeps_writeReg16 _ _ _)
  · exact (keeps_writeReg8 σ _ _).trans (keeps_writeReg8 _ _ _)

end Updates

end Sys2Proof.Proofs
end

section
/-! PROOFS. What an instruction may touch: the accesses it makes, the NMI bits and the run state, DP and the masks (10_state.md, 20_memory.md, 60_exceptions.md). -/

namespace Sys2Proof.Proofs

open Sys2Proof.Machine

/-! ### The NMI bits and the place in the main loop -/

/-- The place in the main loop that an instruction leads to (R301, R291). -/
def runAfter (i : Instr) (r : RunState) : RunState :=
  match i with
  | .sync => .syncing
  | .cwai _ => .cwaiWaiting
  | _ => r

/-- `τ` is what `i` leaves of the control fields of `σ`: NMI may be armed by a candidate of `nmi_arming_set` alone and is by LDS, and the run state is moved by SYNC and CWAI alone. -/
def Controls (i : Instr) (σ τ : State) : Prop :=
  ∃ (υ : State) (c : Bool), Keeps σ υ ∧ τ = setRun (runAfter i σ.run) (armNmiIf c υ) ∧
    (mayArmNmi i = false → c = false) ∧ ∀ src, i = .lds src → c = true

/-- An instruction that arms nothing and moves nowhere. -/
theorem controls_of_keeps {i : Instr} {σ τ : State} (k : Keeps σ τ) (moves : runAfter i σ.run = σ.run)
    (lds : ∀ src, i ≠ .lds src) : Controls i σ τ := by
  refine ⟨τ, false, k, ?_, fun _ => rfl, fun src e => absurd e (lds src)⟩
  rw [moves, ← k.2.1]
  simp [setRun, armNmiIf]

/-- An instruction that may arm NMI. -/
theorem controls_of_arming {i : Instr} {σ υ : State} {c : Bool} (k : Keeps σ υ) (moves : runAfter i σ.run = σ.run)
    (arms : mayArmNmi i = false → c = false) (lds : ∀ src, i = .lds src → c = true) : Controls i σ (armNmiIf c υ) := by
  refine ⟨υ, c, k, ?_, arms, lds⟩
  rw [moves, ← k.2.1]
  rfl

/-- An instruction that enters a wait. -/
theorem controls_of_waiting {i : Instr} {σ υ : State} (k : Keeps σ υ) (lds : ∀ src, i ≠ .lds src) :
    Controls i σ (setRun (runAfter i σ.run) υ) := by
  refine ⟨υ, false, k, ?_, fun _ => rfl, fun src e => absurd e (lds src)⟩
  simp [setRun, armNmiIf]

theorem exec_controls {i : Instr} {σ τ : State} (h : exec i σ = .next τ) : Controls i σ τ := by
  cases i with
  | adca src | adcb src | adda src | addb src | anda src | andb src | eora src | eorb src | lda src | ldb src | ora src
  | orb src => cases h; exact controls_of_keeps (keeps_accBinary σ _ _ src) rfl nofun
  | sbca src | sbcb src | suba src | subb src => cases h; exact controls_of_keeps (keeps_accBinaryUndef σ _ _ src) rfl nofun
  | bita src | bitb src => cases h; exact controls_of_keeps (keeps_accTest σ _ _ src) rfl nofun
  | cmpa src | cmpb src => cases h; exact controls_of_keeps (keeps_accCompare σ _ src) rfl nofun
  | sta a | stb a => cases h; exact controls_of_keeps (keeps_storeAcc σ _ a) rfl nofun
  | asl a | asr a | neg a => cases h; exact controls_of_keeps (keeps_rmwMemUndef σ _ a) rfl nofun
  | clr a | com a | dec a | inc a | lsr a | rol a | ror a => cases h; exact controls_of_keeps (keeps_rmwMem σ _ a) rfl nofun
  | asla | aslb | asra | asrb | nega | negb | daa => cases h; exact controls_of_keeps (keeps_rmwAccUndef σ _ _) rfl nofun
  | clra | clrb | coma | comb | deca | decb | inca | incb | lsra | lsrb | rola | rolb | rora | rorb =>
    cases h; exact controls_of_keeps (keeps_rmwAcc σ _ _) rfl nofun
  | tst a => cases h; exact controls_of_keeps (keeps_testMem σ a) rfl nofun
  | tsta | tstb => cases h; exact controls_of_keeps (keeps_testAcc σ _) rfl nofun
  | mul => cases h; exact controls_of_keeps ((keeps_setCc σ _).trans (keeps_setD _ _)) rfl nofun
  | sex => cases h; exact controls_of_keeps ((keeps_setCc σ _).trans (keeps_setAcc _ _ _)) rfl nofun
  | abx => cases h; exact controls_of_keeps (keeps_setPtr σ _ _) rfl nofun
  | addd src =>
    cases h; exact controls_of_keeps (((keeps_operand16 σ src).trans (keeps_setCc _ _)).trans (keeps_setD _ _)) rfl nofun
  | subd src =>
    cases h
    exact controls_of_keeps
      ((((keeps_operand16 σ src).trans (keeps_countDraw _)).trans (keeps_setCc _ _)).trans (keeps_setD _ _)) rfl nofun
  | cmpd src | cmps src | cmpu src | cmpx src | cmpy src =>
    cases h; exact controls_of_keeps (keeps_compare16 σ _ src) rfl nofun
  | ldd src | ldu src | ldx src | ldy src => cases h; exact controls_of_keeps (keeps_load16 σ _ src) rfl nofun
  | lds src => cases h; exact controls_of_arming (keeps_load16 σ .s src) rfl nofun fun _ _ => rfl
  | std a | sts a | stu a | stx a | sty a => cases h; exact controls_of_keeps (keeps_store16 σ _ a) rfl nofun
  | leau i => cases h; exact controls_of_keeps ((keeps_idxAddr σ i).trans (keeps_setPtr _ _ _)) rfl nofun
  | leax i | leay i =>
    cases h
    exact controls_of_keeps (((keeps_idxAddr σ i).trans (keeps_setCc _ _)).trans (keeps_setPtr _ _ _)) rfl nofun
  | leas i => cases h; exact controls_of_arming ((keeps_idxAddr σ i).trans (keeps_setPtr _ _ _)) rfl nofun nofun
  | exg src dst =>
    cases e : exchange src dst σ with
    | none => simp only [exec, execExg, e, reduceCtorEq] at h
    | some υ =>
      simp only [exec, execExg, e, Host.Outcome.next.injEq] at h
      subst h
      exact controls_of_arming (keeps_exchange σ e) rfl (fun none => Bool.and_eq_false_iff.mpr (.inr none)) nofun
  | tfr src dst =>
    cases e : transfer src dst σ with
    | none => simp only [exec, execTfr, e, reduceCtorEq] at h
    | some υ =>
      simp only [exec, execTfr, e, Host.Outcome.next.injEq] at h
      subst h
      exact controls_of_arming (keeps_transfer σ e) rfl (fun none => Bool.and_eq_false_iff.mpr (.inr none)) nofun
  | pshs mask | pshu mask => cases h; exact controls_of_keeps (keeps_pushRegs σ _ mask) rfl nofun
  | puls mask => cases h; exact controls_of_keeps (keeps_pullRegs σ .s mask) rfl nofun
  | pulu mask =>
    cases h
    exact controls_of_arming (keeps_pullRegs σ .u mask) rfl (fun none => Bool.and_eq_false_iff.mpr (.inr none)) nofun
  | bra off | brn off | bhi off | bls off | bcc off | bcs off | bne off | beq off | bvc off | bvs off | bpl off | bmi off
  | bge off | blt off | bgt off | ble off | lbra off | lbrn off | lbhi off | lbls off | lbcc off | lbcs off | lbne off
  | lbeq off | lbvc off | lbvs off | lbpl off | lbmi off | lbge off | lblt off | lbgt off | lble off =>
    cases h; exact controls_of_keeps (keeps_branch σ _ _) rfl nofun
  | bsr off | lbsr off => cases h; exact controls_of_keeps (keeps_call σ _) rfl nofun
  | jsr a => cases h; exact controls_of_keeps ((keeps_effAddr σ a).trans (keeps_call _ _)) rfl nofun
  | jmp a => cases h; exact controls_of_keeps ((keeps_effAddr σ a).trans (keeps_setPc _ _)) rfl nofun
  | rts => cases h; exact controls_of_keeps (keeps_pullInto16 σ _ fun v υ => keeps_setPc υ v) rfl nofun
  | rti => cases h; exact controls_of_keeps (keeps_returnFromInterrupt σ) rfl nofun
  | andcc n | orcc n => cases h; exact controls_of_keeps (keeps_setCc σ _) rfl nofun
  | nop => cases h; exact controls_of_keeps (Keeps.refl σ) rfl nofun
  | swi | swi2 | swi3 => cases h; exact controls_of_keeps (keeps_takeException σ (by decide)) rfl nofun
  | cwai n => cases h; exact controls_of_waiting (i := .cwai n) ((keeps_setCc σ _).trans (keeps_pushEntireState _)) nofun
  | sync => cases h; exact controls_of_waiting (i := .sync) (Keeps.refl σ) nofun

/-- Settles O12: the NMI bits are those of `Controls`. -/
theorem nmiArmingInstructions : Obligations.NmiArmingInstructions := by
  intro i σ τ runs
  obtain ⟨υ, c, ⟨⟨armed, pending⟩, -⟩, rfl, arms, lds⟩ := exec_controls runs
  refine ⟨pending, fun before => ?_, fun src e => ?_, fun never => ?_⟩
  · simp [armed, before]
  · simp [lds src e]
  · simp [armed, arms never]

/-- Settles O13: the run state and the other control fields are those of `Controls`. -/
theorem onlyWaitsChangeRunState : Obligations.OnlyWaitsChangeRunState := by
  intro i σ τ runs
  obtain ⟨υ, c, ⟨-, -, halted, inReset, env, platform, counters⟩, rfl, -, -⟩ := exec_controls runs
  exact ⟨by cases i <;> rfl, halted, inReset, env, platform, counters⟩

/-! ### Accesses -/

/-- What the MPU's accesses of an instruction are: acknowledge cycles by SWI, SWI2 and SWI3 alone, writes by the storing forms alone (R46, R413). -/
def accessOf (i : Instr) : BusCycle → Prop :=
  if isSwi i = true then VectorAck else if storesMemory i = true then NoAck else IsRead

/-- A push of no register makes no access. -/
theorem makes_pushRegs_of_mask (k : Stk) (mask : Byte) (σ : State) :
    Makes (if (mask != 0) = true then NoAck else IsRead) σ (pushRegs k mask σ) := by
  by_cases h : mask = 0
  · subst h; exact Makes.refl σ
  · rw [if_pos (bne_iff_ne.mpr h)]; exact makes_pushRegs k mask σ

theorem makes_armNmiIf {P : BusCycle → Prop} {σ τ : State} (c : Bool) (h : Makes P σ τ) : Makes P σ (armNmiIf c τ) :=
  h.andThen (busSide_armNmiIf τ c)

theorem busSide_writeReg16 (r : Reg16) (w : Word) (σ : State) : busSide (writeReg16 r w σ) = busSide σ := by
  cases r <;> simp [writeReg16]

theorem busSide_writeReg8 (r : Reg8) (v : Byte) (σ : State) : busSide (writeReg8 r v σ) = busSide σ := by
  cases r <;> simp [writeReg8]

theorem busSide_transfer {src dst : Reg} {σ τ : State} (h : transfer src dst σ = some τ) : busSide τ = busSide σ := by
  rcases src with r | r <;> rcases dst with t | t <;> cases h
  · exact busSide_writeReg16 _ _ σ
  · exact busSide_writeReg8 _ _ σ

theorem busSide_exchange {src dst : Reg} {σ τ : State} (h : exchange src dst σ = some τ) : busSide τ = busSide σ := by
  rcases src with r | r <;> rcases dst with t | t <;> cases h
  · rw [busSide_writeReg16, busSide_writeReg16]
  · rw [busSide_writeReg8, busSide_writeReg8]

theorem makes_enterWait (n : Byte) (cc : CC) (σ : State) :
    Makes (accessOf (.cwai n)) σ (setRun .cwaiWaiting (pushEntireState (setCc cc σ))) :=
  ((makes_setCc cc σ).trans (makes_pushEntireState _)).andThen (busSide_setRun _ _)

/-- Every instruction makes the accesses of its kind and no other (R46, R54, R413). -/
theorem makes_exec {i : Instr} {σ τ : State} (h : exec i σ = .next τ) : Makes (accessOf i) σ τ := by
  cases i with
  | adca src | adcb src | adda src | addb src | anda src | andb src | eora src | eorb src | lda src | ldb src | ora src
  | orb src => cases h; exact makes_accBinary _ _ src σ
  | sbca src | sbcb src | suba src | subb src => cases h; exact makes_accBinaryUndef _ _ src σ
  | bita src | bitb src => cases h; exact makes_accTest _ _ src σ
  | cmpa src | cmpb src => cases h; exact makes_accCompare _ src σ
  | sta a | stb a => cases h; exact makes_storeAcc _ a σ
  | asl a | asr a | neg a => cases h; exact makes_rmwMemUndef _ a σ
  | clr a | com a | dec a | inc a | lsr a | rol a | ror a => cases h; exact makes_rmwMem _ a σ
  | asla | aslb | asra | asrb | nega | negb | daa => cases h; exact makes_rmwAccUndef _ _ σ
  | clra | clrb | coma | comb | deca | decb | inca | incb | lsra | lsrb | rola | rolb | rora | rorb =>
    cases h; exact makes_rmwAcc _ _ σ
  | tst a => cases h; exact makes_testMem a σ
  | tsta | tstb => cases h; exact makes_testAcc _ σ
  | mul | sex | abx | andcc n | orcc n | nop | sync => cases h; exact makes_of_eq (by simp)
  | addd src | subd src => cases h; exact (makes_operand16 src σ).andThen (by simp)
  | cmpd src | cmps src | cmpu src | cmpx src | cmpy src => cases h; exact makes_compare16 _ src σ
  | ldd src | ldu src | ldx src | ldy src => cases h; exact makes_load16 _ src σ
  | lds src => cases h; exact makes_armNmiIf true (makes_load16 .s src σ)
  | std a | sts a | stu a | stx a | sty a => cases h; exact makes_store16 _ a σ
  | leau i | leax i | leay i | leas i => cases h; exact (makes_idxAddr i σ).andThen (by simp)
  | exg src dst =>
    cases e : exchange src dst σ with
    | none => simp only [exec, execExg, e, reduceCtorEq] at h
    | some υ =>
      simp only [exec, execExg, e, Host.Outcome.next.injEq] at h
      subst h
      exact makes_armNmiIf _ (makes_of_eq (busSide_exchange e))
  | tfr src dst =>
    cases e : transfer src dst σ with
    | none => simp only [exec, execTfr, e, reduceCtorEq] at h
    | some υ =>
      simp only [exec, execTfr, e, Host.Outcome.next.injEq] at h
      subst h
      exact makes_armNmiIf _ (makes_of_eq (busSide_transfer e))
  | pshs mask | pshu mask => cases h; exact makes_pushRegs_of_mask _ mask σ
  | puls mask => cases h; exact makes_pullRegs .s mask σ
  | pulu mask => cases h; exact makes_armNmiIf _ (makes_pullRegs .u mask σ)
  | bra off | brn off | bhi off | bls off | bcc off | bcs off | bne off | beq off | bvc off | bvs off | bpl off | bmi off
  | bge off | blt off | bgt off | ble off | lbra off | lbrn off | lbhi off | lbls off | lbcc off | lbcs off | lbne off
  | lbeq off | lbvc off | lbvs off | lbpl off | lbmi off | lbge off | lblt off | lbgt off | lble off =>
    cases h; exact makes_branch _ _ σ
  | bsr off | lbsr off => cases h; exact makes_call _ σ
  | jsr a => cases h; exact ((makes_effAddr a σ).mono fun _ => IsRead.noAck).trans (makes_call _ _)
  | jmp a => cases h; exact (makes_effAddr a σ).andThen (by simp)
  | rts => cases h; exact makes_pullInto16 .s setPc (fun _ _ => rfl) σ
  | rti => cases h; exact makes_returnFromInterrupt σ
  | swi | swi2 | swi3 => cases h; exact makes_takeException _ σ
  | cwai n => cases h; exact makes_enterWait n _ σ

theorem accessOf_read {i : Instr} (h : storesMemory i = false) : accessOf i = IsRead := by
  have stacks_nothing : isSwi i = false := by
    cases i with
    | swi | swi2 | swi3 => cases h
    | _ => rfl
  simp [accessOf, h, stacks_nothing]

theorem accessOf_noAck {i : Instr} (h : isSwi i = false) {c : BusCycle} (k : accessOf i c) : NoAck c := by
  rw [accessOf, if_neg (by simp [h])] at k
  split at k
  · exact k
  · exact k.noAck

/-- Settles O14: an instruction that does not store only reads, so only other masters write inside it. -/
theorem nonStoringInstructionsKeepMemory : Obligations.NonStoringInstructionsKeepMemory := by
  intro i σ τ stores runs
  have reads : Makes IsRead σ τ := accessOf_read stores ▸ makes_exec runs
  obtain ⟨cycles, log, kinds⟩ := reads.follows.bus
  refine ⟨reads.leavesMemory, cycles, log, fun c logged writes => ?_⟩
  obtain ⟨other, -⟩ | ⟨-, -, read⟩ := kinds c logged
  · exact other
  · rw [read] at writes; cases writes

/-- Settles O15: the accesses an instruction makes, performed one after the other, are all it does to memory and devices. -/
theorem busLogAccountsForMemory : Obligations.BusLogAccountsForMemory := by
  intro i σ τ runs
  obtain ⟨cycles, ⟨-, mem, devices, bus⟩, -, own⟩ := makes_exec runs
  have replayed := busSide_replay cycles σ
  refine ⟨cycles, bus.trans (performs_bus cycles _), mem.trans (congrArg BusSide.mem replayed).symm,
    devices.trans (congrArg BusSide.devices replayed).symm, fun ungranted => (own ungranted).2, fun a changed => ?_⟩
  have mem : τ.mem = (performs cycles (busSide σ)).mem := mem
  rw [peek, peek, mem] at changed
  exact performs_written cycles (busSide σ) a changed

end Sys2Proof.Proofs
end

section
/-! PROOFS. The acknowledge cycles of an instruction (60_exceptions.md R413), and who writes DP, F, I and E (10_state.md R16, R22 to R25). -/

namespace Sys2Proof.Proofs

open Sys2Proof.Machine

/-! ### Acknowledge cycles -/

/-- The log of `τ` is that of `σ` and accesses among which the acknowledge cycles are `as`, each with its address and whether it writes. -/
def Acknowledges (as : List (Word × Bool)) (σ τ : State) : Prop :=
  ∃ cycles : List BusCycle, τ.bus = σ.bus ++ cycles ∧
    (cycles.filter (fun c => c.ack)).map (fun c => (c.addr, c.write)) = as

theorem Acknowledges.trans {as bs : List (Word × Bool)} {σ τ υ : State} :
    Acknowledges as σ τ → Acknowledges bs τ υ → Acknowledges (as ++ bs) σ υ
  | ⟨xs, bus, acks⟩, ⟨ys, bus', acks'⟩ =>
    ⟨xs ++ ys, by rw [bus', bus, List.append_assoc], by rw [List.filter_append, List.map_append, acks, acks']⟩

theorem acknowledges_of_noAck {P : BusCycle → Prop} (never : ∀ c, P c → NoAck c) {σ τ : State} (m : Makes P σ τ) :
    Acknowledges [] σ τ := by
  obtain ⟨cycles, bus, kinds⟩ := m.follows.bus
  refine ⟨cycles, bus, ?_⟩
  rw [List.map_eq_nil_iff, List.filter_eq_nil_iff]
  intro c logged
  obtain ⟨-, -, plain⟩ | ⟨-, plain⟩ := kinds c logged
  · simp [plain]
  · have := never c plain
    simp [show c.ack = false from this]

theorem acknowledges_readAck (a : Word) (σ : State) : Acknowledges [(a, false)] σ (readAck a σ).2 := by
  have waits : Acknowledges [] σ (nextCycle σ) := acknowledges_of_noAck (P := NoAck) (fun _ => id) (makes_nextCycle σ)
  have access : Acknowledges [(a, false)] (nextCycle σ) (readAck a σ).2 := ⟨_, rfl, rfl⟩
  exact waits.trans access

/-- The end of an entry acknowledges by the two reads of its vector (R413). -/
theorem acknowledges_takeVector (e : Exc) (σ : State) :
    Acknowledges [(vectorOf e, false), (vectorOf e + 1, false)] σ (takeVector e σ) := by
  have masks : Acknowledges [] σ (masked e σ) :=
    acknowledges_of_noAck (P := NoAck) (fun _ => id) (makes_of_eq (busSide_masked σ e))
  have fetch := (acknowledges_readAck (vectorOf e) (masked e σ)).trans (acknowledges_readAck (vectorOf e + 1) _)
  exact masks.trans fetch

theorem acknowledges_takeException (e : Exc) (σ : State) :
    Acknowledges [(vectorOf e, false), (vectorOf e + 1, false)] σ (takeException e σ) :=
  (acknowledges_of_noAck (fun _ => id) (makes_stackState e σ)).trans (acknowledges_takeVector e _)

/-- No other instruction acknowledges. -/
theorem acknowledges_plain {i : Instr} (plain : isSwi i = false) {σ τ : State} (runs : exec i σ = .next τ) :
    Acknowledges [] σ τ :=
  acknowledges_of_noAck (fun _ => accessOf_noAck plain) (makes_exec runs)

theorem undisturbed_of_keeps {σ τ : State} (k : Keeps σ τ) (u : Undisturbed σ) : Undisturbed τ := by
  obtain ⟨-, -, -, -, -, platform, counters⟩ := k
  exact ⟨platform.trans u.1, (counters u.2).1⟩

/-- In a step that nothing disturbs an entry logs its pushes and then the two reads of its vector (D9). -/
theorem bus_takeException {e : Exc} {σ : State} (u : Undisturbed σ) :
    ∃ plain : List BusCycle, (∀ c ∈ plain, c.ack = false) ∧ (takeException e σ).bus = σ.bus ++ plain ++
      [{ write := false, ack := true, addr := vectorOf e, data := peek (vectorOf e) (takeException e σ) },
       { write := false, ack := true, addr := vectorOf e + 1, data := peek (vectorOf e + 1) (takeException e σ) }] := by
  have makes := makes_stackState e σ
  obtain ⟨plain, bus, kinds⟩ := makes.follows.bus
  refine ⟨plain, fun c logged => (kinds c logged).elim (fun k => k.2.2) (fun k => k.2), ?_⟩
  rw [takeException, takeVector_eq e (undisturbed_of_keeps (keeps_stackState σ e) u), ← bus]
  rfl

/-- Settles O16: an entry's acknowledge cycles are those of its vector fetch; every other instruction makes accesses without an acknowledge mark. -/
theorem acknowledgeCyclesAreVectorFetches : Obligations.AcknowledgeCyclesAreVectorFetches := by
  intro i σ τ runs
  constructor
  · cases i with
    | swi => cases runs; exact acknowledges_takeException .swi σ
    | swi2 => cases runs; exact acknowledges_takeException .swi2 σ
    | swi3 => cases runs; exact acknowledges_takeException .swi3 σ
    | _ => exact acknowledges_plain rfl runs
  · intro u
    have plain : isSwi i = false → ∃ plain : List BusCycle, (∀ c ∈ plain, c.ack = false) ∧ τ.bus = σ.bus ++ plain ++ [] := fun h => by
      obtain ⟨cycles, bus, kinds⟩ := (makes_exec runs).follows.bus
      refine ⟨cycles, fun c logged => (kinds c logged).elim (fun k => k.2.2) (fun k => accessOf_noAck h k.2), ?_⟩
      rw [bus, List.append_nil]
    cases i with
    | swi => cases runs; exact bus_takeException (e := .swi) u
    | swi2 => cases runs; exact bus_takeException (e := .swi2) u
    | swi3 => cases runs; exact bus_takeException (e := .swi3) u
    | _ => exact plain rfl

end Sys2Proof.Proofs
end

section
/-! PROOFS. The 8-bit instructions of 41_8bit_accumulator_memory.md and 42_8bit_read_modify_write.md, and SEX and ABX: results, flags and frames. -/

namespace Sys2Proof.Proofs

open Sys2Proof.Machine

/-! ### The parts of a frame -/

/-- What an operation that writes no memory leaves unchanged: every register but those of `dst` and what the addressing mode adds to a pointer, memory, the NMI bits and the main loop's state. -/
def Frame (dst : List Reg) (d : Ptr → Word) (σ τ : State) : Prop :=
  KeepsRegs dst d σ τ ∧ LeavesMemory σ τ ∧ KeepsNmi σ τ ∧ KeepsControl σ τ

theorem frame_of_reads {dst : List Reg} {d : Ptr → Word} {σ τ : State} (regs : KeepsRegs dst d σ τ)
    (reads : Makes IsRead σ τ) (keeps : Keeps σ τ) : Frame dst d σ τ :=
  ⟨regs, reads.leavesMemory, keeps.1, keeps.2⟩

section Shapes

variable (σ : State)

theorem frame_accBinary (f : Byte → Byte → CC → Byte × CC) (r : Acc) (src : Src8) :
    Frame [accR r] (src8Delta src) σ (accBinary f r src σ) := by
  refine frame_of_reads ?_ (makes_accBinary f r src σ) (keeps_accBinary σ f r src)
  cases r <;> simp [KeepsRegs, accBinary, accR]

theorem frame_accBinaryUndef (f : Bool → Byte → Byte → CC → Byte × CC) (r : Acc) (src : Src8) :
    Frame [accR r] (src8Delta src) σ (accBinaryUndef f r src σ) := by
  refine frame_of_reads ?_ (makes_accBinaryUndef f r src σ) (keeps_accBinaryUndef σ f r src)
  cases r <;> simp [KeepsRegs, accBinaryUndef, accR]

theorem frame_accTest (f : Byte → Byte → CC → Byte × CC) (r : Acc) (src : Src8) :
    Frame [] (src8Delta src) σ (accTest f r src σ) := by
  refine frame_of_reads ?_ (makes_accTest f r src σ) (keeps_accTest σ f r src)
  simp [KeepsRegs, accTest]

theorem frame_accCompare (r : Acc) (src : Src8) : Frame [] (src8Delta src) σ (accCompare r src σ) := by
  refine frame_of_reads ?_ (makes_accCompare r src σ) (keeps_accCompare σ r src)
  simp [KeepsRegs, accCompare]

theorem frame_rmwAcc (f : Byte → CC → Byte × CC) (r : Acc) : Frame [accR r] noDelta σ (rmwAcc f r σ) := by
  refine frame_of_reads ?_ (makes_rmwAcc f r σ) (keeps_rmwAcc σ f r)
  cases r <;> simp [KeepsRegs, rmwAcc, accR, noDelta]

theorem frame_rmwAccUndef (f : Bool → Byte → CC → Byte × CC) (r : Acc) : Frame [accR r] noDelta σ (rmwAccUndef f r σ) := by
  refine frame_of_reads ?_ (makes_rmwAccUndef f r σ) (keeps_rmwAccUndef σ f r)
  cases r <;> simp [KeepsRegs, rmwAccUndef, accR, noDelta]

/-! ### Results of the shapes -/

theorem accBinary_result (f : Byte → Byte → CC → Byte × CC) (r : Acc) (src : Src8) :
    (acc r (accBinary f r src σ), (accBinary f r src σ).cc) = f (acc r σ) (operand8 src σ).1 σ.cc := by
  cases r <;> simp [accBinary]

theorem accBinaryUndef_result (f : Bool → Byte → Byte → CC → Byte × CC) (r : Acc) (src : Src8) :
    (acc r (accBinaryUndef f r src σ), (accBinaryUndef f r src σ).cc) =
      f (Config.undefFlag σ.draws) (acc r σ) (operand8 src σ).1 σ.cc := by
  cases r <;> simp [accBinaryUndef, drawFlag]

theorem accTest_cc (f : Byte → Byte → CC → Byte × CC) (r : Acc) (src : Src8) :
    (accTest f r src σ).cc = (f (acc r σ) (operand8 src σ).1 σ.cc).2 := by
  cases r <;> simp [accTest]

theorem accCompare_cc (r : Acc) (src : Src8) :
    (accCompare r src σ).cc = (sub8 (Config.undefFlag σ.draws) (acc r σ) (operand8 src σ).1 false σ.cc).2 := by
  cases r <;> simp [accCompare, drawFlag]

end Shapes

/-! ### ADD, ADC, SUB, SBC, CMP (R142, R143) -/

theorem exec_addI (r : Acc) (withCarry : Bool) (src : Src8) (σ : State) :
    exec (addI r withCarry src) σ = .next (accBinary (fun a m cc => add8 a m (withCarry && cc.c) cc) r src σ) := by
  cases r <;> cases withCarry <;> rfl

theorem exec_subI (r : Acc) (withBorrow : Bool) (src : Src8) (σ : State) :
    exec (subI r withBorrow src) σ =
      .next (accBinaryUndef (fun h a m cc => sub8 h a m (withBorrow && cc.c) cc) r src σ) := by
  cases r <;> cases withBorrow <;> rfl

theorem exec_cmpI (r : Acc) (src : Src8) (σ : State) : exec (cmpI r src) σ = .next (accCompare r src σ) := by
  cases r <;> rfl

/-- A result in an accumulator and its flags have a property of the pair that the operation answers. -/
theorem of_accBinary_result {P : Byte → CC → Prop} {v : Byte} {cc : CC} {res : Byte × CC} (result : (v, cc) = res)
    (p : P res.1 res.2) : P v cc := by
  subst result; exact p

/-- Settles O24: the shape's result is `add8`, whose sum and flags are those of R142. -/
theorem addResults : Obligations.AddResults := fun r withCarry src σ =>
  ⟨_, exec_addI r withCarry src σ, of_accBinary_result (P := fun v cc => IsSum _ _ _ v σ.cc cc) (accBinary_result σ _ r src) (isSum_add8 _ _ _ _),
    frame_accBinary σ _ r src⟩

/-- The flags of a compare of bytes (R143). -/
theorem isDifference_accCompare (r : Acc) (src : Src8) (σ : State) :
    IsDifference (acc r σ) (operand8 src σ).1 false (acc r σ - (operand8 src σ).1) σ.cc (accCompare r src σ).cc := by
  rw [accCompare_cc, ← sub8_fst (Config.undefFlag σ.draws) _ _ σ.cc]
  exact isDifference_sub8 _ _ _ _ _

/-- Settles O25: the results of the two shapes are `sub8`, whose difference and flags are those of R143. -/
theorem subtractResults : Obligations.SubtractResults := by
  refine ⟨fun r withBorrow src σ => ?_, fun r src σ => ?_⟩
  · exact ⟨_, exec_subI r withBorrow src σ, of_accBinary_result (P := fun v cc => IsDifference _ _ _ v σ.cc cc)
      (accBinaryUndef_result σ _ r src) (isDifference_sub8 _ _ _ _ _), frame_accBinaryUndef σ _ r src⟩
  · exact ⟨_, exec_cmpI r src σ, isDifference_accCompare r src σ, frame_accCompare σ r src⟩

/-! ### AND, OR, EOR, BIT and the loads (R146) -/

/-- The byte operation of a logical instruction. -/
def logicFn : LogicOp → Byte → Byte → CC → Byte × CC
  | .and => and8
  | .or => or8
  | .eor => eor8

theorem exec_logicI (op : LogicOp) (r : Acc) (src : Src8) (σ : State) :
    exec (logicI op r src) σ = .next (accBinary (logicFn op) r src σ) := by
  cases op <;> cases r <;> rfl

theorem exec_bitI (r : Acc) (src : Src8) (σ : State) : exec (bitI r src) σ = .next (accTest and8 r src σ) := by
  cases r <;> rfl

theorem exec_ldI (r : Acc) (src : Src8) (σ : State) : exec (ldI r src) σ = .next (accBinary ld8 r src σ) := by
  cases r <;> rfl

theorem getLsbD_logicFn (op : LogicOp) (a m : Byte) (cc : CC) (k : Nat) :
    (logicFn op a m cc).1.getLsbD k = logicBit op (a.getLsbD k) (m.getLsbD k) := by
  cases op <;> simp [logicFn, and8, or8, eor8, logicBit]

theorem logicFlags_logicFn (op : LogicOp) (a m : Byte) (cc : CC) :
    LogicFlags (logicFn op a m cc).1 cc (logicFn op a m cc).2 := by
  cases op <;> exact logicFlags_logic8 _ _

/-- Settles O26: bit by bit for the three operations, and BIT by the flags of the product. -/
theorem logicalResults : Obligations.LogicalResults := by
  refine ⟨fun op r src σ => ?_, fun r src σ => ⟨_, exec_bitI r src σ, ?_, frame_accTest σ and8 r src⟩⟩
  · have result := accBinary_result σ (logicFn op) r src
    refine ⟨_, exec_logicI op r src σ, fun k _ => ?_, ?_, frame_accBinary σ _ r src⟩
    · rw [show acc r (accBinary (logicFn op) r src σ) = _ from congrArg Prod.fst result]
      exact getLsbD_logicFn _ _ _ _ _
    · exact of_accBinary_result (P := fun v cc => LogicFlags v σ.cc cc) result (logicFlags_logicFn _ _ _ _)
  · rw [accTest_cc]
    exact logicFlags_logic8 _ _

/-- Settles O27: the operand is the result, with its flags. -/
theorem loadByteResults : Obligations.LoadByteResults := by
  intro r src σ
  have result := accBinary_result σ ld8 r src
  refine ⟨_, exec_ldI r src σ, congrArg Prod.fst result, ?_, frame_accBinary σ _ r src⟩
  exact of_accBinary_result (P := fun v cc => LogicFlags v σ.cc cc) result (logicFlags_logic8 _ _)

/-! ### STA, STB (R188, R189) -/

theorem exec_stI (r : Acc) (a : Addr) (σ : State) : exec (stI r a) σ = .next (storeAcc r a σ) := by
  cases r <;> rfl

theorem acc_effAddr (r : Acc) (a : Addr) (σ : State) : acc r (effAddr a σ).2 = acc r σ := by
  cases r <;> simp

theorem undisturbed_effAddr (a : Addr) {σ : State} (u : Undisturbed σ) : Undisturbed (effAddr a σ).2 :=
  undisturbed_of_keeps (keeps_effAddr σ a) u

/-- Settles O28: the store is one write after the address is complete. -/
theorem storeByteResults : Obligations.StoreByteResults := by
  intro r a σ
  have flags : (storeAcc r a σ).cc = logic8 (acc r σ) σ.cc := by simp [storeAcc, acc_effAddr]
  refine ⟨_, exec_stI r a σ, ?_, ?_, (keeps_storeAcc σ r a).1, (keeps_storeAcc σ r a).2, fun ungranted => ⟨?_, ?_⟩, fun u wf => ?_⟩
  · rw [flags]; exact logicFlags_logic8 _ _
  · simp [KeepsRegs, storeAcc]
  · intro i other
    rw [List.mem_singleton] at other
    rw [storeAcc, peek_writeByte_other _ other _ (by simpa using ungranted)]
    simp [ungranted]
  · simp [storeAcc, ungranted, acc_effAddr]
  · have same := peek_writeByte_same (setCc (logic8 (acc r σ) σ.cc) (effAddr a σ).2) (effAddr a σ).1 (acc r σ)
      (undisturbed_effAddr a u) (by simpa [u.2] using wf)
    simpa [storeAcc, acc_effAddr] using same

/-! ### Read-modify-write on memory (R159) -/

/-- The second half of a read-modify-write: CC written, the cycle between, and the result to the byte read; `drawn` says whether a flag was drawn. -/
def writeBack (a : Addr) (drawn : Bool) (res : Byte × CC) (σ : State) : State :=
  writeByte (effAddr a σ).1 res.1 (vmaCycles 1 (setCc res.2 (doIf drawn countDraw (operand8 (.mem a) σ).2)))

theorem rmwMem_eq_writeBack (f : Byte → CC → Byte × CC) (a : Addr) (σ : State) :
    rmwMem f a σ = writeBack a false (f (operand8 (.mem a) σ).1 σ.cc) σ := by
  rw [← cc_operand8 σ (.mem a)]; rfl

theorem rmwMemUndef_eq_writeBack (f : Bool → Byte → CC → Byte × CC) (a : Addr) (σ : State) :
    rmwMemUndef f a σ = writeBack a true (f (Config.undefFlag σ.draws) (operand8 (.mem a) σ).1 σ.cc) σ := by
  rw [← cc_operand8 σ (.mem a), ← draws_operand8 σ (.mem a)]; rfl

/-- Each of the ten operations writes back a result that its rule gives (R148 to R158). -/
theorem exec_rmwI (op : RmwOp) (a : Addr) (σ : State) :
    ∃ (drawn : Bool) (res : Byte × CC), exec (rmwI op a) σ = .next (writeBack a drawn res σ) ∧
      IsRmw op (operand8 (.mem a) σ).1 res.1 σ.cc res.2 := by
  have whole : ∀ {f : Byte → CC → Byte × CC}, (∀ v cc, IsRmw op v (f v cc).1 cc (f v cc).2) →
      exec (rmwI op a) σ = .next (rmwMem f a σ) → ∃ (drawn : Bool) (res : Byte × CC),
        exec (rmwI op a) σ = .next (writeBack a drawn res σ) ∧ IsRmw op (operand8 (.mem a) σ).1 res.1 σ.cc res.2 :=
    fun spec runs => ⟨false, _, by rw [runs, rmwMem_eq_writeBack], spec _ _⟩
  have drawing : ∀ {f : Bool → Byte → CC → Byte × CC}, (∀ u v cc, IsRmw op v (f u v cc).1 cc (f u v cc).2) →
      exec (rmwI op a) σ = .next (rmwMemUndef f a σ) → ∃ (drawn : Bool) (res : Byte × CC),
        exec (rmwI op a) σ = .next (writeBack a drawn res σ) ∧ IsRmw op (operand8 (.mem a) σ).1 res.1 σ.cc res.2 :=
    fun spec runs => ⟨true, _, by rw [runs, rmwMemUndef_eq_writeBack], spec _ _ _⟩
  cases op with
  | neg => exact drawing isRmw_neg8 rfl
  | asr => exact drawing isRmw_asr8 rfl
  | asl => exact drawing isRmw_asl8 rfl
  | com => exact whole isRmw_com8 rfl
  | lsr => exact whole isRmw_lsr8 rfl
  | ror => exact whole isRmw_ror8 rfl
  | rol => exact whole isRmw_rol8 rfl
  | dec => exact whole isRmw_dec8 rfl
  | inc => exact whole isRmw_inc8 rfl
  | clr => exact whole isRmw_clr8 rfl

section WriteBack

variable (a : Addr) (drawn : Bool) (res : Byte × CC) (σ : State)

theorem cc_writeBack : (writeBack a drawn res σ).cc = res.2 := by simp [writeBack]

theorem keepsRegs_writeBack : KeepsRegs [] (addrDelta a) σ (writeBack a drawn res σ) := by
  cases drawn <;> simp [KeepsRegs, writeBack, src8Delta]

theorem keeps_writeBack : Keeps σ (writeBack a drawn res σ) :=
  ((((keeps_operand8 σ (.mem a)).trans (keeps_doIf _ drawn keeps_countDraw)).trans (keeps_setCc _ _)).trans
    (keeps_vmaCycles _ 1)).trans (keeps_writeByte _ _ _)

theorem keepsMemoryOutside_writeBack (ungranted : σ.cycles = none) :
    KeepsMemoryOutside [(effAddr a σ).1] σ (writeBack a drawn res σ) := by
  intro i other
  rw [List.mem_singleton] at other
  cases drawn <;> rw [writeBack, peek_writeByte_other _ other _ (by simp [ungranted])] <;> simp [ungranted]

theorem bus_writeBack (ungranted : σ.cycles = none) :
    (writeBack a drawn res σ).bus = (effAddr a σ).2.bus ++
      [{ write := false, ack := false, addr := (effAddr a σ).1, data := (operand8 (.mem a) σ).1 },
       { write := true, ack := false, addr := (effAddr a σ).1, data := res.1 }] := by
  cases drawn <;> simp [writeBack, ungranted, bus_operand8_mem]

theorem peek_writeBack (u : Undisturbed σ) (wf : σ.mem.wf = true) : peek (effAddr a σ).1 (writeBack a drawn res σ) = res.1 := by
  cases drawn <;> rw [writeBack, peek_writeByte_same _ _ _ ?_ (by simpa [u.2] using wf)] <;> simp [Undisturbed, u.1, u.2]

end WriteBack

/-- With plain memory everywhere a byte operand is what stands at the address (R140). -/
theorem operand8_mem_eq_peek (a : Addr) {σ : State} (u : Undisturbed σ) : (operand8 (.mem a) σ).1 = peek (effAddr a σ).1 σ := by
  simp [operand8, u.1, u.2]

/-- Settles O29: every operation is a read and a write back of the result that its rule gives. -/
theorem rmwMemoryResults : Obligations.RmwMemoryResults := by
  intro op a σ
  obtain ⟨drawn, res, runs, spec⟩ := exec_rmwI op a σ
  refine ⟨res.1, _, runs, ?_, keepsRegs_writeBack a drawn res σ, (keeps_writeBack a drawn res σ).1, (keeps_writeBack a drawn res σ).2,
    fun ungranted => ⟨keepsMemoryOutside_writeBack a drawn res σ ungranted, bus_writeBack a drawn res σ ungranted⟩,
    fun u wf => ⟨operand8_mem_eq_peek a u, peek_writeBack a drawn res σ u wf⟩⟩
  rw [cc_writeBack]; exact spec

/-- Settles O30: each operation by the shape it is and the rule of its result. -/
theorem rmwAccumulatorResults : Obligations.RmwAccumulatorResults := by
  intro op r σ
  have whole : ∀ {f : Byte → CC → Byte × CC}, (∀ v cc, IsRmw op v (f v cc).1 cc (f v cc).2) →
      exec (rmwAccI op r) σ = .next (rmwAcc f r σ) → ∃ τ : State, exec (rmwAccI op r) σ = .next τ ∧
        IsRmw op (acc r σ) (acc r τ) σ.cc τ.cc ∧ τ.bus = σ.bus ∧ Frame [accR r] noDelta σ τ := fun spec runs => by
    obtain ⟨result, bus, -⟩ := rmwAcc_spec _ op spec r σ _ rfl
    exact ⟨_, runs, result, bus, frame_rmwAcc σ _ r⟩
  have drawing : ∀ {f : Bool → Byte → CC → Byte × CC}, (∀ u v cc, IsRmw op v (f u v cc).1 cc (f u v cc).2) →
      exec (rmwAccI op r) σ = .next (rmwAccUndef f r σ) → ∃ τ : State, exec (rmwAccI op r) σ = .next τ ∧
        IsRmw op (acc r σ) (acc r τ) σ.cc τ.cc ∧ τ.bus = σ.bus ∧ Frame [accR r] noDelta σ τ := fun spec runs => by
    obtain ⟨result, bus, -⟩ := rmwAccUndef_spec _ op spec r σ _ rfl
    exact ⟨_, runs, result, bus, frame_rmwAccUndef σ _ r⟩
  cases op with
  | neg => exact drawing isRmw_neg8 (by cases r <;> rfl)
  | asr => exact drawing isRmw_asr8 (by cases r <;> rfl)
  | asl => exact drawing isRmw_asl8 (by cases r <;> rfl)
  | com => exact whole isRmw_com8 (by cases r <;> rfl)
  | lsr => exact whole isRmw_lsr8 (by cases r <;> rfl)
  | ror => exact whole isRmw_ror8 (by cases r <;> rfl)
  | rol => exact whole isRmw_rol8 (by cases r <;> rfl)
  | dec => exact whole isRmw_dec8 (by cases r <;> rfl)
  | inc => exact whole isRmw_inc8 (by cases r <;> rfl)
  | clr => exact whole isRmw_clr8 (by cases r <;> rfl)

/-! ### DAA (R204) -/

theorem exec_daa (σ : State) : exec .daa σ = .next (rmwAccUndef daa8 .a σ) := rfl

theorem rmwAccUndef_daa_result (σ : State) :
    (rmwAccUndef daa8 .a σ).a = (daa8 (Config.undefFlag σ.draws) σ.a σ.cc).1 ∧
    (rmwAccUndef daa8 .a σ).cc = (daa8 (Config.undefFlag σ.draws) σ.a σ.cc).2 := ⟨rfl, rfl⟩

/-- Settles O32: DAA is `daa8` on A. -/
theorem decimalAdjustResult : Obligations.DecimalAdjustResult := by
  intro σ
  obtain ⟨value, flags⟩ := rmwAccUndef_daa_result σ
  refine ⟨_, exec_daa σ, ?_, ?_, ?_, ?_, ?_, frame_rmwAccUndef σ daa8 .a⟩
  · rw [value]; exact toNat_daa8 _ _ _
  · rw [value, flags]; exact nz_nz8 _ _
  · rw [flags]; exact c_daa8 _ _ _
  · rw [flags]; rfl
  · rw [flags]; exact ⟨rfl, rfl, rfl⟩

/-- What a half carry and a low digit above 9 tell together: the two low digits carry into the tens (R204). -/
theorem low_correction_iff {al ah ml mh k : Nat} (digits : al ≤ 9 ∧ ah ≤ 9 ∧ ml ≤ 9 ∧ mh ≤ 9) (carry : k ≤ 1) :
    (15 < al + ml + k ∨ 9 < (16 * ah + al + (16 * mh + ml) + k) % 256 % 16) ↔ 10 ≤ al + ml + k := by
  omega

/-- The same of the high digits and the hundred. -/
theorem high_correction_iff {al ah ml mh k s : Nat} (digits : al ≤ 9 ∧ ah ≤ 9 ∧ ml ≤ 9 ∧ mh ≤ 9) (carry : k ≤ 1)
    (sum : s = (16 * ah + al + (16 * mh + ml) + k) % 256) :
    (255 < 16 * ah + al + (16 * mh + ml) + k ∨ 9 < s / 16 ∨ (8 < s / 16 ∧ 9 < s % 16)) ↔
      100 ≤ 10 * ah + al + (10 * mh + ml) + k := by
  have rest : s + 256 * ((16 * ah + al + (16 * mh + ml) + k) / 256) = 16 * ah + al + (16 * mh + ml) + k := by omega
  have small : (16 * ah + al + (16 * mh + ml) + k) / 256 ≤ 1 := by omega
  omega

/-- The corrected sum of two packed decimal bytes: its two decimal digits in the byte, and a hundred where it passes 255 (R204, D28). -/
theorem digits_of_correction {al ah ml mh k t : Nat} (digits : al ≤ 9 ∧ ah ≤ 9 ∧ ml ≤ 9 ∧ mh ≤ 9) (carry : k ≤ 1)
    (corrected : t = (16 * ah + al + (16 * mh + ml) + k) % 256 + ((if 10 ≤ al + ml + k then 6 else 0) +
      (if 100 ≤ 10 * ah + al + (10 * mh + ml) + k then 96 else 0))) :
    ∃ high low : Nat, high ≤ 9 ∧ low ≤ 9 ∧ t % 256 = 16 * high + low ∧
      (10 * ah + al + (10 * mh + ml) + k) % 100 = 10 * high + low ∧
      (255 < 16 * ah + al + (16 * mh + ml) + k ∨ 255 < t ↔ 100 ≤ 10 * ah + al + (10 * mh + ml) + k) := by
  by_cases tens : 10 ≤ al + ml + k <;> by_cases hundred : 100 ≤ 10 * ah + al + (10 * mh + ml) + k
  · rw [if_pos tens, if_pos hundred] at corrected
    exact ⟨ah + mh + 1 - 10, al + ml + k - 10, by omega, by omega, by omega, by omega, by omega⟩
  · rw [if_pos tens, if_neg hundred] at corrected
    exact ⟨ah + mh + 1, al + ml + k - 10, by omega, by omega, by omega, by omega, by omega⟩
  · rw [if_neg tens, if_pos hundred] at corrected
    exact ⟨ah + mh - 10, al + ml + k, by omega, by omega, by omega, by omega, by omega⟩
  · rw [if_neg tens, if_neg hundred] at corrected
    exact ⟨ah + mh, al + ml + k, by omega, by omega, by omega, by omega, by omega⟩

/-- A byte is its two hexadecimal digits. -/
theorem byte_eq_digits (v : Byte) : v.toNat = 16 * (v.toNat / 16) + v.toNat % 16 := by omega

/-- Settles O33: the flags H and C of the addition are what DAA's correction goes by. -/
theorem decimalAdditionIsDecimal : Obligations.DecimalAdditionIsDecimal := by
  intro σ src na nm withCarry ⟨lowA, highA, valueA⟩ ⟨lowM, highM, valueM⟩
  obtain ⟨τ, adds, ⟨sum, -, half, carry, -⟩, -⟩ := addResults .a withCarry src σ
  obtain ⟨υ, adjusts, adjusted, -, carried, -⟩ := decimalAdjustResult τ
  have digits := And.intro lowA (And.intro highA (And.intro lowM highM))
  have bit := Bool.toNat_le (withCarry && σ.cc.c)
  rw [acc_a, acc_a, byte_eq_digits σ.a, byte_eq_digits (operand8 src σ).1] at sum
  rw [acc_a, byte_eq_digits σ.a, byte_eq_digits (operand8 src σ).1] at carry
  rw [acc_a] at half
  have correction : daaCorrection τ.a τ.cc =
      (if 10 ≤ σ.a.toNat % 16 + (operand8 src σ).1.toNat % 16 + (withCarry && σ.cc.c).toNat then 6 else 0) +
      (if 100 ≤ 10 * (σ.a.toNat / 16) + σ.a.toNat % 16 + (10 * ((operand8 src σ).1.toNat / 16) + (operand8 src σ).1.toNat % 16) +
        (withCarry && σ.cc.c).toNat then 96 else 0) := by
    simp only [daaCorrection, half, carry, high_correction_iff digits bit sum]
    simp only [sum, low_correction_iff digits bit]
  obtain ⟨high, low, highBound, lowBound, value, decimal, hundred⟩ := digits_of_correction digits bit rfl
  rw [correction, sum] at adjusted carried
  have packed : υ.a.toNat = 16 * high + low := adjusted.trans value
  refine ⟨τ, υ, adds, adjusts, ⟨by omega, by omega, ?_⟩, ?_⟩
  · rw [valueA, valueM, decimal, packed]; omega
  · rw [carried, carry, valueA, valueM]; exact hundred

/-! ### MUL, SEX, ABX (R214, R230, R255) -/

theorem msb_lo (w : Word) : (lo w).msb = w.getLsbD 7 := by simp [lo, BitVec.msb_eq_getLsbD_last]

/-- The high byte that SEX makes gives the signed value of the low one. -/
theorem toInt_join_sign (b : Byte) : (join (if b.msb then 0xFF else 0x00) b).toInt = b.toInt := by
  have value := toNat_join (if b.msb then 0xFF else 0x00) b
  have bound := b.isLt
  rw [word_toInt, byte_toInt, value]
  simp only [byte_msb_iff]
  split <;> rename_i h <;> simp <;> omega

theorem nzWord_join_sign (b : Byte) (cc : CC) : NzWord (join (if b.msb then 0xFF else 0x00) b) { cc with n := b.msb, z := b == 0 } := by
  have value := toNat_join (if b.msb then 0xFF else 0x00) b
  have bound := b.isLt
  have sign := byte_msb_iff b
  refine ⟨?_, ?_⟩
  · rw [value]; split <;> rename_i h <;> simp_all <;> omega
  · rw [value, beq_iff_eq, ← BitVec.toNat_inj]
    split <;> rename_i h <;> simp_all
    omega

/-- Settles O34: MUL by its product, SEX by the sign byte it makes, ABX by the unsigned extension of B. -/
theorem multiplyExtendAndAbxResults : Obligations.MultiplyExtendAndAbxResults := by
  intro σ
  refine ⟨⟨setD (mul8 σ.a σ.b σ.cc).1 (setCc (mul8 σ.a σ.b σ.cc).2 σ), rfl, ?_, ?_, ?_, rfl, rfl, rfl, ⟨rfl, rfl, rfl⟩, ?_⟩,
    ⟨setAcc .a (sex8 σ.b σ.cc).1 (setCc (sex8 σ.b σ.cc).2 σ), rfl, ?_, ?_, rfl, rfl, rfl, ⟨rfl, rfl, rfl⟩, ?_⟩,
    ⟨setPtr .x (σ.x + zext8 σ.b) σ, rfl, ?_, ⟨?_, rfl⟩, ?_⟩⟩
  · rw [dReg_setD]; exact toNat_mul8 _ _ _
  · exact z_mul8 _ _ _
  · rw [setD_b, ← byte_msb_iff, msb_lo]; rfl
  · exact frame_of_reads (by simp [KeepsRegs, noDelta]) (makes_of_eq (by simp)) ((keeps_setCc σ _).trans (keeps_setD _ _))
  · exact toInt_join_sign σ.b
  · exact nzWord_join_sign σ.b σ.cc
  · exact frame_of_reads (by simp [KeepsRegs, noDelta]) (makes_of_eq (by simp)) ((keeps_setCc σ _).trans (keeps_setAcc _ _ _))
  · have bound := σ.b.isLt
    simp [zext8, BitVec.toNat_add]
  · simp [KeepsRegs, noDelta]
  · exact ⟨(makes_of_eq (by simp)).leavesMemory, (keeps_setPtr σ _ _).1, (keeps_setPtr σ _ _).2⟩

end Sys2Proof.Proofs
end

section
/-! PROOFS. Effective addresses and operands (31_addressing_modes.md), over the integers and modulo 2^16. -/

namespace Sys2Proof.Proofs

open Sys2Proof.Machine

/-! ### Sums modulo 2^16 -/

/-- A sum of addresses with a two's complement offset wraps (D21). -/
theorem toNat_add_toInt (w v : Word) : ((w + v).toNat : Int) = (w.toNat + v.toInt) % 65536 := by
  have wrap := BitVec.toNat_add w v
  have bound := v.isLt
  rw [word_toInt]
  split <;> omega

theorem toInt_sext5 (n : BitVec 5) : (sext5 n).toInt = n.toInt := BitVec.toInt_signExtend_of_le (by decide)

theorem toInt_sext8 (n : Byte) : (sext8 n).toInt = n.toInt := BitVec.toInt_signExtend_of_le (by decide)

theorem toNat_add_sext5 (w : Word) (n : BitVec 5) : ((w + sext5 n).toNat : Int) = (w.toNat + n.toInt) % 65536 := by
  rw [toNat_add_toInt, toInt_sext5]

theorem toNat_add_sext8 (w : Word) (n : Byte) : ((w + sext8 n).toNat : Int) = (w.toNat + n.toInt) % 65536 := by
  rw [toNat_add_toInt, toInt_sext8]

theorem toNat_add_dReg (w : Word) (σ : State) :
    (w + dReg σ).toNat = (w.toNat + (256 * σ.a.toNat + σ.b.toNat)) % 65536 := by
  rw [BitVec.toNat_add, dReg, toNat_join]

/-- Settles O17: each offset form is one sum. -/
theorem offsetAddresses : Obligations.OffsetAddresses := fun _ σ =>
  ⟨rfl, fun n => ⟨toNat_add_sext5 _ n, rfl⟩, fun n => ⟨toNat_add_sext8 _ n, rfl⟩, fun n => ⟨toNat_add_toInt _ n, rfl⟩,
    ⟨toNat_add_sext8 _ σ.a, rfl⟩, ⟨toNat_add_sext8 _ σ.b, rfl⟩, ⟨toNat_add_dReg _ σ, rfl⟩⟩

/-! ### Auto increment and decrement (R112 to R115) -/

/-- Moving one pointer register leaves the others, and moving it back undoes it. -/
theorem setPtr_frame (r : Ptr) (w : Word) (σ : State) :
    (∀ q : Ptr, q ≠ r → ptr q (setPtr r w σ) = ptr q σ) ∧ setPtr r (ptr r σ) (setPtr r w σ) = σ := by
  refine ⟨fun q other => by rw [ptr_setPtr, if_neg other], ?_⟩
  cases r <;> rfl

theorem toNat_sub_word (w v : Word) : ((w - v).toNat : Int) = ((w.toNat : Int) - v.toNat) % 65536 := by
  have wrap := BitVec.toNat_sub w v
  have bound := v.isLt
  omega

/-- Settles O18: each form is one move of its pointer register. -/
theorem autoUpdateAddresses : Obligations.AutoUpdateAddresses := by
  have up : ∀ (r : Ptr) (v : Word) (σ : State), ptr r σ = ptr r σ ∧
      (ptr r (setPtr r (ptr r σ + v) σ)).toNat = ((ptr r σ).toNat + v.toNat) % 65536 ∧
      (∀ q : Ptr, q ≠ r → ptr q (setPtr r (ptr r σ + v) σ) = ptr q σ) ∧
      setPtr r (ptr r σ) (setPtr r (ptr r σ + v) σ) = σ := fun r v σ => by
    refine ⟨rfl, ?_, setPtr_frame r _ σ⟩
    rw [ptr_setPtr, if_pos rfl, BitVec.toNat_add]
  have down : ∀ (r : Ptr) (v : Word) (σ : State), ((ptr r σ - v).toNat : Int) = ((ptr r σ).toNat - v.toNat) % 65536 ∧
      ptr r (setPtr r (ptr r σ - v) σ) = ptr r σ - v ∧
      (∀ q : Ptr, q ≠ r → ptr q (setPtr r (ptr r σ - v) σ) = ptr q σ) ∧
      setPtr r (ptr r σ) (setPtr r (ptr r σ - v) σ) = σ := fun r v σ => by
    refine ⟨toNat_sub_word _ _, ?_, setPtr_frame r _ σ⟩
    rw [ptr_setPtr, if_pos rfl]
  refine fun r σ => ⟨fun i n form => ?_, fun i n form => ?_⟩
  · obtain ⟨rfl, rfl⟩ | ⟨rfl, rfl⟩ := form
    · exact up r 1 σ
    · exact up r 2 σ
  · obtain ⟨rfl, rfl⟩ | ⟨rfl, rfl⟩ := form
    · exact down r 1 σ
    · exact down r 2 σ

/-! ### Direct, PC-relative and indirect forms (R98, R99, R116 to R120) -/

/-- The address of each form that may be indirect, over the integers. -/
theorem toNat_baseAddr (m : IdxBase) (σ : State) : ((baseAddr m σ).1.toNat : Int) = baseInt m σ % 65536 := by
  have inRange : ∀ w : Word, (w.toNat : Int) = (w.toNat : Int) % 65536 := fun w => by have := w.isLt; omega
  have add : ∀ w v : Word, ((w + v).toNat : Int) = ((w.toNat : Int) + v.toNat) % 65536 := fun w v => by
    rw [BitVec.toNat_add]; omega
  cases m with
  | zero r => exact inRange _
  | off8 r n => exact toNat_add_sext8 _ n
  | off16 r n => exact add _ n
  | accA r => exact toNat_add_sext8 _ σ.a
  | accB r => exact toNat_add_sext8 _ σ.b
  | accD r =>
    have := toNat_add_dReg (ptr r σ) σ
    simp only [baseAddr, baseInt]; omega
  | inc2 r => exact inRange _
  | dec2 r => exact toNat_sub_word _ 2
  | pcr8 n => exact toNat_add_sext8 _ n
  | pcr16 n => exact add _ n

theorem toNat_readWord (a : Word) {σ : State} (u : Undisturbed σ) :
    (readWord a σ).1.toNat = 256 * (peek a σ).toNat + (peek (a + 1) σ).toNat := by
  rw [readWord_fst σ a u.1 u.2, peekWord, toNat_join]

theorem undisturbed_baseAddr (m : IdxBase) {σ : State} (u : Undisturbed σ) : Undisturbed (baseAddr m σ).2 :=
  undisturbed_of_keeps (keeps_baseAddr σ m) u

/-- Settles O19: direct by `join`, the rest by `baseAddr` over the integers and the word read there. -/
theorem directRelativeAndIndirectAddresses : Obligations.DirectRelativeAndIndirectAddresses := by
  refine fun σ => ⟨fun n => ⟨toNat_join _ _, rfl⟩, fun n => rfl, fun n => ⟨toNat_add_sext8 _ n, rfl⟩,
    fun n => ⟨toNat_add_toInt _ n, rfl⟩, fun m p address => ⟨fun u => ?_, fun q => ptr_idxAddr σ (.indirect m) q⟩,
    fun n u => toNat_readWord n u⟩
  have base : (baseAddr m σ).1 = p := BitVec.eq_of_toNat_eq (by have := toNat_baseAddr m σ; omega)
  have word := toNat_readWord p (undisturbed_baseAddr m u)
  rw [peek_baseAddr, peek_baseAddr] at word
  rw [idxAddr, base]; exact word

/-! ### Operands (R140) -/

/-- Settles O20: an operand is an immediate or the read at the effective address. -/
theorem operandValues : Obligations.OperandValues := by
  refine fun σ => ⟨fun _ => rfl, fun _ => rfl, fun _ => rfl, fun u => ⟨fun a => operand8_mem_eq_peek a u, fun a => ?_⟩⟩
  have word := toNat_readWord (effAddr a σ).1 (undisturbed_effAddr a u)
  rw [peek_effAddr σ a _ u.2, peek_effAddr σ a _ u.2] at word
  exact word

end Sys2Proof.Proofs
end

section
/-! PROOFS. The 16-bit instructions of 43_16bit_accumulator_memory.md and 44_index_stack.md: results, flags and frames. -/

namespace Sys2Proof.Proofs

open Sys2Proof.Machine

/-! ### Registers of one name -/

/-- The register of R81 that a register of the 16-bit instructions is. -/
def reg16Of : WordReg → Reg16
  | .d => .d
  | .x => .x
  | .y => .y
  | .u => .u
  | .s => .s

theorem wordReg_eq_readReg16 (r : WordReg) (σ : State) : wordReg r σ = readReg16 (reg16Of r) σ := by
  cases r <;> rfl

theorem readReg16_countDraw (r : Reg16) (σ : State) : readReg16 r (countDraw σ) = readReg16 r σ := by
  cases r <;> rfl

theorem readReg16_setCc (r : Reg16) (cc : CC) (σ : State) : readReg16 r (setCc cc σ) = readReg16 r σ := by
  cases r <;> rfl

theorem readReg16_armNmiIf (r : Reg16) (c : Bool) (σ : State) : readReg16 r (armNmiIf c σ) = readReg16 r σ := by
  cases r <;> rfl

theorem readReg8_armNmiIf (r : Reg8) (c : Bool) (σ : State) : readReg8 r (armNmiIf c σ) = readReg8 r σ := by
  cases r <;> rfl

theorem readReg16_writeReg16_same (r : Reg16) (w : Word) (σ : State) : readReg16 r (writeReg16 r w σ) = w := by
  cases r <;> simp [readReg16, writeReg16]

theorem readReg16_writeReg16_other {r t : Reg16} (h : r ≠ t) (w : Word) (σ : State) :
    readReg16 r (writeReg16 t w σ) = readReg16 r σ := by
  cases r <;> cases t <;> simp [readReg16, writeReg16] at h ⊢

theorem readReg8_writeReg8_same (r : Reg8) (v : Byte) (σ : State) : readReg8 r (writeReg8 r v σ) = v := by
  cases r <;> simp [readReg8, writeReg8]

theorem readReg8_writeReg8_other {r t : Reg8} (h : r ≠ t) (v : Byte) (σ : State) :
    readReg8 r (writeReg8 t v σ) = readReg8 r σ := by
  cases r <;> cases t <;> simp [readReg8, writeReg8] at h ⊢

theorem armNmiIf_false (σ : State) : armNmiIf false σ = σ := by simp [armNmiIf]

theorem cc_writeReg16 (r : Reg16) (w : Word) (σ : State) : (writeReg16 r w σ).cc = σ.cc := by
  cases r <;> rfl

/-! ### ADDD, SUBD, CMP of words (R144, R145) -/

theorem dReg_operand16 (src : Src16) (σ : State) : dReg (operand16 src σ).2 = dReg σ := by simp [dReg]

/-- Settles O35: the two operations on D and the operand, with their flags. -/
theorem addSubDResults : Obligations.AddSubDResults := by
  refine fun src σ => ⟨⟨_, rfl, ?_, frame_of_reads (by simp [KeepsRegs]) ?_ ?_⟩, ⟨_, rfl, ?_, frame_of_reads (by simp [KeepsRegs]) ?_ ?_⟩⟩
  · simpa [dReg_operand16] using isWordSum_add16 (dReg σ) (operand16 src σ).1 σ.cc
  · exact (makes_operand16 src σ).andThen (by simp)
  · exact ((keeps_operand16 σ src).trans (keeps_setCc _ _)).trans (keeps_setD _ _)
  · simpa [dReg_operand16] using isWordDifference_sub16 (drawFlag (operand16 src σ).2).1 (dReg σ) (operand16 src σ).1 σ.cc
  · exact (makes_operand16 src σ).andThen (by simp)
  · exact (((keeps_operand16 σ src).trans (keeps_countDraw _)).trans (keeps_setCc _ _)).trans (keeps_setD _ _)

theorem exec_cmpWordI (r : WordReg) (src : Src16) (σ : State) :
    exec (cmpWordI r src) σ = .next (compare16 (reg16Of r) src σ) := by
  cases r <;> rfl

/-- The flags of a compare of words, from the register as the addressing mode leaves it (R120, R145). -/
theorem isWordDifference_compare16 (r : WordReg) (src : Src16) (σ : State) :
    IsWordDifference (wordReg r (operand16 src σ).2) (operand16 src σ).1
      (wordReg r (operand16 src σ).2 - (operand16 src σ).1) σ.cc (compare16 (reg16Of r) src σ).cc := by
  have spec := isWordDifference_sub16 (drawFlag (operand16 src σ).2).1 (wordReg r (operand16 src σ).2) (operand16 src σ).1 σ.cc
  rw [sub16_fst] at spec
  simpa [compare16, readReg16_countDraw, wordReg_eq_readReg16] using spec

theorem frame_compare16 (r : Reg16) (src : Src16) (σ : State) : Frame [] (src16Delta src) σ (compare16 r src σ) :=
  frame_of_reads (by simp [KeepsRegs, compare16]) (makes_compare16 r src σ) (keeps_compare16 σ r src)

/-- Settles O36: every compare of words is `compare16`. -/
theorem compareWordResults : Obligations.CompareWordResults := fun r src σ =>
  ⟨_, exec_cmpWordI r src σ, isWordDifference_compare16 r src σ, frame_compare16 (reg16Of r) src σ⟩

/-! ### Loads and stores of words (R147) -/

theorem exec_ldWordI (r : WordReg) (src : Src16) (σ : State) :
    exec (ldWordI r src) σ = .next (armNmiIf (r == .s) (load16 (reg16Of r) src σ)) := by
  cases r with
  | s => rfl
  | _ => exact (congrArg Host.Outcome.next (armNmiIf_false _)).symm

theorem frame_load16 (r : WordReg) (src : Src16) (σ : State) :
    Frame (wordRegParts r) (src16Delta src) σ (load16 (reg16Of r) src σ) := by
  refine frame_of_reads ?_ (makes_load16 _ src σ) (keeps_load16 σ _ src)
  cases r <;> simp [KeepsRegs, load16, writeReg16, reg16Of, wordRegParts]

/-- Settles O37: every load of a word is `load16`, and LDS arms NMI after it. -/
theorem loadWordResults : Obligations.LoadWordResults := by
  intro r src σ
  obtain ⟨regs, memory, ⟨armed, pending⟩, control⟩ := frame_load16 r src σ
  have value : wordReg r (armNmiIf (r == .s) (load16 (reg16Of r) src σ)) = (operand16 src σ).1 := by
    rw [wordReg_eq_readReg16, readReg16_armNmiIf, load16, readReg16_writeReg16_same]
  have flags : (armNmiIf (r == .s) (load16 (reg16Of r) src σ)).cc = logic16 (operand16 src σ).1 σ.cc := by
    simp [load16, cc_writeReg16]
  refine ⟨_, exec_ldWordI r src σ, value, ?_, regs, memory, control, pending, congrArg (· || r == .s) armed⟩
  rw [value, flags]; exact logicWordFlags_logic16 _ _

theorem exec_stWordI (r : WordReg) (a : Addr) (σ : State) : exec (stWordI r a) σ = .next (store16 (reg16Of r) a σ) := by
  cases r <;> rfl

theorem ne_add_one (a : Word) : a ≠ a + 1 := by bv_omega

/-- A word written: high byte at the address, low byte at the next. -/
theorem peek_writeWord (a w : Word) {σ : State} (u : Undisturbed σ) (wf : σ.mem.wf = true) :
    peek a (writeWord a w σ) = hi w ∧ peek (a + 1) (writeWord a w σ) = lo w := by
  have u' : Undisturbed (writeByte a (hi w) σ) := undisturbed_of_keeps (keeps_writeByte σ a _) u
  have wf' : (writeByte a (hi w) σ).mem.wf = true := (makes_writeByte a (hi w) σ).follows.wf wf
  rw [writeWord, peek_writeByte_same _ _ _ u' wf', peek_writeByte_other _ (ne_add_one a) _ u'.2, peek_writeByte_same _ _ _ u wf]
  exact ⟨rfl, rfl⟩

theorem keepsMemoryOutside_writeWord (a w : Word) {σ : State} (ungranted : σ.cycles = none) :
    KeepsMemoryOutside [a, a + 1] σ (writeWord a w σ) := by
  intro i other
  simp only [List.mem_cons, List.not_mem_nil, or_false, not_or] at other
  rw [writeWord, peek_writeByte_other _ other.2 _ (by simpa using ungranted), peek_writeByte_other _ other.1 _ ungranted]

/-- Settles O38: the store is one write of a word after the address is complete. -/
theorem storeWordResults : Obligations.StoreWordResults := by
  intro r a σ ea w
  have stored : store16 (reg16Of r) a σ = writeWord ea w (setCc (logic16 w σ.cc) (effAddr a σ).2) := by
    simp only [store16, ← wordReg_eq_readReg16, cc_effAddr]; rfl
  have keeps := keeps_store16 σ (reg16Of r) a
  rw [stored] at keeps
  refine ⟨_, (exec_stWordI r a σ).trans (congrArg _ stored), ?_, ?_, keeps.1, keeps.2, fun ungranted => ⟨?_, ?_⟩, fun u wf => ?_⟩
  · simpa [writeWord] using logicWordFlags_logic16 w σ.cc
  · simp [KeepsRegs, writeWord]
  · intro i other
    rw [keepsMemoryOutside_writeWord ea w (by simpa using ungranted) i other]
    simp [ungranted]
  · simp [writeWord, ungranted]
  · obtain ⟨high, low⟩ := peek_writeWord ea w (σ := setCc (logic16 w σ.cc) (effAddr a σ).2) (undisturbed_effAddr a u)
      (by simpa [u.2] using wf)
    rw [high, low]
    exact ⟨toNat_hi w, toNat_lo w⟩

/-- A pointer register that no result goes to moves as the addressing mode says. -/
theorem ptr_of_keepsRegs {d : Ptr → Word} {σ τ : State} (h : KeepsRegs [] d σ τ) (r : Ptr) : ptr r τ = ptr r σ + d r := by
  obtain ⟨-, -, -, x, y, u, s, -⟩ := h
  cases r with
  | x => exact x (by simp)
  | y => exact y (by simp)
  | u => exact u (by simp)
  | s => exact s (by simp)

theorem wordReg_ptrWord (r : Ptr) (σ : State) : wordReg (ptrWord r) σ = ptr r σ := by
  cases r <;> rfl

/-- A store of a pointer register in an indexed form that updates it stores the updated value. -/
theorem exec_store_updated (r : Ptr) (i : Idx) {σ : State} (u : Undisturbed σ) (wf : σ.mem.wf = true) :
    ∃ τ : State, exec (stWordI (ptrWord r) (.indexed i)) σ = .next τ ∧
      peekWord (idxAddr i σ).1 τ = ptr r σ + idxDelta i r ∧ ptr r τ = ptr r σ + idxDelta i r := by
  obtain ⟨τ, runs, -, regs, -, -, -, holds⟩ := storeWordResults (ptrWord r) (.indexed i) σ
  obtain ⟨high, low⟩ := holds u wf
  refine ⟨τ, runs, ?_, ptr_of_keepsRegs regs r⟩
  rw [wordReg_ptrWord, ptr_effAddr] at high low
  apply BitVec.eq_of_toNat_eq
  rw [peekWord, toNat_join]
  exact (congrArg₂ (fun h l => 256 * h + l) high low).trans (Nat.div_add_mod _ 256)

/-- Settles O21: each of the four forms by its address and its update. -/
theorem pointerStoredAfterUpdate : Obligations.PointerStoredAfterUpdate := by
  have up : ∀ {r : Ptr} {i : Idx} {n : Word}, ((i = .inc1 r ∧ n = 1) ∨ (i = .plain (.inc2 r) ∧ n = 2)) → ∀ {σ : State},
      Undisturbed σ → σ.mem.wf = true → ∃ τ : State, exec (stWordI (ptrWord r) (.indexed i)) σ = .next τ ∧
        peekWord (ptr r σ) τ = ptr r σ + n ∧ ptr r τ = ptr r σ + n := fun {r i n} form {σ} u wf => by
    obtain ⟨address, update⟩ := idxAddr_increment form σ
    simpa only [address, update] using exec_store_updated r i u wf
  have down : ∀ {r : Ptr} {i : Idx} {n : Word}, ((i = .dec1 r ∧ n = 1) ∨ (i = .plain (.dec2 r) ∧ n = 2)) → ∀ {σ : State},
      Undisturbed σ → σ.mem.wf = true → ∃ τ : State, exec (stWordI (ptrWord r) (.indexed i)) σ = .next τ ∧
        peekWord (ptr r σ - n) τ = ptr r σ - n ∧ ptr r τ = ptr r σ - n := fun {r i n} form {σ} u wf => by
    obtain ⟨address, update⟩ := idxAddr_decrement form σ
    simpa only [address, update, ← BitVec.sub_eq_add_neg] using exec_store_updated r i u wf
  intro r σ u wf
  exact ⟨up (.inr ⟨rfl, rfl⟩) u wf, up (.inl ⟨rfl, rfl⟩) u wf, down (.inr ⟨rfl, rfl⟩) u wf, down (.inl ⟨rfl, rfl⟩) u wf⟩

/-! ### LEA (R238 to R241) -/

/-- The CC that LEA leaves: Z from the address by LEAX and LEAY alone (D26). -/
def leaCc (r : Ptr) (e : Word) (cc : CC) : CC :=
  match r with
  | .x => { cc with z := e == 0 }
  | .y => { cc with z := e == 0 }
  | .u => cc
  | .s => cc

/-- What LEA does but for the arming of NMI. -/
def leaState (r : Ptr) (i : Idx) (σ : State) : State :=
  setPtr r (idxAddr i σ).1 (setCc (leaCc r (idxAddr i σ).1 σ.cc) (idxAddr i σ).2)

theorem exec_leaI (r : Ptr) (i : Idx) (σ : State) :
    exec (leaI r i) σ = .next (armNmiIf (Config.leasArmsNmi && r == .s) (leaState r i σ)) := by
  have kept : setCc σ.cc (idxAddr i σ).2 = (idxAddr i σ).2 := by rw [← cc_idxAddr σ i]; rfl
  have plain : ∀ τ : State, armNmiIf (Config.leasArmsNmi && false) τ = τ := fun τ => by rw [Bool.and_false, armNmiIf_false]
  have arming : armNmiIf (Config.leasArmsNmi && true) = armNmiIf Config.leasArmsNmi := by rw [Bool.and_true]
  cases r with
  | x => exact congrArg Host.Outcome.next (Eq.trans (by simp [leaState, leaCc]) (plain _).symm)
  | y => exact congrArg Host.Outcome.next (Eq.trans (by simp [leaState, leaCc]) (plain _).symm)
  | u => exact congrArg Host.Outcome.next (Eq.trans (by simp only [leaState, leaCc, kept]) (plain _).symm)
  | s => exact congrArg Host.Outcome.next (by simp only [leaState, leaCc, kept]; exact congrFun arming.symm _)

theorem frame_leaState (r : Ptr) (i : Idx) (σ : State) : Frame [ptrR r] (idxDelta i) σ (leaState r i σ) := by
  refine frame_of_reads ?_ ((makes_idxAddr i σ).andThen (by simp [leaState]))
    (((keeps_idxAddr σ i).trans (keeps_setCc _ _)).trans (keeps_setPtr _ _ _))
  cases r <;> simp [KeepsRegs, leaState, ptrR]

/-- Settles O39: LEA by the state it leaves, and the arming apart. -/
theorem leaResults : Obligations.LeaResults := by
  intro r i σ
  obtain ⟨regs, memory, ⟨armed, pending⟩, control⟩ := frame_leaState r i σ
  have flags : (leaState r i σ).cc = leaCc r (idxAddr i σ).1 σ.cc := by simp [leaState]
  refine ⟨_, exec_leaI r i σ, by simp [leaState], fun index => ⟨?_, ?_⟩, fun stack => ?_, regs, memory, control, pending, fun other => ?_⟩
  · rw [armNmiIf_cc, flags]
    obtain rfl | rfl := index <;> simp [leaCc, BitVec.toNat_eq]
  · rw [armNmiIf_cc, flags]
    obtain rfl | rfl := index <;> rfl
  · rw [armNmiIf_cc, flags]
    obtain rfl | rfl := stack <;> rfl
  · have never : (r == Ptr.s) = false := beq_eq_false_iff_ne.mpr other
    simp [never, armed]

/-! ### TFR and EXG (R237, R254) -/

/-- Registers kept by two operations that move no pointer register. -/
theorem KeepsRegs.trans_noDelta {ds es : List Reg} {σ τ υ : State} (h : KeepsRegs ds noDelta σ τ) (k : KeepsRegs es noDelta τ υ) :
    KeepsRegs (es ++ ds) noDelta σ υ := by
  obtain ⟨a, b, dp, x, y, u, s, pc⟩ := h
  obtain ⟨a', b', dp', x', y', u', s', pc'⟩ := k
  simp only [noDelta, BitVec.ofNat_eq_ofNat, BitVec.add_zero] at x y u s x' y' u' s'
  simp only [KeepsRegs, noDelta, BitVec.ofNat_eq_ofNat, BitVec.add_zero, List.mem_append, not_or]
  exact ⟨fun m => (a' m.1).trans (a m.2), fun m => (b' m.1).trans (b m.2), fun m => (dp' m.1).trans (dp m.2),
    fun m => (x' m.1).trans (x m.2), fun m => (y' m.1).trans (y m.2), fun m => (u' m.1).trans (u m.2),
    fun m => (s' m.1).trans (s m.2), fun m => (pc' m.1).trans (pc m.2)⟩

theorem keepsRegs_writeReg16 (r : Reg16) (w : Word) (σ : State) : KeepsRegs (regParts (.r16 r)) noDelta σ (writeReg16 r w σ) := by
  cases r <;> simp [KeepsRegs, writeReg16, regParts, noDelta]

theorem keepsRegs_writeReg8 (r : Reg8) (v : Byte) (σ : State) : KeepsRegs (regParts (.r8 r)) noDelta σ (writeReg8 r v σ) := by
  cases r <;> simp [KeepsRegs, writeReg8, regParts, noDelta]

theorem cc_writeReg8 {r : Reg8} (h : r ≠ .cc) (v : Byte) (σ : State) : (writeReg8 r v σ).cc = σ.cc := by
  cases r with
  | cc => exact absurd rfl h
  | a | b | dp => simp [writeReg8]

/-- TFR moves the source's value to the destination and touches nothing else. -/
theorem transfer_spec {src dst : Reg} {σ τ : State} (h : transfer src dst σ = some τ) :
    regNat dst τ = regNat src σ ∧ KeepsRegs (regParts dst) noDelta σ τ ∧ (dst ≠ .r8 .cc → τ.cc = σ.cc) := by
  rcases src with r | r <;> rcases dst with t | t <;> cases h
  · exact ⟨congrArg BitVec.toNat (readReg16_writeReg16_same t _ σ), keepsRegs_writeReg16 t _ σ, fun _ => cc_writeReg16 t _ σ⟩
  · exact ⟨congrArg BitVec.toNat (readReg8_writeReg8_same t _ σ), keepsRegs_writeReg8 t _ σ,
      fun other => cc_writeReg8 (fun e => other (congrArg _ e)) _ σ⟩

/-- EXG moves both values and touches nothing else. -/
theorem exchange_spec {r t : Reg} {σ τ : State} (h : exchange r t σ = some τ) :
    regNat t τ = regNat r σ ∧ regNat r τ = regNat t σ ∧ KeepsRegs (regParts r ++ regParts t) noDelta σ τ ∧
      (r ≠ .r8 .cc → t ≠ .r8 .cc → τ.cc = σ.cc) := by
  rcases r with r | r <;> rcases t with t | t <;> cases h
  · refine ⟨?_, congrArg BitVec.toNat (readReg16_writeReg16_same r _ _),
      KeepsRegs.trans_noDelta (keepsRegs_writeReg16 t _ σ) (keepsRegs_writeReg16 r _ _),
      fun _ _ => (cc_writeReg16 r _ _).trans (cc_writeReg16 t _ σ)⟩
    by_cases same : t = r
    · subst same; exact congrArg BitVec.toNat (readReg16_writeReg16_same t _ _)
    · exact congrArg BitVec.toNat ((readReg16_writeReg16_other same _ _).trans (readReg16_writeReg16_same t _ σ))
  · refine ⟨?_, congrArg BitVec.toNat (readReg8_writeReg8_same r _ _),
      KeepsRegs.trans_noDelta (keepsRegs_writeReg8 t _ σ) (keepsRegs_writeReg8 r _ _),
      fun first second => (cc_writeReg8 (fun e => first (congrArg _ e)) _ _).trans (cc_writeReg8 (fun e => second (congrArg _ e)) _ σ)⟩
    by_cases same : t = r
    · subst same; exact congrArg BitVec.toNat (readReg8_writeReg8_same t _ _)
    · exact congrArg BitVec.toNat ((readReg8_writeReg8_other same _ _).trans (readReg8_writeReg8_same t _ σ))

theorem regNat_armNmiIf (r : Reg) (c : Bool) (σ : State) : regNat r (armNmiIf c σ) = regNat r σ := by
  rcases r with r | r
  · exact congrArg BitVec.toNat (readReg16_armNmiIf r c σ)
  · exact congrArg BitVec.toNat (readReg8_armNmiIf r c σ)

/-- Settles O40: both by the values they move, and the arming of NMI apart. -/
theorem transferAndExchangeResults : Obligations.TransferAndExchangeResults := by
  refine ⟨fun src dst σ like => ?_, fun r t σ like => ?_⟩
  · obtain ⟨τ, moves, runs⟩ := exec_tfr_of_likeSize like σ
    obtain ⟨value, regs, flags⟩ := transfer_spec moves
    obtain ⟨⟨armed, pending⟩, control⟩ := keeps_transfer σ moves
    refine ⟨_, runs, (regNat_armNmiIf _ _ _).trans value, regs, flags, (makes_of_eq (busSide_transfer moves)).leavesMemory,
      control, pending, fun other => ?_⟩
    have never : (dst == Reg.r16 .s) = false := beq_eq_false_iff_ne.mpr other
    simp [never, armed]
  · obtain ⟨τ, moves, runs⟩ := exec_exg_of_likeSize like σ
    obtain ⟨value, value', regs, flags⟩ := exchange_spec moves
    obtain ⟨⟨armed, pending⟩, control⟩ := keeps_exchange σ moves
    refine ⟨_, runs, (regNat_armNmiIf _ _ _).trans value, (regNat_armNmiIf _ _ _).trans value', regs, flags,
      (makes_of_eq (busSide_exchange moves)).leavesMemory, control, pending, fun first second => ?_⟩
    have never : (r == Reg.r16 .s) = false := beq_eq_false_iff_ne.mpr first
    have never' : (t == Reg.r16 .s) = false := beq_eq_false_iff_ne.mpr second
    simp [never, never', armed]

end Sys2Proof.Proofs
end

section
/-! PROOFS. Pushes and pulls in every state (40_common_operations.md R160 to R163, 44_index_stack.md R246 to R249), and calls and returns (46_miscellaneous.md). -/

namespace Sys2Proof.Proofs

open Sys2Proof.Machine

/-! ### What a sequence of pushes leaves -/

theorem doIf_field {α : Type} (g : State → α) {c : Bool} {f : State → State} (h : c = true → ∀ τ, g (f τ) = g τ) (σ : State) :
    g (doIf c f σ) = g σ := by
  cases c
  · rfl
  · exact h rfl σ

theorem push16_field {α : Type} {g : State → α} {r : Ptr} (h : ∀ v τ, g (push8 r v τ) = g τ) (w : Word) (σ : State) :
    g (push16 r w σ) = g σ := (h _ _).trans (h _ _)

/-- Whatever a push of a byte keeps, PSHS and PSHU keep. -/
theorem pushRegs_field {α : Type} {g : State → α} {k : Stk} (h : ∀ v τ, g (push8 (stackPtr k) v τ) = g τ) (mask : Byte) (σ : State) :
    g (pushRegs k mask σ) = g σ := by
  have byte : ∀ (c : Bool) (f : State → Byte) τ, g (doIf c (fun υ => push8 (stackPtr k) (f υ) υ) τ) = g τ :=
    fun c f τ => doIf_field g (fun _ υ => h _ υ) τ
  have word : ∀ (c : Bool) (f : State → Word) τ, g (doIf c (fun υ => push16 (stackPtr k) (f υ) υ) τ) = g τ :=
    fun c f τ => doIf_field g (fun _ υ => push16_field h _ υ) τ
  simp only [pushRegs]
  rw [byte, byte, byte, byte, word, word, word, word]

/-- A byte pushed leaves every register but the stack pointer. -/
theorem keepsRegsAndFlags_pushRegs (k : Stk) (mask : Byte) (σ : State) :
    KeepsRegsAndFlags [stkR k] noDelta σ (pushRegs k mask σ) := by
  have a := pushRegs_field (g := State.a) (k := k) (by simp) mask σ
  have b := pushRegs_field (g := State.b) (k := k) (by simp) mask σ
  have dp := pushRegs_field (g := State.dp) (k := k) (by simp) mask σ
  have cc := pushRegs_field (g := State.cc) (k := k) (by simp) mask σ
  have pc := pushRegs_field (g := State.pc) (k := k) (by simp) mask σ
  have x := pushRegs_field (g := State.x) (k := k) (by cases k <;> simp [push8, stackPtr]) mask σ
  have y := pushRegs_field (g := State.y) (k := k) (by cases k <;> simp [push8, stackPtr]) mask σ
  cases k with
  | s =>
    have u := pushRegs_field (g := State.u) (k := .s) (by simp [push8, stackPtr]) mask σ
    simp [KeepsRegsAndFlags, KeepsRegs, stkR, noDelta, a, b, dp, cc, pc, x, y, u]
  | u =>
    have s := pushRegs_field (g := State.s) (k := .u) (by simp [push8, stackPtr]) mask σ
    simp [KeepsRegsAndFlags, KeepsRegs, stkR, noDelta, a, b, dp, cc, pc, x, y, s]

theorem ptr_doIf_push8 (r : Ptr) (c : Bool) (f : State → Byte) (σ : State) :
    ptr r (doIf c (fun υ => push8 r (f υ) υ) σ) = ptr r σ - BitVec.ofNat 16 c.toNat := by
  cases c
  · simp
  · exact (ptr_push8 σ r r _).trans (if_pos rfl)

theorem ptr_doIf_push16 (r : Ptr) (c : Bool) (f : State → Word) (σ : State) :
    ptr r (doIf c (fun υ => push16 r (f υ) υ) σ) = ptr r σ - BitVec.ofNat 16 (2 * c.toNat) := by
  cases c
  · simp
  · exact (ptr_push16 σ r r _).trans (if_pos rfl)

theorem sub_ofNat_add (w : Word) (m n : Nat) : w - BitVec.ofNat 16 m - BitVec.ofNat 16 n = w - BitVec.ofNat 16 (n + m) := by
  rw [BitVec.ofNat_add]; bv_omega

theorem add_ofNat_add (w : Word) (m n : Nat) : w + BitVec.ofNat 16 m + BitVec.ofNat 16 n = w + BitVec.ofNat 16 (m + n) := by
  rw [BitVec.ofNat_add, BitVec.add_assoc]

/-- The pointer is lowered by the bytes that the mask names (R160, R246, R247). -/
theorem ptr_pushRegs (k : Stk) (mask : Byte) (σ : State) :
    ptr (stackPtr k) (pushRegs k mask σ) = ptr (stackPtr k) σ - BitVec.ofNat 16 (maskBytes mask) := by
  simp only [pushRegs, ptr_doIf_push8, ptr_doIf_push16, sub_ofNat_add, maskBytes]
  congr 2
  omega

theorem length_frameBytes (k : Stk) (mask : Byte) (σ : State) : (frameBytes k mask σ).length = maskBytes mask := by
  have one : ∀ (c : Bool) (v : Byte), (if c then [v] else []).length = c.toNat := fun c v => by cases c <;> rfl
  have two : ∀ (c : Bool) (v w : Byte), (if c then [v, w] else []).length = 2 * c.toNat := fun c v w => by cases c <;> rfl
  simp only [frameBytes, List.length_append, one, two, maskBytes]

/-! ### What a sequence of pulls leaves -/

theorem pull16_field {α : Type} {g : State → α} {r : Ptr} (h : ∀ τ, g (pull8 r τ).2 = g τ) (σ : State) :
    g (pull16 r σ).2 = g σ := (h _).trans (h _)

theorem doIf_pullInto8_field {α : Type} {g : State → α} {r : Ptr} (pulls : ∀ τ, g (pull8 r τ).2 = g τ) {c : Bool}
    {f : Byte → State → State} (h : c = true → ∀ v τ, g (f v τ) = g τ) (σ : State) : g (doIf c (pullInto8 r f) σ) = g σ :=
  doIf_field g (fun on τ => (h on _ _).trans (pulls τ)) σ

theorem doIf_pullInto16_field {α : Type} {g : State → α} {r : Ptr} (pulls : ∀ τ, g (pull8 r τ).2 = g τ) {c : Bool}
    {f : Word → State → State} (h : c = true → ∀ v τ, g (f v τ) = g τ) (σ : State) : g (doIf c (pullInto16 r f) σ) = g σ :=
  doIf_field g (fun on τ => (h on _ _).trans (pull16_field pulls τ)) σ

/-- A field that no selected register is, and that no pull touches, is kept by PULS and PULU. -/
theorem pullRegs_field {α : Type} (g : State → α) {k : Stk} {mask : Byte} (pulls : ∀ τ, g (pull8 (stackPtr k) τ).2 = g τ)
    (cc : mask.getLsbD 0 = true → ∀ v τ, g (setCc (CC.ofByte v) τ) = g τ)
    (a : mask.getLsbD 1 = true → ∀ v τ, g (setAcc .a v τ) = g τ)
    (b : mask.getLsbD 2 = true → ∀ v τ, g (setAcc .b v τ) = g τ)
    (dp : mask.getLsbD 3 = true → ∀ v τ, g (setDp v τ) = g τ)
    (x : mask.getLsbD 4 = true → ∀ w τ, g (setPtr .x w τ) = g τ)
    (y : mask.getLsbD 5 = true → ∀ w τ, g (setPtr .y w τ) = g τ)
    (other : mask.getLsbD 6 = true → ∀ w τ, g (setPtr (otherPtr k) w τ) = g τ)
    (pc : mask.getLsbD 7 = true → ∀ w τ, g (setPc w τ) = g τ) (σ : State) : g (pullRegs k mask σ) = g σ := by
  simp only [pullRegs]
  rw [doIf_pullInto16_field pulls pc, doIf_pullInto16_field pulls other, doIf_pullInto16_field pulls y,
    doIf_pullInto16_field pulls x, doIf_pullInto8_field pulls dp, doIf_pullInto8_field pulls b,
    doIf_pullInto8_field pulls a, doIf_pullInto8_field pulls cc]

theorem mem_pulledRegs (k : Stk) (mask : Byte) :
    (.r8 .a ∈ pulledRegs k mask ↔ mask.getLsbD 1 = true) ∧ (.r8 .b ∈ pulledRegs k mask ↔ mask.getLsbD 2 = true) ∧
    (.r8 .dp ∈ pulledRegs k mask ↔ mask.getLsbD 3 = true) ∧ (.r16 .x ∈ pulledRegs k mask ↔ mask.getLsbD 4 = true) ∧
    (.r16 .y ∈ pulledRegs k mask ↔ mask.getLsbD 5 = true) ∧ stkR k ∈ pulledRegs k mask ∧
    (ptrR (otherPtr k) ∈ pulledRegs k mask ↔ mask.getLsbD 6 = true) ∧ (.r16 .pc ∈ pulledRegs k mask ↔ mask.getLsbD 7 = true) := by
  cases k <;> simp [pulledRegs, stkR, ptrR, otherPtr]

/-- PULS and PULU change the registers they load and the pointer they move (R248, R249). -/
theorem keepsRegs_pullRegs (k : Stk) (mask : Byte) (σ : State) : KeepsRegs (pulledRegs k mask) noDelta σ (pullRegs k mask σ) := by
  obtain ⟨memA, memB, memDp, memX, memY, memStack, memOther, memPc⟩ := mem_pulledRegs k mask
  have a := fun h : ¬ mask.getLsbD 1 = true => pullRegs_field State.a (k := k) (mask := mask) (by simp) (by simp)
    (fun on => absurd on h) (by simp) (by simp) (by simp) (by simp) (by simp) (by simp) σ
  have b := fun h : ¬ mask.getLsbD 2 = true => pullRegs_field State.b (k := k) (mask := mask) (by simp) (by simp)
    (by simp) (fun on => absurd on h) (by simp) (by simp) (by simp) (by simp) (by simp) σ
  have dp := fun h : ¬ mask.getLsbD 3 = true => pullRegs_field State.dp (k := k) (mask := mask) (by simp) (by simp)
    (by simp) (by simp) (fun on => absurd on h) (by simp) (by simp) (by simp) (by simp) σ
  have x := fun h : ¬ mask.getLsbD 4 = true => pullRegs_field State.x (k := k) (mask := mask) (by cases k <;> simp [pull8, stackPtr])
    (by simp) (by simp) (by simp) (by simp) (fun on => absurd on h) (by simp) (by cases k <;> simp [otherPtr]) (by simp) σ
  have y := fun h : ¬ mask.getLsbD 5 = true => pullRegs_field State.y (k := k) (mask := mask) (by cases k <;> simp [pull8, stackPtr])
    (by simp) (by simp) (by simp) (by simp) (by simp) (fun on => absurd on h) (by cases k <;> simp [otherPtr]) (by simp) σ
  have other := fun h : ¬ mask.getLsbD 6 = true => pullRegs_field (ptr (otherPtr k)) (k := k) (mask := mask)
    (by cases k <;> simp [pull8, stackPtr, otherPtr]) (by simp) (by simp) (by simp) (by simp) (by cases k <;> simp [otherPtr])
    (by cases k <;> simp [otherPtr]) (fun on => absurd on h) (by simp) σ
  have pc := fun h : ¬ mask.getLsbD 7 = true => pullRegs_field State.pc (k := k) (mask := mask) (by simp) (by simp)
    (by simp) (by simp) (by simp) (by simp) (by simp) (by simp) (fun on => absurd on h) σ
  simp only [KeepsRegs, memA, memB, memDp, memX, memY, memPc, noDelta, BitVec.ofNat_eq_ofNat, BitVec.add_zero]
  cases k with
  | s => exact ⟨a, b, dp, x, y, fun m => other (fun on => m (memOther.mpr on)), fun m => absurd memStack m, pc⟩
  | u => exact ⟨a, b, dp, x, y, fun m => absurd memStack m, fun m => other (fun on => m (memOther.mpr on)), pc⟩

/-- CC is the first byte pulled where the mask names it (R82). -/
theorem cc_pullRegs (k : Stk) (mask : Byte) (σ : State) :
    (pullRegs k mask σ).cc = if mask.getLsbD 0 then CC.ofByte (readByte (ptr (stackPtr k) σ) σ).1 else σ.cc := by
  have pulls : ∀ τ : State, (pull8 (stackPtr k) τ).2.cc = τ.cc := by simp
  simp only [pullRegs]
  rw [doIf_pullInto16_field pulls (by simp), doIf_pullInto16_field pulls (by simp), doIf_pullInto16_field pulls (by simp),
    doIf_pullInto16_field pulls (by simp), doIf_pullInto8_field pulls (by simp), doIf_pullInto8_field pulls (by simp),
    doIf_pullInto8_field pulls (by simp)]
  cases mask.getLsbD 0 <;> rfl

theorem ptr_doIf_pullInto8 {r : Ptr} (c : Bool) {f : Byte → State → State} (h : ∀ v τ, ptr r (f v τ) = ptr r τ) (σ : State) :
    ptr r (doIf c (pullInto8 r f) σ) = ptr r σ + BitVec.ofNat 16 c.toNat := by
  cases c
  · simp
  · exact (h _ _).trans ((ptr_pull8 σ r r).trans (if_pos rfl))

theorem ptr_doIf_pullInto16 {r : Ptr} (c : Bool) {f : Word → State → State} (h : ∀ v τ, ptr r (f v τ) = ptr r τ) (σ : State) :
    ptr r (doIf c (pullInto16 r f) σ) = ptr r σ + BitVec.ofNat 16 (2 * c.toNat) := by
  cases c
  · simp
  · exact (h _ _).trans ((ptr_pull16 σ r r).trans (if_pos rfl))

/-- The pointer is raised by the bytes that the mask names (R161, R248, R249). -/
theorem ptr_pullRegs (k : Stk) (mask : Byte) (σ : State) :
    ptr (stackPtr k) (pullRegs k mask σ) = ptr (stackPtr k) σ + BitVec.ofNat 16 (maskBytes mask) := by
  simp only [pullRegs]
  rw [ptr_doIf_pullInto16 _ (by simp), ptr_doIf_pullInto16 _ (by cases k <;> simp [stackPtr, otherPtr]),
    ptr_doIf_pullInto16 _ (by cases k <;> simp [stackPtr]), ptr_doIf_pullInto16 _ (by cases k <;> simp [stackPtr]),
    ptr_doIf_pullInto8 _ (by simp), ptr_doIf_pullInto8 _ (by simp), ptr_doIf_pullInto8 _ (by simp), ptr_doIf_pullInto8 _ (by simp)]
  simp only [add_ofNat_add, maskBytes]

/-! ### PSHS, PSHU, PULS, PULU -/

theorem exec_pshI (k : Stk) (mask : Byte) (σ : State) : exec (pshI k mask) σ = .next (pushRegs k mask σ) := by
  cases k <;> rfl

theorem exec_pulI (k : Stk) (mask : Byte) (σ : State) :
    ∃ c : Bool, exec (pulI k mask) σ = .next (armNmiIf c (pullRegs k mask σ)) ∧ (k = .s ∨ mask.getLsbD 6 = false → c = false) := by
  cases k with
  | s => exact ⟨false, (congrArg Host.Outcome.next (armNmiIf_false _)).symm, fun _ => rfl⟩
  | u => exact ⟨_, rfl, fun unloaded => Bool.and_eq_false_iff.mpr (.inr (unloaded.resolve_left nofun))⟩

theorem frameBytes_armNmiIf (k : Stk) (mask : Byte) (c : Bool) (σ : State) :
    frameBytes k mask (armNmiIf c σ) = frameBytes k mask σ := by
  cases k <;> rfl

/-- Settles O41: pushes and pulls by what they leave in every state, and the frame in a step that nothing disturbs. -/
theorem pushAndPullResults : Obligations.PushAndPullResults := by
  refine ⟨fun k mask σ => ?_, fun k mask σ => ?_⟩
  · refine ⟨_, exec_pshI k mask σ, length_frameBytes k mask σ, ptr_pushRegs k mask σ, keepsRegsAndFlags_pushRegs k mask σ,
      (keeps_pushRegs σ k mask).1, (keeps_pushRegs σ k mask).2, fun u wf => ?_⟩
    have pushed := pushed_pushRegs k mask u wf
    exact ⟨pushed.holds, length_frameBytes k mask σ ▸ pushed.outside⟩
  · obtain ⟨c, runs, unarmed⟩ := exec_pulI k mask σ
    obtain ⟨⟨armed, pending⟩, control⟩ := keeps_pullRegs σ k mask
    refine ⟨_, runs, ?_, fun u => ?_, keepsRegs_pullRegs k mask σ, fun off => ?_, (makes_pullRegs k mask σ).leavesMemory,
      control, pending, fun h => ?_⟩
    · rw [ptr_armNmiIf, ptr_pullRegs]
    · rw [frameBytes_armNmiIf]; exact (pulled_pullRegs k mask u).holds
    · rw [armNmiIf_cc, cc_pullRegs, off]; rfl
    · rw [unarmed h, armNmiIf_false, armed]

/-! ### Jumps, calls and returns (R272, R289, R294, R295, R297) -/

/-- The call of a subroutine from the state `υ` that the target's address leaves. -/
theorem callEffect_call (target : Word) {d : Ptr → Word} {σ υ : State} (regs : KeepsRegsAndFlags [] d σ υ) (keeps : Keeps σ υ)
    (reads : Makes IsRead σ υ) : CallEffect d υ.s υ.bus σ (call target υ) := by
  have lowered : (call target υ).s = υ.s - 2 := (ptr_push16 υ .s .s υ.pc).trans (if_pos rfl)
  have still : ∀ {τ : State}, Keeps υ τ → Keeps σ τ := keeps.trans
  obtain ⟨⟨a, b, dp, x, y, u, s, pc⟩, cc⟩ := regs
  have after : KeepsRegsAndFlags [.r16 .pc, .r16 .s] noDelta υ (call target υ) := by
    simp [KeepsRegsAndFlags, KeepsRegs, call, noDelta, push16, push8]
  obtain ⟨⟨a', b', dp', x', y', u', -, -⟩, cc'⟩ := after
  simp only [noDelta, BitVec.ofNat_eq_ofNat, BitVec.add_zero] at x' y' u'
  refine ⟨lowered, ⟨⟨?_, ?_, ?_, ?_, ?_, ?_, ?_, ?_⟩, cc'.trans cc⟩, (still (keeps_call υ target)).1, (still (keeps_call υ target)).2,
    fun ungranted => ?_, fun und wf => ?_⟩
  · exact fun _ => (a' (by simp)).trans (a (by simp))
  · exact fun _ => (b' (by simp)).trans (b (by simp))
  · exact fun _ => (dp' (by simp)).trans (dp (by simp))
  · exact fun _ => (x' (by simp)).trans (x (by simp))
  · exact fun _ => (y' (by simp)).trans (y (by simp))
  · exact fun _ => (u' (by simp)).trans (u (by simp))
  · exact fun m => absurd (by simp) m
  · exact fun m => absurd (by simp) m
  · have quiet : υ.cycles = none := by
      obtain ⟨-, -, -, -, -, -, counters⟩ := keeps
      exact (counters ungranted).1
    rw [← pc (by simp)]
    simp [call, push16, push8, quiet]; bv_omega
  · obtain ⟨-, -, stacked, outside, -⟩ := call_spec target υ (undisturbed_of_keeps keeps und) (reads.follows.wf wf)
    exact ⟨stacked.trans (pc (by simp)), fun i other => (outside i other).trans (reads.leavesMemory und.2 i)⟩

theorem keepsRegsAndFlags_refl (σ : State) : KeepsRegsAndFlags [] noDelta σ σ := by
  simp [KeepsRegsAndFlags, KeepsRegs, noDelta]

theorem keepsRegsAndFlags_effAddr (a : Addr) (σ : State) : KeepsRegsAndFlags [] (addrDelta a) σ (effAddr a σ).2 := by
  simp [KeepsRegsAndFlags, KeepsRegs]

/-- Settles O44: a jump is its address, a call is `call` at the state its address leaves, RTS a pull of PC. -/
theorem jumpCallReturnResults : Obligations.JumpCallReturnResults := by
  intro σ
  refine ⟨fun a => ⟨_, rfl, rfl, ⟨by simp [KeepsRegs], by simp⟩, ?_, ?_⟩, ⟨_, rfl, fun u => ?_, ?_, ?_, ?_⟩,
    fun off => ⟨_, rfl, toNat_add_sext8 _ _, callEffect_call _ (keepsRegsAndFlags_refl σ) (Keeps.refl σ) (Makes.refl σ)⟩,
    fun off => ⟨_, rfl, BitVec.toNat_add _ _, callEffect_call _ (keepsRegsAndFlags_refl σ) (Keeps.refl σ) (Makes.refl σ)⟩,
    fun a => ⟨_, rfl, rfl, callEffect_call _ (keepsRegsAndFlags_effAddr a σ) (keeps_effAddr σ a) (makes_effAddr a σ)⟩⟩
  · exact ((makes_effAddr a σ).andThen (busSide_setPc _ _)).leavesMemory
  · exact (keeps_effAddr σ a).trans (keeps_setPc _ _)
  · rw [pulled_pullInto16 .s setPc u]; rfl
  · exact (ptr_pull16 σ .s .s).trans (if_pos rfl)
  · simp [KeepsRegsAndFlags, KeepsRegs, pullInto16, noDelta, pull16, pull8]
  · exact ⟨(makes_pullInto16 .s setPc (fun _ _ => busSide_setPc _ _) σ).leavesMemory, keeps_pullInto16 σ .s fun v υ => keeps_setPc υ v⟩

end Sys2Proof.Proofs
end

section
/-! PROOFS. Branches (45_branches.md), the masks of CC, NOP, SYNC (46_miscellaneous.md). -/

namespace Sys2Proof.Proofs

open Sys2Proof.Machine

/-! ### Branches (R164, R256 to R288) -/

theorem exec_shortI (c : Cond) (off : Byte) (σ : State) : exec (shortI c off) σ = .next (branch c (sext8 off) σ) := by
  cases c <;> rfl

theorem exec_longI (c : Cond) (off : Word) (σ : State) : exec (longI c off) σ = .next (branch c off σ) := by
  cases c <;> rfl

theorem branch_taken {c : Cond} {σ : State} (h : CondHolds c σ.cc) (off : Word) : branch c off σ = setPc (σ.pc + off) σ := by
  rw [branch, if_pos ((holds_iff c σ.cc).mpr h)]

theorem branch_not_taken {c : Cond} {σ : State} (h : ¬ CondHolds c σ.cc) (off : Word) : branch c off σ = σ := by
  rw [branch, if_neg (mt (holds_iff c σ.cc).mp h)]

/-- A branch moves PC alone. -/
theorem frame_branch (c : Cond) (off : Word) (σ : State) :
    KeepsRegsAndFlags [.r16 .pc] noDelta σ (branch c off σ) ∧ LeavesMemory σ (branch c off σ) ∧
      KeepsNmi σ (branch c off σ) ∧ KeepsControl σ (branch c off σ) := by
  refine ⟨?_, (makes_branch c off σ).leavesMemory, keeps_branch σ c off⟩
  rw [branch]; split <;> simp [KeepsRegsAndFlags, KeepsRegs, noDelta]

/-- Settles O42: by whether the condition holds. -/
theorem branchResults : Obligations.BranchResults := by
  refine fun c σ => ⟨fun off => ⟨_, exec_shortI c off σ, fun h => ?_, fun h => ?_, frame_branch c _ σ⟩,
    fun off => ⟨_, exec_longI c off σ, fun h => ?_, fun h => ?_, frame_branch c _ σ⟩⟩
  · rw [branch_taken h]; exact toNat_add_sext8 _ off
  · rw [branch_not_taken h]
  · rw [branch_taken h]; exact toNat_add_toInt _ off
  · rw [branch_not_taken h]

/-- The conditions of R164 as the table reads them after a compare of `p` with `m`. -/
def ConditionsMean {n : Nat} (p m : BitVec n) (cc : CC) : Prop :=
  (CondHolds .hi cc ↔ m.toNat < p.toNat) ∧ (CondHolds .ls cc ↔ p.toNat ≤ m.toNat) ∧
  (CondHolds .cc cc ↔ m.toNat ≤ p.toNat) ∧ (CondHolds .cs cc ↔ p.toNat < m.toNat) ∧
  (CondHolds .ne cc ↔ p ≠ m) ∧ (CondHolds .eq cc ↔ p = m) ∧
  (CondHolds .ge cc ↔ m.toInt ≤ p.toInt) ∧ (CondHolds .lt cc ↔ p.toInt < m.toInt) ∧
  (CondHolds .gt cc ↔ m.toInt < p.toInt) ∧ (CondHolds .le cc ↔ p.toInt ≤ m.toInt)

/-- C is the unsigned order, Z equality, and N against V the signed order: the ten conditions follow. -/
theorem conditionsMean_of_flags {n : Nat} {p m : BitVec n} {cc : CC} (carry : cc.c = true ↔ p.toNat < m.toNat)
    (zero : cc.z = true ↔ p = m) (sign : cc.n ≠ cc.v ↔ p.toInt < m.toInt) : ConditionsMean p m cc := by
  have equal : p = m ↔ p.toNat = m.toNat := BitVec.toNat_inj.symm
  have equalInt : p = m ↔ p.toInt = m.toInt := BitVec.toInt_inj.symm
  have notCarry : cc.c = false ↔ ¬ p.toNat < m.toNat := by rw [← carry, Bool.not_eq_true]
  have notZero : cc.z = false ↔ ¬ p = m := by rw [← zero, Bool.not_eq_true]
  have notSign : cc.n = cc.v ↔ ¬ p.toInt < m.toInt := by rw [← sign, not_ne_iff]
  simp only [ConditionsMean, CondHolds, carry, notCarry, notSign, sign]
  refine ⟨?_, ?_, by omega, trivial, notZero, zero, by omega, trivial, ?_, ?_⟩
  · rw [notZero, equal]; omega
  · rw [zero, equal]; omega
  · rw [notZero, equalInt]; omega
  · rw [zero, equalInt]; omega

theorem conditionsMean_of_isDifference {p m : Byte} {cc cc' : CC} (h : IsDifference p m false (p - m) cc cc') : ConditionsMean p m cc' := by
  obtain ⟨value, ⟨negative, zero⟩, carry, overflow, -⟩ := h
  have boundP := p.isLt
  have boundM := m.isLt
  rw [byte_toInt, byte_toInt, byte_toInt] at overflow
  simp only [Bool.toNat_false, Nat.cast_zero, sub_zero, add_zero] at value carry overflow
  refine conditionsMean_of_flags carry ?_ ?_
  · rw [zero, ← BitVec.toNat_inj]; omega
  · rw [Ne, Bool.eq_iff_iff, negative, overflow, byte_toInt, byte_toInt]
    split <;> split <;> omega

theorem conditionsMean_of_isWordDifference {p m : Word} {cc cc' : CC} (h : IsWordDifference p m (p - m) cc cc') :
    ConditionsMean p m cc' := by
  obtain ⟨value, ⟨negative, zero⟩, carry, overflow, -⟩ := h
  have boundP := p.isLt
  have boundM := m.isLt
  rw [word_toInt, word_toInt, word_toInt] at overflow
  refine conditionsMean_of_flags carry ?_ ?_
  · rw [zero, ← BitVec.toNat_inj]; omega
  · rw [Ne, Bool.eq_iff_iff, negative, overflow, word_toInt, word_toInt]
    split <;> split <;> omega

/-- Settles O43: from the flags of the two compares. -/
theorem branchesAfterCompare : Obligations.BranchesAfterCompare := by
  refine ⟨fun r src σ τ runs => ?_, fun r src σ τ runs => ?_⟩
  · rw [exec_cmpI] at runs
    cases runs
    exact conditionsMean_of_isDifference (isDifference_accCompare r src σ)
  · rw [exec_cmpWordI] at runs
    cases runs
    exact conditionsMean_of_isWordDifference (isWordDifference_compare16 r src σ)

/-! ### ANDCC, ORCC, NOP, SYNC -/

/-- Settles O45: CC as a byte, bit by bit; NOP and SYNC as they stand. -/
theorem flagMaskNopAndSyncResults : Obligations.FlagMaskNopAndSyncResults := by
  refine fun σ => ⟨fun n => ⟨setCc (CC.ofByte (σ.cc.toByte &&& n)) σ, rfl, fun k _ => ?_, rfl⟩,
    fun n => ⟨setCc (CC.ofByte (σ.cc.toByte ||| n)) σ, rfl, fun k _ => ?_, rfl⟩, rfl, rfl⟩
  · rw [setCc_cc, CC.toByte_ofByte, BitVec.getLsbD_and]
  · rw [setCc_cc, CC.toByte_ofByte, BitVec.getLsbD_or]

end Sys2Proof.Proofs
end

section
/-! PROOFS. Software interrupts, CWAI and RTI (46_miscellaneous.md, 60_exceptions.md R400 to R415): what an entry stacks and sets, and what a return restores. -/

namespace Sys2Proof.Proofs

open Sys2Proof.Machine

/-! ### An entry in two parts -/

/-- The number of bytes that an entry stacks (R412). -/
def frameSize : Exc → Nat
  | .res => 0
  | .firq => 3
  | _ => 12

theorem length_stackedFrame (e : Exc) (σ : State) : (stackedFrame e σ).length = frameSize e := by
  cases e <;> rfl

/-- An entry stacks PC and CC for FIRQ, everything for the others, with the CC that `stackedCc` gives; RES nothing. -/
theorem stackState_eq_pushRegs {e : Exc} (h : e ≠ .res) (σ : State) :
    stackState e σ = pushRegs .s (if e = .firq then 0x81 else 0xFF) (setCc (stackedCc e σ.cc) σ) := by
  cases e with
  | res => exact absurd rfl h
  | _ => rfl

theorem keepsRegs_stackState (e : Exc) (σ : State) : KeepsRegs [.r16 .s] noDelta σ (stackState e σ) := by
  by_cases h : e = .res
  · subst h; simp [stackState, KeepsRegs, noDelta]
  · rw [stackState_eq_pushRegs h]
    exact (keepsRegsAndFlags_pushRegs .s _ (setCc (stackedCc e σ.cc) σ)).1

theorem cc_stackState (e : Exc) (σ : State) : (stackState e σ).cc = stackedCc e σ.cc := by
  by_cases h : e = .res
  · subst h; rfl
  · rw [stackState_eq_pushRegs h]
    exact (keepsRegsAndFlags_pushRegs .s _ (setCc (stackedCc e σ.cc) σ)).2

theorem s_stackState (e : Exc) (σ : State) : (stackState e σ).s = σ.s - BitVec.ofNat 16 (frameSize e) := by
  by_cases h : e = .res
  · subst h; simp [stackState, frameSize]
  · rw [stackState_eq_pushRegs h]
    refine (ptr_pushRegs .s _ (setCc (stackedCc e σ.cc) σ)).trans ?_
    cases e with
    | res => exact absurd rfl h
    | _ => rfl

theorem cc_takeVector (e : Exc) (σ : State) : (takeVector e σ).cc = maskFor e σ.cc := by
  rw [takeVector_eq_fetch, setPc_cc, cc_readVector, masked]
  split <;> rfl

theorem keepsRegs_masked (e : Exc) (σ : State) : KeepsRegs [] noDelta σ (masked e σ) := by
  rw [masked]
  split <;> simp [KeepsRegs, noDelta]

theorem keepsRegs_takeVector (e : Exc) (σ : State) : KeepsRegs [.r16 .pc] noDelta σ (takeVector e σ) := by
  have fetch : KeepsRegs [.r16 .pc] noDelta (masked e σ) (takeVector e σ) := by
    simp [takeVector_eq_fetch, KeepsRegs, noDelta]
  exact KeepsRegs.trans_noDelta (keepsRegs_masked e σ) fetch

theorem KeepsRegs.mono {ds es : List Reg} (h : ∀ r ∈ ds, r ∈ es) {d : Ptr → Word} {σ τ : State} (k : KeepsRegs ds d σ τ) :
    KeepsRegs es d σ τ := by
  obtain ⟨a, b, dp, x, y, u, s, pc⟩ := k
  have out : ∀ {r}, r ∉ es → r ∉ ds := fun m k => m (h _ k)
  exact ⟨fun m => a (out m), fun m => b (out m), fun m => dp (out m), fun m => x (out m), fun m => y (out m),
    fun m => u (out m), fun m => s (out m), fun m => pc (out m)⟩

theorem keepsRegs_takeException (e : Exc) (σ : State) : KeepsRegs [.r16 .s, .r16 .pc] noDelta σ (takeException e σ) :=
  KeepsRegs.mono (by simp) (KeepsRegs.trans_noDelta (keepsRegs_stackState e σ) (keepsRegs_takeVector e (stackState e σ)))

theorem s_takeVector (e : Exc) (σ : State) : (takeVector e σ).s = σ.s := by
  have kept := (keepsRegs_takeVector e σ).2.2.2.2.2.2.1 (by simp)
  simpa [noDelta] using kept

theorem s_takeException (e : Exc) (σ : State) : (takeException e σ).s = σ.s - BitVec.ofNat 16 (frameSize e) :=
  (s_takeVector e _).trans (s_stackState e σ)

theorem cc_takeException (e : Exc) (σ : State) : (takeException e σ).cc = maskFor e (stackedCc e σ.cc) :=
  (cc_takeVector e _).trans (congrArg (maskFor e) (cc_stackState e σ))

/-- In a step that nothing disturbs the vector fetch leaves memory and takes PC from the vector. -/
theorem takeVector_memory (e : Exc) {σ : State} (u : Undisturbed σ) :
    (takeVector e σ).mem = σ.mem ∧ (takeVector e σ).pc = peekWord (vectorOf e) σ := by
  rw [takeVector_eq e u]; exact ⟨rfl, rfl⟩

theorem peekWord_congr {σ τ : State} (h : τ.mem = σ.mem) (a : Word) : peekWord a τ = peekWord a σ := by
  rw [peekWord, peekWord, peek_congr h, peek_congr h]

/-- The frame of an entry, the memory outside it, and the PC of the vector, in a step that nothing disturbs. -/
theorem takeException_memory (e : Exc) {σ : State} (u : Undisturbed σ) (wf : σ.mem.wf = true) :
    MemoryHolds (takeException e σ).s (stackedFrame e σ) (takeException e σ) ∧
    KeepsMemoryOutside (span (takeException e σ).s (frameSize e)) σ (takeException e σ) ∧
    (takeException e σ).pc = peekWord (vectorOf e) (takeException e σ) ∧ Undisturbed (takeException e σ) := by
  have pushed := pushed_stackState e u wf
  obtain ⟨memory, vector⟩ := takeVector_memory e pushed.und
  have stack : (takeException e σ).s = (stackState e σ).s := s_takeVector e _
  refine ⟨?_, ?_, vector.trans (peekWord_congr memory _).symm, ?_⟩
  · rw [stack]; exact (memoryHolds_congr memory _ _).mpr pushed.holds
  · rw [stack, ← length_stackedFrame e σ]
    exact fun i other => (peek_congr memory i).trans (pushed.outside i other)
  · obtain ⟨-, -, -, -, platform, counters⟩ := keepsControl_takeVector (stackState e σ) e
    exact ⟨platform.trans pushed.und.1, (counters pushed.und.2).1⟩

/-! ### SWI, SWI2, SWI3 -/

/-- The exception of a software interrupt. -/
def swiExc : SwiLevel → Exc
  | .one => .swi
  | .two => .swi2
  | .three => .swi3

theorem exec_swiI (l : SwiLevel) (σ : State) : exec (swiI l) σ = .next (takeException (swiExc l) σ) := by
  cases l <;> rfl

/-- Settles O46: a software interrupt is its exception taken. -/
theorem softwareInterruptResults : Obligations.SoftwareInterruptResults := by
  intro l σ
  have plain : swiExc l ≠ .nmi := by cases l <;> decide
  have keeps := keeps_takeException σ plain
  refine ⟨_, exec_swiI l σ, ?_, ?_, keepsRegs_takeException _ σ, keeps.1, keeps.2, fun u wf => ?_⟩
  · rw [s_takeException]; cases l <;> rfl
  · rw [cc_takeException, maskFor_eq]; cases l <;> simp [swiExc, stackedCc]
  · obtain ⟨holds, outside, vector, -⟩ := takeException_memory (swiExc l) u wf
    cases l <;> exact ⟨holds, outside, vector⟩

/-! ### CWAI (R291) -/

/-- A CC whose E alone is set anew has the other bits it had. -/
theorem getLsbD_toByte_setE (b : Byte) {k : Nat} (h : k < 7) :
    ({ CC.ofByte b with e := true } : CC).toByte.getLsbD k = b.getLsbD k := by
  have bits : ∀ (b : Byte) (k : Fin 7), ({ CC.ofByte b with e := true } : CC).toByte.getLsbD k = b.getLsbD k := by decide
  exact bits b ⟨k, h⟩

theorem pushEntireState_eq_pushRegs (σ : State) : pushEntireState σ = pushRegs .s 0xFF σ := by
  have bits : ∀ k < 8, (0xFF : Byte).getLsbD k = true := by decide
  simp only [pushRegs, pushEntireState, bits, doIf_true, stackPtr, otherPtr, Nat.reduceLT, ptr_u]

theorem keepsRegs_setRun (r : RunState) (σ : State) : KeepsRegs [] noDelta σ (setRun r σ) := by
  simp [KeepsRegs, noDelta]

/-- CWAI once CC is masked: the push of everything, and the wait. -/
def waitingAfterPush (cc : CC) (σ : State) : State := setRun .cwaiWaiting (pushEntireState (setCc cc σ))

section WaitingAfterPush

variable (cc : CC) (σ : State)

theorem cc_waitingAfterPush : (waitingAfterPush cc σ).cc = cc := by
  rw [waitingAfterPush, setRun_cc, pushEntireState_eq_pushRegs, (keepsRegsAndFlags_pushRegs .s 0xFF (setCc cc σ)).2, setCc_cc]

theorem keepsRegs_waitingAfterPush : KeepsRegs [.r16 .s] noDelta σ (waitingAfterPush cc σ) := by
  have flags : KeepsRegs [] noDelta σ (setCc cc σ) := by simp [KeepsRegs, noDelta]
  have push := KeepsRegs.trans_noDelta flags (keepsRegsAndFlags_pushRegs .s 0xFF (setCc cc σ)).1
  rw [← pushEntireState_eq_pushRegs] at push
  exact KeepsRegs.trans_noDelta push (keepsRegs_setRun .cwaiWaiting _)

theorem s_waitingAfterPush : (waitingAfterPush cc σ).s = σ.s - 12 := by
  have lowered := ptr_pushRegs .s 0xFF (setCc cc σ)
  rw [← pushEntireState_eq_pushRegs, show maskBytes 0xFF = 12 by decide] at lowered
  rw [waitingAfterPush, setRun_s]
  exact lowered

theorem pushed_waitingAfterPush {cc : CC} {σ : State} (u : Undisturbed σ) (wf : σ.mem.wf = true) :
    MemoryHolds (waitingAfterPush cc σ).s (entireFrame cc σ) (waitingAfterPush cc σ) ∧
    KeepsMemoryOutside (span (waitingAfterPush cc σ).s 12) σ (waitingAfterPush cc σ) ∧ Undisturbed (waitingAfterPush cc σ) := by
  have pushed := pushed_entireWith cc u wf
  have und := pushed.und
  rw [Undisturbed] at und
  rw [waitingAfterPush, setRun_s, Undisturbed, setRun_platform, setRun_cycles]
  exact ⟨(memoryHolds_congr (setRun_mem _ _) _ _).mpr pushed.holds, fun i other => (peek_setRun _ i _).trans (pushed.outside i other), und⟩

end WaitingAfterPush

theorem exec_cwai (n : Byte) (σ : State) :
    exec (.cwai n) σ = .next (waitingAfterPush { CC.ofByte (σ.cc.toByte &&& n) with e := true } σ) := rfl

/-- A move in the main loop, after an operation that keeps the control fields, keeps the others. -/
theorem control_setRun (r : RunState) {σ υ : State} (k : Keeps σ υ) :
    (setRun r υ).run = r ∧ KeepsNmi σ (setRun r υ) ∧ (setRun r υ).halted = σ.halted ∧ (setRun r υ).inReset = σ.inReset ∧
    (setRun r υ).env = σ.env ∧ (setRun r υ).platform = σ.platform ∧
    (σ.cycles = none → (setRun r υ).cycles = none ∧ KeepsCounters σ (setRun r υ)) := by
  obtain ⟨nmi, -, halted, inReset, env, platform, counters⟩ := k
  exact ⟨rfl, nmi, halted, inReset, env, platform, counters⟩

theorem keeps_beforeWaiting (cc : CC) (σ : State) : Keeps σ (pushEntireState (setCc cc σ)) :=
  (keeps_setCc σ cc).trans (keeps_pushEntireState (setCc cc σ))

/-- Settles O49: CWAI is CC masked, a push of everything, and the wait. -/
theorem cwaiResults : Obligations.CwaiResults := by
  intro n σ
  obtain ⟨run, nmi, control⟩ :=
    control_setRun .cwaiWaiting (keeps_beforeWaiting { CC.ofByte (σ.cc.toByte &&& n) with e := true } σ)
  refine ⟨_, exec_cwai n σ, run, fun k bound => ?_, ?_, s_waitingAfterPush _ σ, keepsRegs_waitingAfterPush _ σ, nmi, ?_⟩
  · rw [cc_waitingAfterPush, getLsbD_toByte_setE _ bound, BitVec.getLsbD_and]
  · rw [cc_waitingAfterPush]
  · obtain ⟨halted, inReset, env, platform, counters⟩ := control
    refine ⟨halted, inReset, env, platform, counters, fun u wf => ?_⟩
    obtain ⟨holds, outside, -⟩ := pushed_waitingAfterPush u wf
    rw [cc_waitingAfterPush]
    exact ⟨holds, outside⟩

/-! ### RTI (R163, R415) -/

theorem pullRegs_entire (σ : State) : pullRegs .s 0xFF σ =
    pullInto16 .s setPc (pullInto16 .s (setPtr .u) (pullInto16 .s (setPtr .y) (pullInto16 .s (setPtr .x)
      (pullInto8 .s setDp (pullInto8 .s (setAcc .b) (pullInto8 .s (setAcc .a) (pullInto8 .s (fun v => setCc (CC.ofByte v)) σ))))))) := by
  have bits : ∀ k < 8, (0xFF : Byte).getLsbD k = true := by decide
  simp only [pullRegs, bits, doIf_true, stackPtr, otherPtr, Nat.reduceLT]

theorem pullRegs_subset (σ : State) : pullRegs .s 0x81 σ = pullInto16 .s setPc (pullInto8 .s (fun v => setCc (CC.ofByte v)) σ) := by
  have on : (0x81 : Byte).getLsbD 0 = true ∧ (0x81 : Byte).getLsbD 7 = true := by decide
  have off : ∀ k < 7, 0 < k → (0x81 : Byte).getLsbD k = false := by decide
  simp only [pullRegs, on, off, doIf_true, doIf_false, stackPtr, Nat.reduceLT]

/-- RTI pulls everything, or CC and PC, by the E in the byte on top of the stack. -/
theorem returnFromInterrupt_eq_pullRegs (σ : State) :
    returnFromInterrupt σ = pullRegs .s (if (readByte σ.s σ).1.getLsbD 7 then 0xFF else 0x81) σ := by
  have e : (pullInto8 .s (fun v => setCc (CC.ofByte v)) σ).cc.e = (readByte σ.s σ).1.getLsbD 7 := rfl
  simp only [returnFromInterrupt, e]
  cases (readByte σ.s σ).1.getLsbD 7
  · rw [if_neg Bool.false_ne_true, pullRegs_subset, doIf_false]
  · rw [if_pos rfl, pullRegs_entire, doIf_true]

theorem exec_rti (σ : State) : exec .rti σ = .next (returnFromInterrupt σ) := rfl

theorem frameBytes_entire (σ : State) : frameBytes .s 0xFF σ = entireFrame σ.cc σ := rfl

theorem frameBytes_subset (σ : State) : frameBytes .s 0x81 σ = subsetFrame σ.cc σ := rfl

/-- The CC that RTI pulls. -/
theorem cc_returnFromInterrupt (σ : State) : (returnFromInterrupt σ).cc = CC.ofByte (readByte σ.s σ).1 := by
  rw [returnFromInterrupt_eq_pullRegs, cc_pullRegs]
  split <;> rfl

theorem ptr_returnFromInterrupt (σ : State) :
    (returnFromInterrupt σ).s = σ.s + BitVec.ofNat 16 (if (returnFromInterrupt σ).cc.e then 12 else 3) := by
  have e : (returnFromInterrupt σ).cc.e = (readByte σ.s σ).1.getLsbD 7 := congrArg CC.e (cc_returnFromInterrupt σ)
  rw [e, returnFromInterrupt_eq_pullRegs]
  refine (ptr_pullRegs .s _ σ).trans ?_
  split <;> rfl

theorem keepsRegs_returnFromInterrupt {σ : State} (h : (returnFromInterrupt σ).cc.e = false) :
    KeepsRegs [.r16 .s, .r16 .pc] noDelta σ (returnFromInterrupt σ) := by
  have e : (returnFromInterrupt σ).cc.e = (readByte σ.s σ).1.getLsbD 7 := congrArg CC.e (cc_returnFromInterrupt σ)
  rw [returnFromInterrupt_eq_pullRegs, ← e, h]
  exact keepsRegs_pullRegs .s 0x81 σ

/-- The frame that RTI unstacks, in a step that nothing disturbs. -/
theorem memoryHolds_returnFromInterrupt {σ : State} (u : Undisturbed σ) :
    MemoryHolds σ.s (if (returnFromInterrupt σ).cc.e then entireFrame (returnFromInterrupt σ).cc (returnFromInterrupt σ)
      else subsetFrame (returnFromInterrupt σ).cc (returnFromInterrupt σ)) σ := by
  have e : (returnFromInterrupt σ).cc.e = (readByte σ.s σ).1.getLsbD 7 := congrArg CC.e (cc_returnFromInterrupt σ)
  have pulled := (pulled_pullRegs .s (if (readByte σ.s σ).1.getLsbD 7 then 0xFF else 0x81) u).holds
  rw [← returnFromInterrupt_eq_pullRegs] at pulled
  rw [e]
  cases h : (readByte σ.s σ).1.getLsbD 7
  · rw [h] at pulled; exact pulled
  · rw [h] at pulled; exact pulled

/-- Settles O47: RTI as a pull by the E on top of the stack. -/
theorem returnFromInterruptResults : Obligations.ReturnFromInterruptResults := by
  intro σ
  have cc := cc_returnFromInterrupt σ
  have stack := ptr_returnFromInterrupt σ
  refine ⟨_, exec_rti σ, ?_, fun e => ?_, fun e => ⟨?_, keepsRegs_returnFromInterrupt e⟩, (makes_returnFromInterrupt σ).leavesMemory,
    (keeps_returnFromInterrupt σ).1, (keeps_returnFromInterrupt σ).2, fun u => ⟨?_, memoryHolds_returnFromInterrupt u⟩⟩
  · rw [cc, CC.toByte_ofByte]
  · rw [stack, e]; rfl
  · rw [stack, e]; rfl
  · rw [cc, CC.toByte_ofByte, readByte_fst, nextCycle_of_none σ u.2, answer_eq_peek σ _ _ u.1]

/-! ### Entry and return (R412, R415) -/

theorem CC.toByte_inj {cc cc' : CC} (h : cc.toByte = cc'.toByte) : cc = cc' := by
  rw [← CC.ofByte_toByte cc, h, CC.ofByte_toByte]

theorem word_ext {w v : Word} (high : hi w = hi v) (low : lo w = lo v) : w = v := by
  rw [← join_hi_lo w, high, low, join_hi_lo]

/-- An entire frame determines what it holds. -/
theorem entireFrame_inj {cc cc' : CC} {σ τ : State} (h : entireFrame cc τ = entireFrame cc' σ) :
    cc = cc' ∧ τ.a = σ.a ∧ τ.b = σ.b ∧ τ.dp = σ.dp ∧ τ.x = σ.x ∧ τ.y = σ.y ∧ τ.u = σ.u ∧ τ.pc = σ.pc := by
  simp only [entireFrame, List.cons.injEq, and_true] at h
  obtain ⟨flags, a, b, dp, xh, xl, yh, yl, uh, ul, ph, pl⟩ := h
  exact ⟨CC.toByte_inj flags, a, b, dp, word_ext xh xl, word_ext yh yl, word_ext uh ul, word_ext ph pl⟩

theorem subsetFrame_inj {cc cc' : CC} {σ τ : State} (h : subsetFrame cc τ = subsetFrame cc' σ) : cc = cc' ∧ τ.pc = σ.pc := by
  simp only [subsetFrame, List.cons.injEq, and_true] at h
  obtain ⟨flags, high, low⟩ := h
  exact ⟨CC.toByte_inj flags, word_ext high low⟩

/-- Memory holds one list of a length at an address. -/
theorem memoryHolds_unique {a : Word} {xs ys : List Byte} {σ : State} (h : MemoryHolds a xs σ) (k : MemoryHolds a ys σ)
    (same : xs.length = ys.length) : xs = ys := by
  rw [MemoryHolds] at h k
  rw [← h, ← k, same]

theorem head_of_memoryHolds {a : Word} {v : Byte} {vs : List Byte} {σ : State} (h : MemoryHolds a (v :: vs) σ) : peek a σ = v := by
  simp only [MemoryHolds, List.length_cons, span, List.map_cons, List.cons.injEq] at h
  exact h.1

/-- The byte on top of the stack after an entry is the CC it stacks. -/
theorem peek_s_takeException {e : Exc} (h : e ≠ .res) {σ : State} (u : Undisturbed σ) (wf : σ.mem.wf = true) :
    peek (takeException e σ).s (takeException e σ) = (stackedCc e σ.cc).toByte := by
  have holds := (takeException_memory e u wf).1
  cases e with
  | res => exact absurd rfl h
  | _ => exact head_of_memoryHolds holds

theorem stackedCc_eq {e : Exc} (h : e ≠ .res) (cc : CC) : stackedCc e cc = { cc with e := !(e == .firq) } := by
  cases e with
  | res => exact absurd rfl h
  | _ => rfl

/-- A return straight after an entry unstacks the frame of the entry. -/
theorem return_after_entry {e : Exc} (h : e ≠ .res) {σ : State} (u : Undisturbed σ) (wf : σ.mem.wf = true) :
    (returnFromInterrupt (takeException e σ)).cc = stackedCc e σ.cc ∧
    KeepsRegs [] noDelta σ (returnFromInterrupt (takeException e σ)) := by
  obtain ⟨holds, -, -, und⟩ := takeException_memory e u wf
  have cc : (returnFromInterrupt (takeException e σ)).cc = stackedCc e σ.cc := by
    rw [cc_returnFromInterrupt, readByte_fst, nextCycle_of_none _ und.2, answer_eq_peek _ _ _ und.1, peek_s_takeException h u wf,
      CC.ofByte_toByte]
  have pulled := memoryHolds_returnFromInterrupt und
  have stack := ptr_returnFromInterrupt (takeException e σ)
  rw [s_takeException] at stack
  have entire : ∀ size : Nat, (returnFromInterrupt (takeException e σ)).s = σ.s - BitVec.ofNat 16 size + BitVec.ofNat 16 size →
      (returnFromInterrupt (takeException e σ)).s = σ.s := fun size k => by rw [k]; bv_omega
  refine ⟨cc, ?_⟩
  by_cases firq : e = .firq
  · subst firq
    have low : (returnFromInterrupt (takeException .firq σ)).cc.e = false := by rw [cc]; rfl
    rw [low] at pulled stack
    obtain ⟨-, pc⟩ := subsetFrame_inj (memoryHolds_unique pulled holds rfl)
    obtain ⟨a, b, dp, x, y, u', -, -⟩ := keepsRegs_takeException .firq σ
    obtain ⟨a', b', dp', x', y', u'', -, -⟩ := keepsRegs_returnFromInterrupt low
    simp only [noDelta, BitVec.ofNat_eq_ofNat, BitVec.add_zero] at x y u' x' y' u''
    simp only [KeepsRegs, noDelta, BitVec.ofNat_eq_ofNat, BitVec.add_zero]
    exact ⟨fun _ => (a' (by simp)).trans (a (by simp)), fun _ => (b' (by simp)).trans (b (by simp)),
      fun _ => (dp' (by simp)).trans (dp (by simp)), fun _ => (x' (by simp)).trans (x (by simp)),
      fun _ => (y' (by simp)).trans (y (by simp)), fun _ => (u'' (by simp)).trans (u' (by simp)),
      fun _ => entire 3 stack, fun _ => pc⟩
  · have high : (returnFromInterrupt (takeException e σ)).cc.e = true := by
      rw [cc, stackedCc_eq h]; simpa using firq
    have whole : stackedFrame e σ = entireFrame (stackedCc e σ.cc) σ ∧ frameSize e = 12 := by
      cases e with
      | res => exact absurd rfl h
      | firq => exact absurd rfl firq
      | _ => exact ⟨rfl, rfl⟩
    rw [high] at pulled stack
    rw [whole.1] at holds
    rw [whole.2] at stack
    obtain ⟨-, a, b, dp, x, y, u', pc⟩ := entireFrame_inj (memoryHolds_unique pulled holds rfl)
    simp only [KeepsRegs, noDelta, BitVec.ofNat_eq_ofNat, BitVec.add_zero]
    exact ⟨fun _ => a, fun _ => b, fun _ => dp, fun _ => x, fun _ => y, fun _ => u', fun _ => entire 12 stack, fun _ => pc⟩

/-- Settles O48: the frame that RTI unstacks is the one that the entry has stacked. -/
theorem entryThenReturnRestores : Obligations.EntryThenReturnRestores := by
  intro e σ u wf notRes
  obtain ⟨cc, regs⟩ := return_after_entry notRes u wf
  obtain ⟨-, outside, -, und⟩ := takeException_memory e u wf
  have size : (if e = .firq then 3 else 12) = frameSize e := by
    cases e with
    | res => exact absurd rfl notRes
    | _ => rfl
  refine ⟨_, exec_rti _, regs, cc.trans (stackedCc_eq notRes σ.cc), fun i other => ?_⟩
  rw [size] at other
  exact ((makes_returnFromInterrupt _).leavesMemory und.2 i).trans (outside i other)

/-! ### The table of R411 -/

/-- Settles O52: the CC of an entry is the stacked one with the masks set, and CWAI's wait keeps its frame. -/
theorem entryMaskTable : Obligations.EntryMaskTable := by
  refine ⟨fun e σ => ⟨?_, fun u wf notRes => ?_, fun res => ?_⟩, fun n σ => ⟨_, exec_cwai n σ, ?_, fun u wf => ?_⟩⟩
  · cases e <;> exact cc_takeException _ σ
  · rw [peek_s_takeException notRes u wf, stackedCc_eq notRes]
  · subst res
    intro ungranted i
    have still : (masked .res σ).cycles = none := ungranted
    have fetch : (takeException .res σ).mem = σ.mem :=
      (congrArg State.mem (takeVector_eq_fetch σ .res)).trans (mem_readVector (masked .res σ) _ still)
    exact peek_congr fetch i
  · rw [cc_takeVector, cc_waitingAfterPush]; rfl
  · obtain ⟨holds, -, und⟩ := pushed_waitingAfterPush u wf
    rw [peek_congr (takeVector_memory .firq und).1, s_takeVector]
    exact head_of_memoryHolds holds

end Sys2Proof.Proofs
end

section
/-! PROOFS. Who writes DP, F, I and E (10_state.md R16, R22, R24, R25). -/

namespace Sys2Proof.Proofs

open Sys2Proof.Machine

/-- DP, E, F and I are unchanged. -/
def KeepsSystem (σ τ : State) : Prop := τ.dp = σ.dp ∧ KeepsMasks σ.cc τ.cc

theorem KeepsMasks.refl (cc : CC) : KeepsMasks cc cc := ⟨rfl, rfl, rfl⟩

/-- DP and CC are unchanged. -/
theorem keepsSystem_of_eq {σ τ : State} (dp : τ.dp = σ.dp) (cc : τ.cc = σ.cc) : KeepsSystem σ τ :=
  ⟨dp, cc ▸ KeepsMasks.refl σ.cc⟩

theorem dp_of_keepsRegs {dst : List Reg} {d : Ptr → Word} {σ τ : State} (h : KeepsRegs dst d σ τ) (free : .r8 .dp ∉ dst) :
    τ.dp = σ.dp := h.2.2.1 free

theorem keepsSystem_of_keepsRegsAndFlags {dst : List Reg} {d : Ptr → Word} {σ τ : State} (h : KeepsRegsAndFlags dst d σ τ)
    (free : .r8 .dp ∉ dst) : KeepsSystem σ τ := keepsSystem_of_eq (dp_of_keepsRegs h.1 free) h.2

section Shapes

variable (σ : State)

theorem keepsSystem_accBinary {f : Byte → Byte → CC → Byte × CC} (masks : ∀ a m cc, KeepsMasks cc (f a m cc).2) (r : Acc) (src : Src8) :
    KeepsSystem σ (accBinary f r src σ) :=
  ⟨by simp [accBinary], of_accBinary_result (P := fun _ cc => KeepsMasks σ.cc cc) (accBinary_result σ f r src) (masks _ _ _)⟩

theorem keepsSystem_accBinaryUndef {f : Bool → Byte → Byte → CC → Byte × CC} (masks : ∀ h a m cc, KeepsMasks cc (f h a m cc).2)
    (r : Acc) (src : Src8) : KeepsSystem σ (accBinaryUndef f r src σ) :=
  ⟨by simp [accBinaryUndef], of_accBinary_result (P := fun _ cc => KeepsMasks σ.cc cc) (accBinaryUndef_result σ f r src) (masks _ _ _ _)⟩

theorem keepsSystem_accTest {f : Byte → Byte → CC → Byte × CC} (masks : ∀ a m cc, KeepsMasks cc (f a m cc).2) (r : Acc) (src : Src8) :
    KeepsSystem σ (accTest f r src σ) :=
  ⟨by simp [accTest], by rw [accTest_cc]; exact masks _ _ _⟩

theorem keepsSystem_accCompare (r : Acc) (src : Src8) : KeepsSystem σ (accCompare r src σ) :=
  ⟨by simp [accCompare], by rw [accCompare_cc]; exact ⟨rfl, rfl, rfl⟩⟩

theorem keepsSystem_storeAcc (r : Acc) (a : Addr) : KeepsSystem σ (storeAcc r a σ) :=
  ⟨by simp [storeAcc], by simpa [storeAcc] using ⟨rfl, rfl, rfl⟩⟩

theorem keepsSystem_rmwMem {f : Byte → CC → Byte × CC} (masks : ∀ v cc, KeepsMasks cc (f v cc).2) (a : Addr) :
    KeepsSystem σ (rmwMem f a σ) := by
  rw [rmwMem_eq_writeBack]
  exact ⟨dp_of_keepsRegs (keepsRegs_writeBack _ _ _ σ) (by simp), by rw [cc_writeBack]; exact masks _ _⟩

theorem keepsSystem_rmwMemUndef {f : Bool → Byte → CC → Byte × CC} (masks : ∀ h v cc, KeepsMasks cc (f h v cc).2) (a : Addr) :
    KeepsSystem σ (rmwMemUndef f a σ) := by
  rw [rmwMemUndef_eq_writeBack]
  exact ⟨dp_of_keepsRegs (keepsRegs_writeBack _ _ _ σ) (by simp), by rw [cc_writeBack]; exact masks _ _ _⟩

theorem keepsSystem_rmwAcc {f : Byte → CC → Byte × CC} (masks : ∀ v cc, KeepsMasks cc (f v cc).2) (r : Acc) :
    KeepsSystem σ (rmwAcc f r σ) :=
  ⟨by simp [rmwAcc], by simpa [rmwAcc] using masks _ _⟩

theorem keepsSystem_rmwAccUndef {f : Bool → Byte → CC → Byte × CC} (masks : ∀ h v cc, KeepsMasks cc (f h v cc).2) (r : Acc) :
    KeepsSystem σ (rmwAccUndef f r σ) :=
  ⟨by simp [rmwAccUndef], by simpa [rmwAccUndef] using masks _ _ _⟩

theorem keepsSystem_load16 (r : Reg16) (src : Src16) : KeepsSystem σ (load16 r src σ) := by
  refine ⟨by cases r <;> simp [load16, writeReg16], ?_⟩
  rw [load16, cc_writeReg16, setCc_cc, cc_operand16]
  exact ⟨rfl, rfl, rfl⟩

theorem keepsSystem_store16 (r : Reg16) (a : Addr) : KeepsSystem σ (store16 r a σ) :=
  ⟨by simp [store16, writeWord], by simpa [store16, writeWord] using ⟨rfl, rfl, rfl⟩⟩

theorem keepsSystem_compare16 (r : Reg16) (src : Src16) : KeepsSystem σ (compare16 r src σ) :=
  ⟨by simp [compare16], by simpa [compare16] using ⟨rfl, rfl, rfl⟩⟩

theorem keepsSystem_call (target : Word) : KeepsSystem σ (call target σ) :=
  keepsSystem_of_eq (by simp [call]) (by simp [call])

theorem keepsSystem_leaState (r : Ptr) (i : Idx) : KeepsSystem σ (leaState r i σ) := by
  refine ⟨by simp [leaState], ?_⟩
  cases r <;> simpa [leaState, leaCc] using ⟨rfl, rfl, rfl⟩

end Shapes

/-- What O11 says of one instruction. -/
def WritesSystem (i : Instr) (σ τ : State) : Prop :=
  (loadsDp i = false → τ.dp = σ.dp) ∧ (loadsCc i = false → i ≠ .swi → τ.cc.f = σ.cc.f ∧ τ.cc.i = σ.cc.i) ∧
  (loadsCc i = false → isSwi i = false → τ.cc.e = σ.cc.e)

theorem writesSystem_of_keeps {i : Instr} {σ τ : State} (k : KeepsSystem σ τ) : WritesSystem i σ τ := by
  obtain ⟨dp, e, f, mask⟩ := k
  exact ⟨fun _ => dp, fun _ _ => ⟨f, mask⟩, fun _ _ => e⟩

/-- An instruction that loads CC as a whole keeps DP. -/
theorem writesSystem_of_loadsCc {i : Instr} {σ τ : State} (loads : loadsCc i = true) (dp : τ.dp = σ.dp) : WritesSystem i σ τ :=
  ⟨fun _ => dp, fun not => absurd (loads.symm.trans not) (by decide), fun not => absurd (loads.symm.trans not) (by decide)⟩

theorem writesSystem_pullRegs {i : Instr} {k : Stk} {mask : Byte} (dp : loadsDp i = mask.getLsbD 3) (cc : loadsCc i = mask.getLsbD 0)
    (σ : State) (c : Bool) : WritesSystem i σ (armNmiIf c (pullRegs k mask σ)) := by
  obtain ⟨-, -, memDp, -⟩ := mem_pulledRegs k mask
  have flags : loadsCc i = false → (pullRegs k mask σ).cc = σ.cc := fun not => by
    rw [cc_pullRegs, ← cc, not]; rfl
  refine ⟨fun not => ?_, fun not _ => ?_, fun not _ => ?_⟩
  · have free : ¬ mask.getLsbD 3 = true := by rw [← dp, not]; exact Bool.false_ne_true
    exact dp_of_keepsRegs (keepsRegs_pullRegs k mask σ) (mt memDp.mp free)
  · rw [armNmiIf_cc, flags not]; exact ⟨rfl, rfl⟩
  · rw [armNmiIf_cc, flags not]

theorem dp_notMem_regParts {r : Reg} (h : r ≠ .r8 .dp) : .r8 .dp ∉ regParts r := by
  rcases r with (_ | _ | _ | _ | _ | _) | (_ | _ | _ | _) <;> simp [regParts] at h ⊢

theorem writesSystem_transfer {src dst : Reg} {σ τ : State} (h : transfer src dst σ = some τ) (c : Bool) :
    WritesSystem (.tfr src dst) σ (armNmiIf c τ) := by
  obtain ⟨-, regs, flags⟩ := transfer_spec h
  have unloaded : loadsCc (.tfr src dst) = false → τ.cc = σ.cc := fun not => flags (beq_eq_false_iff_ne.mp not)
  refine ⟨fun not => ?_, fun not _ => ?_, fun not _ => ?_⟩
  · exact dp_of_keepsRegs regs (dp_notMem_regParts (beq_eq_false_iff_ne.mp not))
  · rw [armNmiIf_cc, unloaded not]; exact ⟨rfl, rfl⟩
  · rw [armNmiIf_cc, unloaded not]

theorem writesSystem_exchange {r t : Reg} {σ τ : State} (h : exchange r t σ = some τ) (c : Bool) :
    WritesSystem (.exg r t) σ (armNmiIf c τ) := by
  obtain ⟨-, -, regs, flags⟩ := exchange_spec h
  have unloaded : loadsCc (.exg r t) = false → τ.cc = σ.cc := fun not => by
    obtain ⟨first, second⟩ := Bool.or_eq_false_iff.mp not
    exact flags (beq_eq_false_iff_ne.mp first) (beq_eq_false_iff_ne.mp second)
  refine ⟨fun not => ?_, fun not _ => ?_, fun not _ => ?_⟩
  · obtain ⟨first, second⟩ := Bool.or_eq_false_iff.mp not
    refine dp_of_keepsRegs regs (mt List.mem_append.mp ?_)
    exact not_or.mpr ⟨dp_notMem_regParts (beq_eq_false_iff_ne.mp first), dp_notMem_regParts (beq_eq_false_iff_ne.mp second)⟩
  · rw [armNmiIf_cc, unloaded not]; exact ⟨rfl, rfl⟩
  · rw [armNmiIf_cc, unloaded not]

/-- The software interrupts set E, and SWI the masks; none writes DP. -/
theorem writesSystem_swiI (l : SwiLevel) (σ : State) : WritesSystem (swiI l) σ (takeException (swiExc l) σ) := by
  refine ⟨fun _ => dp_of_keepsRegs (keepsRegs_takeException _ σ) (by simp), fun _ other => ?_, fun _ not => ?_⟩
  · rw [cc_takeException, maskFor_eq]
    cases l with
    | one => exact absurd rfl other
    | two | three => simp [swiExc, stackedCc]
  · cases l <;> cases not

/-- Settles O11: instruction by instruction; most keep DP, E, F and I, the rest are the writers that the lists name. -/
theorem systemRegisterWriters : Obligations.SystemRegisterWriters := by
  intro i σ τ runs
  show WritesSystem i σ τ
  cases i with
  | adca src | adcb src | adda src | addb src =>
    cases runs; exact writesSystem_of_keeps (keepsSystem_accBinary σ (fun _ _ _ => ⟨rfl, rfl, rfl⟩) _ src)
  | anda src | andb src | eora src | eorb src | lda src | ldb src | ora src | orb src =>
    cases runs; exact writesSystem_of_keeps (keepsSystem_accBinary σ (fun _ _ _ => ⟨rfl, rfl, rfl⟩) _ src)
  | sbca src | sbcb src | suba src | subb src =>
    cases runs; exact writesSystem_of_keeps (keepsSystem_accBinaryUndef σ (fun _ _ _ _ => ⟨rfl, rfl, rfl⟩) _ src)
  | bita src | bitb src => cases runs; exact writesSystem_of_keeps (keepsSystem_accTest σ (fun _ _ _ => ⟨rfl, rfl, rfl⟩) _ src)
  | cmpa src | cmpb src => cases runs; exact writesSystem_of_keeps (keepsSystem_accCompare σ _ src)
  | sta a | stb a => cases runs; exact writesSystem_of_keeps (keepsSystem_storeAcc σ _ a)
  | asl a | asr a | neg a =>
    cases runs; exact writesSystem_of_keeps (keepsSystem_rmwMemUndef σ (fun _ _ _ => ⟨rfl, rfl, rfl⟩) a)
  | clr a | com a | dec a | inc a | lsr a | rol a | ror a =>
    cases runs; exact writesSystem_of_keeps (keepsSystem_rmwMem σ (fun _ _ => ⟨rfl, rfl, rfl⟩) a)
  | asla | aslb | asra | asrb | nega | negb | daa =>
    cases runs; exact writesSystem_of_keeps (keepsSystem_rmwAccUndef σ (fun _ _ _ => ⟨rfl, rfl, rfl⟩) _)
  | clra | clrb | coma | comb | deca | decb | inca | incb | lsra | lsrb | rola | rolb | rora | rorb =>
    cases runs; exact writesSystem_of_keeps (keepsSystem_rmwAcc σ (fun _ _ => ⟨rfl, rfl, rfl⟩) _)
  | tst a =>
    cases runs
    exact writesSystem_of_keeps ⟨dp_of_keepsRegs (testMem_frame a σ).1 (by simp), (logicFlags_testMem a σ).2.2.2.2⟩
  | tsta | tstb | mul | sex | abx | nop | sync => cases runs; exact writesSystem_of_keeps ⟨rfl, rfl, rfl, rfl⟩
  | addd src | subd src =>
    cases runs
    exact writesSystem_of_keeps ⟨by simp, by simpa using ⟨rfl, rfl, rfl⟩⟩
  | cmpd src | cmps src | cmpu src | cmpx src | cmpy src => cases runs; exact writesSystem_of_keeps (keepsSystem_compare16 σ _ src)
  | ldd src | ldu src | ldx src | ldy src | lds src => cases runs; exact writesSystem_of_keeps (keepsSystem_load16 σ _ src)
  | std a | sts a | stu a | stx a | sty a => cases runs; exact writesSystem_of_keeps (keepsSystem_store16 σ _ a)
  | leau i =>
    cases (exec_leaI .u i σ).symm.trans runs; exact writesSystem_of_keeps (keepsSystem_leaState σ .u i)
  | leax i =>
    cases (exec_leaI .x i σ).symm.trans runs; exact writesSystem_of_keeps (keepsSystem_leaState σ .x i)
  | leay i =>
    cases (exec_leaI .y i σ).symm.trans runs; exact writesSystem_of_keeps (keepsSystem_leaState σ .y i)
  | leas i =>
    cases (exec_leaI .s i σ).symm.trans runs; exact writesSystem_of_keeps (keepsSystem_leaState σ .s i)
  | exg src dst =>
    cases e : exchange src dst σ with
    | none => simp only [exec, execExg, e, reduceCtorEq] at runs
    | some υ =>
      simp only [exec, execExg, e, Host.Outcome.next.injEq] at runs
      exact runs ▸ writesSystem_exchange e _
  | tfr src dst =>
    cases e : transfer src dst σ with
    | none => simp only [exec, execTfr, e, reduceCtorEq] at runs
    | some υ =>
      simp only [exec, execTfr, e, Host.Outcome.next.injEq] at runs
      exact runs ▸ writesSystem_transfer e _
  | pshs mask =>
    cases runs; exact writesSystem_of_keeps (keepsSystem_of_keepsRegsAndFlags (keepsRegsAndFlags_pushRegs .s mask σ) (by simp [stkR]))
  | pshu mask =>
    cases runs; exact writesSystem_of_keeps (keepsSystem_of_keepsRegsAndFlags (keepsRegsAndFlags_pushRegs .u mask σ) (by simp [stkR]))
  | puls mask =>
    cases runs
    exact armNmiIf_false (pullRegs .s mask σ) ▸ writesSystem_pullRegs (k := .s) (i := .puls mask) rfl rfl σ false
  | pulu mask => cases runs; exact writesSystem_pullRegs rfl rfl σ _
  | bra off | brn off | bhi off | bls off | bcc off | bcs off | bne off | beq off | bvc off | bvs off | bpl off | bmi off
  | bge off | blt off | bgt off | ble off | lbra off | lbrn off | lbhi off | lbls off | lbcc off | lbcs off | lbne off
  | lbeq off | lbvc off | lbvs off | lbpl off | lbmi off | lbge off | lblt off | lbgt off | lble off =>
    cases runs; exact writesSystem_of_keeps (keepsSystem_of_keepsRegsAndFlags (frame_branch _ _ σ).1 (by simp))
  | bsr off | lbsr off => cases runs; exact writesSystem_of_keeps (keepsSystem_call σ _)
  | jsr a => cases runs; exact writesSystem_of_keeps (keepsSystem_of_eq (by simp [call]) (by simp [call]))
  | jmp a => cases runs; exact writesSystem_of_keeps (keepsSystem_of_eq (by simp) (by simp))
  | rts => cases runs; exact writesSystem_of_keeps (keepsSystem_of_eq (by simp [pullInto16]) (by simp [pullInto16]))
  | rti => exact ⟨nofun, nofun, nofun⟩
  | andcc n | orcc n => cases runs; exact writesSystem_of_loadsCc rfl rfl
  | swi => cases runs; exact writesSystem_swiI .one σ
  | swi2 => cases runs; exact writesSystem_swiI .two σ
  | swi3 => cases runs; exact writesSystem_swiI .three σ
  | cwai n =>
    cases (exec_cwai n σ).symm.trans runs
    exact writesSystem_of_loadsCc rfl (dp_of_keepsRegs (keepsRegs_waitingAfterPush _ σ) (by simp))

end Sys2Proof.Proofs
end

section
/-! PROOFS. The step of a machine that no pin stops (40_common_operations.md, 60_exceptions.md): the instruction run, the interrupt entered, the wait ended. -/

namespace Sys2Proof.Proofs

open Sys2Proof.Machine

/-- Settles O8: the values as `State.reset` writes them. -/
theorem resetStateValues : Obligations.ResetStateValues := ⟨rfl, rfl, rfl, rfl, rfl, rfl, rfl⟩

/-- Settles O60: memory is empty, no NMI is pending, the machine runs, nothing is logged. -/
theorem resetMeetsInvariant : Obligations.ResetMeetsInvariant := ⟨rfl, nofun, nofun, nofun⟩

/-! ### Priority (R403 to R407) -/

theorem serve_instruction {p : PinSample} {σ : State} (run : σ.run = .running) (none : takeable p σ = none) :
    serve p σ = .instruction σ := by
  rw [serve, run]; simp only [none]

/-- Settles O50: by the three guards in the order in which they are looked at. -/
theorem interruptPriority : Obligations.InterruptPriority := by
  intro p σ
  have guards : takeable p σ = if σ.nmiPending = true ∧ σ.nmiArmed = true then some .nmi
      else if p.firq = true ∧ σ.cc.f = false then some .firq
      else if p.irq = true ∧ σ.cc.i = false then some .irq else none := by
    simp [takeable, nmiTakeable]
  have run := serve_instruction (p := p) (σ := σ)
  rw [guards] at run ⊢
  by_cases nmi : σ.nmiPending = true ∧ σ.nmiArmed = true
  · simp [nmi]
  · by_cases firq : p.firq = true ∧ σ.cc.f = false
    · simp [nmi, firq]
    · by_cases irq : p.irq = true ∧ σ.cc.i = false
      · simp [nmi, firq, irq]
      · rw [if_neg nmi, if_neg firq, if_neg irq] at run ⊢
        exact ⟨by simp [nmi], by simp [firq], by simp [irq], by simp [nmi, firq, irq], run⟩

/-! ### The state that a boundary serves -/

/-- The pins and the bus leave every register. -/
theorem keepsRegsAndFlags_served (σ : State) : KeepsRegsAndFlags [] noDelta σ (served σ) := by
  have field : ∀ {α : Type} (g : State → α), (∀ (τ : State) n e b ls cs,
      g { τ with nmiPending := n, env := e, bus := b, lines := ls, cycles := cs } = g τ) → (∀ f τ, g (onBus f τ) = g τ) →
      g (served σ) = g σ := fun g hg hb => served_field g hg hb σ
  simp only [KeepsRegsAndFlags, KeepsRegs, noDelta, BitVec.ofNat_eq_ofNat, BitVec.add_zero]
  exact ⟨⟨fun _ => field State.a (fun _ _ _ _ _ _ => rfl) fun _ _ => rfl, fun _ => field State.b (fun _ _ _ _ _ _ => rfl) fun _ _ => rfl,
    fun _ => field State.dp (fun _ _ _ _ _ _ => rfl) fun _ _ => rfl, fun _ => field State.x (fun _ _ _ _ _ _ => rfl) fun _ _ => rfl,
    fun _ => field State.y (fun _ _ _ _ _ _ => rfl) fun _ _ => rfl, fun _ => field State.u (fun _ _ _ _ _ _ => rfl) fun _ _ => rfl,
    fun _ => field State.s (fun _ _ _ _ _ _ => rfl) fun _ _ => rfl, fun _ => field State.pc (fun _ _ _ _ _ _ => rfl) fun _ _ => rfl⟩,
    served_cc σ⟩

theorem served_nmiArmed (σ : State) : (served σ).nmiArmed = σ.nmiArmed :=
  served_field State.nmiArmed (fun _ _ _ _ _ _ => rfl) (fun _ _ => rfl) σ

theorem served_inReset (σ : State) : (served σ).inReset = σ.inReset :=
  served_field State.inReset (fun _ _ _ _ _ _ => rfl) (fun _ _ => rfl) σ

theorem peek_served (i : Word) (σ : State) : peek i (served σ) = peek i σ := peek_congr (served_mem σ) i

/-- A frame is the same of two states with the same registers. -/
theorem stackedFrame_of_keepsRegs {e : Exc} {σ τ : State} (h : KeepsRegsAndFlags [] noDelta σ τ) :
    stackedFrame e τ = stackedFrame e σ := by
  obtain ⟨⟨a, b, dp, x, y, u, -, pc⟩, cc⟩ := h
  simp only [noDelta, BitVec.ofNat_eq_ofNat, BitVec.add_zero] at x y u
  cases e <;> simp [stackedFrame, entireFrame, subsetFrame, cc, a (by simp), b (by simp), dp (by simp), x (by simp), y (by simp),
    u (by simp), pc (by simp)]

theorem quiet_served {σ : State} (p : PinsLetRun (nextSample σ)) : (served σ).cycles = none := by
  rw [served_cycles, stepCycles, p.2.2.2.1]

/-- A step that serves a request, where RES does not fall inside it. -/
theorem step_done {σ τ : State} (h : boundary σ = .done τ) (whole : (nextSample σ).resCut = none) : step σ = .next τ := by
  rw [step, h]
  exact congrArg Host.Outcome.next (cutByReset_none whole τ)

/-- A step in which the MPU makes no access. -/
theorem step_done_idle {σ τ : State} (h : boundary σ = .done τ) (idle : ownAccesses τ = 0) : step σ = .next τ := by
  rw [step, h]
  exact congrArg Host.Outcome.next (cutByReset_idle σ idle)

/-! ### The instruction (R428) -/

/-- A step that reaches an instruction runs it, lets its other cycles pass, and may be cut short. -/
theorem step_of_instruction {σ τ ω : State} {i : Instr} {rest : List Byte} (reached : boundary σ = .instruction τ)
    (decoded : decode (fetchWindow τ) = .ok (i, rest)) (runs : exec i (afterFetch i (5 - rest.length) τ) = .next ω) :
    step σ = .next (cutByReset σ (completeCycles (instrCycles i ω) ω)) := by
  rw [step, reached]
  simp only [stepInstruction, decoded, runs, settleOutcome]

/-- What remains of a step in which no cycle is granted: time passes and the inactive cycles are counted (log 3, log 28). -/
theorem completeCycles_of_none (n : Nat) {σ : State} (ungranted : σ.cycles = none) :
    completeCycles n σ = { σ with
      lines := σ.lines ++ List.replicate (n - mpuCycles σ.lines) .vma
      refreshCount := refreshAfter (n - 1) σ
      dmaIdle := σ.dmaIdle + (n - 1)
      elapsed := σ.elapsed + n } := by
  have counted : tick n σ = { σ with
      refreshCount := refreshAfter (n - 1) σ, dmaIdle := σ.dmaIdle + (n - 1), elapsed := σ.elapsed + n } := by
    simp [tick, onBus, setBusSide, busSide, idle, refreshAfter, ungranted]
  have quiet : (tick n σ).cycles = none := (tick_cycles σ n).trans ungranted
  rw [completeCycles, settle_of_none _ n quiet, tick_lines, counted]

theorem keeps_fetchBytes (n : Nat) (σ : State) : Keeps σ (fetchBytes n σ) := by
  obtain ⟨-, -, nmi, control, -⟩ := fetchBytes_spec n σ
  exact ⟨nmi, control⟩

theorem keeps_afterFetch (i : Instr) (n : Nat) (σ : State) : Keeps σ (afterFetch i n σ) :=
  (keeps_fetchBytes n σ).trans (keeps_vmaCycles _ _)

theorem makes_afterFetch (i : Instr) (n : Nat) (σ : State) : Makes IsRead σ (afterFetch i n σ) := by
  obtain ⟨-, -, -, -, reads⟩ := fetchBytes_spec n σ
  exact reads.trans (makes_vmaCycles _ _)

theorem regs_afterFetch (i : Instr) (n : Nat) (σ : State) :
    (afterFetch i n σ).pc = σ.pc + BitVec.ofNat 16 n ∧ KeepsRegsAndFlags [.r16 .pc] noDelta σ (afterFetch i n σ) := by
  obtain ⟨pc, regs, -⟩ := fetchBytes_spec n σ
  exact ⟨pc, regs⟩

/-- No cycle is granted inside an instruction where none is listed. -/
theorem exec_quiet {i : Instr} {σ τ : State} (runs : exec i σ = .next τ) (ungranted : σ.cycles = none) :
    τ.cycles = none ∧ KeepsCounters σ τ :=
  (onlyWaitsChangeRunState i σ τ runs).2.2.2.2.2 ungranted

/-- The bytes fetched are those that stand at PC and behind it (R45). -/
theorem fetched_eq_peek (n : Nat) {σ : State} (u : Undisturbed σ) : fetched n σ = peek (σ.pc + BitVec.ofNat 16 n) σ := by
  obtain ⟨pc, -, -, -, reads⟩ := fetchBytes_spec n σ
  have u' := undisturbed_of_keeps (keeps_fetchBytes n σ) u
  rw [fetched, readByte_fst, nextCycle_of_none _ u'.2, answer_eq_peek _ _ _ u'.1, pc]
  exact reads.leavesMemory u.2 _

theorem fetchWindow_eq_span {σ : State} (u : Undisturbed σ) : fetchWindow σ = (span σ.pc 5).map (fun a => peek a σ) := by
  have next : ∀ n : Nat, σ.pc + BitVec.ofNat 16 n + 1 = σ.pc + BitVec.ofNat 16 (n + 1) := fun n => add_ofNat_add σ.pc n 1
  have first : σ.pc + BitVec.ofNat 16 0 = σ.pc := by simp
  simp only [fetchWindow, fetched_eq_peek _ u, span, List.map_cons, List.map_nil]
  rw [first, ← next 3, ← next 2, ← next 1, ← next 0, first]

/-- A running machine with nothing on its pins takes the bus and runs the next instruction. -/
theorem boundary_atInstruction {σ : State} (h : AtInstruction σ) : boundary σ = .instruction (served σ) := by
  obtain ⟨run, halted, inReset, latched, env⟩ := h
  have sample := nextSample_nil env
  have none : takeable (nextSample σ) (served σ) = none := by
    rw [takeable_served, sample]
    simp [takeable, noteNmi, idlePins, latched]
  rw [boundary_of_unstopped ⟨halted, inReset⟩ (by rw [sample]; exact ⟨rfl, rfl, rfl, rfl, rfl⟩)]
  exact serve_instruction ((served_run σ).trans run) none

/-- The state in which it runs: the bus is taken after a dead cycle where it was granted, and each cycle that begins is counted. -/
theorem served_atInstruction {σ : State} (h : AtInstruction σ) : served σ = { σ with
    env := []
    bus := []
    lines := if σ.busGranted then [.pass (some (false, false)) false] else []
    cycles := none
    busGranted := false
    refreshCount := refreshAfter (1 + σ.busGranted.toNat) σ
    dmaIdle := σ.dmaIdle + (1 + σ.busGranted.toNat)
    elapsed := σ.elapsed + σ.busGranted.toNat } := by
  obtain ⟨run, halted, -, -, env⟩ := h
  cases granted : σ.busGranted
  · simp [served, noted, noteNmi, beginStep, idlePins, env, stepCycles, regainBus, staysReleased, halted, run, onBus, setBusSide,
      busSide, leaveGrant, takeBack, countPin, idle, refreshAfter, granted]
  · simp [served, noted, noteNmi, beginStep, idlePins, env, stepCycles, regainBus, staysReleased, halted, run, onBus, setBusSide,
      busSide, leaveGrant, takeBack, countPin, idle, passCycle, otherWrite, refreshAfter, granted]
    split
    · rfl
    · exact if_neg (by omega)

/-- Settles O6: the step as `step_of_instruction` has it, fetching by `fetchBytes_spec`, and the boundary of a machine at an instruction. -/
theorem stepRunsDecodedInstruction : Obligations.StepRunsDecodedInstruction := by
  refine ⟨fun σ τ i rest reached decoded => ⟨fun ω runs => step_of_instruction reached decoded runs, fun whole ungranted ω runs => ?_,
    fetchWindow_eq_span, ?_⟩, fun σ h => (boundary_atInstruction h).trans (congrArg _ (served_atInstruction h))⟩
  · obtain ⟨-, -, -, -, -, -, counters⟩ := keeps_afterFetch i (5 - rest.length) τ
    rw [step_of_instruction reached decoded runs, cutByReset_none whole,
      completeCycles_of_none _ (exec_quiet runs (counters ungranted).1).1]
  · obtain ⟨pc, regs⟩ := regs_afterFetch i (5 - rest.length) τ
    obtain ⟨nmi, control⟩ := keeps_afterFetch i (5 - rest.length) τ
    exact ⟨pc, regs, (makes_afterFetch i _ τ).leavesMemory, nmi, control⟩

/-! ### Hardware interrupts (R403 to R412) -/

theorem keepsNmi_stackState (e : Exc) (σ : State) : KeepsNmi σ (stackState e σ) := (keeps_stackState σ e).1

theorem nmi_takeException (e : Exc) (σ : State) : (takeException e σ).nmiArmed = σ.nmiArmed ∧
    (takeException e σ).nmiPending = if e = .nmi then false else σ.nmiPending := by
  obtain ⟨armed, pending⟩ := nmi_takeVector (stackState e σ) e
  obtain ⟨armed', pending'⟩ := keepsNmi_stackState e σ
  exact ⟨armed.trans armed', by rw [takeException, pending, pending']⟩

theorem control_takeException (e : Exc) (σ : State) : KeepsControl σ (takeException e σ) :=
  KeepsControl.trans (keeps_stackState σ e).2 (keepsControl_takeVector _ e)

/-- The cycles that complete an operation leave every register. -/
theorem keepsRegsAndFlags_completeCycles (n : Nat) (σ : State) : KeepsRegsAndFlags [] noDelta σ (completeCycles n σ) := by
  simp [KeepsRegsAndFlags, KeepsRegs, noDelta]

theorem boundary_takes {σ : State} {e : Exc} (run : σ.run = .running) (h : Unstopped σ) (p : PinsLetRun (nextSample σ))
    (takes : takeable (nextSample σ) (noteNmi (nextSample σ) σ) = some e) :
    boundary σ = .done (entryTick e (takeException e (served σ))) := by
  have takes' : takeable (nextSample σ) (served σ) = some e := (takeable_served σ).trans takes
  rw [boundary_of_unstopped h p, serve, served_run, run]
  simp only [takes']

/-- The frame of the interrupts that a boundary takes: its size, the CC in it and the CC that the entry leaves. -/
theorem entry_of_takeable {p : PinSample} {τ : State} {e : Exc} (takes : takeable p τ = some e) (σ : State) :
    (if e = .firq then 3 else 12) = frameSize e ∧
    (if e = .firq then subsetFrame { σ.cc with e := !(e == .firq) } σ else entireFrame { σ.cc with e := !(e == .firq) } σ) =
      stackedFrame e σ ∧
    (∀ cc : CC, maskFor e (stackedCc e cc) = { cc with e := !(e == .firq), i := true, f := cc.f || e != .irq }) ∧
    ∀ cc : CC, maskFor e cc = { cc with i := true, f := cc.f || e != .irq } := by
  obtain rfl | rfl | rfl := takeable_mem takes <;> exact ⟨rfl, rfl, fun cc => by simp [maskFor, stackedCc], fun cc => by simp [maskFor]⟩

/-- Settles O51: the step is the entry of the interrupt taken from the state served. -/
theorem hardwareInterruptEntry : Obligations.HardwareInterruptEntry := by
  intro e σ plain wf run unstopped pins takes
  obtain ⟨size, frame, flags, -⟩ := entry_of_takeable takes σ
  have u : Undisturbed (served σ) := undisturbed_served plain pins.2.2.2.1
  have servedRegs := keepsRegsAndFlags_served σ
  have entered := keepsRegs_takeException e (served σ)
  obtain ⟨holds, outside, vector, und⟩ := takeException_memory e u ((congrArg Memory.wf (served_mem σ)).trans wf)
  obtain ⟨armed, pending⟩ := nmi_takeException e (served σ)
  obtain ⟨run', halted, inReset, -⟩ := control_takeException e (served σ)
  have memory : (entryTick e (takeException e (served σ))).mem = (takeException e (served σ)).mem := completeCycles_mem _ _ und.2
  have stack : (entryTick e (takeException e (served σ))).s = (takeException e (served σ)).s := rfl
  rw [stackedFrame_of_keepsRegs servedRegs] at holds
  refine ⟨_, step_done (boundary_takes run unstopped pins takes) pins.2.2.2.2, ⟨?_, ?_, ?_, ?_⟩, ?_, ?_, ?_, ?_, ?_, ?_, ?_⟩
  · rw [stack, size, s_takeException]
    congr 1
    exact ptr_of_keepsRegs servedRegs.1 .s |>.trans (by simp [noDelta])
  · rw [stack, frame]; exact (memoryHolds_congr memory _ _).mpr holds
  · rw [stack, size]
    exact fun i other => (peek_congr memory i).trans ((outside i other).trans (peek_served i σ))
  · refine (cc_takeException e (served σ)).trans ?_
    rw [served_cc, flags]
  · exact vector.trans (peekWord_congr memory _).symm
  · refine pending.trans ?_
    rw [served_nmiPending]
  · exact armed.trans (served_nmiArmed σ)
  · exact KeepsRegs.mono (by simp) (KeepsRegs.trans_noDelta servedRegs.1 (KeepsRegs.trans_noDelta entered (keepsRegsAndFlags_completeCycles _ _).1))
  · exact run'.trans ((served_run σ).trans run)
  · exact halted.trans ((served_halted σ).trans unstopped.1)
  · exact inReset.trans ((served_inReset σ).trans unstopped.2)

/-! ### The waits (R418, R419) -/

theorem takeable_none_iff (p : PinSample) (σ : State) :
    takeable p σ ≠ none ↔ nmiTakeable σ = true ∨ (p.firq = true ∧ σ.cc.f = false) ∨ (p.irq = true ∧ σ.cc.i = false) := by
  obtain ⟨-, -, -, none, -⟩ := interruptPriority p σ
  rw [Ne, none, nmiTakeable, Bool.and_eq_true]
  tauto

/-- What ends the Sync state is a request that can be taken or a line that is low. -/
theorem wakesSync_iff (p : PinSample) (σ : State) :
    wakesSync p σ = true ↔ takeable p σ ≠ none ∨ p.firq = true ∨ p.irq = true := by
  rw [takeable_none_iff, wakesSync, Bool.or_eq_true, Bool.or_eq_true]
  tauto

theorem mem_takeVector (e : Exc) {σ : State} (ungranted : σ.cycles = none) : (takeVector e σ).mem = σ.mem := by
  have still : (masked e σ).cycles = none := (congrArg BusSide.cycles (busSide_masked σ e)).trans ungranted
  rw [takeVector_eq_fetch, setPc_mem, mem_readVector _ _ still]
  exact congrArg BusSide.mem (busSide_masked σ e)

/-- A cycle that is not the MPU's leaves every register and every control field. -/
theorem keepsRegsAndFlags_onBus (f : BusSide → BusSide) (σ : State) : KeepsRegsAndFlags [] noDelta σ (onBus f σ) := by
  simp [KeepsRegsAndFlags, KeepsRegs, noDelta]

theorem KeepsRegsAndFlags.trans {σ τ υ : State} (h : KeepsRegsAndFlags [] noDelta σ τ) (k : KeepsRegsAndFlags [] noDelta τ υ) :
    KeepsRegsAndFlags [] noDelta σ υ :=
  ⟨KeepsRegs.trans_noDelta h.1 k.1, k.2.trans h.2⟩

theorem keepsRegsAndFlags_setRun (r : RunState) (σ : State) : KeepsRegsAndFlags [] noDelta σ (setRun r σ) :=
  ⟨keepsRegs_setRun r σ, rfl⟩

/-- What memory is after a cycle of a wait, from the memory at the beginning of the step. -/
theorem mem_idleCycle_served {σ τ : State} (p : PinSample) (memory : τ.mem = σ.mem) (plat : τ.platform = σ.platform) :
    (idleCycle p τ).mem = (otherWrite (if busReleased τ then p.write else none) (busSide σ)).mem :=
  otherWrite_mem _ memory plat

theorem busReleased_served_sync {σ : State} (run : σ.run = .syncing) (h : Unstopped σ) : busReleased (served σ) = true := by
  simp [busReleased, baBs, h.1, h.2, run, served_inReset]

theorem busReleased_served_cwai {σ : State} (run : σ.run = .cwaiWaiting) (h : Unstopped σ) : busReleased (served σ) = false := by
  simp [busReleased, baBs, h.1, h.2, run, served_inReset]

/-- The Sync state at a boundary. -/
theorem boundary_syncing {σ : State} (run : σ.run = .syncing) (h : Unstopped σ) (p : PinsLetRun (nextSample σ)) :
    boundary σ = .done (if wakesSync (nextSample σ) (served σ) then resumeCycle (setRun .running (served σ))
      else idleCycle (nextSample σ) (served σ)) := by
  rw [boundary_of_unstopped h p, serve, served_run, run]
  simp only
  split <;> rfl

/-- CWAI's wait at a boundary. -/
theorem boundary_cwaiWaiting {σ : State} (run : σ.run = .cwaiWaiting) (h : Unstopped σ) (p : PinsLetRun (nextSample σ)) :
    boundary σ = .done (match takeable (nextSample σ) (noteNmi (nextSample σ) σ) with
      | some e => completeCycles vectorCycles (takeVector e (setRun .running (served σ)))
      | none => idleCycle (nextSample σ) (served σ)) := by
  rw [boundary_of_unstopped h p, serve, served_run, run]
  simp only [takeable_served]
  cases takeable (nextSample σ) (noteNmi (nextSample σ) σ) <;> rfl

/-- The Sync state ends with nothing stacked, or goes on. -/
theorem step_syncing {σ : State} (run : σ.run = .syncing) (h : Unstopped σ) (p : PinsLetRun (nextSample σ)) :
    ∃ τ : State, step σ = .next τ ∧
      (τ.run = .running ↔ takeable (nextSample σ) (noteNmi (nextSample σ) σ) ≠ none ∨ (nextSample σ).firq = true ∨ (nextSample σ).irq = true) ∧
      (τ.run ≠ .running → τ.run = .syncing ∧ τ.mem = (otherWrite (nextSample σ).write (busSide σ)).mem) ∧
      (τ.run = .running → τ.mem = σ.mem) ∧ (∀ c ∈ τ.bus, c.other = true) ∧
      KeepsRegsAndFlags [] noDelta σ τ ∧ τ.nmiPending = pendingAfterNote σ := by
  refine ⟨_, step_done (boundary_syncing run h p) p.2.2.2.2, ?_⟩
  rw [← takeable_served, ← wakesSync_iff]
  cases wakes : wakesSync (nextSample σ) (served σ)
  · have running : (idleCycle (nextSample σ) (served σ)).run = .syncing := (served_run σ).trans run
    simp only [Bool.false_eq_true, if_false, running]
    refine ⟨by simp, fun _ => ⟨trivial, ?_⟩, nofun, (follows_idleCycle _ _).others (served_bus σ),
      KeepsRegsAndFlags.trans (keepsRegsAndFlags_served σ) (keepsRegsAndFlags_onBus _ _), served_nmiPending σ⟩
    rw [mem_idleCycle_served _ (served_mem σ) (served_platform σ), busReleased_served_sync run h, if_pos rfl]
  · have running : (resumeCycle (setRun .running (served σ))).run = .running := rfl
    simp only [if_true, running]
    refine ⟨by simp, fun not => absurd rfl not, fun _ => served_mem σ, (follows_resumeCycle _).others (served_bus σ), ?_, served_nmiPending σ⟩
    exact KeepsRegsAndFlags.trans (KeepsRegsAndFlags.trans (keepsRegsAndFlags_served σ) (keepsRegsAndFlags_setRun _ _))
      (keepsRegsAndFlags_onBus _ _)

/-- CWAI's wait ends with the masks and the vector of the interrupt, or goes on. -/
theorem step_cwaiWaiting {σ : State} (run : σ.run = .cwaiWaiting) (h : Unstopped σ) (p : PinsLetRun (nextSample σ)) :
    ∃ τ : State, step σ = .next τ ∧ KeepsMemory σ τ ∧
      (∀ e : Exc, takeable (nextSample σ) (noteNmi (nextSample σ) σ) = some e →
        τ.run = .running ∧ (σ.platform = [] → τ.pc = peekWord (vectorOf e) σ) ∧
        τ.cc = { σ.cc with i := true, f := σ.cc.f || e != .irq } ∧ KeepsRegs [.r16 .pc] noDelta σ τ ∧
        τ.nmiPending = (if e = .nmi then false else pendingAfterNote σ)) ∧
      (takeable (nextSample σ) (noteNmi (nextSample σ) σ) = none →
        τ.run = .cwaiWaiting ∧ KeepsRegsAndFlags [] noDelta σ τ ∧ τ.nmiPending = pendingAfterNote σ) := by
  refine ⟨_, step_done (boundary_cwaiWaiting run h p) p.2.2.2.2, ?_⟩
  cases takes : takeable (nextSample σ) (noteNmi (nextSample σ) σ) with
  | none =>
    refine ⟨fun i => peek_congr ?_ i, nofun, fun _ => ⟨(served_run σ).trans run, ?_, served_nmiPending σ⟩⟩
    · exact (mem_idleCycle_served _ (served_mem σ) (served_platform σ)).trans (by rw [busReleased_served_cwai run h]; rfl)
    · exact KeepsRegsAndFlags.trans (keepsRegsAndFlags_served σ) (keepsRegsAndFlags_onBus _ _)
  | some e =>
    have quiet : (setRun .running (served σ)).cycles = none := quiet_served p
    obtain ⟨run', -, -, -, -, counters⟩ := keepsControl_takeVector (setRun .running (served σ)) e
    have regs := KeepsRegs.trans_noDelta (KeepsRegs.trans_noDelta (keepsRegsAndFlags_served σ).1 (keepsRegs_setRun .running _))
      (keepsRegs_takeVector e (setRun .running (served σ)))
    refine ⟨fun i => peek_congr ?_ i, fun e' same => ?_, nofun⟩
    · rw [completeCycles_mem _ _ (counters quiet).1, mem_takeVector e quiet, setRun_mem, served_mem]
    · obtain rfl : e = e' := Option.some.inj same
      obtain ⟨-, -, -, flags⟩ := entry_of_takeable takes σ
      rw [completeCycles_run, completeCycles_pc, completeCycles_cc, completeCycles_nmiPending]
      refine ⟨run', fun plain => ?_, ?_, KeepsRegs.mono (by simp) (KeepsRegs.trans_noDelta regs (keepsRegsAndFlags_completeCycles _ _).1), ?_⟩
      · have u : Undisturbed (setRun .running (served σ)) := undisturbed_served plain p.2.2.2.1
        exact (takeVector_memory e u).2.trans (peekWord_congr (served_mem σ) _)
      · rw [cc_takeVector, setRun_cc, served_cc, flags]
      · rw [(nmi_takeVector _ e).2, setRun_nmiPending, served_nmiPending]

/-- Settles O53: the two waits, each as its boundary serves it. -/
theorem waitsEndOnRequests : Obligations.WaitsEndOnRequests := fun _ h p =>
  ⟨fun run => step_syncing run h p, fun run => step_cwaiWaiting run h p⟩

end Sys2Proof.Proofs
end

section
/-! PROOFS. HALT, DMA/BREQ and RES at the boundary (60_exceptions.md R420 to R430, 70_reset_and_hazards.md R450 to R456). -/

namespace Sys2Proof.Proofs

open Sys2Proof.Machine

/-! ### The bus at the boundary -/

theorem noted_lines (σ : State) : (noted σ).lines = [] := by
  simp only [noted, noteNmi, beginStep]; split <;> rfl

/-- A machine that does not take the bus has no dead cycle (log 26). -/
theorem served_lines_of_released {σ : State} (h : staysReleased (nextSample σ) (noted σ) = true) : (served σ).lines = [] := by
  rw [served, regainBus, h, if_pos rfl]
  refine Eq.trans ?_ (noted_lines σ)
  cases (nextSample σ).dmaBreq <;> rfl

theorem staysReleased_noted (p : PinSample) (σ : State) : staysReleased p (noted σ) = staysReleased p σ := by
  have halted : (noted σ).halted = σ.halted := noted_field State.halted (fun _ _ _ _ _ _ => rfl) σ
  have run : (noted σ).run = σ.run := noted_field State.run (fun _ _ _ _ _ _ => rfl) σ
  rw [staysReleased, halted, run, staysReleased]

theorem lookedCycles_noted (p : PinSample) (σ : State) : lookedCycles p (noted σ) = lookedCycles p σ := by
  have granted : (noted σ).busGranted = σ.busGranted := noted_field State.busGranted (fun _ _ _ _ _ _ => rfl) σ
  rw [lookedCycles, granted, staysReleased_noted, lookedCycles]

theorem refreshAfter_noted (n : Nat) (σ : State) : refreshAfter n (noted σ) = refreshAfter n σ := by
  have idle : (noted σ).dmaIdle = σ.dmaIdle := noted_field State.dmaIdle (fun _ _ _ _ _ _ => rfl) σ
  have count : (noted σ).refreshCount = σ.refreshCount := noted_field State.refreshCount (fun _ _ _ _ _ _ => rfl) σ
  rw [refreshAfter, idle, count, refreshAfter]

/-- The counters once the MPU has its next cycle. -/
theorem served_counts (σ : State) :
    (served σ).dmaIdle = (if (nextSample σ).dmaBreq then 0 else σ.dmaIdle + lookedCycles (nextSample σ) σ) ∧
    (served σ).refreshCount = (if (nextSample σ).dmaBreq then if 15 ≤ σ.refreshCount then 0 else σ.refreshCount
      else refreshAfter (lookedCycles (nextSample σ) σ) σ) := by
  have idle : (noted σ).dmaIdle = σ.dmaIdle := noted_field State.dmaIdle (fun _ _ _ _ _ _ => rfl) σ
  have count : (noted σ).refreshCount = σ.refreshCount := noted_field State.refreshCount (fun _ _ _ _ _ _ => rfl) σ
  have counts := regainBus_counts (nextSample σ) (noted σ)
  rwa [lookedCycles_noted, refreshAfter_noted, idle, count] at counts

/-- Where the MPU stays off the bus one cycle is counted, as after one inactive cycle. -/
theorem served_counts_of_released {σ : State} (high : (nextSample σ).dmaBreq = false) (h : staysReleased (nextSample σ) σ = true) :
    (served σ).dmaIdle = σ.dmaIdle + 1 ∧ (served σ).refreshCount = refreshAfter 1 σ := by
  have one : lookedCycles (nextSample σ) σ = 1 := by simp [lookedCycles, h]
  have counts := served_counts σ
  rw [one, high] at counts
  simpa using counts

/-- A cycle that is not the MPU's touches memory alone, by another master's write, and shows its levels. -/
theorem onBus_passCycle (levels : Option (Bool × Bool)) (w : Option (Word × Byte)) (σ : State) :
    (onBus (passCycle levels w) σ).lines = σ.lines ++ [.pass levels w.isSome] ∧
    (onBus (passCycle levels w) σ).busGranted = σ.busGranted ∧ (onBus (passCycle levels w) σ).dmaIdle = σ.dmaIdle ∧
    (onBus (passCycle levels w) σ).refreshCount = σ.refreshCount := by
  simp [onBus, setBusSide, passCycle, busSide]

/-- One cycle that is not the MPU's shows its levels and nothing else. -/
theorem busTrace_pass (levels : Option (Bool × Bool)) (w : Bool) (cs : List BusCycle) :
    (busTrace [.pass levels w] cs).map (fun c => c.2) = [levels] := by
  cases w <;> cases cs <;> rfl

/-! ### HALT (R420, R422) -/

/-- The state served with HALT's overlay put on or taken off. -/
def overlaid (h : Bool) (σ : State) : State := { served σ with halted := h }

theorem keepsRegsAndFlags_overlaid (h : Bool) (σ : State) : KeepsRegsAndFlags [] noDelta σ (overlaid h σ) := keepsRegsAndFlags_served σ

/-- HALT low: the machine is halted, or stays so (R420). -/
theorem boundary_haltLow {σ : State} (hi : σ.inReset = false) (hr : (nextSample σ).res = false)
    (hd : (nextSample σ).dmaBreq = false) (low : (nextSample σ).halt = true) :
    boundary σ = .done (idleCycle (nextSample σ) (overlaid true σ)) := by
  rw [boundary_of_pins hi hr hd, serveHalt, low, overlaid]
  cases already : (served σ).halted
  · rfl
  · have same : ({ served σ with halted := true } : State) = served σ := by rw [← already]
    rw [same]; rfl

/-- HALT high: a halted machine goes on (R420). -/
theorem boundary_haltHigh {σ : State} (hi : σ.inReset = false) (hr : (nextSample σ).res = false)
    (hd : (nextSample σ).dmaBreq = false) (high : (nextSample σ).halt = false) (was : σ.halted = true) :
    boundary σ = .done (resumeCycle (overlaid false σ)) := by
  rw [boundary_of_pins hi hr hd, serveHalt, high, served_halted, was]
  rfl

theorem baBs_overlaid (σ : State) : baBs (overlaid true σ) = some (true, true) := if_pos (.inr rfl)

/-- Settles O54: by the one cycle that a boundary with HALT serves. -/
theorem haltStopsAndResumes : Obligations.HaltStopsAndResumes := by
  refine fun σ hi hr hd => ⟨fun low => ?_, fun high was => ?_⟩
  · have released : staysReleased (nextSample σ) σ = true := by simp [staysReleased, low]
    obtain ⟨idle, count⟩ := served_counts_of_released hd released
    obtain ⟨lines, granted, idle', count'⟩ := onBus_passCycle (baBs (overlaid true σ))
      (if busReleased (overlaid true σ) then (nextSample σ).write else none) (overlaid true σ)
    have free : busReleased (overlaid true σ) = true := by rw [busReleased, baBs_overlaid]
    have others : ∀ c ∈ (idleCycle (nextSample σ) (overlaid true σ)).bus, c.other = true :=
      (follows_idleCycle _ (overlaid true σ)).others (served_bus σ)
    have granted' : (idleCycle (nextSample σ) (overlaid true σ)).busGranted = false := granted.trans (served_busGranted σ)
    have inReset : (idleCycle (nextSample σ) (overlaid true σ)).inReset = false := (served_inReset σ).trans hi
    have halted : (idleCycle (nextSample σ) (overlaid true σ)).halted = true := rfl
    refine ⟨_, step_done_idle (boundary_haltLow hi hr hd low) (ownAccesses_zero others), ?_, if_pos (.inr halted), ?_, served_run σ,
      KeepsRegsAndFlags.trans (keepsRegsAndFlags_overlaid true σ) (keepsRegsAndFlags_onBus _ _), others, ?_, served_nmiPending σ,
      served_nmiArmed σ, idle'.trans idle, count'.trans count⟩
    · simp [runStateName, granted', inReset, halted]
    · rw [shownCycles, idleCycle, lines, baBs_overlaid, show (overlaid true σ).lines = [] from
        served_lines_of_released ((staysReleased_noted _ σ).trans released)]
      exact busTrace_pass _ _ _
    · refine (mem_idleCycle_served _ (τ := overlaid true σ) (served_mem σ) (served_platform σ)).trans ?_
      rw [free, if_pos rfl]
  · have released : staysReleased (nextSample σ) σ = true := by simp [staysReleased, was]
    obtain ⟨idle, count⟩ := served_counts_of_released hd released
    obtain ⟨-, -, idle', count'⟩ := onBus_passCycle (baBs (overlaid false σ)) none (overlaid false σ)
    have others : ∀ c ∈ (resumeCycle (overlaid false σ)).bus, c.other = true :=
      (follows_resumeCycle (overlaid false σ)).others (served_bus σ)
    exact ⟨_, step_done_idle (boundary_haltHigh hi hr hd high was) (ownAccesses_zero others), rfl, served_run σ,
      KeepsRegsAndFlags.trans (keepsRegsAndFlags_overlaid false σ) (keepsRegsAndFlags_onBus _ _), served_mem σ, served_nmiPending σ,
      served_nmiArmed σ, idle'.trans idle, count'.trans count⟩

/-! ### DMA/BREQ (R33, R421, R463) -/

theorem grants_noted (low : Bool) (σ : State) : grants low (busSide (noted σ)) = grants low (busSide σ) := by
  simp only [noted, noteNmi, beginStep]
  split <;> rfl

/-- Out of reset DMA/BREQ is looked at first: a cycle is granted, or the MPU has its next one (R428). -/
theorem boundary_dma {σ : State} (hi : σ.inReset = false) (hr : (nextSample σ).res = false) :
    boundary σ = if grants (nextSample σ).dmaBreq (busSide σ) then .done (onBus (grantOne (nextSample σ).write) (noted σ))
      else serveHalt (nextSample σ) (served σ) := by
  have running : (beginStep σ).inReset = false := hi
  rw [← grants_noted]
  simp only [boundary, hr, running, serveDma, served, noted, Bool.false_eq_true, if_false]
  rfl

/-- One cycle granted: its levels, the counter, and nothing of the registers. -/
theorem onBus_grantOne (w : Option (Word × Byte)) (σ : State) :
    (onBus (grantOne w) σ).lines = σ.lines ++ [.pass (some (true, true)) (if σ.busGranted then w else none).isSome] ∧
    (onBus (grantOne w) σ).busGranted = true ∧ (onBus (grantOne w) σ).dmaIdle = 0 ∧
    (onBus (grantOne w) σ).refreshCount = σ.refreshCount + 1 := by
  simp [onBus, setBusSide, grantOne, passCycle, countPin, busSide]
  rfl

/-- What another master writes in a granted cycle: nothing in the first (C26). -/
theorem mem_grantOne (w : Option (Word × Byte)) {σ τ : State} (memory : τ.mem = σ.mem) (plat : τ.platform = σ.platform)
    (granted : τ.busGranted = σ.busGranted) :
    (onBus (grantOne w) τ).mem = if σ.busGranted then (otherWrite w (busSide σ)).mem else σ.mem := by
  have pass : (onBus (grantOne w) τ).mem = (otherWrite (if τ.busGranted then w else none) (busSide τ)).mem := by
    simp only [onBus, setBusSide, grantOne, countPin, busSide]
    rfl
  rw [pass, granted]
  cases σ.busGranted
  · exact memory
  · exact otherWrite_mem w memory plat

/-- Settles O55: the two answers of `grants` at the boundary, and the rest of an instruction inside which the pin stays high. -/
theorem dmaRequestGrantsBus : Obligations.DmaRequestGrantsBus := by
  refine ⟨fun σ hi hr low => ⟨fun below undelayed => ?_, fun refused => ?_⟩, fun σ hi hr high => ?_,
    fun σ τ ω υ i rest reached ungranted whole decoded runs steps => ?_⟩
  · have grant : grants (nextSample σ).dmaBreq (busSide σ) = true := by
      simp [grants, low, undelayed, show (busSide σ).refreshCount < 15 from below]
    have bound := boundary_dma hi hr
    rw [grant, if_pos rfl] at bound
    have others : ∀ c ∈ (onBus (grantOne (nextSample σ).write) (noted σ)).bus, c.other = true :=
      (follows_grantOne _ (noted σ)).others (noted_bus σ)
    obtain ⟨lines, granted, idle, count⟩ := onBus_grantOne (nextSample σ).write (noted σ)
    have field : ∀ {α : Type} (g : State → α), (∀ (τ : State) n e b ls cs,
        g { τ with nmiPending := n, env := e, bus := b, lines := ls, cycles := cs } = g τ) → g (noted σ) = g σ :=
      fun g hg => noted_field g hg σ
    have inReset : (onBus (grantOne (nextSample σ).write) (noted σ)).inReset = false := (field State.inReset fun _ _ _ _ _ _ => rfl).trans hi
    refine ⟨_, step_done_idle bound (ownAccesses_zero others), ?_, if_pos (.inl granted), ?_,
      count.trans (congrArg (· + 1) (field State.refreshCount fun _ _ _ _ _ _ => rfl)), idle, field State.run fun _ _ _ _ _ _ => rfl,
      field State.halted fun _ _ _ _ _ _ => rfl, ⟨?_, field State.cc fun _ _ _ _ _ _ => rfl⟩, others, ?_, noted_nmiPending σ,
      field State.nmiArmed fun _ _ _ _ _ _ => rfl⟩
    · rw [runStateName, if_neg (by rw [inReset]; exact Bool.false_ne_true), if_pos granted]
    · rw [shownCycles, lines, noted_lines]
      exact busTrace_pass _ _ _
    · simp only [KeepsRegs, noDelta, BitVec.ofNat_eq_ofNat, BitVec.add_zero]
      exact ⟨fun _ => field State.a fun _ _ _ _ _ _ => rfl, fun _ => field State.b fun _ _ _ _ _ _ => rfl,
        fun _ => field State.dp fun _ _ _ _ _ _ => rfl, fun _ => field State.x fun _ _ _ _ _ _ => rfl,
        fun _ => field State.y fun _ _ _ _ _ _ => rfl, fun _ => field State.u fun _ _ _ _ _ _ => rfl,
        fun _ => field State.s fun _ _ _ _ _ _ => rfl, fun _ => field State.pc fun _ _ _ _ _ _ => rfl⟩
    · exact mem_grantOne _ (field State.mem fun _ _ _ _ _ _ => rfl) (field State.platform fun _ _ _ _ _ _ => rfl)
        (field State.busGranted fun _ _ _ _ _ _ => rfl)
  · have grant : grants (nextSample σ).dmaBreq (busSide σ) = false := by
      rw [low, grants]
      obtain full | delayed := refused
      · simp [show ¬ (busSide σ).refreshCount < 15 from Nat.not_lt.mpr full]
      · simp [delayed]
    have bound := boundary_dma hi hr
    rw [grant, if_neg Bool.false_ne_true] at bound
    obtain ⟨idle, count⟩ := served_counts σ
    rw [low, if_pos rfl] at idle count
    exact ⟨served σ, bound, served_busGranted σ, idle, count, served_run σ, served_halted σ, keepsRegsAndFlags_served σ, served_mem σ,
      served_bus σ, served_nmiPending σ, served_nmiArmed σ⟩
  · obtain ⟨idle, count⟩ := served_counts σ
    rw [high, if_neg Bool.false_ne_true] at idle count
    exact ⟨served σ, boundary_of_pins hi hr high, served_busGranted σ, idle, count, served_run σ, served_halted σ,
      keepsRegsAndFlags_served σ, served_mem σ, served_bus σ⟩
  · obtain ⟨-, -, -, -, -, -, fetching⟩ := keeps_afterFetch i (5 - rest.length) τ
    obtain ⟨quiet, -, count, idle, -⟩ := fetching ungranted
    obtain ⟨quiet', -, count', idle', -⟩ := exec_quiet runs quiet
    rw [step_of_instruction reached decoded runs, cutByReset_none whole] at steps
    cases steps
    rw [completeCycles_of_none _ quiet']
    simp only [refreshAfter, idle', count', idle, count, and_self]

/-! ### RES low (R450, R456) -/

/-- The overlays that RES low leaves: the bus stays released by HALT or DMA/BREQ. -/
def heldInReset (p : PinSample) (σ : State) : State :=
  onBus (countPin p.dmaBreq) { beginStep σ with inReset := true, halted := p.halt, busGranted := p.dmaBreq }

theorem boundary_resLow {σ : State} (low : (nextSample σ).res = true) :
    boundary σ = .done (idleCycle (nextSample σ) (heldInReset (nextSample σ) σ)) := by
  simp only [boundary, low, if_true]
  rfl

theorem heldInReset_bus (p : PinSample) (σ : State) : (heldInReset p σ).bus = [] ∧ (heldInReset p σ).mem = σ.mem ∧
    (heldInReset p σ).platform = σ.platform ∧ (heldInReset p σ).busGranted = p.dmaBreq ∧ (heldInReset p σ).halted = p.halt ∧
    (heldInReset p σ).inReset = true := by
  rw [heldInReset]
  cases p.dmaBreq <;> exact ⟨rfl, rfl, rfl, rfl, rfl, rfl⟩

/-- With RES low BA and BS are stated only where HALT or DMA/BREQ keeps the bus released (R456). -/
theorem baBs_of_inReset {σ : State} {p : PinSample} (granted : σ.busGranted = p.dmaBreq) (halted : σ.halted = p.halt)
    (inReset : σ.inReset = true) : baBs σ = if p.halt = true ∨ p.dmaBreq = true then some (true, true) else none := by
  rw [baBs, granted, halted, inReset]
  simp only [or_comm, if_true]

/-- Settles O10: one cycle with the machine held in reset. -/
theorem resetHeldFromAnyState : Obligations.ResetHeldFromAnyState := by
  intro σ low
  obtain ⟨bus, memory, plat, granted, halted, inReset⟩ := heldInReset_bus (nextSample σ) σ
  obtain ⟨-, granted', -, -⟩ := onBus_passCycle (baBs (heldInReset (nextSample σ) σ))
    (if busReleased (heldInReset (nextSample σ) σ) then (nextSample σ).write else none) (heldInReset (nextSample σ) σ)
  have others : ∀ c ∈ (idleCycle (nextSample σ) (heldInReset (nextSample σ) σ)).bus, c.other = true :=
    (follows_idleCycle _ _).others bus
  have levels := baBs_of_inReset granted halted inReset
  have levels' := baBs_of_inReset (granted'.trans granted) (σ := idleCycle (nextSample σ) (heldInReset (nextSample σ) σ)) halted inReset
  have written := mem_idleCycle_served (nextSample σ) memory plat
  refine ⟨_, step_done_idle (boundary_resLow low) (ownAccesses_zero others), if_pos inReset, ?_, ⟨rfl, rfl⟩, rfl, others,
    fun high free => ⟨?_, ?_⟩, fun held => ?_, ?_⟩
  · refine KeepsRegsAndFlags.trans (τ := heldInReset (nextSample σ) σ) ?_ (keepsRegsAndFlags_onBus _ _)
    simp [KeepsRegsAndFlags, KeepsRegs, noDelta, heldInReset, beginStep]
  · have off : busReleased (heldInReset (nextSample σ) σ) = false := by simp [busReleased, levels, high, free]
    rw [written, off]; rfl
  · have off : busReleased (heldInReset (nextSample σ) σ) = false := by simp [busReleased, levels, high, free]
    rw [idleCycle, off]
    exact bus
  · have on : busReleased (heldInReset (nextSample σ) σ) = true := by simp [busReleased, levels, held]
    rw [written, on]; rfl
  · rw [levels']
    by_cases kept : (nextSample σ).halt = true ∨ (nextSample σ).dmaBreq = true
    · simp [kept]
    · simp [kept]

/-! ### RES high again (R451 to R456) -/

/-- The machine out of reset, with the edge of the sample noted: what the boundary goes on with. -/
def released (σ : State) : State := noteNmi (nextSample σ) (leaveReset (beginStep σ))

/-- The same once the MPU has its next cycle. -/
def regained (σ : State) : State := regainBus (nextSample σ) (released σ)

theorem boundary_released {σ : State} (held : σ.inReset = true) (high : (nextSample σ).res = false) :
    boundary σ = if grants (nextSample σ).dmaBreq (busSide (leaveReset (beginStep σ)))
      then .done (onBus (grantOne (nextSample σ).write) (released σ)) else serveHalt (nextSample σ) (regained σ) := by
  have same : busSide (released σ) = busSide (leaveReset (beginStep σ)) := by
    rw [released, noteNmi]; split <;> rfl
  have was : (beginStep σ).inReset = true := held
  rw [← same]
  simp only [boundary, high, was, serveDma, released, regained, Bool.false_eq_true, if_false, if_true]
  rfl

/-- A field that neither the edge nor the bus touches. -/
theorem released_field {α : Type} (g : State → α) (hg : ∀ (τ : State) n, g { τ with nmiPending := n } = g τ) (σ : State) :
    g (released σ) = g (leaveReset (beginStep σ)) := by
  rw [released, noteNmi]; split
  · exact hg _ _
  · rfl

theorem regained_field {α : Type} (g : State → α) (hg : ∀ (τ : State) n, g { τ with nmiPending := n } = g τ)
    (hb : ∀ f τ, g (onBus f τ) = g τ) (σ : State) : g (regained σ) = g (leaveReset (beginStep σ)) :=
  (regainBus_field g hb _ _).trans (released_field g hg σ)

theorem nmiPending_released (σ : State) : (released σ).nmiPending = ((nextSample σ).nmiFell && Config.nmiEdgeBeforeArming) := by
  rw [released, noteNmi]
  cases (nextSample σ).nmiFell <;> rfl

theorem isResetBy_released (σ : State) : IsResetBy (nextSample σ) σ (released σ) := by
  have field : ∀ {α : Type} (g : State → α), (∀ (τ : State) n, g { τ with nmiPending := n } = g τ) →
      g (released σ) = g (leaveReset (beginStep σ)) := fun g hg => released_field g hg σ
  have cc : (released σ).cc = (leaveReset (beginStep σ)).cc := field State.cc fun _ _ => rfl
  refine ⟨field State.dp fun _ _ => rfl, ?_, ?_, field State.inReset fun _ _ => rfl, field State.nmiArmed fun _ _ => rfl,
    nmiPending_released σ, field State.a fun _ _ => rfl, field State.b fun _ _ => rfl, field State.x fun _ _ => rfl,
    field State.y fun _ _ => rfl, field State.u fun _ _ => rfl, field State.s fun _ _ => rfl, ?_⟩
  · rw [cc]; rfl
  · rw [cc]; rfl
  · rw [cc]; exact ⟨rfl, rfl, rfl, rfl, rfl, rfl⟩

/-- The reset registers stay so where only PC, the bus and the place in the main loop change. -/
theorem IsResetBy.keep {p : PinSample} {σ τ υ : State} (h : IsResetBy p σ τ) (regs : KeepsRegs [.r16 .pc] noDelta τ υ)
    (cc : υ.cc = τ.cc) (nmi : KeepsNmi τ υ) (inReset : υ.inReset = τ.inReset) : IsResetBy p σ υ := by
  obtain ⟨dp, i, f, out, armed, pending, a, b, x, y, u, s, flags⟩ := h
  obtain ⟨a', b', dp', x', y', u', s', -⟩ := regs
  simp only [noDelta, BitVec.ofNat_eq_ofNat, BitVec.add_zero] at x' y' u' s'
  obtain ⟨armed', pending'⟩ := nmi
  rw [← cc] at i f flags
  exact ⟨(dp' (by simp)).trans dp, i, f, inReset.trans out, armed'.trans armed, pending'.trans pending, (a' (by simp)).trans a,
    (b' (by simp)).trans b, (x' (by simp)).trans x, (y' (by simp)).trans y, (u' (by simp)).trans u, (s' (by simp)).trans s, flags⟩

theorem keepsRegs_onBus (f : BusSide → BusSide) (σ : State) : KeepsRegs [.r16 .pc] noDelta σ (onBus f σ) :=
  KeepsRegs.mono (by simp) (keepsRegsAndFlags_onBus f σ).1

theorem isResetBy_regained (σ : State) : IsResetBy (nextSample σ) σ (regained σ) := by
  rw [regained, regainBus]
  split
  · exact IsResetBy.keep (isResetBy_released σ) (keepsRegs_onBus _ _) rfl ⟨rfl, rfl⟩ rfl
  · exact IsResetBy.keep (IsResetBy.keep (isResetBy_released σ) (keepsRegs_onBus _ _) rfl ⟨rfl, rfl⟩ rfl) (keepsRegs_onBus _ _) rfl
      ⟨rfl, rfl⟩ rfl

/-- The fetch of the reset vector, with the cycles that complete it (R451). -/
def vectorFetched (τ : State) : State := entryTick .res (takeException .res (setRun .running τ))

theorem vectorFetched_eq (τ : State) :
    vectorFetched τ = completeCycles (Config.entryCycles (vectorOf .res)) (takeVector .res (setRun .running τ)) := rfl

theorem serve_resetVector {p : PinSample} {τ : State} (run : τ.run = .resetVector) : serve p τ = .done (vectorFetched τ) := by
  rw [serve, run]; rfl

/-- The reset vector's fetch changes PC, sets the masks, and lets the machine run. -/
theorem vectorFetched_spec (τ : State) :
    KeepsRegs [.r16 .pc] noDelta τ (vectorFetched τ) ∧ (vectorFetched τ).cc = { τ.cc with i := true, f := true } ∧
    KeepsNmi τ (vectorFetched τ) ∧ (vectorFetched τ).run = .running ∧ (vectorFetched τ).halted = τ.halted ∧
    (vectorFetched τ).inReset = τ.inReset := by
  have regs := KeepsRegs.trans_noDelta (keepsRegs_setRun .running τ) (keepsRegs_takeVector .res (setRun .running τ))
  obtain ⟨⟨armed, pending⟩, run, halted, inReset, -⟩ := keeps_takeVector (setRun .running τ) (e := .res) (by decide)
  rw [vectorFetched_eq, KeepsNmi, completeCycles_cc, completeCycles_run, completeCycles_halted, completeCycles_inReset,
    completeCycles_nmiArmed, completeCycles_nmiPending, cc_takeVector]
  exact ⟨KeepsRegs.mono (by simp) (KeepsRegs.trans_noDelta regs (keepsRegsAndFlags_completeCycles _ _).1), rfl, ⟨armed, pending⟩, run,
    halted, inReset⟩

theorem lines_readAck_of_none {τ : State} (a : Word) (h : τ.cycles = none) :
    (readAck a τ).2.cycles = none ∧ (readAck a τ).2.lines = τ.lines ++ [.access] := by
  rw [readAck_snd, nextCycle_of_none τ h]
  exact ⟨h, rfl⟩

theorem lines_readVector_of_none {τ : State} (a : Word) (h : τ.cycles = none) :
    (readVector a τ).2.lines = τ.lines ++ [.access, .access] := by
  obtain ⟨still, lines⟩ := lines_readAck_of_none a h
  rw [readVector_snd, (lines_readAck_of_none (a + 1) still).2, lines, List.append_assoc]
  rfl

/-- Where no cycle is granted inside the step, the fetch leaves memory and the bus grant, and shows after the cycles before it. -/
theorem vectorFetched_of_quiet {τ : State} (ungranted : τ.cycles = none) :
    (vectorFetched τ).mem = τ.mem ∧ (vectorFetched τ).busGranted = τ.busGranted ∧
    ∃ after : List CycleKind, (vectorFetched τ).lines = τ.lines ++ after := by
  have quiet : (setRun .running τ).cycles = none := ungranted
  obtain ⟨-, -, -, -, -, -, counters⟩ := keeps_takeVector (setRun .running τ) (e := .res) (by decide)
  obtain ⟨still, granted, -⟩ := counters quiet
  have lines : (takeVector .res (setRun .running τ)).lines = τ.lines ++ [.access, .access] := by
    rw [takeVector_eq_fetch, setPc_lines, lines_readVector_of_none (vectorOf .res) (τ := masked .res (setRun .running τ)) ungranted]
    rfl
  rw [vectorFetched_eq, completeCycles_mem _ _ still, mem_takeVector _ quiet, completeCycles_busGranted _ _ still, granted,
    completeCycles_of_none _ still, lines, List.append_assoc]
  exact ⟨rfl, rfl, _, rfl⟩

/-- In a step that nothing disturbs PC is the word at the reset vector, read in two acknowledge cycles. -/
theorem fetchedResetVector_vectorFetched {σ τ : State} (u : Undisturbed τ) (memory : τ.mem = σ.mem) (bus : τ.bus = []) :
    FetchedResetVector σ (vectorFetched τ) := by
  have u' : Undisturbed (setRun .running τ) := u
  have eq := takeVector_eq .res u'
  have quiet : (takeVector .res (setRun .running τ)).cycles = none := by rw [eq]; exact u.2
  have bytes : ∀ a : Word, peek a (setRun .running τ) = peek a σ := fun a => peek_congr memory a
  rw [FetchedResetVector, vectorFetched_eq, completeCycles_pc, completeCycles_bus _ _ quiet, eq]
  simp only [bytes, peekWord, vectorOf, setRun_bus, bus, List.nil_append]
  exact ⟨trivial, rfl⟩

theorem regained_busSide (σ : State) : (regained σ).mem = σ.mem ∧ (regained σ).platform = σ.platform ∧ (regained σ).bus = [] ∧
    (regained σ).cycles = stepCycles (nextSample σ) ∧ (regained σ).busGranted = false := by
  obtain ⟨⟨plat, memory, -, bus⟩, cycles⟩ := regainBus_busSide (nextSample σ) (released σ)
  refine ⟨memory.trans (released_field State.mem (fun _ _ => rfl) σ), plat.trans (released_field State.platform (fun _ _ => rfl) σ),
    bus.trans (released_field State.bus (fun _ _ => rfl) σ), cycles.trans (released_field State.cycles (fun _ _ => rfl) σ), ?_⟩
  rw [regained, regainBus]
  cases (nextSample σ).dmaBreq <;> rfl

/-- A bus that HALT or DMA/BREQ has kept released under RES is taken after a dead cycle (R422). -/
theorem lines_regained {σ : State} (let_run : PinsLetRun (nextSample σ)) (was : σ.halted = true ∨ σ.busGranted = true) :
    (regained σ).lines = [.pass (some (false, false)) false] := by
  have granted : (released σ).busGranted = true := (released_field State.busGranted (fun _ _ => rfl) σ).trans (by
    show (σ.halted || σ.busGranted) = true
    simpa using was)
  have lines : (released σ).lines = [] := released_field State.lines (fun _ _ => rfl) σ
  have run : (released σ).run = .resetVector := released_field State.run (fun _ _ => rfl) σ
  have halted : (released σ).halted = false := released_field State.halted (fun _ _ => rfl) σ
  have taken : staysReleased (nextSample σ) (released σ) = false := by simp [staysReleased, let_run.2.1, run, halted]
  rw [regained, regainBus, taken, let_run.2.2.1]
  simp [onBus, setBusSide, takeBack, leaveGrant, countPin, idle, passCycle, otherWrite, busSide, granted, lines]

theorem serveHalt_regained {σ : State} :
    serveHalt (nextSample σ) (regained σ) = if (nextSample σ).halt then .done (idleCycle (nextSample σ) { regained σ with halted := true })
      else .done (vectorFetched (regained σ)) := by
  have halted : (regained σ).halted = false := regained_field State.halted (fun _ _ => rfl) (fun _ _ => rfl) σ
  have run : (regained σ).run = .resetVector := regained_field State.run (fun _ _ => rfl) (fun _ _ => rfl) σ
  rw [serveHalt, halted, serve_resetVector run]
  rfl

theorem masksSet_of_set {cc : CC} (i : cc.i = true) (f : cc.f = true) : { cc with i := true, f := true } = cc := by
  cases cc
  simp_all

theorem isResetBy_vectorFetched (σ : State) : IsResetBy (nextSample σ) σ (vectorFetched (regained σ)) := by
  obtain ⟨regs, cc, nmi, -, -, inReset⟩ := vectorFetched_spec (regained σ)
  have reset := isResetBy_regained σ
  obtain ⟨-, i, f, -⟩ := id reset
  refine IsResetBy.keep reset regs ?_ nmi inReset
  rw [cc, masksSet_of_set i f]

theorem isResetBy_halted (σ : State) : IsResetBy (nextSample σ) σ (idleCycle (nextSample σ) { regained σ with halted := true }) := by
  have kept : KeepsRegs [.r16 .pc] noDelta (regained σ) { regained σ with halted := true } := by simp [KeepsRegs, noDelta]
  exact IsResetBy.keep (IsResetBy.keep (isResetBy_regained σ) kept rfl ⟨rfl, rfl⟩ rfl) (keepsRegs_onBus _ _) rfl ⟨rfl, rfl⟩ rfl

theorem regained_run (σ : State) : (regained σ).run = .resetVector := regained_field State.run (fun _ _ => rfl) (fun _ _ => rfl) σ

theorem regained_pc (σ : State) : (regained σ).pc = σ.pc := regained_field State.pc (fun _ _ => rfl) (fun _ _ => rfl) σ

theorem regained_inReset (σ : State) : (regained σ).inReset = false := regained_field State.inReset (fun _ _ => rfl) (fun _ _ => rfl) σ

theorem regained_halted (σ : State) : (regained σ).halted = false := regained_field State.halted (fun _ _ => rfl) (fun _ _ => rfl) σ

/-- Where a machine that runs shows no overlay it is named running. -/
theorem runStateName_running {τ : State} (run : τ.run = .running) (inReset : τ.inReset = false) (granted : τ.busGranted = false)
    (halted : τ.halted = false) : runStateName τ = .running := by
  simp [runStateName, run, inReset, granted, halted]

theorem runStateName_halted {τ : State} (inReset : τ.inReset = false) (granted : τ.busGranted = false) (halted : τ.halted = true) :
    runStateName τ = .halted := by
  simp [runStateName, inReset, granted, halted]

theorem step_release_running {σ : State} (held : σ.inReset = true) (high : (nextSample σ).res = false) (p : PinsLetRun (nextSample σ)) :
    ∃ τ : State, step σ = .next τ ∧ IsResetBy (nextSample σ) σ τ ∧ runStateName τ = .running ∧ τ.run = .running ∧ τ.mem = σ.mem ∧
      (σ.halted = true ∨ σ.busGranted = true → τ.lines.head? = some (.pass (some (false, false)) false)) ∧
      (σ.platform = [] → FetchedResetVector σ τ) := by
  have bound := boundary_released held high
  rw [p.2.2.1, if_neg (by simp [grants]), serveHalt_regained, p.2.1, if_neg Bool.false_ne_true] at bound
  obtain ⟨memory, plat, bus, cycles, granted⟩ := regained_busSide σ
  have quiet : (regained σ).cycles = none := by rw [cycles, stepCycles, p.2.2.2.1]
  obtain ⟨-, -, -, run, halted, inReset⟩ := vectorFetched_spec (regained σ)
  obtain ⟨memory', granted', after, lines⟩ := vectorFetched_of_quiet quiet
  refine ⟨_, step_done bound p.2.2.2.2, isResetBy_vectorFetched σ, runStateName_running run (inReset.trans (regained_inReset σ))
    (granted'.trans granted) (halted.trans (regained_halted σ)), run, memory'.trans memory, fun was => ?_, fun plain => ?_⟩
  · rw [lines, lines_regained p was]; rfl
  · exact fetchedResetVector_vectorFetched ⟨plat.trans plain, quiet⟩ memory bus

theorem step_release_halted {σ : State} (held : σ.inReset = true) (high : (nextSample σ).res = false)
    (halt : (nextSample σ).halt = true) (dma : (nextSample σ).dmaBreq = false) :
    ∃ τ : State, step σ = .next τ ∧ IsResetBy (nextSample σ) σ τ ∧ runStateName τ = .halted ∧ τ.run = .resetVector ∧ τ.pc = σ.pc ∧
      ∀ c ∈ τ.bus, c.other = true := by
  have bound := boundary_released held high
  rw [dma, if_neg (by simp [grants]), serveHalt_regained, halt, if_pos rfl] at bound
  obtain ⟨-, -, bus, -, granted⟩ := regained_busSide σ
  have others : ∀ c ∈ (idleCycle (nextSample σ) { regained σ with halted := true }).bus, c.other = true :=
    (follows_idleCycle _ { regained σ with halted := true }).others bus
  obtain ⟨-, granted', -⟩ := onBus_passCycle (baBs { regained σ with halted := true })
    (if busReleased { regained σ with halted := true } then (nextSample σ).write else none) { regained σ with halted := true }
  exact ⟨_, step_done_idle bound (ownAccesses_zero others), isResetBy_halted σ,
    runStateName_halted (regained_inReset σ) (granted'.trans granted) rfl, regained_run σ, regained_pc σ, others⟩

theorem step_release_dma {σ : State} (held : σ.inReset = true) (high : (nextSample σ).res = false)
    (dma : (nextSample σ).dmaBreq = true) (whole : (nextSample σ).resCut = none) :
    ∃ τ : State, step σ = .next τ ∧ IsResetBy (nextSample σ) σ τ ∧
      if grants true (busSide (leaveReset (beginStep σ))) then
        runStateName τ = .busGranted ∧ τ.run = .resetVector ∧ τ.pc = σ.pc ∧ ∀ c ∈ τ.bus, c.other = true
      else τ.run = (if (nextSample σ).halt then .resetVector else .running) := by
  have bound := boundary_released held high
  rw [dma] at bound
  split at bound
  · rename_i grant
    obtain ⟨-, granted, -⟩ := onBus_grantOne (nextSample σ).write (released σ)
    have inReset : (onBus (grantOne (nextSample σ).write) (released σ)).inReset = false := released_field State.inReset (fun _ _ => rfl) σ
    refine ⟨_, step_done bound whole, IsResetBy.keep (isResetBy_released σ) (keepsRegs_onBus _ _) rfl ⟨rfl, rfl⟩ rfl, ?_⟩
    rw [if_pos grant]
    refine ⟨?_, released_field State.run (fun _ _ => rfl) σ,
      released_field State.pc (fun _ _ => rfl) σ, (follows_grantOne _ (released σ)).others ?_⟩
    · rw [runStateName, if_neg (by rw [inReset]; exact Bool.false_ne_true), if_pos granted]
    · exact released_field State.bus (fun _ _ => rfl) σ
  · rename_i refused
    rw [serveHalt_regained] at bound
    cases halt : (nextSample σ).halt
    · rw [halt, if_neg Bool.false_ne_true] at bound
      obtain ⟨-, -, -, run, -⟩ := vectorFetched_spec (regained σ)
      refine ⟨_, step_done bound whole, isResetBy_vectorFetched σ, ?_⟩
      rw [if_neg refused]; exact run
    · rw [halt, if_pos rfl] at bound
      refine ⟨_, step_done bound whole, isResetBy_halted σ, ?_⟩
      rw [if_neg refused]; exact regained_run σ

/-- The vector fetch that has waited. -/
theorem step_resetVector {σ : State} (run : σ.run = .resetVector) (h : Unstopped σ) (p : PinsLetRun (nextSample σ)) :
    ∃ τ : State, step σ = .next τ ∧ runStateName τ = .running ∧ τ.run = .running ∧ KeepsRegs [.r16 .pc] noDelta σ τ ∧ τ.mem = σ.mem ∧
      τ.cc = { σ.cc with i := true, f := true } ∧ (σ.platform = [] → FetchedResetVector σ τ) := by
  have bound := boundary_of_unstopped h p
  rw [serve_resetVector ((served_run σ).trans run)] at bound
  obtain ⟨regs, cc, -, run', halted, inReset⟩ := vectorFetched_spec (served σ)
  obtain ⟨memory, granted, -⟩ := vectorFetched_of_quiet (quiet_served p)
  refine ⟨_, step_done bound p.2.2.2.2, runStateName_running run' ?_ (granted.trans (served_busGranted σ)) ?_, run',
    KeepsRegs.mono (by simp) (KeepsRegs.trans_noDelta (keepsRegsAndFlags_served σ).1 regs), memory.trans (served_mem σ), ?_, fun plain => ?_⟩
  · exact inReset.trans ((served_inReset σ).trans h.2)
  · exact halted.trans ((served_halted σ).trans h.1)
  · rw [cc, served_cc]
  · exact fetchedResetVector_vectorFetched (undisturbed_served plain p.2.2.2.1) (served_mem σ) (served_bus σ)

/-- Settles O9: the four ways out of reset. -/
theorem leavingResetRunsFromVector : Obligations.LeavingResetRunsFromVector :=
  ⟨fun _ held high => ⟨step_release_running held high, step_release_halted held high, step_release_dma held high⟩,
    fun _ => step_resetVector⟩

end Sys2Proof.Proofs
end

section
/-! PROOFS. What every step keeps, and what RES leaves of a step it cuts short (20_memory.md, 60_exceptions.md, 70_reset_and_hazards.md R450 to R456). -/

namespace Sys2Proof.Proofs

open Sys2Proof.Machine

/-! ### How a state advances inside a step -/

/-- The part of the invariant that is about the latch of NMI and CWAI's wait. -/
def ControlInv (σ : State) : Prop :=
  (σ.nmiPending = true → σ.nmiArmed = true ∨ Config.nmiEdgeBeforeArming = true) ∧ (σ.run = .cwaiWaiting → σ.cc.e = true)

/-- Accesses as the invariant has them lead from `σ` to `τ`, and `τ` meets the rest of the invariant where `σ` does. -/
def Advances (σ τ : State) : Prop := Follows VectorAck σ τ ∧ (ControlInv σ → ControlInv τ)

theorem Advances.trans {σ τ υ : State} (h : Advances σ τ) (k : Advances τ υ) : Advances σ υ :=
  ⟨h.1.trans k.1, fun i => k.2 (h.2 i)⟩

/-- The bus side is apart from the control fields. -/
theorem advances_onBus {f : BusSide → BusSide} {σ : State} (h : Follows VectorAck σ (onBus f σ)) : Advances σ (onBus f σ) := ⟨h, id⟩

theorem advances_idleCycle (p : PinSample) (σ : State) : Advances σ (idleCycle p σ) := advances_onBus (follows_idleCycle p σ)

theorem advances_resumeCycle (σ : State) : Advances σ (resumeCycle σ) := advances_onBus (follows_resumeCycle σ)

theorem advances_regainBus (p : PinSample) (σ : State) : Advances σ (regainBus p σ) := by
  refine ⟨follows_regainBus p σ, fun h => ?_⟩
  rw [regainBus]; split <;> exact h

theorem advances_completeCycles (n : Nat) (σ : State) : Advances σ (completeCycles n σ) :=
  ⟨(makes_completeCycles n σ).follows, fun h => by simpa [ControlInv] using h⟩

/-- HALT's overlay is no part of the invariant. -/
theorem advances_overlay (h : Bool) (σ : State) : Advances σ { σ with halted := h } := ⟨follows_of_same ⟨rfl, rfl, rfl, rfl⟩, id⟩

/-- A state that does not wait in CWAI needs only that nothing is latched anew and nothing disarmed. -/
theorem advances_of_not_waiting {σ τ : State} (f : Follows VectorAck σ τ) (run : τ.run ≠ .cwaiWaiting)
    (armed : σ.nmiArmed = true → τ.nmiArmed = true) (pending : τ.nmiPending = true → σ.nmiPending = true) : Advances σ τ :=
  ⟨f, fun ⟨latch, _⟩ => ⟨fun now => (latch (pending now)).imp_left armed, fun waits => absurd waits run⟩⟩

theorem advances_setRun_running (σ : State) : Advances σ (setRun .running σ) :=
  advances_of_not_waiting (makes_of_eq (busSide_setRun σ .running)).follows nofun id id

theorem advances_takeVector (e : Exc) {σ : State} (run : σ.run = .running) : Advances σ (takeVector e σ) := by
  obtain ⟨armed, pending⟩ := nmi_takeVector σ e
  obtain ⟨run', -⟩ := keepsControl_takeVector σ e
  refine advances_of_not_waiting (makes_takeVector e σ).follows (by simp [run', run]) (fun h => armed.trans h) fun h => ?_
  rw [pending] at h
  split at h
  · cases h
  · exact h

/-- What keeps the NMI bits and the place in the main loop advances a machine that runs. -/
theorem advances_of_keeps {σ τ : State} (f : Follows VectorAck σ τ) (run : σ.run = .running) (k : Keeps σ τ) :
    Advances σ τ := by
  obtain ⟨⟨armed, pending⟩, run', -⟩ := k
  exact advances_of_not_waiting f (by simp [run', run]) (fun h => armed.trans h) fun h => pending.symm.trans h

theorem advances_takeException (e : Exc) {σ : State} (run : σ.run = .running) : Advances σ (takeException e σ) :=
  have pushes : Follows VectorAck σ (stackState e σ) := ((makes_stackState e σ).mono fun _ => NoAck.vectorAck).follows
  Advances.trans (advances_of_keeps pushes run (keeps_stackState σ e))
    (advances_takeVector e ((keeps_stackState σ e).2.1.trans run))

/-! ### The boundary -/

/-- The state that a boundary leads to. -/
def turnState : Turn → State
  | .done τ => τ
  | .instruction τ => τ

theorem advances_serve (p : PinSample) (σ : State) : Advances σ (turnState (serve p σ)) := by
  cases run : σ.run
  case running =>
    cases takes : takeable p σ with
    | none => rw [serve_instruction run takes]; exact advances_overlay σ.halted σ
    | some e =>
      simp only [serve, run, takes, turnState]
      exact Advances.trans (advances_takeException e run) (advances_completeCycles _ _)
  case syncing =>
    simp only [serve, run]
    split
    · exact Advances.trans (advances_setRun_running σ) (advances_resumeCycle _)
    · exact advances_idleCycle p σ
  case cwaiWaiting =>
    cases takes : takeable p σ with
    | none => simp only [serve, run, takes, turnState]; exact advances_idleCycle p σ
    | some e =>
      simp only [serve, run, takes, turnState]
      exact Advances.trans (Advances.trans (advances_setRun_running σ) (advances_takeVector e rfl)) (advances_completeCycles _ _)
  case resetVector =>
    simp only [serve, run, turnState]
    exact Advances.trans (Advances.trans (advances_setRun_running σ) (advances_takeException .res rfl)) (advances_completeCycles _ _)

theorem advances_serveHalt (p : PinSample) (σ : State) : Advances σ (turnState (serveHalt p σ)) := by
  rw [serveHalt]
  split
  · split
    · exact advances_idleCycle p σ
    · exact Advances.trans (advances_overlay false σ) (advances_resumeCycle _)
  · split
    · exact Advances.trans (advances_overlay true σ) (advances_idleCycle p _)
    · exact advances_serve p σ

theorem advances_serveDma (p : PinSample) (σ : State) : Advances σ (turnState (serveDma p σ)) := by
  rw [serveDma]
  split
  · exact advances_onBus (follows_grantOne p.write σ)
  · exact Advances.trans (advances_regainBus p σ) (advances_serveHalt p _)

/-- An edge of NMI is latched where NMI is armed, or where edges before arming are remembered (R403, D7). -/
theorem advances_noteNmi (p : PinSample) (σ : State) : Advances σ (noteNmi p σ) := by
  rw [noteNmi]
  split
  · exact ⟨follows_of_same ⟨rfl, rfl, rfl, rfl⟩, fun ⟨_, waits⟩ => ⟨fun now => by simpa using now, waits⟩⟩
  · exact advances_overlay σ.halted σ

/-- Out of reset no NMI is pending and nothing waits (R451, D7). -/
theorem advances_leaveReset (σ : State) : Advances σ (leaveReset σ) :=
  ⟨follows_of_same ⟨rfl, rfl, rfl, rfl⟩, fun _ => ⟨nofun, nofun⟩⟩

theorem advances_holdReset (p : PinSample) (σ : State) : Advances σ (holdReset p σ) :=
  have overlays : Advances σ { σ with inReset := true, halted := p.halt, busGranted := p.dmaBreq } :=
    ⟨follows_of_same ⟨rfl, rfl, rfl, rfl⟩, id⟩
  have counted : ∀ τ : State, Advances τ (onBus (countPin p.dmaBreq) τ) := fun τ =>
    advances_onBus (follows_of_same (by cases p.dmaBreq <;> exact ⟨rfl, rfl, rfl, rfl⟩))
  Advances.trans (Advances.trans overlays (counted _)) (advances_idleCycle p _)

theorem advances_boundary (σ : State) : Advances (beginStep σ) (turnState (boundary σ)) := by
  rw [boundary]
  split
  · exact advances_holdReset _ _
  · refine Advances.trans ?_ (advances_serveDma _ _)
    split
    · exact Advances.trans (advances_leaveReset _) (advances_noteNmi _ _)
    · exact advances_noteNmi _ _

/-- Only a running machine runs an instruction. -/
theorem running_of_serve {p : PinSample} {σ τ : State} (h : serve p σ = .instruction τ) : τ.run = .running := by
  cases run : σ.run
  case running =>
    cases takes : takeable p σ <;> simp only [serve, run, takes, Turn.instruction.injEq, reduceCtorEq] at h
    exact h ▸ run
  case cwaiWaiting => cases takes : takeable p σ <;> simp only [serve, run, takes, reduceCtorEq] at h
  case syncing => simp only [serve, run] at h; split at h <;> cases h
  case resetVector => simp only [serve, run, reduceCtorEq] at h

theorem running_of_serveHalt {p : PinSample} {σ τ : State} (h : serveHalt p σ = .instruction τ) : τ.run = .running := by
  cases halted : σ.halted <;> cases halt : p.halt <;>
    simp only [serveHalt, halted, halt, if_true, if_false, Bool.false_eq_true, reduceCtorEq] at h
  exact running_of_serve h

theorem running_of_serveDma {p : PinSample} {σ τ : State} (h : serveDma p σ = .instruction τ) : τ.run = .running := by
  cases grant : grants p.dmaBreq (busSide σ) <;> simp only [serveDma, grant, if_true, if_false, Bool.false_eq_true, reduceCtorEq] at h
  exact running_of_serveHalt h

theorem running_of_boundary {σ τ : State} (h : boundary σ = .instruction τ) : τ.run = .running := by
  cases low : (nextSample σ).res <;> simp only [boundary, low, if_true, if_false, Bool.false_eq_true, reduceCtorEq] at h
  exact running_of_serveDma h

/-! ### The instruction -/

/-- Every access of an instruction that is an acknowledge cycle reads the vector table. -/
theorem vectorAck_of_accessOf {i : Instr} {c : BusCycle} (h : accessOf i c) : VectorAck c := by
  rw [accessOf] at h
  split at h
  · exact h
  · split at h
    · exact NoAck.vectorAck h
    · exact NoAck.vectorAck h.noAck

/-- A running machine comes to wait in CWAI by that instruction alone. -/
theorem eq_cwai_of_runAfter {i : Instr} (h : runAfter i .running = .cwaiWaiting) : ∃ n, i = .cwai n := by
  cases i with
  | cwai n => exact ⟨n, rfl⟩
  | _ => cases h

theorem advances_exec {i : Instr} {σ τ : State} (run : σ.run = .running) (runs : exec i σ = .next τ) : Advances σ τ := by
  refine ⟨((makes_exec runs).mono fun _ => vectorAck_of_accessOf).follows, fun ⟨latch, _⟩ => ⟨fun now => ?_, fun waits => ?_⟩⟩
  · obtain ⟨pending, armed, -⟩ := nmiArmingInstructions i σ τ runs
    rw [pending] at now
    exact (latch now).imp_left armed
  · obtain ⟨moved, -⟩ := onlyWaitsChangeRunState i σ τ runs
    obtain ⟨υ, c, -, rfl, -⟩ := exec_controls runs
    rw [setRun_run, run] at waits
    obtain ⟨n, rfl⟩ := eq_cwai_of_runAfter waits
    rw [exec_cwai, Host.Outcome.next.injEq] at runs
    rw [← runs, cc_waitingAfterPush]

theorem advances_afterFetch (i : Instr) (n : Nat) (σ : State) (run : σ.run = .running) : Advances σ (afterFetch i n σ) :=
  advances_of_keeps ((makes_afterFetch i n σ).mono fun _ h => NoAck.vectorAck h.noAck).follows run (keeps_afterFetch i n σ)

theorem advances_stepInstruction {σ τ : State} (run : σ.run = .running) (h : stepInstruction σ = .next τ) : Advances σ τ := by
  rw [stepInstruction] at h
  split at h
  · rename_i i rest _
    cases runs : exec i (afterFetch i (5 - rest.length) σ) <;> rw [runs] at h <;> cases h
    have run' : (afterFetch i (5 - rest.length) σ).run = .running := (keeps_afterFetch i _ σ).2.1.trans run
    exact Advances.trans (Advances.trans (advances_afterFetch i _ σ run) (advances_exec run' runs)) (advances_completeCycles _ _)
  · cases h

/-! ### The step -/

/-- A step is what it would be were it whole, cut short where RES falls inside it. -/
theorem step_eq_cut {σ υ : State} (h : step σ = .next υ) : ∃ τ, Advances (beginStep σ) τ ∧ υ = cutByReset σ τ := by
  rw [step] at h
  have turn := advances_boundary σ
  cases reached : boundary σ with
  | done τ =>
    rw [reached] at h turn
    exact ⟨τ, turn, (Host.Outcome.next.inj h).symm⟩
  | instruction τ =>
    rw [reached] at h turn
    simp only at h
    cases runs : stepInstruction τ <;> rw [runs] at h <;> cases h
    exact ⟨_, Advances.trans turn (advances_stepInstruction (running_of_boundary reached) runs), rfl⟩

/-- What the log of a step holds: it is empty when the step begins. -/
theorem bus_of_advances {σ τ : State} (h : Advances (beginStep σ) τ) :
    SameAccesses (performs τ.bus (busSide (beginStep σ))) (busSide τ) ∧
    ∀ c ∈ τ.bus, IsOtherWrite c ∨ (c.other = false ∧ VectorAck c) := by
  obtain ⟨⟨cs, same, kinds⟩, -⟩ := h
  have log : τ.bus = cs := same.2.2.2.trans (performs_bus cs _)
  rw [log]
  exact ⟨same, kinds⟩

/-- A field that no access touches. -/
theorem replay_field {α : Type} (g : State → α) (hb : ∀ f τ, g (onBus f τ) = g τ) (cs : List BusCycle) (σ : State) :
    g (replay cs σ) = g σ := by
  induction cs generalizing σ with
  | nil => rfl
  | cons c cs ih => exact (ih _).trans (hb _ σ)

theorem advances_cutByReset {σ τ : State} (h : Advances (beginStep σ) τ) : Advances (beginStep σ) (cutByReset σ τ) := by
  rw [cutByReset]
  split
  · exact h
  · rename_i happened _
    split
    · exact h
    · refine ⟨follows_cutShort happened σ τ (bus_of_advances h).2, fun ⟨latch, waits⟩ => ?_⟩
      have field : ∀ {α : Type} (g : State → α), (∀ f τ, g (onBus f τ) = g τ) →
          g (replay (survivors happened τ.bus) (beginStep σ)) = g (beginStep σ) := fun g hb => replay_field g hb _ _
      have armed := field State.nmiArmed fun _ _ => rfl
      have pending := field State.nmiPending fun _ _ => rfl
      have run := field State.run fun _ _ => rfl
      have cc := field State.cc fun _ _ => rfl
      refine ⟨fun now => ?_, fun now => ?_⟩
      · exact (latch (pending.symm.trans now)).imp_left armed.trans
      · exact (congrArg CC.e cc).trans (waits (run.symm.trans now))

/-- Settles O59: the whole step advances from its beginning, and so does what RES leaves of it. -/
theorem stepKeepsInvariant : Obligations.StepKeepsInvariant := by
  intro σ τ inv steps
  obtain ⟨wf, latch, waits, -⟩ := inv
  obtain ⟨whole, advances, rfl⟩ := step_eq_cut steps
  have cut := advances_cutByReset advances
  obtain ⟨latch', waits'⟩ := cut.2 ⟨latch, waits⟩
  have follows := cut.1
  refine ⟨⟨follows.wf wf, latch', waits', fun c logged ack => ?_⟩, follows.platform, follows.outside_ram⟩
  obtain ⟨-, -, noAck⟩ | ⟨own, vector⟩ := (bus_of_advances cut).2 c logged
  · rw [noAck] at ack; cases ack
  · obtain ⟨addr, read⟩ := vector ack
    exact ⟨addr, read, own⟩

/-! ### RES inside a step (R402, R450, R455) -/

theorem mem_of_mem_survivors {c : BusCycle} : ∀ {cs : List BusCycle} {happened : List Bool}, c ∈ survivors happened cs → c ∈ cs
  | [], happened, h => by rw [survivors.eq_def] at h; exact h
  | d :: cs, [], h => by
    rw [survivors] at h
    split at h
    · exact (List.mem_cons.1 h).elim (fun e => e ▸ List.mem_cons_self) fun h => List.mem_cons_of_mem _ (mem_of_mem_survivors h)
    · exact List.mem_cons_of_mem _ (mem_of_mem_survivors h)
  | d :: cs, b :: happened, h => by
    rw [survivors] at h
    split at h
    · exact (List.mem_cons.1 h).elim (fun e => e ▸ List.mem_cons_self) fun h => List.mem_cons_of_mem _ (mem_of_mem_survivors h)
    · exact List.mem_cons_of_mem _ (mem_of_mem_survivors h)

/-- Where none of the MPU's accesses has happened and no other master has written, nothing survives. -/
theorem survivors_none {cs : List BusCycle} (own : ∀ c ∈ cs, c.other = false) : survivors [] cs = [] := by
  induction cs with
  | nil => rfl
  | cons c cs ih =>
    obtain ⟨first, rest⟩ := List.forall_mem_cons.1 own
    rw [survivors, first, if_neg Bool.false_ne_true, ih rest]

/-- Where all have happened, all survive. -/
theorem survivors_all {cs : List BusCycle} {happened : List Bool} (all : ∀ b ∈ happened, b = true)
    (length : happened.length = cs.length) : survivors happened cs = cs := by
  induction cs generalizing happened with
  | nil => rw [survivors.eq_def]
  | cons c cs ih =>
    cases happened with
    | nil => cases length
    | cons b happened =>
      obtain ⟨first, rest⟩ := List.forall_mem_cons.1 all
      rw [survivors, first, Bool.true_or, if_pos rfl, ih rest (Nat.succ.inj length)]

/-- The same accesses make the same of the same memory. -/
theorem performs_mem_congr {b b' : BusSide} (plat : b'.platform = b.platform) (memory : b'.mem = b.mem) (cs : List BusCycle) :
    (performs cs b').mem = (performs cs b).mem := by
  induction cs generalizing b b' with
  | nil => exact memory
  | cons c cs ih => exact ih plat (by rw [perform_mem, perform_mem, plat, memory])

theorem performs_beginStep (cs : List BusCycle) (σ : State) :
    (performs cs (busSide (beginStep σ))).mem = (performs cs (busSide σ)).mem :=
  performs_mem_congr (b := busSide σ) (b' := busSide (beginStep σ)) rfl rfl cs

theorem mem_replay_beginStep (cs : List BusCycle) (σ : State) : (replay cs (beginStep σ)).mem = (replay cs σ).mem := by
  have same := performs_beginStep cs σ
  rwa [← busSide_replay, ← busSide_replay] at same

/-- The sample without a fall of RES inside the step. -/
def uncut (σ : State) : State := { σ with env := { nextSample σ with resCut := none } :: σ.env.tail }

theorem boundary_uncut (σ : State) : boundary (uncut σ) = boundary σ := rfl

theorem beginStep_uncut (σ : State) : beginStep (uncut σ) = beginStep σ := rfl

/-- The step with the fall of RES is the step without, cut short. -/
theorem step_of_uncut {σ τ : State} (h : step (uncut σ) = .next τ) :
    step σ = .next (cutByReset σ τ) ∧ Advances (beginStep σ) τ := by
  have whole : ∀ υ, cutByReset (uncut σ) υ = υ := cutByReset_none rfl
  obtain ⟨υ, advances, same⟩ := step_eq_cut h
  rw [whole] at same
  refine ⟨?_, same ▸ advances⟩
  rw [step, boundary_uncut] at h
  rw [step]
  cases reached : boundary σ with
  | done υ =>
    rw [reached] at h
    simp only [whole, Host.Outcome.next.injEq] at h
    rw [h]
  | instruction υ =>
    rw [reached] at h
    simp only at h ⊢
    cases runs : stepInstruction υ <;> rw [runs] at h <;> simp only [whole, Host.Outcome.next.injEq, reduceCtorEq] at h
    rw [h]

/-- Settles O58: the survivors of the log of the whole step, done again. -/
theorem resetCutsStepShort : Obligations.ResetCutsStepShort := by
  intro σ τ happened falls steps
  obtain ⟨cut, advances⟩ := step_of_uncut (σ := σ) steps
  obtain ⟨⟨plat, memory, -, -⟩, -⟩ := bus_of_advances advances
  rw [cutByReset, falls] at cut
  refine ⟨fun none => by simpa [none] using cut, fun some => ?_⟩
  simp only [some, if_false] at cut
  have begun : (cutShort happened σ τ).mem = (replay (survivors happened τ.bus) σ).mem := mem_replay_beginStep _ σ
  have done : (cutShort happened σ τ).mem = (performs (survivors happened τ.bus) (busSide σ)).mem :=
    begun.trans (congrArg BusSide.mem (busSide_replay _ σ))
  have field : ∀ {α : Type} (g : State → α), (∀ f τ, g (onBus f τ) = g τ) →
      g (replay (survivors happened τ.bus) (beginStep σ)) = g (beginStep σ) := fun g hb => replay_field g hb _ _
  refine ⟨_, cut, if_pos rfl, ?_, begun, fun a changed => ?_, fun never own => ?_, fun all length => ?_, ⟨?_, field State.cc fun _ _ => rfl⟩,
    ⟨field State.nmiArmed fun _ _ => rfl, field State.nmiPending fun _ _ => rfl⟩, field State.run fun _ _ => rfl, field State.env fun _ _ => rfl⟩
  · have log := congrArg BusSide.bus (busSide_replay (survivors happened τ.bus) (beginStep σ))
    exact log.trans (performs_bus _ _)
  · rw [peek, peek, done] at changed
    obtain ⟨-, c, survives, writes⟩ := performs_written _ (busSide σ) a changed
    exact ⟨c, mem_of_mem_survivors survives, writes⟩
  · rw [done, never, survivors_none own]; rfl
  · rw [done, survivors_all all length]
    exact (performs_beginStep τ.bus σ).symm.trans memory.symm
  · simp only [KeepsRegs, noDelta, BitVec.ofNat_eq_ofNat, BitVec.add_zero]
    exact ⟨fun _ => field State.a fun _ _ => rfl, fun _ => field State.b fun _ _ => rfl, fun _ => field State.dp fun _ _ => rfl,
      fun _ => field State.x fun _ _ => rfl, fun _ => field State.y fun _ _ => rfl, fun _ => field State.u fun _ _ => rfl,
      fun _ => field State.s fun _ _ => rfl, fun _ => field State.pc fun _ _ => rfl⟩

end Sys2Proof.Proofs
end

section
/-! PROOFS. DMA/BREQ inside an instruction (20_memory.md R47, R48, R55, R57; 60_exceptions.md R421, R422). -/

namespace Sys2Proof.Proofs

open Sys2Proof.Machine

/-! ### One look at DMA/BREQ -/

/-- The MPU has the bus inside a step, with `cs` still to look at; it may grant `n` cycles more before the self-refresh, and no assertion of BA and BS is delayed. -/
def Looks (n : Nat) (cs : List CycleSample) (σ : State) : Prop :=
  σ.platform = [] ∧ σ.cycles = some cs ∧ mpuCycles σ.lines ≠ 0 ∧ σ.busGranted = false ∧ σ.refreshCount + n ≤ 15 ∧
  σ.dmaLow < 6 ∧ 0 < σ.dmaIdle

/-- The cycles of a grant in which another master writes once: the dead one, the write, and the one in which the bus is taken back. -/
def lowTwice (a : Word) (v : Byte) : List CycleSample := [⟨true, none⟩, ⟨true, some (a, v)⟩, ⟨false, none⟩]

/-- What BA and BS show of them (R422). -/
def grantShown : List CycleKind := [.pass (some (true, true)) false, .pass (some (true, true)) true, .pass (some (false, false)) false]

/-- The write of another master as it is logged. -/
def foreignWrite (a : Word) (v : Byte) : BusCycle := { write := true, ack := false, addr := a, data := v, other := true }

/-- Cycles that have passed stay passed. -/
theorem mpuCycles_append_ne {ks : List CycleKind} (h : mpuCycles ks ≠ 0) (ks' : List CycleKind) : mpuCycles (ks ++ ks') ≠ 0 := by
  rw [mpuCycles, List.countP_append]
  exact Nat.ne_of_gt (Nat.add_pos_left (Nat.pos_of_ne_zero h) _)

/-- DMA/BREQ high: the MPU has its next cycle. -/
theorem look_high {σ : State} {cs : List CycleSample} (plat : σ.platform = []) (cycles : σ.cycles = some (⟨false, none⟩ :: cs))
    (begun : mpuCycles σ.lines ≠ 0) (granted : σ.busGranted = false) (refresh : σ.refreshCount ≤ 11) (low : σ.dmaLow < 6) :
    Looks 4 cs (nextCycle σ) ∧ (nextCycle σ).mem = σ.mem ∧ (nextCycle σ).bus = σ.bus ∧ (nextCycle σ).lines = σ.lines := by
  have count : ∀ c : Prop, [Decidable c] → (if c then 0 else σ.refreshCount) + 4 ≤ 15 := fun c _ => by split <;> omega
  simp [Looks, nextCycle, onBus, setBusSide, busSide, look, between, grants, leaveGrant, takeBack, countPin, idle, plat, cycles, begun,
    granted, low, count]

/-- DMA/BREQ low twice and then high: one dead cycle, one write of another master, and one dead cycle more (R421, R422). -/
theorem look_lowTwice {σ : State} {n : Nat} {a : Word} {v : Byte} {cs : List CycleSample} (h : Looks (n + 2) (lowTwice a v ++ cs) σ) :
    Looks n cs (nextCycle σ) ∧ (nextCycle σ).mem = σ.mem.write a.toNat v ∧ (nextCycle σ).bus = σ.bus ++ [foreignWrite a v] ∧
    (nextCycle σ).lines = σ.lines ++ grantShown := by
  obtain ⟨plat, cycles, begun, granted, refresh, low, idle⟩ := h
  have first : σ.refreshCount < 15 := by omega
  have second : σ.refreshCount + 1 < 15 := by omega
  have undelayed : ¬ 6 ≤ σ.dmaLow := by omega
  have inactive : σ.dmaIdle ≠ 0 := by omega
  simp [Looks, nextCycle, onBus, setBusSide, busSide, look, between, grants, assertionDelayed, grantOne, passCycle, otherWrite, perform,
    kindAt, lowFor, leaveGrant, takeBack, countPin, Machine.idle, lowTwice, grantShown, foreignWrite, plat, cycles, begun, granted, first,
    second, undelayed, inactive]
  exact ⟨mpuCycles_append_ne begun _, by omega⟩

/-! ### The cycles of the MPU between the looks -/

theorem looks_congr {n : Nat} {cs : List CycleSample} {σ τ : State} (h : Looks n cs σ) (same : busSide τ = busSide σ) : Looks n cs τ := by
  have looks : Looks n cs (setBusSide (busSide τ) σ) ∧ τ.platform = [] := by
    rw [same]; exact ⟨h, (congrArg BusSide.platform same).trans h.1⟩
  obtain ⟨⟨-, rest⟩, plat⟩ := looks
  exact ⟨plat, rest⟩

theorem looks_busCycle {n : Nat} {cs : List CycleSample} {σ : State} (c : BusCycle) (h : Looks n cs σ) : Looks n cs (busCycle c σ) := by
  obtain ⟨plat, cycles, begun, rest⟩ := h
  refine ⟨(busCycle_platform σ c).trans plat, (busCycle_cycles σ c).trans cycles, ?_, rest⟩
  rw [busCycle_lines]; exact mpuCycles_append_ne begun _

/-- A cycle without an access waits like any other (R421). -/
theorem vmaCycles_one {σ : State} {cs : List CycleSample} (h : σ.cycles = some cs) :
    vmaCycles 1 σ = onBus (fun b => { b with lines := b.lines ++ [.vma] }) (nextCycle σ) := by
  simp [vmaCycles, nextCycle, onBus, setBusSide, innerCycles, busSide, h]

/-- The cycle between the read and the write, held up by a grant. -/
theorem vmaCycles_lowTwice {σ : State} {n : Nat} {a : Word} {v : Byte} {cs : List CycleSample} (h : Looks (n + 2) (lowTwice a v ++ cs) σ) :
    Looks n cs (vmaCycles 1 σ) ∧ (vmaCycles 1 σ).mem = σ.mem.write a.toNat v ∧ (vmaCycles 1 σ).bus = σ.bus ++ [foreignWrite a v] ∧
    (vmaCycles 1 σ).lines = σ.lines ++ grantShown ++ [.vma] := by
  obtain ⟨-, cycles, -⟩ := id h
  obtain ⟨⟨plat', cycles', begun', rest⟩, memory, bus, lines⟩ := look_lowTwice h
  rw [vmaCycles_one cycles, ← lines]
  exact ⟨⟨plat', cycles', mpuCycles_append_ne begun' _, rest⟩, memory, bus, rfl⟩

/-- A write held up by a grant. -/
theorem writeByte_lowTwice {σ : State} {n : Nat} {a b : Word} {v r : Byte} {cs : List CycleSample}
    (h : Looks (n + 2) (lowTwice a v ++ cs) σ) :
    (writeByte b r σ).mem = (σ.mem.write a.toNat v).write b.toNat r ∧
    (writeByte b r σ).bus = σ.bus ++ [foreignWrite a v, { write := true, ack := false, addr := b, data := r }] ∧
    (writeByte b r σ).lines = σ.lines ++ grantShown ++ [.access] := by
  obtain ⟨⟨plat, -⟩, memory, bus, lines⟩ := look_lowTwice h
  rw [writeByte, busCycle_mem _ _ plat, memory, busCycle_bus, bus, busCycle_lines, lines, List.append_assoc]
  exact ⟨rfl, rfl, rfl⟩

/-- A read that nothing holds up. -/
theorem readByte_high {σ : State} {cs : List CycleSample} (a : Word) (plat : σ.platform = []) (cycles : σ.cycles = some (⟨false, none⟩ :: cs))
    (begun : mpuCycles σ.lines ≠ 0) (granted : σ.busGranted = false) (refresh : σ.refreshCount ≤ 11) (low : σ.dmaLow < 6) :
    Looks 4 cs (readByte a σ).2 ∧ (readByte a σ).1 = peek a σ ∧ (readByte a σ).2.mem = σ.mem ∧
    (readByte a σ).2.bus = σ.bus ++ [{ write := false, ack := false, addr := a, data := peek a σ }] ∧
    (readByte a σ).2.lines = σ.lines ++ [.access] := by
  obtain ⟨looks, memory, bus, lines⟩ := look_high plat cycles begun granted refresh low
  have value : (readByte a σ).1 = peek a σ := by
    rw [readByte_fst, answer_eq_peek _ _ _ looks.1, peek_congr memory]
  refine ⟨looks_busCycle _ looks, value, (busCycle_mem_read _ _ rfl).trans memory, ?_, ?_⟩
  · rw [readByte_snd, busCycle_bus, bus, value]
  · rw [readByte_snd, busCycle_lines, lines]

/-- A read held up by a grant finds what the other master has written. -/
theorem readByte_lowTwice {σ : State} {n : Nat} {a : Word} {v : Byte} {cs : List CycleSample}
    (h : Looks (n + 2) (lowTwice a v ++ cs) σ) (wf : σ.mem.wf = true) :
    (readByte a σ).1 = v ∧ (readByte a σ).2.mem = σ.mem.write a.toNat v ∧ (readByte a σ).2.lines = σ.lines ++ grantShown ++ [.access] := by
  obtain ⟨looks, memory, -, lines⟩ := look_lowTwice h
  refine ⟨?_, (busCycle_mem_read _ _ rfl).trans memory, ?_⟩
  · rw [readByte_fst, answer_eq_peek _ _ _ looks.1, peek, memory]
    exact Memory.read_write_same _ _ wf
  · rw [readByte_snd, busCycle_lines, lines]

/-! ### The two instructions -/

/-- What a read-modify-write instruction leaves where both its other cycles are held up: the result stands over what the other master has written. -/
theorem writeBack_lowTwice {σ : State} {ea : Word} {v w : Byte} (drawn : Bool) (res : Byte × CC) (plat : σ.platform = [])
    (cycles : σ.cycles = some (⟨false, none⟩ :: (lowTwice ea v ++ lowTwice ea w)))
    (begun : mpuCycles σ.lines ≠ 0) (granted : σ.busGranted = false) (refresh : σ.refreshCount ≤ 11) (low : σ.dmaLow < 6) :
    (writeBack (.extended ea) drawn res σ).mem = ((σ.mem.write ea.toNat v).write ea.toNat w).write ea.toNat res.1 ∧
    (writeBack (.extended ea) drawn res σ).bus = σ.bus ++ [{ write := false, ack := false, addr := ea, data := peek ea σ },
      foreignWrite ea v, foreignWrite ea w, { write := true, ack := false, addr := ea, data := res.1 }] ∧
    (writeBack (.extended ea) drawn res σ).lines = σ.lines ++ ([.access] ++ grantShown ++ [.vma] ++ grantShown ++ [.access]) := by
  obtain ⟨looks, -, memory, bus, lines⟩ := readByte_high ea plat cycles begun granted refresh low
  have same : busSide (setCc res.2 (doIf drawn countDraw (readByte ea σ).2)) = busSide (readByte ea σ).2 := by cases drawn <;> rfl
  have mem' := congrArg BusSide.mem same
  have bus' := congrArg BusSide.bus same
  have lines' := congrArg BusSide.lines same
  obtain ⟨looks', memory₁, bus₁, lines₁⟩ := vmaCycles_lowTwice (n := 2) (looks_congr looks same)
  obtain ⟨memory₂, bus₂, lines₂⟩ := writeByte_lowTwice (n := 0) (b := ea) (r := res.1) (cs := []) looks'
  refine ⟨memory₂.trans ?_, bus₂.trans ?_, lines₂.trans ?_⟩
  · rw [memory₁]; exact congrArg (fun m => ((Memory.write m ea.toNat v).write ea.toNat w).write ea.toNat res.1) (mem'.trans memory)
  · rw [bus₁, show (setCc res.2 (doIf drawn countDraw (readByte ea σ).2)).bus = _ from bus'.trans bus]
    simp
  · rw [lines₁, show (setCc res.2 (doIf drawn countDraw (readByte ea σ).2)).lines = _ from lines'.trans lines]
    simp

/-- Settles O56: the looks at DMA/BREQ between the accesses, one after the other. -/
theorem grantsFallBetweenBusCycles : Obligations.GrantsFallBetweenBusCycles := by
  intro σ ea v w plat wf granted refresh low begun
  refine ⟨fun op cycles => ?_, fun cycles => ?_⟩
  · obtain ⟨drawn, res, runs, spec⟩ := exec_rmwI op (.extended ea) σ
    obtain ⟨memory, bus, lines⟩ := writeBack_lowTwice drawn res plat cycles begun granted refresh low
    obtain ⟨-, value, -⟩ := readByte_high ea plat cycles begun granted refresh low
    have wf₁ := Memory.wf_write ea.isLt v wf
    have wf₂ := Memory.wf_write ea.isLt w wf₁
    have result : peek ea (writeBack (.extended ea) drawn res σ) = res.1 := by
      rw [peek, memory]; exact Memory.read_write_same _ _ wf₂
    refine ⟨_, runs, ?_, fun i other => ?_, ?_, lines⟩
    · rw [result, cc_writeBack, ← value]; exact spec
    · have apart : i.toNat ≠ ea.toNat := fun h => other (List.mem_singleton.2 (BitVec.eq_of_toNat_eq h))
      rw [peek, memory, Memory.read_write_other apart, Memory.read_write_other apart, Memory.read_write_other apart, peek]
    · rw [result]; exact bus
  · obtain ⟨looks, value, memory, -, lines⟩ := readByte_high ea plat cycles begun granted refresh low
    have torn := readByte_lowTwice (n := 2) (cs := []) looks (by rw [memory]; exact wf)
    obtain ⟨value₁, memory₁, lines₁⟩ := torn
    rw [memory] at memory₁
    rw [lines, List.append_assoc, List.append_assoc] at lines₁
    have left : (load16 .x (.mem (.extended ea)) σ).mem = σ.mem.write (ea + 1).toNat w := memory₁
    refine ⟨load16 .x (.mem (.extended ea)) σ, rfl, ?_, ?_, fun i other => ?_, lines₁⟩
    · show join (readByte ea σ).1 (readByte (ea + 1) (readByte ea σ).2).1 = _
      rw [value, value₁]
    · rw [peek, left]; exact Memory.read_write_same _ _ wf
    · have apart : i.toNat ≠ (ea + 1).toNat := fun h => other (List.mem_singleton.2 (BitVec.eq_of_toNat_eq h))
      rw [peek, left, Memory.read_write_other apart, peek]

end Sys2Proof.Proofs
end

section
/-! PROOFS. Granted cycles in which no other master writes change what time and DMA/BREQ change, and nothing else (20_memory.md R55, 70_reset_and_hazards.md R463). Two states that agree but for these stay so under every operation, so under every instruction. -/

namespace Sys2Proof.Proofs

open Sys2Proof.Machine

/-! ### States that agree but for time -/

/-- The bus side without the marks of time, of the grants and of the samples to come. -/
def eraseBus (b : BusSide) : BusSide :=
  { b with cycles := none, lines := [], busGranted := false, refreshCount := 0, dmaIdle := 0, dmaLow := 0, elapsed := 0 }

/-- The state without them. -/
def erase (σ : State) : State :=
  { σ with cycles := none, lines := [], busGranted := false, refreshCount := 0, dmaIdle := 0, dmaLow := 0, elapsed := 0 }

/-- No other master writes in the cycles listed. -/
def NoWrites (cs : Option (List CycleSample)) : Prop := ∀ l, cs = some l → ∀ c ∈ l, c.write = none

/-- The two differ in time, the grants and the samples alone, and no other master writes in either. -/
def Agree (σ υ : State) : Prop := erase σ = erase υ ∧ NoWrites σ.cycles ∧ NoWrites υ.cycles

section Fields

variable {σ υ : State} (h : Agree σ υ)

include h

theorem Agree.field {α : Type} (g : State → α) (hg : ∀ τ, g τ = g (erase τ)) : g σ = g υ := by
  rw [hg σ, h.1, ← hg υ]

theorem Agree.acc (r : Acc) : acc r σ = acc r υ := h.field (Machine.acc r) fun _ => by cases r <;> rfl

theorem Agree.ptr (r : Ptr) : ptr r σ = ptr r υ := h.field (Machine.ptr r) fun _ => by cases r <;> rfl

theorem Agree.readReg16 (r : Reg16) : readReg16 r σ = readReg16 r υ := h.field (Machine.readReg16 r) fun _ => by cases r <;> rfl

theorem Agree.readReg8 (r : Reg8) : readReg8 r σ = readReg8 r υ := h.field (Machine.readReg8 r) fun _ => by cases r <;> rfl

theorem Agree.dReg : dReg σ = dReg υ := h.readReg16 .d

theorem Agree.a : σ.a = υ.a := h.field State.a fun _ => rfl

theorem Agree.b : σ.b = υ.b := h.field State.b fun _ => rfl

theorem Agree.dp : σ.dp = υ.dp := h.field State.dp fun _ => rfl

theorem Agree.cc : σ.cc = υ.cc := h.field State.cc fun _ => rfl

theorem Agree.x : σ.x = υ.x := h.field State.x fun _ => rfl

theorem Agree.y : σ.y = υ.y := h.field State.y fun _ => rfl

theorem Agree.u : σ.u = υ.u := h.field State.u fun _ => rfl

theorem Agree.pc : σ.pc = υ.pc := h.field State.pc fun _ => rfl

theorem Agree.draws : σ.draws = υ.draws := h.field State.draws fun _ => rfl

theorem Agree.answer (ack : Bool) (a : Word) : answer ack a σ = answer ack a υ := h.field (Machine.answer ack a) fun _ => rfl

/-- An operation that looks at neither time nor the samples. -/
theorem agree_update {f : State → State} (blind : ∀ τ, erase (f τ) = erase (f (erase τ))) (samples : ∀ τ, (f τ).cycles = τ.cycles) :
    Agree (f σ) (f υ) := by
  obtain ⟨same, quiet, quiet'⟩ := h
  refine ⟨?_, ?_, ?_⟩
  · rw [blind σ, same, ← blind υ]
  · rw [samples]; exact quiet
  · rw [samples]; exact quiet'

end Fields

/-- What agreement says of the state that a granted cycle has touched. -/
theorem eq_of_agree {τ υ : State} (h : Agree τ υ) : υ = { τ with
    cycles := υ.cycles
    lines := υ.lines
    busGranted := υ.busGranted
    refreshCount := υ.refreshCount
    dmaIdle := υ.dmaIdle
    dmaLow := υ.dmaLow
    elapsed := υ.elapsed } := by
  obtain ⟨same, -⟩ := h
  cases τ
  cases υ
  simp only [erase, State.mk.injEq, true_and] at same ⊢
  tauto

theorem agree_start (σ : State) {cs : List CycleSample} (none : ∀ c ∈ cs, c.write = none) :
    Agree { σ with cycles := .none } { σ with cycles := some cs } :=
  ⟨rfl, nofun, fun _ same => Option.some.inj same ▸ none⟩

section Operations

variable {σ υ : State} (h : Agree σ υ)

include h

/-! ### Updates of registers -/

theorem agree_setAcc (r : Acc) (v : Byte) : Agree (setAcc r v σ) (setAcc r v υ) := by
  cases r <;> exact agree_update h (fun _ => rfl) fun _ => rfl

theorem agree_setPtr (r : Ptr) (w : Word) : Agree (setPtr r w σ) (setPtr r w υ) := by
  cases r <;> exact agree_update h (fun _ => rfl) fun _ => rfl

theorem agree_setD (w : Word) : Agree (setD w σ) (setD w υ) := agree_update h (fun _ => rfl) fun _ => rfl

theorem agree_setCc (cc : CC) : Agree (setCc cc σ) (setCc cc υ) := agree_update h (fun _ => rfl) fun _ => rfl

theorem agree_setDp (v : Byte) : Agree (setDp v σ) (setDp v υ) := agree_update h (fun _ => rfl) fun _ => rfl

theorem agree_setPc (w : Word) : Agree (setPc w σ) (setPc w υ) := agree_update h (fun _ => rfl) fun _ => rfl

theorem agree_setRun (r : RunState) : Agree (setRun r σ) (setRun r υ) := agree_update h (fun _ => rfl) fun _ => rfl

theorem agree_armNmiIf (c : Bool) : Agree (armNmiIf c σ) (armNmiIf c υ) := agree_update h (fun _ => rfl) fun _ => rfl

theorem agree_countDraw : Agree (countDraw σ) (countDraw υ) := agree_update h (fun _ => rfl) fun _ => rfl

theorem agree_writeReg16 (r : Reg16) (w : Word) : Agree (writeReg16 r w σ) (writeReg16 r w υ) := by
  cases r <;> exact agree_update h (fun _ => rfl) fun _ => rfl

theorem agree_writeReg8 (r : Reg8) (v : Byte) : Agree (writeReg8 r v σ) (writeReg8 r v υ) := by
  cases r <;> exact agree_update h (fun _ => rfl) fun _ => rfl

theorem agree_masked (e : Exc) : Agree (masked e σ) (masked e υ) := by
  cases e <;> exact agree_update h (fun _ => rfl) fun _ => rfl

end Operations

/-! ### Bus cycles -/

theorem eraseBus_takeBack (low : Bool) (b : BusSide) : eraseBus (takeBack low b) = eraseBus b := by cases low <;> rfl

theorem eraseBus_leaveGrant (low : Bool) (b : BusSide) : eraseBus (leaveGrant low b) = eraseBus b := by
  rw [leaveGrant]; split
  · cases low <;> rfl
  · rfl

theorem cycles_takeBack (low : Bool) (b : BusSide) : (takeBack low b).cycles = b.cycles := by cases low <;> rfl

theorem cycles_leaveGrant (low : Bool) (b : BusSide) : (leaveGrant low b).cycles = b.cycles := by
  rw [leaveGrant]; split
  · cases low <;> rfl
  · rfl

/-- A granted cycle without a write. -/
theorem eraseBus_grantOne (b : BusSide) : eraseBus (grantOne none b) = eraseBus b := by
  cases granted : b.busGranted <;> simp [grantOne, granted, passCycle, otherWrite, countPin, eraseBus]

/-- However many cycles are granted between two of the MPU's, none of them leaves a trace but time. -/
theorem between_noWrites (cs : List CycleSample) (none : ∀ c ∈ cs, c.write = none) (b : BusSide) :
    eraseBus (between cs b) = eraseBus b ∧ NoWrites (between cs b).cycles := by
  induction cs generalizing b with
  | nil =>
    rw [between, eraseBus_takeBack, eraseBus_leaveGrant, cycles_takeBack, cycles_leaveGrant]
    exact ⟨rfl, fun l same => by cases same; exact nofun⟩
  | cons c cs ih =>
    obtain ⟨first, rest⟩ := List.forall_mem_cons.1 none
    rw [between]
    split
    · obtain ⟨same, quiet⟩ := ih rest (grantOne c.write b)
      rw [first] at same quiet ⊢
      exact ⟨same.trans (eraseBus_grantOne b), quiet⟩
    · rw [eraseBus_takeBack, eraseBus_leaveGrant, cycles_takeBack, cycles_leaveGrant]
      exact ⟨rfl, fun l same => by cases same; exact rest⟩

theorem look_noWrites {b : BusSide} (quiet : NoWrites b.cycles) : eraseBus (look b) = eraseBus b ∧ NoWrites (look b).cycles := by
  rw [look]
  split
  · exact ⟨rfl, quiet⟩
  · rename_i cs listed
    split
    · exact ⟨rfl, quiet⟩
    · exact between_noWrites cs (quiet cs listed) b

theorem innerCycles_noWrites (n : Nat) {b : BusSide} (quiet : NoWrites b.cycles) :
    eraseBus (innerCycles n b) = eraseBus b ∧ NoWrites (innerCycles n b).cycles := by
  induction n generalizing b with
  | zero => exact ⟨rfl, quiet⟩
  | succ n ih =>
    obtain ⟨same, quiet'⟩ := look_noWrites quiet
    obtain ⟨same', quiet''⟩ := ih (b := { look b with lines := (look b).lines ++ [.vma] }) quiet'
    exact ⟨same'.trans same, quiet''⟩

/-- An operation on the bus side that leaves all but time. -/
theorem erase_onBus {f : BusSide → BusSide} {σ : State} (same : eraseBus (f (busSide σ)) = eraseBus (busSide σ)) :
    erase (onBus f σ) = erase σ := by
  have back : ∀ b : BusSide, erase (setBusSide b σ) = erase (setBusSide (eraseBus b) σ) := fun _ => rfl
  rw [onBus, back, same]
  rfl

theorem agree_onBus {f : BusSide → BusSide}
    (leaves : ∀ b : BusSide, NoWrites b.cycles → eraseBus (f b) = eraseBus b ∧ NoWrites (f b).cycles) {σ υ : State} (h : Agree σ υ) :
    Agree (onBus f σ) (onBus f υ) := by
  obtain ⟨same, quiet, quiet'⟩ := h
  obtain ⟨left, quiet₁⟩ := leaves (busSide σ) quiet
  obtain ⟨left', quiet₂⟩ := leaves (busSide υ) quiet'
  exact ⟨by rw [erase_onBus left, erase_onBus left', same], quiet₁, quiet₂⟩

section Accesses

variable {σ υ : State} (h : Agree σ υ)

include h

theorem agree_nextCycle : Agree (nextCycle σ) (nextCycle υ) := agree_onBus (fun _ quiet => look_noWrites quiet) h

theorem agree_vmaCycles (n : Nat) : Agree (vmaCycles n σ) (vmaCycles n υ) := by
  refine agree_onBus (fun b quiet => ?_) h
  split
  · exact ⟨rfl, quiet⟩
  · exact innerCycles_noWrites n quiet

theorem agree_busCycle (c : BusCycle) : Agree (busCycle c σ) (busCycle c υ) :=
  agree_update h (fun _ => rfl) fun τ => busCycle_cycles τ c

theorem agree_readByte (a : Word) : (readByte a σ).1 = (readByte a υ).1 ∧ Agree (readByte a σ).2 (readByte a υ).2 := by
  have before := agree_nextCycle h
  rw [readByte_snd, readByte_snd, readByte_fst, readByte_fst, before.answer]
  exact ⟨rfl, agree_busCycle before _⟩

theorem agree_readAck (a : Word) : (readAck a σ).1 = (readAck a υ).1 ∧ Agree (readAck a σ).2 (readAck a υ).2 := by
  have before := agree_nextCycle h
  have value : (readAck a σ).1 = (readAck a υ).1 := before.answer true a
  rw [readAck_snd, readAck_snd, value]
  exact ⟨rfl, agree_busCycle before _⟩

theorem agree_writeByte (a : Word) (v : Byte) : Agree (writeByte a v σ) (writeByte a v υ) := agree_busCycle (agree_nextCycle h) _

theorem agree_writeWord (a : Word) (w : Word) : Agree (writeWord a w σ) (writeWord a w υ) := agree_writeByte (agree_writeByte h _ _) _ _

theorem agree_readWord (a : Word) : (readWord a σ).1 = (readWord a υ).1 ∧ Agree (readWord a σ).2 (readWord a υ).2 := by
  obtain ⟨high, first⟩ := agree_readByte h a
  obtain ⟨low, second⟩ := agree_readByte first (a + 1)
  exact ⟨congrArg₂ join high low, second⟩

theorem agree_readVector (a : Word) : (readVector a σ).1 = (readVector a υ).1 ∧ Agree (readVector a σ).2 (readVector a υ).2 := by
  obtain ⟨high, first⟩ := agree_readAck h a
  obtain ⟨low, second⟩ := agree_readAck first (a + 1)
  exact ⟨congrArg₂ join high low, second⟩

/-! ### Stacks -/

theorem agree_push8 (r : Ptr) (v : Byte) : Agree (push8 r v σ) (push8 r v υ) := by
  rw [push8, push8, h.ptr]
  exact agree_writeByte (agree_setPtr h _ _) _ _

theorem agree_push16 (r : Ptr) (w : Word) : Agree (push16 r w σ) (push16 r w υ) := agree_push8 (agree_push8 h _ _) _ _

theorem agree_pull8 (r : Ptr) : (pull8 r σ).1 = (pull8 r υ).1 ∧ Agree (pull8 r σ).2 (pull8 r υ).2 := by
  obtain ⟨value, after⟩ := agree_readByte h (ptr r σ)
  simp only [pull8, h.ptr r] at value after ⊢
  exact ⟨value, agree_setPtr after _ _⟩

theorem agree_pull16 (r : Ptr) : (pull16 r σ).1 = (pull16 r υ).1 ∧ Agree (pull16 r σ).2 (pull16 r υ).2 := by
  obtain ⟨high, first⟩ := agree_pull8 h r
  obtain ⟨low, second⟩ := agree_pull8 first r
  exact ⟨congrArg₂ join high low, second⟩

theorem agree_pullInto8 (r : Ptr) {f : Byte → State → State} (hf : ∀ v {τ ω : State}, Agree τ ω → Agree (f v τ) (f v ω)) :
    Agree (pullInto8 r f σ) (pullInto8 r f υ) := by
  obtain ⟨value, after⟩ := agree_pull8 h r
  rw [pullInto8, pullInto8, value]
  exact hf _ after

theorem agree_pullInto16 (r : Ptr) {f : Word → State → State} (hf : ∀ v {τ ω : State}, Agree τ ω → Agree (f v τ) (f v ω)) :
    Agree (pullInto16 r f σ) (pullInto16 r f υ) := by
  obtain ⟨value, after⟩ := agree_pull16 h r
  rw [pullInto16, pullInto16, value]
  exact hf _ after

theorem agree_doIf (c : Bool) {f : State → State} (hf : ∀ {τ ω : State}, Agree τ ω → Agree (f τ) (f ω)) :
    Agree (doIf c f σ) (doIf c f υ) := by
  cases c
  · exact h
  · exact hf h

/-- A push of what the state holds. -/
theorem agree_pushes16 (c : Bool) (r : Ptr) {g : State → Word} (hg : ∀ τ, g τ = g (erase τ)) :
    Agree (doIf c (fun τ => push16 r (g τ) τ) σ) (doIf c (fun τ => push16 r (g τ) τ) υ) :=
  agree_doIf h c fun {τ ω} k => by
    have value : g τ = g ω := k.field g hg
    rw [value]; exact agree_push16 k r _

theorem agree_pushes8 (c : Bool) (r : Ptr) {g : State → Byte} (hg : ∀ τ, g τ = g (erase τ)) :
    Agree (doIf c (fun τ => push8 r (g τ) τ) σ) (doIf c (fun τ => push8 r (g τ) τ) υ) :=
  agree_doIf h c fun {τ ω} k => by
    have value : g τ = g ω := k.field g hg
    rw [value]; exact agree_push8 k r _

theorem agree_pushRegs (k : Stk) (mask : Byte) : Agree (pushRegs k mask σ) (pushRegs k mask υ) := by
  have pc := agree_pushes16 h (mask.getLsbD 7) (stackPtr k) (g := State.pc) fun _ => rfl
  have other := agree_pushes16 pc (mask.getLsbD 6) (stackPtr k) (g := ptr (otherPtr k)) fun _ => by cases k <;> rfl
  have y := agree_pushes16 other (mask.getLsbD 5) (stackPtr k) (g := State.y) fun _ => rfl
  have x := agree_pushes16 y (mask.getLsbD 4) (stackPtr k) (g := State.x) fun _ => rfl
  have dp := agree_pushes8 x (mask.getLsbD 3) (stackPtr k) (g := State.dp) fun _ => rfl
  have b := agree_pushes8 dp (mask.getLsbD 2) (stackPtr k) (g := State.b) fun _ => rfl
  have a := agree_pushes8 b (mask.getLsbD 1) (stackPtr k) (g := State.a) fun _ => rfl
  exact agree_pushes8 a (mask.getLsbD 0) (stackPtr k) (g := fun τ => τ.cc.toByte) fun _ => rfl

theorem agree_pushEntireState : Agree (pushEntireState σ) (pushEntireState υ) := by
  rw [pushEntireState_eq_pushRegs, pushEntireState_eq_pushRegs]
  exact agree_pushRegs h .s 0xFF

theorem agree_pulls8 (c : Bool) (r : Ptr) {f : Byte → State → State} (hf : ∀ v {τ ω : State}, Agree τ ω → Agree (f v τ) (f v ω)) :
    Agree (doIf c (pullInto8 r f) σ) (doIf c (pullInto8 r f) υ) :=
  agree_doIf h c fun k => agree_pullInto8 k r hf

theorem agree_pulls16 (c : Bool) (r : Ptr) {f : Word → State → State} (hf : ∀ v {τ ω : State}, Agree τ ω → Agree (f v τ) (f v ω)) :
    Agree (doIf c (pullInto16 r f) σ) (doIf c (pullInto16 r f) υ) :=
  agree_doIf h c fun k => agree_pullInto16 k r hf

theorem agree_pullRegs (k : Stk) (mask : Byte) : Agree (pullRegs k mask σ) (pullRegs k mask υ) := by
  have cc := agree_pulls8 h (mask.getLsbD 0) (stackPtr k) fun v _ _ k' => agree_setCc k' (CC.ofByte v)
  have a := agree_pulls8 cc (mask.getLsbD 1) (stackPtr k) fun v _ _ k' => agree_setAcc k' .a v
  have b := agree_pulls8 a (mask.getLsbD 2) (stackPtr k) fun v _ _ k' => agree_setAcc k' .b v
  have dp := agree_pulls8 b (mask.getLsbD 3) (stackPtr k) fun v _ _ k' => agree_setDp k' v
  have x := agree_pulls16 dp (mask.getLsbD 4) (stackPtr k) fun v _ _ k' => agree_setPtr k' .x v
  have y := agree_pulls16 x (mask.getLsbD 5) (stackPtr k) fun v _ _ k' => agree_setPtr k' .y v
  have other := agree_pulls16 y (mask.getLsbD 6) (stackPtr k) fun v _ _ k' => agree_setPtr k' (otherPtr k) v
  exact agree_pulls16 other (mask.getLsbD 7) (stackPtr k) fun v _ _ k' => agree_setPc k' v

theorem agree_returnFromInterrupt : Agree (returnFromInterrupt σ) (returnFromInterrupt υ) := by
  obtain ⟨value, -⟩ := agree_readByte h (ptr .s σ)
  have top : (readByte σ.s σ).1 = (readByte υ.s υ).1 := value.trans (congrArg (fun a => (readByte a υ).1) (h.ptr .s))
  rw [returnFromInterrupt_eq_pullRegs, returnFromInterrupt_eq_pullRegs, top]
  exact agree_pullRegs h .s _

/-! ### Exceptions -/

theorem agree_stackState (e : Exc) : Agree (stackState e σ) (stackState e υ) := by
  cases e with
  | res => exact h
  | firq =>
    simp only [stackState, h.cc]
    have flagged := agree_setCc h { υ.cc with e := false }
    rw [flagged.pc]
    have pushed := agree_push16 flagged .s (setCc { υ.cc with e := false } υ).pc
    rw [pushed.cc]
    exact agree_push8 pushed .s _
  | nmi | swi | irq | swi2 | swi3 =>
    simp only [stackState, h.cc]
    exact agree_pushEntireState (agree_setCc h _)

theorem agree_takeVector (e : Exc) : Agree (takeVector e σ) (takeVector e υ) := by
  obtain ⟨target, after⟩ := agree_readVector (agree_masked h e) (vectorOf e)
  rw [takeVector_eq_fetch, takeVector_eq_fetch, target]
  exact agree_setPc after _

theorem agree_takeException (e : Exc) : Agree (takeException e σ) (takeException e υ) := agree_takeVector (agree_stackState h e) e

/-! ### Addresses and operands -/

theorem agree_baseAddr (m : IdxBase) : (baseAddr m σ).1 = (baseAddr m υ).1 ∧ Agree (baseAddr m σ).2 (baseAddr m υ).2 := by
  cases m with
  | inc2 r | dec2 r => simp only [baseAddr, h.ptr r, true_and]; exact agree_setPtr h _ _
  | zero r | off8 r n | off16 r n => simp only [baseAddr, h.ptr r, true_and]; exact h
  | accA r => simp only [baseAddr, h.ptr r, h.a, true_and]; exact h
  | accB r => simp only [baseAddr, h.ptr r, h.b, true_and]; exact h
  | accD r => simp only [baseAddr, h.ptr r, h.dReg, true_and]; exact h
  | pcr8 n | pcr16 n => simp only [baseAddr, h.pc, true_and]; exact h

theorem agree_idxAddr (i : Idx) : (idxAddr i σ).1 = (idxAddr i υ).1 ∧ Agree (idxAddr i σ).2 (idxAddr i υ).2 := by
  cases i with
  | off5 r n => simp only [idxAddr, h.ptr r, true_and]; exact h
  | inc1 r | dec1 r => simp only [idxAddr, h.ptr r, true_and]; exact agree_setPtr h _ _
  | plain m => exact agree_baseAddr h m
  | indirect m =>
    obtain ⟨addr, after⟩ := agree_baseAddr h m
    rw [idxAddr, idxAddr, addr]
    exact agree_readWord after _
  | extIndirect n => exact agree_readWord h n

theorem agree_effAddr (a : Addr) : (effAddr a σ).1 = (effAddr a υ).1 ∧ Agree (effAddr a σ).2 (effAddr a υ).2 := by
  cases a with
  | direct n => simp only [effAddr, h.dp, true_and]; exact h
  | indexed i => exact agree_idxAddr h i
  | extended n => exact ⟨rfl, h⟩

theorem agree_operand8 (src : Src8) : (operand8 src σ).1 = (operand8 src υ).1 ∧ Agree (operand8 src σ).2 (operand8 src υ).2 := by
  cases src with
  | imm n => exact ⟨rfl, h⟩
  | mem a =>
    obtain ⟨addr, after⟩ := agree_effAddr h a
    rw [operand8, operand8, addr]
    exact agree_readByte after _

theorem agree_operand16 (src : Src16) : (operand16 src σ).1 = (operand16 src υ).1 ∧ Agree (operand16 src σ).2 (operand16 src υ).2 := by
  cases src with
  | imm n => exact ⟨rfl, h⟩
  | mem a =>
    obtain ⟨addr, after⟩ := agree_effAddr h a
    rw [operand16, operand16, addr]
    exact agree_readWord after _

/-! ### The shapes of the instructions -/

theorem agree_accBinary (f : Byte → Byte → CC → Byte × CC) (r : Acc) (src : Src8) : Agree (accBinary f r src σ) (accBinary f r src υ) := by
  obtain ⟨value, after⟩ := agree_operand8 h src
  simp only [accBinary, value, after.acc r, after.cc]
  exact agree_setAcc (agree_setCc after _) _ _

theorem agree_accBinaryUndef (f : Bool → Byte → Byte → CC → Byte × CC) (r : Acc) (src : Src8) :
    Agree (accBinaryUndef f r src σ) (accBinaryUndef f r src υ) := by
  obtain ⟨value, after⟩ := agree_operand8 h src
  have drawn := agree_countDraw after
  simp only [accBinaryUndef, drawFlag, value, after.draws, drawn.acc r, drawn.cc]
  exact agree_setAcc (agree_setCc drawn _) _ _

theorem agree_accTest (f : Byte → Byte → CC → Byte × CC) (r : Acc) (src : Src8) : Agree (accTest f r src σ) (accTest f r src υ) := by
  obtain ⟨value, after⟩ := agree_operand8 h src
  simp only [accTest, value, after.acc r, after.cc]
  exact agree_setCc after _

theorem agree_accCompare (r : Acc) (src : Src8) : Agree (accCompare r src σ) (accCompare r src υ) := by
  obtain ⟨value, after⟩ := agree_operand8 h src
  have drawn := agree_countDraw after
  simp only [accCompare, drawFlag, value, after.draws, drawn.acc r, drawn.cc]
  exact agree_setCc drawn _

theorem agree_storeAcc (r : Acc) (a : Addr) : Agree (storeAcc r a σ) (storeAcc r a υ) := by
  obtain ⟨addr, after⟩ := agree_effAddr h a
  simp only [storeAcc, addr, after.acc r, after.cc]
  exact agree_writeByte (agree_setCc after _) _ _

theorem agree_writeBack (a : Addr) (drawn : Bool) (res : Byte × CC) : Agree (writeBack a drawn res σ) (writeBack a drawn res υ) := by
  obtain ⟨addr, -⟩ := agree_effAddr h a
  obtain ⟨-, after⟩ := agree_operand8 h (.mem a)
  rw [writeBack, writeBack, addr]
  exact agree_writeByte (agree_vmaCycles (agree_setCc (agree_doIf after drawn fun k => agree_countDraw k) _) 1) _ _

theorem agree_rmwMem (f : Byte → CC → Byte × CC) (a : Addr) : Agree (rmwMem f a σ) (rmwMem f a υ) := by
  obtain ⟨value, -⟩ := agree_operand8 h (.mem a)
  rw [rmwMem_eq_writeBack, rmwMem_eq_writeBack, value, h.cc]
  exact agree_writeBack h a _ _

theorem agree_rmwMemUndef (f : Bool → Byte → CC → Byte × CC) (a : Addr) : Agree (rmwMemUndef f a σ) (rmwMemUndef f a υ) := by
  obtain ⟨value, -⟩ := agree_operand8 h (.mem a)
  rw [rmwMemUndef_eq_writeBack, rmwMemUndef_eq_writeBack, value, h.cc, h.draws]
  exact agree_writeBack h a _ _

theorem agree_rmwAcc (f : Byte → CC → Byte × CC) (r : Acc) : Agree (rmwAcc f r σ) (rmwAcc f r υ) := by
  simp only [rmwAcc, h.acc r, h.cc]
  exact agree_setAcc (agree_setCc h _) _ _

theorem agree_rmwAccUndef (f : Bool → Byte → CC → Byte × CC) (r : Acc) : Agree (rmwAccUndef f r σ) (rmwAccUndef f r υ) := by
  have drawn := agree_countDraw h
  simp only [rmwAccUndef, drawFlag, h.draws, drawn.acc r, drawn.cc]
  exact agree_setAcc (agree_setCc drawn _) _ _

theorem agree_testMem (a : Addr) : Agree (testMem a σ) (testMem a υ) := by
  obtain ⟨value, after⟩ := agree_operand8 h (.mem a)
  have flags : tst8 (operand8 (.mem a) σ).1 (operand8 (.mem a) σ).2.cc = tst8 (operand8 (.mem a) υ).1 (operand8 (.mem a) υ).2.cc := by
    rw [value, after.cc]
  show Agree (setCc (tst8 (operand8 (.mem a) σ).1 (operand8 (.mem a) σ).2.cc) (operand8 (.mem a) σ).2) _
  rw [flags]
  exact agree_setCc after _

theorem agree_testAcc (r : Acc) : Agree (testAcc r σ) (testAcc r υ) := by
  rw [testAcc, testAcc, h.acc, h.cc]
  exact agree_setCc h _

theorem agree_load16 (r : Reg16) (src : Src16) : Agree (load16 r src σ) (load16 r src υ) := by
  obtain ⟨value, after⟩ := agree_operand16 h src
  simp only [load16, value, after.cc]
  exact agree_writeReg16 (agree_setCc after _) _ _

theorem agree_store16 (r : Reg16) (a : Addr) : Agree (store16 r a σ) (store16 r a υ) := by
  obtain ⟨addr, after⟩ := agree_effAddr h a
  simp only [store16, addr, after.readReg16 r, after.cc]
  exact agree_writeWord (agree_setCc after _) _ _

theorem agree_compare16 (r : Reg16) (src : Src16) : Agree (compare16 r src σ) (compare16 r src υ) := by
  obtain ⟨value, after⟩ := agree_operand16 h src
  have drawn := agree_countDraw after
  simp only [compare16, drawFlag, value, after.draws, drawn.readReg16 r, drawn.cc]
  exact agree_setCc drawn _

theorem agree_branch (c : Cond) (off : Word) : Agree (branch c off σ) (branch c off υ) := by
  rw [branch, branch, h.cc, h.pc]
  split
  · exact agree_setPc h _
  · exact h

theorem agree_call (target : Word) : Agree (call target σ) (call target υ) := by
  rw [call, call, h.pc]
  exact agree_setPc (agree_push16 h _ _) _

theorem agree_transfer (src dst : Reg) {τ : State} (e : transfer src dst σ = some τ) :
    ∃ ω, transfer src dst υ = some ω ∧ Agree τ ω := by
  rcases src with r | r <;> rcases dst with t | t <;> cases e
  · exact ⟨_, rfl, h.readReg16 r ▸ agree_writeReg16 h t _⟩
  · exact ⟨_, rfl, h.readReg8 r ▸ agree_writeReg8 h t _⟩

theorem agree_exchange (src dst : Reg) {τ : State} (e : exchange src dst σ = some τ) :
    ∃ ω, exchange src dst υ = some ω ∧ Agree τ ω := by
  rcases src with r | r <;> rcases dst with t | t <;> cases e
  · rw [h.readReg16 r, h.readReg16 t]
    exact ⟨_, rfl, agree_writeReg16 (agree_writeReg16 h _ _) _ _⟩
  · rw [h.readReg8 r, h.readReg8 t]
    exact ⟨_, rfl, agree_writeReg8 (agree_writeReg8 h _ _) _ _⟩

/-! ### Every instruction -/

/-- States that agree run an instruction to states that agree. -/
theorem agree_exec {i : Instr} {τ : State} (runs : exec i σ = .next τ) : ∃ ω, exec i υ = .next ω ∧ Agree τ ω := by
  cases i with
  | adca src | adcb src | adda src | addb src | anda src | andb src | eora src | eorb src | lda src | ldb src | ora src
  | orb src => cases runs; exact ⟨_, rfl, agree_accBinary h _ _ src⟩
  | sbca src | sbcb src | suba src | subb src => cases runs; exact ⟨_, rfl, agree_accBinaryUndef h _ _ src⟩
  | bita src | bitb src => cases runs; exact ⟨_, rfl, agree_accTest h _ _ src⟩
  | cmpa src | cmpb src => cases runs; exact ⟨_, rfl, agree_accCompare h _ src⟩
  | sta a | stb a => cases runs; exact ⟨_, rfl, agree_storeAcc h _ a⟩
  | asl a | asr a | neg a => cases runs; exact ⟨_, rfl, agree_rmwMemUndef h _ a⟩
  | clr a | com a | dec a | inc a | lsr a | rol a | ror a => cases runs; exact ⟨_, rfl, agree_rmwMem h _ a⟩
  | asla | aslb | asra | asrb | nega | negb | daa => cases runs; exact ⟨_, rfl, agree_rmwAccUndef h _ _⟩
  | clra | clrb | coma | comb | deca | decb | inca | incb | lsra | lsrb | rola | rolb | rora | rorb =>
    cases runs; exact ⟨_, rfl, agree_rmwAcc h _ _⟩
  | tst a => cases runs; exact ⟨_, rfl, agree_testMem h a⟩
  | tsta | tstb => cases runs; exact ⟨_, rfl, agree_testAcc h _⟩
  | mul => cases runs; exact ⟨_, rfl, agree_update (f := fun τ => setD (mul8 τ.a τ.b τ.cc).1 (setCc (mul8 τ.a τ.b τ.cc).2 τ)) h
      (fun _ => rfl) fun _ => rfl⟩
  | sex => cases runs; exact ⟨_, rfl, agree_update (f := fun τ => setAcc .a (sex8 τ.b τ.cc).1 (setCc (sex8 τ.b τ.cc).2 τ)) h
      (fun _ => rfl) fun _ => rfl⟩
  | abx => cases runs; exact ⟨_, rfl, agree_update (f := fun τ => setPtr .x (τ.x + zext8 τ.b) τ) h (fun _ => rfl) fun _ => rfl⟩
  | addd src =>
    obtain ⟨value, after⟩ := agree_operand16 h src
    simp only [exec, execAddd, value, after.dReg, after.cc, Host.Outcome.next.injEq, exists_eq_left'] at runs ⊢
    exact runs ▸ agree_setD (agree_setCc after _) _
  | subd src =>
    obtain ⟨value, after⟩ := agree_operand16 h src
    have drawn := agree_countDraw after
    simp only [exec, execSubd, drawFlag, value, after.draws, drawn.dReg, drawn.cc, Host.Outcome.next.injEq, exists_eq_left'] at runs ⊢
    exact runs ▸ agree_setD (agree_setCc drawn _) _
  | cmpd src | cmps src | cmpu src | cmpx src | cmpy src => cases runs; exact ⟨_, rfl, agree_compare16 h _ src⟩
  | ldd src | ldu src | ldx src | ldy src => cases runs; exact ⟨_, rfl, agree_load16 h _ src⟩
  | lds src => cases runs; exact ⟨_, rfl, agree_armNmiIf (agree_load16 h .s src) true⟩
  | std a | sts a | stu a | stx a | sty a => cases runs; exact ⟨_, rfl, agree_store16 h _ a⟩
  | leau i =>
    obtain ⟨addr, after⟩ := agree_idxAddr h i
    simp only [exec, execLeau, addr, Host.Outcome.next.injEq, exists_eq_left'] at runs ⊢
    exact runs ▸ agree_setPtr after _ _
  | leas i =>
    obtain ⟨addr, after⟩ := agree_idxAddr h i
    simp only [exec, execLeas, addr, Host.Outcome.next.injEq, exists_eq_left'] at runs ⊢
    exact runs ▸ agree_armNmiIf (agree_setPtr after _ _) _
  | leax i | leay i =>
    obtain ⟨addr, after⟩ := agree_idxAddr h i
    simp only [exec, execLeax, execLeay, addr, after.cc, Host.Outcome.next.injEq, exists_eq_left'] at runs ⊢
    exact runs ▸ agree_setPtr (agree_setCc after _) _ _
  | exg src dst =>
    cases e : exchange src dst σ with
    | none => simp only [exec, execExg, e, reduceCtorEq] at runs
    | some ω =>
      obtain ⟨ω', e', after⟩ := agree_exchange h src dst e
      simp only [exec, execExg, e, e', Host.Outcome.next.injEq, exists_eq_left'] at runs ⊢
      exact runs ▸ agree_armNmiIf after _
  | tfr src dst =>
    cases e : transfer src dst σ with
    | none => simp only [exec, execTfr, e, reduceCtorEq] at runs
    | some ω =>
      obtain ⟨ω', e', after⟩ := agree_transfer h src dst e
      simp only [exec, execTfr, e, e', Host.Outcome.next.injEq, exists_eq_left'] at runs ⊢
      exact runs ▸ agree_armNmiIf after _
  | pshs mask | pshu mask => cases runs; exact ⟨_, rfl, agree_pushRegs h _ mask⟩
  | puls mask => cases runs; exact ⟨_, rfl, agree_pullRegs h .s mask⟩
  | pulu mask => cases runs; exact ⟨_, rfl, agree_armNmiIf (agree_pullRegs h .u mask) _⟩
  | bra off | brn off | bhi off | bls off | bcc off | bcs off | bne off | beq off | bvc off | bvs off | bpl off | bmi off
  | bge off | blt off | bgt off | ble off | lbra off | lbrn off | lbhi off | lbls off | lbcc off | lbcs off | lbne off
  | lbeq off | lbvc off | lbvs off | lbpl off | lbmi off | lbge off | lblt off | lbgt off | lble off =>
    cases runs; exact ⟨_, rfl, agree_branch h _ _⟩
  | bsr off | lbsr off => cases runs; exact ⟨_, rfl, h.pc ▸ agree_call h _⟩
  | jsr a =>
    obtain ⟨addr, after⟩ := agree_effAddr h a
    simp only [exec, execJsr, addr, Host.Outcome.next.injEq, exists_eq_left'] at runs ⊢
    exact runs ▸ agree_call after _
  | jmp a =>
    obtain ⟨addr, after⟩ := agree_effAddr h a
    simp only [exec, execJmp, addr, Host.Outcome.next.injEq, exists_eq_left'] at runs ⊢
    exact runs ▸ agree_setPc after _
  | rts => cases runs; exact ⟨_, rfl, agree_pullInto16 h .s fun v _ _ k => agree_setPc k v⟩
  | rti => cases runs; exact ⟨_, rfl, agree_returnFromInterrupt h⟩
  | andcc n | orcc n => cases runs; exact ⟨_, rfl, h.cc ▸ agree_setCc h _⟩
  | nop => cases runs; exact ⟨_, rfl, h⟩
  | swi | swi2 | swi3 => cases runs; exact ⟨_, rfl, agree_takeException h _⟩
  | cwai n => cases runs; exact ⟨_, rfl, h.cc ▸ agree_setRun (agree_pushEntireState (agree_setCc h _)) _⟩
  | sync => cases runs; exact ⟨_, rfl, agree_setRun h _⟩

end Accesses

/-- Settles O57: the states with and without granted cycles agree, so what the instruction leaves of them does. -/
theorem grantsWithoutWritesChangeNoOutcome : Obligations.GrantsWithoutWritesChangeNoOutcome := by
  intro i σ τ cs none runs
  obtain ⟨υ, runs', agree⟩ := agree_exec (agree_start σ none) runs
  exact ⟨υ, runs', eq_of_agree agree⟩

end Sys2Proof.Proofs
end
